-- ==== Sys2Proof/Word.lean ====
section
/-!
DEFINITION. Word.lean: the word types of the machine and their plainest arithmetic (spec 01, R2 to R5).
-/
namespace Sys2Proof

/-- A 32-bit instruction word, extension word or lane register. -/
abbrev Word := BitVec 32
/-- A 64-bit uniform register or address. -/
abbrev Dword := BitVec 64
/-- A register name of a 7-bit field (R41, R42). -/
abbrev Name := BitVec 7
/-- One 128-byte logical line, byte k in bits 8k + 7 to 8k (R18). -/
abbrev Line := BitVec 1024
/-- One bit per byte of a line (R172). -/
abbrev Mask := BitVec 128

end Sys2Proof
end

