-- ==== Sys2Proof/Syntax.lean ====
section
/-!
DEFINITION. Syntax.lean: the instruction words and the events of the machine, one constructor of `Instr` for
each row of spec/opcode_table.json.

A word carries its frame (`Hdr`: switch marker, scope, guard, extension bit) and its typed operands. A row that is
no word is an event, what another agent of the device does (spec 95); its arguments are what comes from outside.
-/
namespace Sys2Proof

/-- R30: lane scope of a P-word and sub-warp scope of a G-word are one code, `own`. -/
inductive Scope where
  | own | warp | set | block
  deriving DecidableEq, Repr

/-- What every word carries: S (R29), X (R28), the scope and set number (R30, R34), the guard (R35). -/
structure Hdr where
  s : Bool
  x : Bool
  scope : Scope
  set : BitVec 8
  gn : Bool
  gp : BitVec 3
  deriving DecidableEq, Repr

/-- The A operand of a P-word: a lane register, or under U a name of the G-word namespace (R37). -/
inductive ASrc where
  | lane (n : Name)
  | uni (n : Name)
  deriving DecidableEq, Repr

/-- The B operand: a register, or the payload immediate (R99, R154). -/
inductive BSrc where
  | reg (n : Name)
  | imm (v : BitVec 20)
  deriving DecidableEq, Repr

/-- The W field of R98. -/
inductive IntTy where
  | i32 | n32 | i64 | n64
  deriving DecidableEq, Repr

/-- R57. -/
inductive Rm where
  | rne | rz | ru | rd | sr
  deriving DecidableEq, Repr

/-- R56, and the slot tags INT4 and META of R263. -/
inductive Ty where
  | b32 | b64 | i8 | i16 | i32 | i64 | n8 | n16 | n32 | n64
  | f32 | f16 | bf16 | e4m3 | e5m2 | e2m3 | e3m2 | e2m1 | tap8 | tap6 | mxi8 | int4 | mdat
  deriving DecidableEq, Repr

/-- R109. -/
inductive BitOp where
  | pop | clz | ctz | brev
  deriving DecidableEq, Repr

/-- R121, R156. -/
inductive Cc where
  | eq | ne | lt | le | gt | ge
  deriving DecidableEq, Repr

/-- R122. -/
inductive FCc where
  | eq | ne | lt | le | gt | ge | num | nan
  deriving DecidableEq, Repr

/-- R113. -/
inductive ClassFmt where
  | f32 | f16 | bf16
  deriving DecidableEq, Repr

/-- The seed operand of stochastic rounding (R114): `%seed`, or a uniform register. -/
inductive Seed where
  | launch
  | reg (n : BitVec 6)
  deriving DecidableEq, Repr

/-- R124: the three forms of PLOP. -/
inductive Plop where
  | lut (d a b c : BitVec 3) (lut : BitVec 8)
  | toReg (d : Name)
  | fromReg (a : ASrc) (mask : BitVec 7)
  deriving DecidableEq, Repr

/-- R108: position and length from a register or from the payload. -/
inductive BfxSrc where
  | reg (n : Name)
  | imm (pos : BitVec 5) (len : BitVec 6)
  deriving DecidableEq, Repr

/-- R149. -/
inductive ShflMode where
  | sel | ahead (edge : Bool) | behind (edge : Bool) | pair | rev
  deriving DecidableEq, Repr

/-- R149: segment width. -/
inductive SegW where
  | w32 | w16 | w8 | w4
  deriving DecidableEq, Repr

/-- R149: B is a register or a five-bit immediate. -/
inductive ShflB where
  | reg (n : Name)
  | imm (v : BitVec 5)
  deriving DecidableEq, Repr

/-- R150. -/
inductive VoteMode where
  | all | any | uni | mask | cnt | first
  deriving DecidableEq, Repr

/-- R152. -/
inductive RedOp where
  | add (n : Bool) | min (n : Bool) | max (n : Bool) | and | or | xor
  | fadd (rm : Rm) | fmin (nanp : Bool) | fmax (nanp : Bool)
  deriving DecidableEq, Repr

/-- R179. -/
inductive Size where
  | b32 | b64 | b128 | n8 | i8 | n16 | i16
  deriving DecidableEq, Repr

/-- R179: cache hints. -/
inductive Hint where
  | none | nl1 | ef
  deriving DecidableEq, Repr

/-- R179, R185: block, cluster, device, system. -/
inductive Msc where
  | b | cl | dv | sy
  deriving DecidableEq, Repr

/-- R158, R203, R236: the release and acquire flags. -/
inductive Sem where
  | none | rel | acq | ar
  deriving DecidableEq, Repr

/-- R204. -/
inductive AtomOp where
  | add | min | max | and | or | xor | xchg | cas | inc | dec | fadd | fmin | fmax
  deriving DecidableEq, Repr

/-- R203: the TY field. -/
inductive AtomTy where
  | i32 | n32 | i64 | n64 | f32 | b32 | b64
  deriving DecidableEq, Repr

/-- R203: what an atomic word says beside its registers. -/
structure AtomSpec where
  op : AtomOp
  ty : AtomTy
  sp : Bool
  sem : Sem
  msc : Msc
  off : BitVec 15
  deriving DecidableEq, Repr

/-- R209, R255. -/
inductive WaitCond where
  | eq | ne | geu | ges | any
  deriving DecidableEq, Repr

/-- R154. -/
inductive SaluOp where
  | add | sub | mul | mulh | min | max | and | or | xor | shl | shr | andn
  deriving DecidableEq, Repr

/-- R157. -/
inductive SbraMode where
  | each | any | all
  deriving DecidableEq, Repr

/-- R147. -/
inductive GmembQ where
  | mask | index | count | live
  deriving DecidableEq, Repr

/-- R160: the 64-bit reduction of BAND. -/
inductive BandRed where
  | add | min | max | and | or | xor
  deriving DecidableEq, Repr

/-- R160. -/
inductive BandOp where
  | sync | red (op : BandRed) (n64 : Bool) | bcast (k : BitVec 3)
  deriving DecidableEq, Repr

/-- R256 without .CLR, which is a row of its own. -/
inductive TstatQ where
  | seq | state | stage
  deriving DecidableEq, Repr

/-- R289. -/
inductive MstatQ where
  | queue | slot | own | free
  deriving DecidableEq, Repr

/-- R281: elements kept of each group of eight. -/
inductive SpPat where
  | p4 | p2 | p1
  deriving DecidableEq, Repr

/-- The valid count operand: sB under .VC (R236, R273, R355). -/
inductive Vc where
  | all
  | reg (n : Name)
  deriving DecidableEq, Repr

/-- A block of a launch: its launch ID and its logical block number (R14, R384). -/
structure BlockId where
  lid : BitVec 32
  blk : Nat
  deriving DecidableEq, Repr

/-- A warp of a block, by its number within the block (R14). -/
structure WarpId where
  block : BlockId
  warp : Nat
  deriving DecidableEq, Repr

/-- What a read of HBM finds (R438). -/
inductive Ecc where
  | ok | corrected | uncorrectable
  deriving DecidableEq, Repr

/-- The units whose correctable events are counted (R441). -/
inductive EvUnit where
  | channel (n : Nat) | laneGroup (n : Nat) | engine (n : Nat) | lane (port lane : Nat) | port (n : Nat)
  deriving DecidableEq, Repr

/-- The rows of R441's table, in its order. -/
inductive EvKind where
  | hbmCorrectable | hbmUncorrectable | timingReplay | hopCrc | endToEnd
  deriving DecidableEq, Repr

/-- What a remote memory transaction asks of its home device (R193, R432, R433). -/
inductive RemoteOp where
  | load (n : Nat)
  | store (bytes : List (BitVec 8))
  | atomic (op : AtomOp) (ty : AtomTy) (b cmp : Dword)
  | publish
  deriving DecidableEq, Repr

/-- A remote transaction: its source device, cluster, warp number there and sequence number, the logical address, the
operation, and whether its CRC-32C matched (R433). -/
structure RemoteTx where
  src : Nat
  cluster : Nat
  warp : Nat
  seq : Nat
  addr : Nat
  op : RemoteOp
  crcOk : Bool
  deriving DecidableEq, Repr

/-- TDISP requests as R421 uses them. -/
inductive TdispReq where
  | lock | start | stop | error
  deriving DecidableEq, Repr

/-- A record of the replica stream as the peer receives it (R342): a publish of some lines (`missing`: a segment it names has
not arrived), the `n`-th cairn record of an epoch, or a rollback, with the epoch of its cairn and the ranges. -/
inductive ReplicaRec where
  | publish (epoch : Nat) (lines : List (Nat × BitVec 1024 × Bool × BitVec 14)) (missing : Bool)
  | cairn (epoch n : Nat) (k : Nat) (record : BitVec 1024)
  | rollback (epoch : Nat) (k mask c : Nat) (ranges : List (Nat × Nat))
  deriving DecidableEq, Repr

/-- The unit that failed in phase 1 (R444, DEVSTAT [23:8]). -/
structure FailUnit where
  cls : BitVec 8
  num : BitVec 8
  deriving DecidableEq, Repr

/-- The rows of spec/opcode_table.json: the instruction words, then the events. -/
inductive Instr where
  -- R101, R102
  | iadd (h : Hdr) (t : IntTy) (sat : Bool) (d : Name) (a : ASrc) (b : BSrc)
  | isub (h : Hdr) (t : IntTy) (sat : Bool) (d : Name) (a : ASrc) (b : BSrc)
  | imul (h : Hdr) (t : IntTy) (d : Name) (a : ASrc) (b : BSrc)
  | imulh (h : Hdr) (uns : Bool) (d : Name) (a : ASrc) (b : BSrc)
  -- R103
  | imad (h : Hdr) (uns : Bool) (d : Name) (a : ASrc) (b c : Name)
  | imadw (h : Hdr) (uns : Bool) (d : Name) (a : ASrc) (b c : Name)
  | imin (h : Hdr) (t : IntTy) (d : Name) (a : ASrc) (b : BSrc)
  | imax (h : Hdr) (t : IntTy) (d : Name) (a : ASrc) (b : BSrc)
  | iabsd (h : Hdr) (t : IntTy) (d : Name) (a : ASrc) (b : BSrc)
  | idiv (h : Hdr) (uns : Bool) (d : Name) (a : ASrc) (b : BSrc)
  | irem (h : Hdr) (uns : Bool) (d : Name) (a : ASrc) (b : BSrc)
  -- R104, R105
  | lea (h : Hdr) (uns : Bool) (d : Name) (a : ASrc) (b : Name) (sh : BitVec 3)
  | mov (h : Hdr) (w64 : Bool) (d : Name) (a : ASrc)
  | movi (h : Hdr) (t : IntTy) (d : Name) (imm : BitVec 20)
  | movhi (h : Hdr) (d : Name) (a : ASrc) (imm : BitVec 20)
  | idot4 (h : Hdr) (an bn sat : Bool) (d : Name) (a : ASrc) (b c : Name)
  -- R106 to R109
  | and (h : Hdr) (w64 notb : Bool) (d : Name) (a : ASrc) (b : BSrc)
  | or (h : Hdr) (w64 notb : Bool) (d : Name) (a : ASrc) (b : BSrc)
  | xor (h : Hdr) (w64 notb : Bool) (d : Name) (a : ASrc) (b : BSrc)
  | lop3 (h : Hdr) (w64 : Bool) (d : Name) (a : ASrc) (b c : Name) (h1 h0 : BitVec 4)
  | shl (h : Hdr) (w64 : Bool) (d : Name) (a : ASrc) (b : BSrc)
  | shr (h : Hdr) (t : IntTy) (d : Name) (a : ASrc) (b : BSrc)
  | bfx (h : Hdr) (uns : Bool) (d : Name) (a : ASrc) (b : BfxSrc)
  | bcnt (h : Hdr) (op : BitOp) (w64 : Bool) (d : Name) (a : ASrc)
  -- R110 to R113
  | fadd (h : Hdr) (rm : Rm) (na nb : Bool) (d : Name) (a : ASrc) (b : BSrc)
  | fmul (h : Hdr) (rm : Rm) (na nb : Bool) (d : Name) (a : ASrc) (b : BSrc)
  | ffma (h : Hdr) (rm : Rm) (na nc : Bool) (d : Name) (a : ASrc) (b c : Name)
  | fmin (h : Hdr) (nanp na nb : Bool) (d : Name) (a : ASrc) (b : BSrc)
  | fmax (h : Hdr) (nanp na nb : Bool) (d : Name) (a : ASrc) (b : BSrc)
  | frcp (h : Hdr) (rm : Rm) (d : Name) (a : ASrc)
  | frsq (h : Hdr) (rm : Rm) (d : Name) (a : ASrc)
  | fsqrt (h : Hdr) (rm : Rm) (d : Name) (a : ASrc)
  | fex2 (h : Hdr) (d : Name) (a : ASrc)
  | flg2 (h : Hdr) (d : Name) (a : ASrc)
  | fsin (h : Hdr) (d : Name) (a : ASrc)
  | fcos (h : Hdr) (d : Name) (a : ASrc)
  | hfma2 (h : Hdr) (swb bf : Bool) (nc na : Bool) (rm : Rm) (d : Name) (a : ASrc) (b c : Name)
  | fclass (h : Hdr) (fmt : ClassFmt) (d : Name) (a : ASrc)
  -- R114 to R120
  | cvtf (h : Hdr) (dt st : Ty) (rm : Rm) (seed : Seed) (d : Name) (a : ASrc)
  | cvti (h : Hdr) (dt st : Ty) (rm : Rm) (d : Name) (a : ASrc)
  | pack (h : Hdr) (dt : Ty) (k : BitVec 2) (rm : Rm) (seed : Seed) (d : Name) (a : ASrc) (b : Name)
  | unpack (h : Hdr) (st : Ty) (k : BitVec 3) (d : Name) (a : ASrc) (sc : Option Name)
  | qscale (h : Hdr) (dt : Ty) (rm : Rm) (seed : Seed) (d : Name) (a : ASrc) (enc : Option Name)
  | frnd (h : Hdr) (rm : Rm) (d : Name) (a : ASrc)
  -- R121 to R124
  | icmp (h : Hdr) (cc : Cc) (t : IntTy) (p : BitVec 3) (a : ASrc) (b : BSrc)
  | fcmp (h : Hdr) (cc : FCc) (p : BitVec 3) (a : ASrc) (b : BSrc)
  | sel (h : Hdr) (w64 : Bool) (p : BitVec 3) (neg : Bool) (d : Name) (a : ASrc) (b : Name)
  | plop (h : Hdr) (f : Plop)
  -- R149 to R152
  | shfl (h : Hdr) (mode : ShflMode) (w : SegW) (d : Name) (a : ASrc) (b : ShflB)
  | vote (h : Hdr) (mode : VoteMode) (neg : Bool) (d : Name) (p : BitVec 3)
  | prmt (h : Hdr) (sel : BitVec 16) (d : Name) (a : ASrc) (b : Name)
  | xred (h : Hdr) (op : RedOp) (d : Name) (a : ASrc)
  -- R179
  | ld (h : Hdr) (st : Bool) (size : Size) (sem : Sem) (msc : Msc) (hint : Hint) (d : Name) (a : ASrc) (off : BitVec 20)
  | st (h : Hdr) (st : Bool) (size : Size) (sem : Sem) (msc : Msc) (hint : Hint) (d : Name) (a : ASrc) (off : BitVec 20)
  | lds (h : Hdr) (st : Bool) (size : Size) (sem : Sem) (msc : Msc) (d : Name) (a : ASrc) (off : BitVec 20)
  | sts (h : Hdr) (st : Bool) (size : Size) (sem : Sem) (msc : Msc) (d : Name) (a : ASrc) (off : BitVec 20)
  -- R203, R211, R181
  | atom (h : Hdr) (k : AtomSpec) (d : Name) (a : ASrc) (b : Name)
  | red (h : Hdr) (k : AtomSpec) (a : ASrc) (b : Name)
  | txb (h : Hdr) (d : Name) (off : BitVec 20)
  | txe (h : Hdr)
  | txa (h : Hdr) (code : BitVec 8)
  | txq (h : Hdr) (d : Name)
  | fence (h : Hdr) (sem : Sem) (msc : Msc)
  -- R133, R134, R209
  | bra (h : Hdr) (off : BitVec 20)
  | brx (h : Hdr) (a : ASrc)
  | call (h : Hdr) (d : Name) (off : BitVec 20)
  | ret (h : Hdr) (a : ASrc)
  | nop (h : Hdr)
  | meet (h : Hdr) (off : BitVec 20)
  | meetsv (h : Hdr) (d : Name)
  | meetld (h : Hdr) (a : ASrc)
  | exit (h : Hdr)
  | yield (h : Hdr)
  | trap (h : Hdr) (code : BitVec 16)
  | bkpt (h : Hdr) (code : BitVec 16)
  | waita (h : Hdr) (cond : WaitCond) (sp acq : Bool) (msc : Msc) (tmo : BitVec 4) (d a b : Name)
  -- R154 to R157
  | salu (h : Hdr) (op : SaluOp) (n64 : Bool) (d a : Name) (b : BSrc)
  | smov (h : Hdr) (d a : Name)
  | smovI (h : Hdr) (d : Name) (imm : BitVec 20)
  | smovCat (h : Hdr) (d a : Name) (imm : BitVec 20)
  | smovGtos (h : Hdr) (d : Name)
  | smovStog (h : Hdr) (a : Name)
  | smovRdl (h : Hdr) (d a : Name) (k : BitVec 5)
  | scmp (h : Hdr) (cc : Cc) (n64 : Bool) (g a : Name) (b : BSrc)
  | sbra (h : Hdr) (mode : SbraMode) (off : BitVec 20)
  -- R182, R208
  | sld (h : Hdr) (b32 st sp : Bool) (sem : Sem) (msc : Msc) (d a : Name) (off : BitVec 20)
  | sst (h : Hdr) (b32 st sp : Bool) (sem : Sem) (msc : Msc) (d a : Name) (off : BitVec 20)
  | satom (h : Hdr) (k : AtomSpec) (d a b : Name)
  -- R376
  | csrr (h : Hdr) (d : Name) (n : BitVec 12)
  | csrw (h : Hdr) (n : BitVec 12) (a : Name)
  -- R158, R159, R146, R152, R147, R161, R160, R225
  | bar (h : Hdr) (sem : Sem) (msc : Msc)
  | elect (h : Hdr) (p : BitVec 3) (sa : Option Name)
  | wmovTol (h : Hdr) (d w : Name)
  | wmovFroml (h : Hdr) (w a : Name)
  | wred (h : Hdr) (op : RedOp) (d a : Name)
  | gmemb (h : Hdr) (q : GmembQ) (d : Name) (n : BitVec 8)
  | grow (h : Hdr) (g : Option Name) (n : BitVec 7)
  | band (h : Hdr) (op : BandOp) (d a : Name)
  | sflush (h : Hdr)
  -- R236 to R259
  | tcopy (h : Hdr) (sem : Sem) (msc : Msc) (vc : Vc) (d a : Name) (q : BitVec 4)
  | tstore (h : Hdr) (sem : Sem) (msc : Msc) (vc : Vc) (d a : Name) (q : BitVec 4)
  | ring (h : Hdr) (sem : Sem) (msc : Msc) (d a : Name)
  | twait (h : Hdr) (cond : WaitCond) (acq : Bool) (msc : Msc) (tmo : BitVec 2) (d a b : Name) (off : BitVec 20)
  | tfill (h : Hdr) (sem : Sem) (msc : Msc) (d a : Name) (q : BitVec 4)
  | tstat (h : Hdr) (q : TstatQ) (d : Name) (n : BitVec 5)
  | tstatClr (h : Hdr) (d : Name) (n : BitVec 5)
  -- R183
  | prefCc (h : Hdr) (a b : Name) (off : BitVec 20)
  | prefL1 (h : Hdr) (a b : Name) (off : BitVec 20)
  | prefIx (h : Hdr) (a b : Name) (off : BitVec 20)
  | cctlL1inv (h : Hdr)
  | cctlFxinv (h : Hdr) (a b : Name)
  | cctlAppend (h : Hdr)
  -- R267 to R289
  | mclaim (h : Hdr) (acc : Bool) (d : Name) (n : BitVec 8)
  | mrel (h : Hdr) (acc : Bool) (d a : Name) (n : BitVec 8)
  | mload (h : Hdr) (sem : Sem) (msc : Msc) (vc : Vc) (sp : Bool) (d a : Name) (q : BitVec 6)
  | mma (h : Hdr) (vc : Vc) (z : Bool) (d a : Name) (q : BitVec 6)
  | mmasp (h : Hdr) (pat : SpPat) (vc : Vc) (z : Bool) (d a : Name) (q : BitVec 6)
  | mzero (h : Hdr) (d a : Name) (q : BitVec 6)
  | mstore (h : Hdr) (sem : Sem) (msc : Msc) (vc : Vc) (sp : Bool) (d a : Name) (q : BitVec 6)
  | mwait (h : Hdr) (acq : Bool) (msc : Msc) (tmo : BitVec 2) (d : Name) (q : BitVec 6) (b : Name)
  | mstat (h : Hdr) (q : MstatQ) (d a : Name)
  | mcvt (h : Hdr) (vc : Vc) (d a : Name) (q : BitVec 6)
  | mqcfgAlloc (h : Hdr) (d : Name)
  | mqcfgFree (h : Hdr) (d a : Name)
  | mqcfgClr (h : Hdr) (d a : Name)
  -- R301 to R308
  | lbind (h : Hdr) (d a b : Name)
  | mmad (h : Hdr) (vc : Vc) (f : Bool) (d a : Name) (q : BitVec 6)
  | lrefForce (h : Hdr) (d a : Name)
  | lrefDrop (h : Hdr) (d a : Name)
  | lrefQuery (h : Hdr) (d a : Name)
  | lwatchAdd (h : Hdr) (d a b : Name)
  | lwatchDel (h : Hdr) (d a : Name)
  | lwatchGen (h : Hdr) (d a : Name)
  -- R325 to R345
  | snapTake (h : Hdr) (d a b : Name)
  | snapRd (h : Hdr) (d : Name) (g : BitVec 3) (a b : Name)
  | snapQuery (h : Hdr) (d a : Name)
  | sndrop (h : Hdr) (d a : Name)
  | rollb (h : Hdr) (d a b : Name)
  | publ (h : Hdr) (d : Name)
  | publWait (h : Hdr) (acq : Bool) (d a : Name)
  | publSeal (h : Hdr) (d : Name)
  | shipCfg (h : Hdr) (d a : Name) (r : BitVec 2)
  | shipStart (h : Hdr) (d : Name) (r : BitVec 2)
  | shipStop (h : Hdr) (d : Name) (r : BitVec 2)
  | shipStat (h : Hdr) (d : Name) (r : BitVec 2)
  | shipAccept (h : Hdr) (d a : Name)
  | shipPromote (h : Hdr) (d : Name)
  -- R183
  | ixctlQuery (h : Hdr) (d a : Name) (off : BitVec 20)
  | ixctlDrop (h : Hdr) (a b : Name)
  | ixctlUnhome (h : Hdr) (a : Name) (off : BitVec 20)
  -- R348 to R372
  | nbarm (h : Hdr) (d a b : Name)
  | nbdisarm (h : Hdr) (d a : Name)
  | nbload (h : Hdr) (vc : Vc) (d a : Name)
  | nbstrm (h : Hdr) (vc : Vc) (acc : Bool) (d a : Name)
  | nbdrain (h : Hdr) (rel : Bool) (msc : Msc) (d a : Name)
  | nbdrainClr (h : Hdr) (d : Name)
  | nbop (h : Hdr) (sem : Sem) (msc : Msc) (vc : Vc) (d a : Name)
  | trav (h : Hdr) (sem : Sem) (msc : Msc) (d a : Name)
  | travqCount (h : Hdr) (d : Name)
  | travqCancel (h : Hdr) (d a : Name)
  -- R377 to R409, R417
  | launch (h : Hdr) (d a : Name)
  | mboxCfg (h : Hdr) (d a b : Name)
  | mboxPost (h : Hdr) (d a b : Name)
  | mboxOpen (h : Hdr) (d a b : Name)
  | ctxsvWrite (h : Hdr) (d a b : Name)
  | ctxsvRead (h : Hdr) (d a b : Name)
  | ctxsvResume (h : Hdr) (d a : Name)
  | ctxsvKill (h : Hdr) (d a : Name)
  | preemptCtx (h : Hdr) (d a : Name)
  | preemptLaunch (h : Hdr) (d a : Name)
  | preemptBlock (h : Hdr) (d a b : Name)
  | preemptResume (h : Hdr) (d a : Name)
  | tret (h : Hdr)
  | tretExit (h : Hdr)
  | clk (h : Hdr) (d : Name)
  | clkCyc (h : Hdr) (d : Name)
  | fltqDone (h : Hdr) (d a : Name)
  | fltqFail (h : Hdr) (d a b : Name)
  | fltqStat (h : Hdr) (d a : Name)
  | tlbiAll (h : Hdr) (d : Name)
  | tlbiCtx (h : Hdr) (d a : Name)
  | tlbiRange (h : Hdr) (d a b : Name)
  | keyctlLoad (h : Hdr) (d a b : Name)
  | keyctlBind (h : Hdr) (d a b : Name)
  | keyctlErase (h : Hdr) (d a : Name)
  | keyctlQuery (h : Hdr) (d a : Name)
  | dbgAttach (h : Hdr) (d a : Name)
  | dbgDetach (h : Hdr) (d a : Name)
  | dbgStop (h : Hdr) (d a b : Name)
  | dbgResume (h : Hdr) (d a b : Name)
  | dbgRdreg (h : Hdr) (d a : Name)
  | dbgWrreg (h : Hdr) (d a b : Name)
  | dbgStat (h : Hdr) (d a b : Name)
  -- R376, R444, R446: CSRW to the registers whose write does more than store a value
  | tmaskWrite (h : Hdr) (a : Name)
  | tpendWrite (h : Hdr) (a : Name)
  | mextWrite (h : Hdr) (a : Name)
  | colcmdWrite (h : Hdr) (a : Name)
  | errinjWrite (h : Hdr) (a : Name)
  -- Events that the model's own order raises (log entry 1, DESIGN CHOICE)
  -- memory (R22, R23, R205, R175)
  | loadDataReturn (w : WarpId) (i : Nat) (ecc : Ecc)
  | storeAcknowledge (w : WarpId) (ecc : Ecc)
  | atomicResultReturn (w : WarpId) (i : Nat) (ecc : Ecc)
  | publishInstall (cluster : Nat)
  | publishTableStallTimeout (cluster : Nat)
  | talusCleanStart (engine seg : Nat)
  | segmentRetireComplete (seg : Nat)
  -- blocks, warps and waits
  | warpEnd (w : WarpId)
  | blockEnd (b : BlockId)
  | scopeMismatchDetect (b : BlockId)
  | growGrant (core : Nat)
  | growDeadlockResolve (core : Nat)
  | evictedWarpRestore (core : Nat)
  | waitaCheck (w : WarpId) (lane : Nat)
  | waitaTimeout (w : WarpId) (lane : Nat)
  | twaitWake (w : WarpId)
  | twaitTimeout (w : WarpId)
  | mwaitWake (w : WarpId)
  | mwaitTimeout (w : WarpId)
  | flushPointAllWaiting (b : BlockId)
  | drainErrorDelivery (w : WarpId)
  | detStallTrap (w : WarpId)
  | detPreemptWatchdog (w : WarpId)
  | saveTmaskTimeout (b : BlockId)
  | engineTrapDelivery (w : WarpId)
  | faultPostDeferred (ctx : Nat)
  | swapOut (b : BlockId)
  | blockSave (b : BlockId)
  | blockRestore (b : BlockId)
  | checkpointComplete (b : BlockId)
  | dataErrorConsumed (w : WarpId)
  -- engines
  | copyGranuleTransfer (core : Nat)
  | copyCommandComplete (b : BlockId) (q : Nat)
  | tileTask (cluster : Nat)
  | massifGranuleTransfer (cluster q : Nat)
  | matrixCommandComplete (cluster q : Nat)
  | mrelWaitComplete (w : WarpId)
  | nearMemoryCommandComplete (b : BlockId) (ecc : Ecc)
  | nbdisarmWaitComplete (w : WarpId)
  | walkStart (b : BlockId) (wid : Nat)
  | walkLoadReturn (b : BlockId) (wid : Nat) (ecc : Ecc)
  | walkRule (b : BlockId) (wid : Nat)
  -- log and replicas
  | rollbComplete (cairn : Nat)
  | segmentShip (seg : Nat)
  | replicaBaseCopyComplete (slot : Nat)
  -- Events of the host, the fabric and the ports, and events without operands
  -- bring-up and host (R420 to R428)
  | deviceReset
  | phase1Entry
  | phase2Entry (fail : Option FailUnit)
  | barAccess (fn : Nat) (off : Nat) (n : Nat) (write : Option (List (BitVec 8)))
  | ideKm (stream : Nat) (vf : Nat) (session : Nat)
  | getVersion (req : List (BitVec 8))
  | getCapabilities (req : List (BitVec 8))
  | negotiateAlgorithms (req : List (BitVec 8))
  | getDigests (req : List (BitVec 8))
  | getCertificate (req : List (BitVec 8))
  | challenge (req : List (BitVec 8))
  | getMeasurements (req : List (BitVec 8))
  | keyExchange (req : List (BitVec 8))
  | finish (session : Nat) (req : List (BitVec 8))
  | keyUpdate (session : Nat) (req : List (BitVec 8))
  | heartbeat (session : Nat)
  | endSession (session : Nat)
  | heartbeatLoss (session : Nat)
  | lifetimeRecordRead
  | lifetimeRecordWrite
  -- fabric (R430 to R437)
  | remoteTransactionArrive (t : RemoteTx)
  | nakReplay (port : Nat)
  | ackTimeoutReplay (port : Nat)
  | laneDrop (port lane : Nat)
  | laneDegradeRetrain (port : Nat)
  | collectiveComplete (status : BitVec 8) (others : List (Nat × List (BitVec 8)))
  | collectiveTimeout
  -- memory (R22, R23, R205, R175)
  | replicaAgeLimit (cluster slot : Nat)
  -- reliability and power (R438 to R443)
  | patrolRead (addr : Nat) (ecc : Ecc)
  | eventWindowExpiry (kind : EvKind)
  | timingReplay (unit : EvUnit)
  | powerControlStep (watts : Nat) (islands : List Nat)
  | thermalThrottle (die : Nat)
  | thermalTrip (die : Nat)
  | dieBridgeLost
  -- blocks, warps and waits
  | blockStart
  | deviceRecordPost
  -- log and replicas
  | replicaRecordApply (r : ReplicaRec)
  | replicaPeerTimeout (slot : Nat)
  -- ports and interfaces
  | flitReceive (port : Nat) (crcOk : Bool) (lane : Nat)
  | tdispMessage (vf : Nat) (req : TdispReq)
  | appliedEpochReport (slot : Nat) (epoch : Nat)
  | dieCools (die : Nat)
  deriving DecidableEq, Repr

end Sys2Proof
end

