-- ==== Sys2Proof/WellFormed.lean ====
section
/-!
DEFINITION. WellFormed.lean: which instruction terms are instructions: register classes and alignments (R41 to R46,
R179, R206), the scopes each entry permits, and the value limits of the entries.
-/
namespace Sys2Proof

/-- A register operand of a word as checks 8 to 11 of R50 see it: `lane n c` is c consecutive lane registers from n. -/
inductive Opnd where
  | lane (n : Name) (count : Nat)
  | uni (n : Name)
  | s (n : Name)
  | sEven (n : Name)
  | sSpecial (n : Name)
  | w (n : Name)
  | g (n : Name)
  deriving DecidableEq, Repr

/-- Check 8 of R50: the name is of the class the field asks for (R42, R46). -/
def Opnd.classOk : Opnd → Bool
  | .lane _ _ => true
  | .uni n => n.toNat < 64 || (96 ≤ n.toNat && n.toNat ≤ 121)
  | .s n | .sEven n => n.toNat < 64
  | .sSpecial n => n.toNat < 64 || (97 ≤ n.toNat && n.toNat ≤ 121)
  | .w n => 64 ≤ n.toNat && n.toNat < 80
  | .g n => 80 ≤ n.toNat && n.toNat < 88

/-- Check 9 of R50: pairs and quads are aligned (R43, R179, R206, R208). -/
def Opnd.alignOk : Opnd → Bool
  | .lane n c => n.toNat % c == 0
  | .sEven n => n.toNat % 2 == 0
  | _ => true

/-- R100: Wd(W). -/
def IntTy.width : IntTy → Nat
  | .i32 | .n32 => 32
  | .i64 | .n64 => 64

def IntTy.signed : IntTy → Bool
  | .i32 | .i64 => true
  | .n32 | .n64 => false

def IntTy.regs (t : IntTy) : Nat := t.width / 32

/-- R56: width in bits. -/
def Ty.width : Ty → Nat
  | .b32 | .i32 | .n32 | .f32 => 32
  | .b64 | .i64 | .n64 => 64
  | .i16 | .n16 | .f16 | .bf16 => 16
  | .i8 | .n8 | .e4m3 | .e5m2 | .tap8 | .mxi8 | .mdat => 8
  | .e2m3 | .e3m2 | .tap6 => 6
  | .e2m1 | .int4 => 4

def Ty.regs (t : Ty) : Nat := if t.width = 64 then 2 else 1

/-- Codes 0x02 to 0x09. -/
def Ty.isInt : Ty → Bool
  | .i8 | .i16 | .i32 | .i64 | .n8 | .n16 | .n32 | .n64 => true
  | _ => false

/-- Codes 0x10 to 0x1A. -/
def Ty.isFloat : Ty → Bool
  | .f32 | .f16 | .bf16 | .e4m3 | .e5m2 | .e2m3 | .e3m2 | .e2m1 | .tap8 | .tap6 | .mxi8 => true
  | _ => false

/-- R77: the formats that take block scales. -/
def Ty.isScaled : Ty → Bool
  | .e4m3 | .e5m2 | .e2m3 | .e3m2 | .e2m1 | .mxi8 => true
  | _ => false

/-- R71: the type codes that E1 reserves. -/
def Ty.isTapered : Ty → Bool
  | .tap8 | .tap6 => true
  | _ => false

def Size.bytes : Size → Nat
  | .b32 => 4 | .b64 => 8 | .b128 => 16 | .n8 | .i8 => 1 | .n16 | .i16 => 2

def Size.regs : Size → Nat
  | .b64 => 2 | .b128 => 4 | _ => 1

def AtomTy.regs : AtomTy → Nat
  | .i64 | .n64 | .b64 => 2
  | _ => 1

def AtomTy.signed : AtomTy → Bool
  | .i32 | .i64 => true
  | _ => false

/-- R204: the types each operation permits. -/
def AtomOp.permits : AtomOp → AtomTy → Bool
  | .add, t | .min, t | .max, t => t == .i32 || t == .n32 || t == .i64 || t == .n64
  | .and, t | .or, t | .xor, t | .xchg, t | .cas, t => t == .b32 || t == .b64
  | .inc, t | .dec, t => t == .n32 || t == .n64
  | .fadd, t | .fmin, t | .fmax, t => t == .f32

/-- R117: the range of K for each destination of PACK; 0 for a type PACK does not permit. -/
def Ty.packSlots : Ty → Nat
  | .f16 | .bf16 | .i16 | .n16 => 1
  | .e4m3 | .e5m2 | .tap8 | .mxi8 | .i8 | .n8 | .e2m3 | .e3m2 | .tap6 => 2
  | .e2m1 => 4
  | _ => 0

/-- R118: the range of K for each source of UNPACK; 0 for a type UNPACK does not permit. -/
def Ty.unpackSlots : Ty → Nat
  | .f16 | .bf16 | .i16 | .n16 => 2
  | .e4m3 | .e5m2 | .tap8 | .mxi8 | .i8 | .n8 | .e2m3 | .e3m2 | .tap6 => 4
  | .e2m1 => 8
  | _ => 0

def ASrc.opnd (a : ASrc) (count : Nat) : Opnd :=
  match a with
  | .lane n => .lane n count
  | .uni n => .uni n

def BSrc.lane (b : BSrc) (count : Nat) : List Opnd :=
  match b with
  | .reg n => [.lane n count]
  | .imm _ => []

def BSrc.unif : BSrc → List Opnd
  | .reg n => [.s n]
  | .imm _ => []

def Vc.opnds : Vc → List Opnd
  | .all => []
  | .reg n => [.s n]

def optLane : Option Name → List Opnd
  | some n => [.lane n 1]
  | none => []

/-- R206: the operand field of an atomic; CAS names compare and swap together. -/
def AtomSpec.bRegs (k : AtomSpec) : Nat := if k.op = .cas then 2 * k.ty.regs else k.ty.regs

/-- The register operands of a word. -/
def Instr.opnds : Instr → List Opnd
  | .iadd _ t _ d a b | .isub _ t _ d a b => [.lane d t.regs, a.opnd t.regs] ++ b.lane t.regs
  | .imul _ t d a b | .imin _ t d a b | .imax _ t d a b | .iabsd _ t d a b =>
    [.lane d t.regs, a.opnd t.regs] ++ b.lane t.regs
  | .imulh _ _ d a b | .idiv _ _ d a b | .irem _ _ d a b => [.lane d 1, a.opnd 1] ++ b.lane 1
  | .imad _ _ d a b c | .idot4 _ _ _ _ d a b c => [.lane d 1, a.opnd 1, .lane b 1, .lane c 1]
  | .imadw _ _ d a b c => [.lane d 2, a.opnd 1, .lane b 1, .lane c 2]
  | .lea _ _ d a b _ => [.lane d 2, a.opnd 2, .lane b 1]
  | .mov _ w d a => let c := if w then 2 else 1; [.lane d c, a.opnd c]
  | .movi _ t d _ => [.lane d t.regs]
  | .movhi _ d a _ => [.lane d 1, a.opnd 1]
  | .and _ w _ d a b | .or _ w _ d a b | .xor _ w _ d a b =>
    let c := if w then 2 else 1; [.lane d c, a.opnd c] ++ b.lane c
  | .lop3 _ w d a b c _ _ => let k := if w then 2 else 1; [.lane d k, a.opnd k, .lane b k, .lane c k]
  | .shl _ w d a b => let c := if w then 2 else 1; [.lane d c, a.opnd c] ++ b.lane 1
  | .shr _ t d a b => [.lane d t.regs, a.opnd t.regs] ++ b.lane 1
  | .bfx _ _ d a b => [.lane d 1, a.opnd 1] ++ (match b with | .reg n => [.lane n 1] | .imm _ _ => [])
  | .bcnt _ op w d a =>
    let c := if w then 2 else 1; [.lane d (if op = .brev then c else 1), a.opnd c]
  | .fadd _ _ _ _ d a b | .fmul _ _ _ _ d a b | .fmin _ _ _ _ d a b | .fmax _ _ _ _ d a b =>
    [.lane d 1, a.opnd 1] ++ b.lane 1
  | .ffma _ _ _ _ d a b c | .hfma2 _ _ _ _ _ _ d a b c => [.lane d 1, a.opnd 1, .lane b 1, .lane c 1]
  | .frcp _ _ d a | .frsq _ _ d a | .fsqrt _ _ d a | .frnd _ _ d a | .fclass _ _ d a => [.lane d 1, a.opnd 1]
  | .fex2 _ d a | .flg2 _ d a | .fsin _ d a | .fcos _ d a => [.lane d 1, a.opnd 1]
  | .cvtf _ _ sty _ _ d a => [.lane d 1, a.opnd sty.regs]
  | .cvti _ dt sty _ d a => [.lane d dt.regs, a.opnd sty.regs]
  | .pack _ _ _ _ _ d a b => [.lane d 1, a.opnd 1, .lane b 1]
  | .unpack _ _ _ d a sc => [.lane d 1, a.opnd 1] ++ optLane sc
  | .qscale _ _ _ _ d a enc => [.lane d 1, a.opnd 1] ++ optLane enc
  | .icmp _ _ t _ a b => [a.opnd t.regs] ++ b.lane t.regs
  | .fcmp _ _ _ a b => [a.opnd 1] ++ b.lane 1
  | .sel _ w _ _ d a b => let c := if w then 2 else 1; [.lane d c, a.opnd c, .lane b c]
  | .plop _ (.lut ..) => []
  | .plop _ (.toReg d) => [.lane d 1]
  | .plop _ (.fromReg a _) => [a.opnd 1]
  | .shfl _ _ _ d a b => [.lane d 1, a.opnd 1] ++ (match b with | .reg n => [.lane n 1] | .imm _ => [])
  | .vote _ m _ d _ => match m with | .mask | .cnt | .first => [.lane d 1] | _ => []
  | .prmt _ _ d a b => [.lane d 1, a.opnd 1, .lane b 1]
  | .xred _ _ d a => [.lane d 1, a.opnd 1]
  | .ld _ _ z _ _ _ d a _ | .st _ _ z _ _ _ d a _ => [.lane d z.regs, a.opnd 2]
  | .lds _ _ z _ _ d a _ | .sts _ _ z _ _ d a _ => [.lane d z.regs, a.opnd 1]
  | .atom _ k d a b => [.lane d k.ty.regs, a.opnd (if k.sp then 1 else 2), .lane b k.bRegs]
  | .red _ k a b => [a.opnd (if k.sp then 1 else 2), .lane b k.bRegs]
  | .txb _ d _ | .txq _ d => [.lane d 1]
  | .brx _ a | .ret _ a | .meetld _ a => [a.opnd 2]
  | .call _ d _ | .meetsv _ d => [.lane d 2]
  | .waita _ _ sp _ _ _ d a b => [.lane d 1, .lane a (if sp then 1 else 2), .lane b 1]
  | .txe _ | .txa .. | .fence .. | .bra .. | .nop _ | .meet .. | .exit _ | .yield _ | .trap .. | .bkpt .. => []
  | .salu _ _ _ d a b => [.s d, .sSpecial a] ++ b.unif
  | .smov _ d a | .smovCat _ d a _ => [.s d, .sSpecial a]
  | .smovI _ d _ | .smovGtos _ d => [.s d]
  | .smovStog _ a => [.sSpecial a]
  | .smovRdl _ d a _ => [.s d, .lane a 1]
  | .scmp _ _ _ g a b => [.g g, .sSpecial a] ++ b.unif
  | .sbra .. | .bar .. | .sflush _ | .cctlL1inv _ | .cctlAppend _ | .tret _ | .tretExit _ => []
  | .sld _ _ _ _ _ _ d a _ | .sst _ _ _ _ _ _ d a _ => [.s d, .sSpecial a]
  | .satom _ k d a b => [.s d, .sSpecial a, if k.op = .cas then .sEven b else .s b]
  | .csrr _ d _ => [.s d]
  | .csrw _ _ a | .tmaskWrite _ a | .tpendWrite _ a | .mextWrite _ a | .colcmdWrite _ a | .errinjWrite _ a =>
    [.sSpecial a]
  | .elect _ _ sa => match sa with | some n => [.s n] | none => []
  | .wmovTol _ d w => [.lane d 1, .w w]
  | .wmovFroml _ w a => [.w w, .lane a 1]
  | .wred _ _ d a => [.s d, .lane a 1]
  | .gmemb _ _ d _ => [.s d]
  | .grow _ g _ => match g with | some n => [.g n] | none => []
  | .band _ op d a => match op with | .sync => [] | _ => [.s d, .s a]
  | .tcopy _ _ _ v d a _ | .tstore _ _ _ v d a _ => [.s d, .s a] ++ v.opnds
  | .ring _ _ _ d a | .tfill _ _ _ d a _ => [.s d, .s a]
  | .twait _ _ _ _ _ d a b _ => [.s d, .s a, .s b]
  | .tstat _ _ d _ | .tstatClr _ d _ => [.s d]
  | .prefCc _ a b _ | .prefL1 _ a b _ | .prefIx _ a b _ | .cctlFxinv _ a b | .ixctlDrop _ a b => [.s a, .s b]
  | .mclaim _ _ d _ | .mqcfgAlloc _ d => [.s d]
  | .mrel _ _ d a _ | .mzero _ d a _ | .mstat _ _ d a | .mqcfgFree _ d a | .mqcfgClr _ d a => [.s d, .s a]
  | .mload _ _ _ v _ d a _ | .mstore _ _ _ v _ d a _ | .mma _ v _ d a _ | .mmasp _ _ v _ d a _ | .mcvt _ v d a _
  | .mmad _ v _ d a _ => [.s d, .s a] ++ v.opnds
  | .mwait _ _ _ _ d _ b => [.s d, .s b]
  | .lbind _ d a b | .lwatchAdd _ d a b | .snapTake _ d a b | .snapRd _ d _ a b | .rollb _ d a b | .nbarm _ d a b
  | .mboxCfg _ d a b | .mboxPost _ d a b | .mboxOpen _ d a b | .ctxsvWrite _ d a b | .ctxsvRead _ d a b
  | .preemptBlock _ d a b | .fltqFail _ d a b | .tlbiRange _ d a b | .keyctlLoad _ d a b | .keyctlBind _ d a b
  | .dbgStop _ d a b | .dbgResume _ d a b | .dbgWrreg _ d a b | .dbgStat _ d a b => [.s d, .s a, .s b]
  | .lrefForce _ d a | .lrefDrop _ d a | .lrefQuery _ d a | .lwatchDel _ d a | .lwatchGen _ d a | .snapQuery _ d a
  | .sndrop _ d a | .publWait _ _ d a | .shipCfg _ d a _ | .shipAccept _ d a | .ixctlQuery _ d a _ | .nbdisarm _ d a
  | .nbdrain _ _ _ d a | .trav _ _ _ d a | .travqCancel _ d a | .launch _ d a | .ctxsvResume _ d a | .ctxsvKill _ d a
  | .preemptCtx _ d a | .preemptLaunch _ d a | .preemptResume _ d a | .fltqDone _ d a | .fltqStat _ d a
  | .tlbiCtx _ d a | .keyctlErase _ d a | .keyctlQuery _ d a | .dbgAttach _ d a | .dbgDetach _ d a
  | .dbgRdreg _ d a => [.s d, .s a]
  | .publ _ d | .publSeal _ d | .shipStart _ d _ | .shipStop _ d _ | .shipStat _ d _ | .shipPromote _ d
  | .nbdrainClr _ d | .travqCount _ d | .clk _ d | .clkCyc _ d | .tlbiAll _ d => [.s d]
  | .ixctlUnhome _ a _ => [.s a]
  | .nbload _ v d a | .nbstrm _ v _ d a | .nbop _ _ _ v d a => [.s d, .s a] ++ v.opnds
  | _ => []

/-- The frame of a word; none for an event. -/
def Instr.hdr? : Instr → Option Hdr
  | .iadd h .. | .isub h .. | .imul h .. | .imulh h .. | .imad h .. | .imadw h .. | .imin h .. | .imax h ..
  | .iabsd h .. | .idiv h .. | .irem h .. | .lea h .. | .mov h .. | .movi h .. | .movhi h .. | .idot4 h ..
  | .and h .. | .or h .. | .xor h .. | .lop3 h .. | .shl h .. | .shr h .. | .bfx h .. | .bcnt h ..
  | .fadd h .. | .fmul h .. | .ffma h .. | .fmin h .. | .fmax h .. | .frcp h .. | .frsq h .. | .fsqrt h ..
  | .fex2 h .. | .flg2 h .. | .fsin h .. | .fcos h .. | .hfma2 h .. | .fclass h .. | .cvtf h .. | .cvti h ..
  | .pack h .. | .unpack h .. | .qscale h .. | .frnd h .. | .icmp h .. | .fcmp h .. | .sel h .. | .plop h ..
  | .shfl h .. | .vote h .. | .prmt h .. | .xred h .. | .ld h .. | .st h .. | .lds h .. | .sts h ..
  | .atom h .. | .red h .. | .txb h .. | .txe h | .txa h .. | .txq h .. | .fence h .. | .bra h .. | .brx h ..
  | .call h .. | .ret h .. | .nop h | .meet h .. | .meetsv h .. | .meetld h .. | .exit h | .yield h | .trap h ..
  | .bkpt h .. | .waita h .. | .salu h .. | .smov h .. | .smovI h .. | .smovCat h .. | .smovGtos h ..
  | .smovStog h .. | .smovRdl h .. | .scmp h .. | .sbra h .. | .sld h .. | .sst h .. | .satom h .. | .csrr h ..
  | .csrw h .. | .bar h .. | .elect h .. | .wmovTol h .. | .wmovFroml h .. | .wred h .. | .gmemb h .. | .grow h ..
  | .band h .. | .sflush h | .tcopy h .. | .tstore h .. | .ring h .. | .twait h .. | .tfill h .. | .tstat h ..
  | .tstatClr h .. | .prefCc h .. | .prefL1 h .. | .prefIx h .. | .cctlL1inv h | .cctlFxinv h .. | .cctlAppend h
  | .mclaim h .. | .mrel h .. | .mload h .. | .mma h .. | .mmasp h .. | .mzero h .. | .mstore h .. | .mwait h ..
  | .mstat h .. | .mcvt h .. | .mqcfgAlloc h .. | .mqcfgFree h .. | .mqcfgClr h .. | .lbind h .. | .mmad h ..
  | .lrefForce h .. | .lrefDrop h .. | .lrefQuery h .. | .lwatchAdd h .. | .lwatchDel h .. | .lwatchGen h ..
  | .snapTake h .. | .snapRd h .. | .snapQuery h .. | .sndrop h .. | .rollb h .. | .publ h .. | .publWait h ..
  | .publSeal h .. | .shipCfg h .. | .shipStart h .. | .shipStop h .. | .shipStat h .. | .shipAccept h ..
  | .shipPromote h .. | .ixctlQuery h .. | .ixctlDrop h .. | .ixctlUnhome h .. | .nbarm h .. | .nbdisarm h ..
  | .nbload h .. | .nbstrm h .. | .nbdrain h .. | .nbdrainClr h .. | .nbop h .. | .trav h .. | .travqCount h ..
  | .travqCancel h .. | .launch h .. | .mboxCfg h .. | .mboxPost h .. | .mboxOpen h .. | .ctxsvWrite h ..
  | .ctxsvRead h .. | .ctxsvResume h .. | .ctxsvKill h .. | .preemptCtx h .. | .preemptLaunch h ..
  | .preemptBlock h .. | .preemptResume h .. | .tret h | .tretExit h | .clk h .. | .clkCyc h .. | .fltqDone h ..
  | .fltqFail h .. | .fltqStat h .. | .tlbiAll h .. | .tlbiCtx h .. | .tlbiRange h .. | .keyctlLoad h ..
  | .keyctlBind h .. | .keyctlErase h .. | .keyctlQuery h .. | .dbgAttach h .. | .dbgDetach h .. | .dbgStop h ..
  | .dbgResume h .. | .dbgRdreg h .. | .dbgWrreg h .. | .dbgStat h .. | .tmaskWrite h .. | .tpendWrite h ..
  | .mextWrite h .. | .colcmdWrite h .. | .errinjWrite h .. => some h
  | _ => none

def allScopes : List Scope := [.own, .warp, .set, .block]

/-- The scopes an entry permits (check 5 of R50). -/
def Instr.scopes : Instr → List Scope
  | .shfl .. => [.own, .warp]
  | .vote _ m .. => match m with | .mask | .first => [.own, .warp] | _ => allScopes
  | .xred .. | .nop _ | .salu .. | .smov .. | .smovI .. | .smovGtos .. | .smovStog .. | .scmp .. | .sld .. | .sst ..
  | .elect .. | .wred .. | .sflush _ | .tcopy .. | .tstore .. | .twait .. | .tfill .. | .mclaim .. | .mrel ..
  | .mload .. | .mma .. | .mmasp .. | .mzero .. | .mstore .. | .mwait .. | .mcvt .. | .lbind .. | .mmad ..
  | .lrefForce .. | .lrefDrop .. | .lrefQuery .. | .snapTake .. | .snapRd .. | .snapQuery .. | .sndrop .. | .rollb ..
  | .publ .. | .publWait .. | .publSeal .. | .nbload .. | .nbstrm .. | .nbdrain .. | .nbop .. | .trav .. => allScopes
  | .sbra _ m _ => match m with | .each => allScopes | _ => [.warp, .set, .block]
  | .smovCat .. | .satom .. => [.own, .warp, .block]
  | .bar .. => [.warp, .set, .block]
  | .wmovTol .. | .wmovFroml .. => [.own, .warp, .set]
  | .grow .. => [.warp]
  | .band .. | .ring .. => [.set, .block]
  | _ => [.own]

/-- At set scope a signed immediate has 12 bits (R34). -/
def immFits (h : Hdr) (v : BitVec 20) : Bool :=
  h.scope != .set || ((v.setWidth 12).signExtend 20 == v)

def BSrc.fits (h : Hdr) : BSrc → Bool
  | .reg _ => true
  | .imm v => immFits h v

/-- Rounding codes 0 to 3. -/
def Rm.noSr : Rm → Bool
  | .sr => false
  | _ => true

def Seed.ok (rm : Rm) : Seed → Bool
  | .launch => true
  | .reg _ => rm == .sr

/-- R158, R179, R236: an ordering scope stands only beside an ordering flag. -/
def mscOk (sem : Sem) (msc : Msc) : Bool := sem != .none || msc == .b

/-- R203: the limits of an atomic word; `red` for RED, `off` permitted only with a uniform address. -/
def AtomSpec.ok (k : AtomSpec) (isRed uni : Bool) : Bool :=
  k.op.permits k.ty && (!k.sp || k.msc == .b) && (uni || k.off == 0)
    && (!isRed || (k.sem != .acq && k.sem != .ar && k.op != .xchg && k.op != .cas))

def ASrc.isUni : ASrc → Bool
  | .uni _ => true
  | .lane _ => false

/-- R179: the ordering flag of a load or store needs `.ST`, and is ACQ on a load and REL on a store. -/
def ldstOk (load st : Bool) (sem : Sem) (msc : Msc) : Bool :=
  mscOk sem msc && (sem == .none || (st && sem == (if load then Sem.acq else Sem.rel)))

def storeSizeOk : Size → Bool
  | .i8 | .i16 => false
  | _ => true

def Hint.storeOk : Hint → Bool
  | .nl1 => false
  | _ => true

/-- The control registers that CSRR and CSRW may name (R376, R444, R446). -/
def csrKnown (n : Nat) : Bool :=
  n ≤ 5 || (0x100 ≤ n && n ≤ 0x109) || n == 0x110 || n == 0x111 || n == 0x120 || (0x200 ≤ n && n ≤ 0x203)
  || (0x210 ≤ n && n ≤ 0x214) || n == 0x220 || n == 0x221 || (0x230 ≤ n && n ≤ 0x241) || n == 0x250 || n == 0x251

/-- The registers a CSRW may name: those of `csrKnown` that are not read-only. -/
def csrWritable (n : Nat) : Bool :=
  n == 0 || n == 4 || n == 5 || n == 0x100 || n == 0x101 || n == 0x102 || n == 0x104 || n == 0x109 || n == 0x110
  || n == 0x120 || n == 0x201 || n == 0x220 || n == 0x250

/-- The registers a CSRR may name: MEXT and COLCMD are write-only (R444). -/
def csrReadable (n : Nat) : Bool := csrKnown n && n != 0x201 && n != 0x250

/-- The value limits an entry sets on its typed fields (checks 4, 6 and 7 of R50, on the term). -/
def Instr.limits : Instr → Bool
  | .shl _ _ _ _ b | .shr _ _ _ _ b => match b with | .imm v => v.toNat < 256 | _ => true
  | .bfx _ _ _ _ b => match b with | .imm _ len => len.toNat ≤ 32 | _ => true
  | .fadd _ rm .. | .fmul _ rm .. | .ffma _ rm .. | .frcp _ rm .. | .frsq _ rm .. | .fsqrt _ rm .. | .frnd _ rm .. => rm.noSr
  | .hfma2 _ _ _ _ _ rm .. => rm.noSr
  | .cvtf _ dt sty rm seed .. => dt.isFloat && (sty.isFloat || sty.isInt) && seed.ok rm
  | .cvti _ dt sty rm .. => dt.isInt && (sty.isFloat || sty.isInt) && rm.noSr
  | .pack _ dt k rm seed .. =>
    k.toNat < dt.packSlots && seed.ok rm && (rm.noSr || (dt.isFloat && dt != .e2m1))
  | .unpack _ sty k _ _ sc => k.toNat < sty.unpackSlots && (sc.isNone || sty.isScaled)
  | .qscale _ dt rm seed _ _ enc => dt.isScaled && seed.ok rm && (enc.isSome || (rm == .rne && seed == .launch))
  | .shfl _ m _ _ _ b => m != .rev || b == .reg 0
  | .vote _ m _ d _ => match m with | .all | .any | .uni => d.toNat < 8 | _ => true
  | .xred _ op .. | .wred _ op .. => match op with | .fadd rm => rm.noSr | _ => true
  | .ld _ strong _ sem msc _ _ a off => ldstOk true strong sem msc && (a.isUni || off == 0)
  | .st _ strong z sem msc hint _ a off => ldstOk false strong sem msc && (a.isUni || off == 0) && storeSizeOk z && hint.storeOk
  | .lds _ strong _ sem msc _ a off => ldstOk true strong sem msc && (a.isUni || off == 0)
  | .sts _ strong z sem msc _ a off => ldstOk false strong sem msc && (a.isUni || off == 0) && storeSizeOk z
  | .atom _ k _ a _ => k.ok false a.isUni
  | .red _ k a _ => k.ok true a.isUni
  | .satom _ k .. => k.ok false true
  | .fence _ sem _ => sem != .none
  | .waita _ _ _ acq msc .. => acq || msc == .b
  | .salu h op n64 _ _ b =>
    b.fits h && (!n64 || op == .mulh || op == .min || op == .max || op == .shr)
  | .scmp h _ _ _ _ b => b.fits h
  | .smovI h _ v | .sbra h _ v => immFits h v
  | .sld h _ strong _ sem msc _ _ off => immFits h off && ldstOk true strong sem msc
  | .sst h _ strong _ sem msc _ _ off => immFits h off && ldstOk false strong sem msc
  | .twait h _ acq msc _ _ _ _ off => immFits h off && (acq || msc == .b)
  | .mwait _ acq msc .. => acq || msc == .b
  | .grow _ _ n => n.toNat % 8 == 0 && 8 ≤ n.toNat && n.toNat ≤ 112
  | .band _ op d a => match op with
    | .sync => d == 0 && a == 0
    | .red op n64 => !n64 || op == .min || op == .max
    | .bcast _ => true
  | .tcopy _ sem msc .. | .tstore _ sem msc .. | .mload _ sem msc .. | .mstore _ sem msc .. | .nbop _ sem msc ..
  | .trav _ sem msc .. => mscOk sem msc
  | .ring _ sem msc .. => mscOk sem msc && (msc == .b || msc == .cl)
  | .tfill _ sem msc .. => mscOk sem msc && (sem == .none || sem == .rel)
  | .nbdrain _ rel msc .. => rel || msc == .b
  | .tstat _ q _ n => n.toNat ≤ 16 && (q != .stage || n == 0)
  | .tstatClr _ _ n => n.toNat ≤ 16
  | .mclaim _ acc _ n | .mrel _ acc _ _ n => 1 ≤ n.toNat && n.toNat ≤ (if acc then 16 else 128)
  | .csrr _ _ n => csrReadable n.toNat
  | .csrw _ n _ => csrWritable n.toNat && n != 0x005 && n != 0x004 && n != 0x201 && n != 0x250 && n != 0x120
  | _ => true

/-- The set number stands only in a word of set scope (R34). -/
def Hdr.ok (h : Hdr) : Bool := h.scope == .set || h.set == 0

/-- A term that is an instruction word: its frame, scope, limits and register operands are in order. -/
def Instr.wellFormed (i : Instr) : Bool :=
  match i.hdr? with
  | none => false
  | some h => h.ok && i.scopes.contains h.scope && i.limits && i.opnds.all (fun o => o.classOk && o.alignOk)

end Sys2Proof
end

