-- ==== Sys2Proof/Machine/Numbers.lean ====
section
/-!
DEFINITION. Machine/Numbers.lean: the number formats and exact arithmetic of spec 03: decoding, rounding, overflow,
stochastic rounding, minimum and maximum, special functions, the accumulation step and the reduction tree.
-/
namespace Sys2Proof.Machine

/-! ### Exact values -/

/-- A decoded value: NaN, an infinity, or (−1)^neg × man × 2^exp. -/
inductive FV where
  | nan
  | inf (neg : Bool)
  | fin (neg : Bool) (man : Nat) (exp : Int)
  deriving DecidableEq, Repr

def FV.zero : FV := .fin false 0 0

def FV.isZero : FV → Bool
  | .fin _ 0 _ => true
  | _ => false

def FV.neg : FV → FV
  | .nan => .nan
  | .inf n => .inf (!n)
  | .fin n m e => .fin (!n) m e

def FV.sign : FV → Bool
  | .nan => false
  | .inf n => n
  | .fin n _ _ => n

/-- A value's number of significant bits. -/
def bitLen (n : Nat) : Nat := if n = 0 then 0 else Nat.log2 n + 1

/-- man × 2^(e − f) for f ≤ e. -/
def alignTo (man : Nat) (e f : Int) : Nat := man * 2 ^ (e - f).toNat

/-- R86: the exact sum; a zero sum of opposite signs is −0 under RD. -/
def FV.add (rd : Bool) : FV → FV → FV
  | .nan, _ | _, .nan => .nan
  | .inf a, .inf b => if a = b then .inf a else .nan
  | .inf a, _ => .inf a
  | _, .inf b => .inf b
  | .fin n1 m1 e1, .fin n2 m2 e2 =>
    let e := min e1 e2
    let a := alignTo m1 e1 e
    let b := alignTo m2 e2 e
    if n1 = n2 then .fin n1 (a + b) e
    else if a = b then .fin rd 0 e
    else if b < a then .fin n1 (a - b) e
    else .fin n2 (b - a) e

/-- R86: the exact product. -/
def FV.mul : FV → FV → FV
  | .nan, _ | _, .nan => .nan
  | .inf a, .inf b => .inf (a != b)
  | .inf a, .fin b m _ => if m = 0 then .nan else .inf (a != b)
  | .fin a m _, .inf b => if m = 0 then .nan else .inf (a != b)
  | .fin n1 m1 e1, .fin n2 m2 e2 => .fin (n1 != n2) (m1 * m2) (e1 + e2)

/-- R86, R110: a × b + c; 0 × ∞ is NaN whatever c is. -/
def FV.fma (rd : Bool) (a b c : FV) : FV := FV.add rd (FV.mul a b) c

/-- Compares magnitudes: m1 × 2^e1 < m2 × 2^e2. -/
def magLt (m1 : Nat) (e1 : Int) (m2 : Nat) (e2 : Int) : Bool :=
  let e := min e1 e2
  decide (alignTo m1 e1 e < alignTo m2 e2 e)

/-- The order of the reals with infinities; zeros equal. False when a NaN takes part. -/
def FV.lt : FV → FV → Bool
  | .nan, _ | _, .nan => false
  | .inf a, .inf b => a && !b
  | .inf a, _ => a
  | _, .inf b => !b
  | .fin n1 m1 e1, .fin n2 m2 e2 =>
    if m1 = 0 && m2 = 0 then false
    else match n1 && m1 != 0, n2 && m2 != 0 with
      | true, false => true
      | false, true => false
      | false, false => magLt m1 e1 m2 e2
      | true, true => magLt m2 e2 m1 e1

/-! ### Binary formats (R73) -/

/-- A binary format: exponent and mantissa widths, bias, code of the largest finite magnitude, whether it has
infinities, and its canonical NaN (R84), or what NaN converts to (R82). -/
structure Fmt where
  eb : Nat
  mb : Nat
  bias : Nat
  maxc : Nat
  hasInf : Bool
  nan : Nat

def fmtF32 : Fmt := { eb := 8, mb := 23, bias := 127, maxc := 0x7F7FFFFF, hasInf := true, nan := 0x7FC00000 }
def fmtF16 : Fmt := { eb := 5, mb := 10, bias := 15, maxc := 0x7BFF, hasInf := true, nan := 0x7E00 }
def fmtBf16 : Fmt := { eb := 8, mb := 7, bias := 127, maxc := 0x7F7F, hasInf := true, nan := 0x7FC0 }
def fmtE4m3 : Fmt := { eb := 4, mb := 3, bias := 7, maxc := 0x7E, hasInf := false, nan := 0x7F }
def fmtE5m2 : Fmt := { eb := 5, mb := 2, bias := 15, maxc := 0x7B, hasInf := true, nan := 0x7E }
def fmtE2m3 : Fmt := { eb := 2, mb := 3, bias := 1, maxc := 0x1F, hasInf := false, nan := 0 }
def fmtE3m2 : Fmt := { eb := 3, mb := 2, bias := 3, maxc := 0x1F, hasInf := false, nan := 0 }
def fmtE2m1 : Fmt := { eb := 2, mb := 1, bias := 1, maxc := 0x7, hasInf := false, nan := 0 }

def fmtOf : Ty → Option Fmt
  | .f32 => some fmtF32 | .f16 => some fmtF16 | .bf16 => some fmtBf16 | .e4m3 => some fmtE4m3 | .e5m2 => some fmtE5m2
  | .e2m3 => some fmtE2m3 | .e3m2 => some fmtE3m2 | .e2m1 => some fmtE2m1
  | _ => none

/-- The exponent of the subnormal unit. -/
def Fmt.minExp (f : Fmt) : Int := 1 - (f.bias : Int) - (f.mb : Int)

/-- R73: decodes a code. -/
def Fmt.dec (f : Fmt) (c : Nat) : FV :=
  let mag := c % 2 ^ (f.eb + f.mb)
  let neg := decide (c / 2 ^ (f.eb + f.mb) % 2 = 1)
  let e := mag / 2 ^ f.mb
  let m := mag % 2 ^ f.mb
  if f.hasInf && e = 2 ^ f.eb - 1 then (if m = 0 then .inf neg else .nan)
  else if f.eb = 4 && mag = 0x7F then .nan
  else if e = 0 then .fin neg m f.minExp
  else .fin neg (2 ^ f.mb + m) (f.minExp + (e : Int) - 1)

/-! ### Rounding (R80, R82, R83, R87) -/

/-- Rounds a magnitude (man × 2^exp, and a little more when `sticky`) to a multiple of 2^q: the multiple. -/
def roundMag (rm : Rm) (neg : Bool) (man : Nat) (exp : Int) (sticky : Bool) (q : Int) : Nat :=
  if q ≤ exp then
    let k := alignTo man exp q
    if sticky && ((rm == .ru && !neg) || (rm == .rd && neg)) then k + 1 else k
  else
    let d := (q - exp).toNat
    let k := man / 2 ^ d
    let r := man % 2 ^ d
    let half := 2 ^ (d - 1)
    let inexact := r != 0 || sticky
    let up := match rm with
      | .rne | .sr => half < r || (r == half && (sticky || k % 2 == 1))
      | .rz => false
      | .ru => inexact && !neg
      | .rd => inexact && neg
    if up then k + 1 else k

/-- R87: the 24 bits of the draw. -/
def srDraw (seed idx : BitVec 64) : Nat :=
  let z0 := seed ^^^ (idx * 0x9E3779B97F4A7C15#64)
  let z1 := (z0 ^^^ (z0 >>> 30)) * 0xBF58476D1CE4E5B9#64
  let z2 := (z1 ^^^ (z1 >>> 27)) * 0x94D049BB133111EB#64
  let z3 := z2 ^^^ (z2 >>> 31)
  (z3 >>> 40).toNat

/-- R87: the multiple of 2^q that stochastic rounding takes, by magnitude; the value is man × 2^exp. -/
def srMag (seed idx : BitVec 64) (neg : Bool) (man : Nat) (exp q : Int) : Nat :=
  if q ≤ exp then alignTo man exp q
  else
    let d := (q - exp).toNat
    let k := man / 2 ^ d
    let r := man % 2 ^ d
    if r = 0 then k else
    let t := (if neg then 2 ^ d - r else r) * 2 ^ 24 / 2 ^ d
    let hi := decide (srDraw seed idx < t)
    if hi != neg then k + 1 else k

/-- Seed and element index of a conversion under `.SR`. -/
structure Draw where
  seed : BitVec 64
  idx : BitVec 64

/-- The code of a rounded magnitude: multiple `k` of 2^q with q at or above the subnormal unit. -/
def Fmt.magCode (f : Fmt) (k : Nat) (q : Int) : Nat := (q - f.minExp).toNat * 2 ^ f.mb + k

def Fmt.signBit (f : Fmt) (neg : Bool) : Nat := if neg then 2 ^ (f.eb + f.mb) else 0

/-- R82: what a finite overflow gives. -/
def Fmt.overflow (f : Fmt) (rm : Rm) (neg : Bool) : Nat :=
  let infc := f.maxc + 1
  let toInf := match rm with
    | .rne | .sr => true
    | .rz => false
    | .ru => !neg
    | .rd => neg
  f.signBit neg + (if f.hasInf && toInf then infc else f.maxc)

/-- The unit of the precision that a magnitude has in the format. -/
def Fmt.unit (f : Fmt) (man : Nat) (exp : Int) : Int :=
  max ((bitLen man : Int) - 1 + exp - (f.mb : Int)) f.minExp

/-- Code(v, F, m) of a finite magnitude with a sticky tail (R80, R82, R87). -/
def Fmt.encFin (f : Fmt) (rm : Rm) (dr : Option Draw) (neg : Bool) (man : Nat) (exp : Int) (sticky : Bool) : Nat :=
  let q := f.unit man exp
  let maxLt := match f.dec f.maxc with | .fin _ m e => magLt m e man exp | _ => false
  let k := match rm, dr with
    | .sr, some d => if maxLt then roundMag .rne neg man exp sticky q else srMag d.seed d.idx neg man exp q
    | _, _ => roundMag rm neg man exp sticky q
  let c := f.magCode k q
  if f.maxc < c then f.overflow rm neg else f.signBit neg + c

/-- Code(v, F, m) (R82, R84). -/
def Fmt.enc (f : Fmt) (rm : Rm) (dr : Option Draw) : FV → Nat
  | .nan => f.nan
  | .inf n => if f.hasInf then f.signBit n + f.maxc + 1 else f.signBit n + f.maxc
  | .fin n m e => if m = 0 then f.signBit n else f.encFin rm dr n m e false

/-! ### Tapered formats (R75, R76) -/

/-- The run of bits equal to `one` from bit i − 1 down. -/
def runLen (v : Nat) (one : Bool) : Nat → Nat
  | 0 => 0
  | i + 1 => if v.testBit i = one then runLen v one i + 1 else 0

/-- The magnitude of a nonzero tapered code of `n` bits. -/
def tapMag (n es v : Nat) : Nat × Int :=
  let one := v.testBit (n - 1)
  let j := runLen v one n
  let k : Int := if one then (j : Int) - 1 else -(j : Int)
  let left := n - j - 1
  let rest := v % 2 ^ left
  let fb := left - es
  let e := if es ≤ left then rest / 2 ^ fb else 0
  let f := if es ≤ left then rest % 2 ^ fb else 0
  (2 ^ fb + f, k * 2 ^ es + (e : Int) - (fb : Int))

def tapDec (n es c : Nat) : FV :=
  let v := c % 2 ^ n
  let neg := c.testBit n
  if v = 0 then (if neg then .nan else FV.zero)
  else let (m, e) := tapMag n es v; .fin neg m e

/-- The greatest code whose magnitude is at most man × 2^exp, from `c` down. -/
def tapBelow (n es man : Nat) (exp : Int) : Nat → Nat
  | 0 => 0
  | c + 1 => let (m, e) := tapMag n es (c + 1); if magLt man exp m e then tapBelow n es man exp c else c + 1

/-- R75, R80, R82, R87: the code of a finite nonzero magnitude. -/
def tapEncFin (n es : Nat) (rm : Rm) (dr : Option Draw) (neg : Bool) (man : Nat) (exp : Int) : Nat :=
  let top := 2 ^ n - 1
  let lo := tapBelow n es man exp top
  let mag (c : Nat) : Nat × Int := if c = 0 then (0, exp) else tapMag n es c
  let (lm, le) := mag lo
  let hiUp : Bool :=
    if lo = top then false
    else
      let (hm, he) := mag (lo + 1)
      let e := min (min le he) exp - 1
      let l := alignTo lm le e
      let u := alignTo hm he e
      let x := alignTo man exp e
      if x = l then false
      else match rm, dr with
        | .sr, some d =>
          let t := (if neg then u - x else x - l) * 2 ^ 24 / (u - l)
          decide (srDraw d.seed d.idx < t) != neg
        | .rz, _ => false
        | .ru, _ => !neg
        | .rd, _ => neg
        | _, _ => decide (l + u < 2 * x) || (l + u == 2 * x && lo % 2 == 1)
  let c := if hiUp then lo + 1 else lo
  if c = 0 then 0 else c + (if neg then 2 ^ n else 0)

def tapEnc (n es : Nat) (rm : Rm) (dr : Option Draw) : FV → Nat
  | .nan | .inf _ => 2 ^ n
  | .fin neg m e => if m = 0 then 0 else tapEncFin n es rm dr neg m e

/-! ### Integers and MXINT8 (R74, R83) -/

def satInt (lo hi t : Int) : Int := if t < lo then lo else if hi < t then hi else t

/-- A rounded finite value as an integer. -/
def FV.toInt (rm : Rm) (dr : Option Draw) (v : FV) (lo hi : Int) : Int :=
  match v with
  | .nan => 0
  | .inf n => if n then lo else hi
  | .fin n m e =>
    let k := match rm, dr with
      | .sr, some d => if magLt hi.toNat 0 m e then roundMag .rne n m e false 0 else srMag d.seed d.idx n m e 0
      | _, _ => roundMag rm n m e false 0
    satInt lo hi (if n then -(k : Int) else (k : Int))

/-- R74, R82, R83: the MXINT8 code. -/
def mxEnc (rm : Rm) (dr : Option Draw) (v : FV) : Nat :=
  let scaled := match v with | .fin n m e => FV.fin n m (e + 6) | x => x
  let t := scaled.toInt rm dr (-127) 127
  (BitVec.ofInt 8 t).toNat

def intFV (t : Int) (e : Int) : FV := .fin (decide (t < 0)) t.natAbs e

def mxDec (c : Nat) : FV := intFV (BitVec.ofNat 8 c).toInt (-6)

/-! ### Every type (R56, R100) -/

/-- lo(n, sg) and hi(n, sg) (R100). -/
def intLo (n : Nat) (sg : Bool) : Int := if sg then -(2 ^ (n - 1) : Nat) else 0
def intHi (n : Nat) (sg : Bool) : Int := if sg then (2 ^ (n - 1) : Nat) - 1 else (2 ^ n : Nat) - 1

/-- Val(x, n, sg) (R100). -/
def intVal (x n : Nat) (sg : Bool) : Int :=
  let v := x % 2 ^ n
  if sg && decide (2 ^ (n - 1) ≤ v) then (v : Int) - (2 ^ n : Nat) else v

def isSigned (t : Ty) : Bool := match t with | .i8 | .i16 | .i32 | .i64 | .int4 => true | _ => false

/-- Dec(c, T) (R100). -/
def decTy (t : Ty) (c : Nat) : FV :=
  match fmtOf t with
  | some f => f.dec c
  | none => match t with
    | .tap8 => tapDec 7 1 c
    | .tap6 => tapDec 5 0 c
    | .mxi8 => mxDec c
    | t => intFV (intVal c t.width (isSigned t)) 0

/-- Code(v, T, m) of a floating-point type (R100). -/
def encTy (t : Ty) (rm : Rm) (dr : Option Draw) (v : FV) : Nat :=
  match fmtOf t with
  | some f => f.enc rm dr v
  | none => match t with
    | .tap8 => tapEnc 7 1 rm dr v
    | .tap6 => tapEnc 5 0 rm dr v
    | .mxi8 => mxEnc rm dr v
    | _ => 0

/-- R78: emax of a scaled type. -/
def emaxOf : Ty → Int
  | .e4m3 => 8 | .e5m2 => 15 | .e2m3 => 2 | .e3m2 => 4 | .e2m1 => 2 | _ => 0

/-- floor(log2 |v|) of a finite nonzero value. -/
def floorLog2 (m : Nat) (e : Int) : Int := (bitLen m : Int) - 1 + e

/-- R119, R78 step 2: the scale candidate of one value. -/
def scaleCode (t : Ty) : FV → Nat
  | .nan | .inf _ => 0xFF
  | .fin _ m e => if m = 0 then 0 else (satInt (-127) 127 (floorLog2 m e - emaxOf t) + 127).toNat

/-- R78 step 3: an element under a scale; a finite overflow saturates in every format. -/
def scaledEnc (t : Ty) (rm : Rm) (dr : Option Draw) (v : FV) (scale : Nat) : Nat :=
  match v with
  | .fin n m e =>
    let x := FV.fin n m (e - ((scale : Int) - 127))
    match fmtOf t with
    | some f =>
      let c := f.enc rm dr x
      if f.maxc < c % 2 ^ (f.eb + f.mb) then f.signBit n + f.maxc else c
    | none => encTy t rm dr x
  | _ => encTy t rm dr v

/-- R77: an element times its block scale; none is scale 1. -/
def scaledDec (v : FV) (scale : Option Nat) : FV :=
  match scale with
  | none => v
  | some s => if s = 0xFF then .nan else match v with
    | .fin n m e => .fin n m (e + ((s : Int) - 127))
    | x => x

/-! ### FP32 operations on codes -/

def f32 (c : BitVec 32) : FV := fmtF32.dec c.toNat
def encF32 (rm : Rm) (v : FV) : BitVec 32 := BitVec.ofNat 32 (fmtF32.enc rm none v)
def nanF32 : BitVec 32 := 0x7FC00000#32

def rmIsRd (rm : Rm) : Bool := rm == .rd

def f32Add (rm : Rm) (a b : BitVec 32) : BitVec 32 := encF32 rm (FV.add (rmIsRd rm) (f32 a) (f32 b))

/-- R89: the order of R89 as an integer: sign and magnitude of the code. -/
def ordKey (c : BitVec 32) : Int :=
  let m : Int := (c.toNat % 2 ^ 31 : Nat)
  if c.getLsbD 31 then -m - 1 else m

def isNaN32 (c : BitVec 32) : Bool := f32 c == .nan

/-- R89. -/
def f32MinMax (isMax nanp : Bool) (a b : BitVec 32) : BitVec 32 :=
  match isNaN32 a, isNaN32 b with
  | true, true => nanF32
  | true, false => if nanp then nanF32 else b
  | false, true => if nanp then nanF32 else a
  | false, false => if isMax then (if ordKey a < ordKey b then b else a) else (if ordKey b < ordKey a then b else a)

/-- R110: negation flips the sign; a NaN stays NaN. -/
def negIf (n : Bool) (v : FV) : FV := if n then v.neg else v

def negBits (n : Bool) (c : BitVec 32) : BitVec 32 := if n && !isNaN32 c then c ^^^ 0x80000000#32 else c

/-! ### Special functions (R111, log entry 22, DEDUCED) -/

/-- The integer square root by bits. -/
def isqrtBits (n : Nat) : Nat → Nat → Nat
  | 0, r => r
  | i + 1, r => let c := r + 2 ^ i; if c * c ≤ n then isqrtBits n i c else isqrtBits n i r

def isqrt (n : Nat) : Nat := isqrtBits n (bitLen n / 2 + 1) 0

def fracBits : Nat := 192
def piFix : Nat := 0x3243f6a8885a308d313198a2e03707344a4093822299f31d0
def ln2Fix : Nat := 0xb17217f7d1cf79abc9e3b39803f2f6af40f343267298b62d

/-- FP32 code of (man + a little) × 2^exp. -/
def stickyF32 (rm : Rm) (neg : Bool) (man : Nat) (exp : Int) (sticky : Bool) : BitVec 32 :=
  BitVec.ofNat 32 (fmtF32.encFin rm none neg man exp sticky)

/-- 1 / (m × 2^e) to 64 bits and a sticky tail. -/
def frcpF (rm : Rm) : FV → BitVec 32
  | .nan => nanF32
  | .inf n => BitVec.ofNat 32 (fmtF32.signBit n)
  | .fin n m e =>
    if m = 0 then BitVec.ofNat 32 (fmtF32.signBit n + 0x7F800000)
    else
      let k := bitLen m + 64
      stickyF32 rm n (2 ^ k / m) (-e - (k : Int)) (2 ^ k % m != 0)

def fsqrtF (rm : Rm) : FV → BitVec 32
  | .nan => nanF32
  | .inf n => if n then nanF32 else 0x7F800000#32
  | .fin n m e =>
    if m = 0 then BitVec.ofNat 32 (fmtF32.signBit n)
    else if n then nanF32
    else
      let k : Nat := if (e % 2 = 0) then 80 else 81
      let x := m * 2 ^ k
      let r := isqrt x
      stickyF32 rm false r ((e - (k : Int)) / 2) (r * r != x)

def frsqF (rm : Rm) : FV → BitVec 32
  | .nan => nanF32
  | .inf n => if n then nanF32 else 0
  | .fin n m e =>
    if m = 0 then BitVec.ofNat 32 (fmtF32.signBit n + 0x7F800000)
    else if n then nanF32
    else
      let e2 : Int := if e % 2 = 0 then e else e - 1
      let m2 := if e % 2 = 0 then m else 2 * m
      let k := bitLen m2 + 80 + bitLen m2 % 2
      let r := isqrt (2 ^ k / m2)
      stickyF32 rm false r (-(e2 / 2) - ((k : Int) / 2)) (r * r * m2 != 2 ^ k)

/-- Σ x^i / i! in fixed point, the terms from `i` on. -/
def expTerms (x : Nat) : Nat → Nat → Nat → Nat
  | 0, _, _ => 0
  | n + 1, i, t => t + expTerms x n (i + 1) (t * x / 2 ^ fracBits / (i + 1))

/-- 2^f for f in [0, 1), in fixed point. -/
def exp2Frac (f : Nat) : Nat := expTerms (f * ln2Fix / 2 ^ fracBits) 48 0 (2 ^ fracBits)

def fex2F : FV → BitVec 32
  | .nan => nanF32
  | .inf n => if n then 0 else 0x7F800000#32
  | .fin n m e =>
    if m = 0 then 0x3F800000#32
    else if magLt 512 0 m e then (if n then 0 else 0x7F800000#32)
    else
      let x : Int := if 0 ≤ e + fracBits then (m * 2 ^ (e + fracBits).toNat : Nat) else (m / 2 ^ (-(e + fracBits)).toNat : Nat)
      let exact := decide (0 ≤ e + fracBits)
      let t : Int := if n then -x - (if exact then 0 else 1) else x
      let k := t / (2 ^ fracBits : Nat)
      let f := (t % (2 ^ fracBits : Nat)).toNat
      if f = 0 && exact then stickyF32 .rne false 1 k false
      else stickyF32 .rne false (exp2Frac f) (k - fracBits) true

/-- Σ z^(2i+1) / (2i+1) in fixed point. -/
def atanhTerms (z2 : Nat) : Nat → Nat → Nat → Nat
  | 0, _, _ => 0
  | n + 1, i, t => t / (2 * i + 1) + atanhTerms z2 n (i + 1) (t * z2 / 2 ^ fracBits)

/-- log2 of x / 2^192 in [1, 2), in fixed point. -/
def log2Frac (x : Nat) : Nat :=
  let one := 2 ^ fracBits
  let z := (x - one) * one / (x + one)
  2 * atanhTerms (z * z / one) 64 0 z * one / ln2Fix

def flg2F : FV → BitVec 32
  | .nan => nanF32
  | .inf n => if n then nanF32 else 0x7F800000#32
  | .fin n m e =>
    if m = 0 then 0xFF800000#32
    else if n then nanF32
    else
      let k := floorLog2 m e
      let x := alignTo m e (k - fracBits)
      if x = 2 ^ fracBits then encF32 .rne (intFV k 0)
      else
        let t : Int := k * (2 ^ fracBits : Nat) + log2Frac x
        stickyF32 .rne (decide (t < 0)) t.natAbs (-(fracBits : Int)) true

/-- Alternating terms of a sine or cosine factor in t2 = t²: Σ (−1)^i t2^i / product, the odd terms and the even terms. -/
def trigTerms (t2 : Nat) : Nat → Nat → Nat → Int
  | 0, _, _ => 0
  | n + 1, i, t => (t : Int) - trigTerms t2 n (i + 2) (t * t2 / 2 ^ fracBits / ((i + 1) * (i + 2)))

/-- (π × m × 2^e)² in fixed point. -/
def angle2 (m : Nat) (e : Int) : Nat :=
  let t := m * piFix
  let s := t * t
  let sh : Int := 2 * e - fracBits
  if 0 ≤ sh then s * 2 ^ sh.toNat else s / 2 ^ (-sh).toNat

/-- sin(π r) for r = m × 2^e at most 1/4, as mantissa and exponent: π r × (1 − t²/6 + …). -/
def sinSmall (m : Nat) (e : Int) : Nat × Int :=
  ((m * piFix) * (trigTerms (angle2 m e) 40 1 (2 ^ fracBits)).toNat, e - 2 * fracBits)

/-- cos(π r) for r at most 1/4. -/
def cosSmall (m : Nat) (e : Int) : Nat × Int :=
  ((trigTerms (angle2 m e) 40 0 (2 ^ fracBits)).toNat, -(fracBits : Int))

/-- sin(π r) for 0 ≤ r ≤ 1/2, r = m × 2^e: exact at 0 and 1/2. -/
def sinHalf (m : Nat) (e : Int) : Nat × Int × Bool :=
  if m = 0 then (0, 0, false)
  else if !magLt m e 1 (-1) then (1, 0, false)
  else if magLt 1 (-2) m e then
    let b := min e (-1)
    let (r, x) := cosSmall (alignTo 1 (-1) b - alignTo m e b) b
    (r, x, true)
  else
    let (r, x) := sinSmall m e
    (r, x, true)

/-- sin(π x) for x = m × 2^e ≥ 0: its sign and the magnitude's parts. -/
def sinPos (m : Nat) (e : Int) : Bool × Nat × Int × Bool :=
  let b := min e (-1)
  let one := 2 ^ (-b).toNat
  let x := alignTo m e b % (2 * one)
  let neg := decide (one < x)
  let y := if one ≤ x then x - one else x
  let z := if one < 2 * y then one - y else y
  let (r, k, st) := sinHalf z b
  (neg, r, k, st)

def fsinF : FV → BitVec 32
  | .nan | .inf _ => nanF32
  | .fin n m e =>
    let (g, r, k, st) := sinPos m e
    if r = 0 then BitVec.ofNat 32 (fmtF32.signBit n)
    else stickyF32 .rne (n != g) r k st

/-- cos(π x) = sin(π (x + 1/2)). -/
def fcosF : FV → BitVec 32
  | .nan | .inf _ => nanF32
  | .fin _ m e =>
    let b := min e (-1)
    let (g, r, k, st) := sinPos (alignTo m e b + alignTo 1 (-1) b) b
    if r = 0 then 0
    else stickyF32 .rne g r k st

/-! ### The accumulation step (R90, R91) and the reduction tree (R94) -/

/-- R90: a product with a zero factor is zero. -/
def prodZ (a b : FV) : FV := if a.isZero || b.isZero then FV.zero else FV.mul a b

/-- R91: one K-step of an FP32 accumulator over its products. -/
def accStep (c : BitVec 32) (ps : List FV) : BitVec 32 :=
  let all := f32 c :: ps
  if all.any (· == .nan) then nanF32
  else if all.any (· == .inf false) && all.any (· == .inf true) then nanF32
  else if all.any (· == .inf false) then 0x7F800000#32
  else if all.any (· == .inf true) then 0xFF800000#32
  else
    match ps.foldl (FV.add false) (f32 c) with
    | .fin n m e =>
      if m = 0 then (if c = 0x80000000#32 && ps.all FV.isZero then c else 0)
      else encF32 .rne (.fin n m e)
    | _ => nanF32

variable {α : Type}

/-- R94: Comb. -/
def comb (op : α → α → α) : Option α → Option α → Option α
  | none, b => b
  | a, none => a
  | some a, some b => some (op a b)

def pairUp (op : α → α → α) : List (Option α) → List (Option α)
  | a :: b :: t => comb op a b :: pairUp op t
  | [a] => [a]
  | [] => []

/-- R94: Tree over n = 2^k places; the list is shorter than that only by absent places at its end. -/
def tree (op : α → α → α) : Nat → List (Option α) → Option α
  | 0, l => l.head?.join
  | k + 1, l => tree op k (pairUp op l)

end Sys2Proof.Machine
end

