-- ==== Sys2Proof/Decode.lean ====
section
/-!
DEFINITION. Decode.lean: from instruction words to instructions and back (spec 02, R28 to R52, and each entry's
fields). `decode` is total: it answers an instruction, or the subcode of the first check of R50 that fails.
-/
namespace Sys2Proof

/-- The fields of an instruction word and its extension word (R29, R32). With X = 0 the extension fields hold the
implied extension 0x7000_0000 of R33. -/
structure Raw where
  g : Bool
  s : Bool
  scope : BitVec 2
  major : BitVec 6
  d : Name
  a : Name
  b : Name
  x : Bool
  gn : Bool
  gp : BitVec 3
  minor : BitVec 8
  pay : BitVec 20
  deriving DecidableEq, Repr

def boolBit (b : Bool) : BitVec 1 := if b then 1#1 else 0#1

/-- R29, R32, R33: the fields of a word; `ew` is read only when X = 1. -/
def Raw.ofWords (iw ew : Word) : Raw :=
  let x := iw.getLsbD 0
  let e : Word := if x then ew else 0x70000000#32
  { g := iw.getLsbD 31, s := iw.getLsbD 30, scope := iw.extractLsb' 28 2, major := iw.extractLsb' 22 6,
    d := iw.extractLsb' 15 7, a := iw.extractLsb' 8 7, b := iw.extractLsb' 1 7, x := x,
    gn := e.getLsbD 31, gp := e.extractLsb' 28 3, minor := e.extractLsb' 20 8, pay := e.extractLsb' 0 20 }

/-- R29: the instruction word of the fields. -/
def Raw.iw (r : Raw) : Word :=
  boolBit r.g ++ boolBit r.s ++ r.scope ++ r.major ++ r.d ++ r.a ++ r.b ++ boolBit r.x

/-- R32: the extension word of the fields. -/
def Raw.ew (r : Raw) : Word :=
  boolBit r.gn ++ r.gp ++ r.minor ++ r.pay

/-- R30. -/
def Scope.ofCode (c : BitVec 2) : Scope :=
  if c = 0#2 then .own else if c = 1#2 then .warp else if c = 2#2 then .set else .block

def Scope.code : Scope → BitVec 2
  | .own => 0#2 | .warp => 1#2 | .set => 2#2 | .block => 3#2

/-- R34: the frame of the word; the set number stands in payload [19:12] at set scope. -/
def Raw.hdr (r : Raw) : Hdr :=
  { s := r.s, x := r.x, scope := Scope.ofCode r.scope,
    set := if r.scope = 2#2 then r.pay.extractLsb' 12 8 else 0#8, gn := r.gn, gp := r.gp }

/-- R34: the payload less the set number. -/
def Raw.rest (r : Raw) : BitVec 20 :=
  if r.scope = 2#2 then (r.pay.setWidth 12).setWidth 20 else r.pay

/-- Bits [lo + n - 1 : lo] of the minor. -/
def Raw.m (r : Raw) (lo n : Nat) : Nat := (r.minor.toNat >>> lo) % 2 ^ n

/-- Bits [lo + n - 1 : lo] of the payload less the set number. -/
def Raw.p (r : Raw) (lo n : Nat) : Nat := (r.rest.toNat >>> lo) % 2 ^ n

def Raw.mbit (r : Raw) (k : Nat) : Bool := r.minor.getLsbD k
def Raw.pbit (r : Raw) (k : Nat) : Bool := r.rest.getLsbD k

/-- R34: I20, or 12 bits sign-extended at set scope. -/
def Raw.immI (r : Raw) : BitVec 20 :=
  if r.scope = 2#2 then (r.pay.setWidth 12).signExtend 20 else r.pay

/-- R37. -/
def Raw.asrc (r : Raw) : ASrc := if r.mbit 7 then .uni r.a else .lane r.a

/-- R99: B is the payload immediate when I = 1. -/
def Raw.bsrc (r : Raw) : BSrc := if r.mbit 6 then .imm r.pay else .reg r.b

/-- R99, R31: I = 1 needs a zero B field, I = 0 a zero payload. -/
def Raw.bZero (r : Raw) : Bool := if r.mbit 6 then r.b == 0 else r.rest == 0

/-- The F4 payload: C in [6:0], the rest zero (R34). -/
def Raw.f4 (r : Raw) : Name := r.rest.setWidth 7
def Raw.f4Zero (r : Raw) : Bool := r.rest.toNat < 128

def IntTy.ofCode (n : Nat) : IntTy :=
  match n with | 0 => .i32 | 1 => .n32 | 2 => .i64 | _ => .n64

def IntTy.code : IntTy → Nat
  | .i32 => 0 | .n32 => 1 | .i64 => 2 | .n64 => 3

def Raw.wTy (r : Raw) : IntTy := IntTy.ofCode (r.m 4 2)

/-- R57, for codes 0 to 4. -/
def Rm.ofCode (n : Nat) : Rm :=
  match n with | 0 => .rne | 1 => .rz | 2 => .ru | 3 => .rd | _ => .sr

def Rm.code : Rm → Nat
  | .rne => 0 | .rz => 1 | .ru => 2 | .rd => 3 | .sr => 4

/-- R56. -/
def Ty.ofCode? (n : Nat) : Option Ty :=
  match n with
  | 0x00 => some .b32 | 0x01 => some .b64 | 0x02 => some .i8 | 0x03 => some .i16 | 0x04 => some .i32
  | 0x05 => some .i64 | 0x06 => some .n8 | 0x07 => some .n16 | 0x08 => some .n32 | 0x09 => some .n64
  | 0x10 => some .f32 | 0x11 => some .f16 | 0x12 => some .bf16 | 0x13 => some .e4m3 | 0x14 => some .e5m2
  | 0x15 => some .e2m3 | 0x16 => some .e3m2 | 0x17 => some .e2m1 | 0x18 => some .tap8 | 0x19 => some .tap6
  | 0x1A => some .mxi8
  | _ => none

def Ty.ofCode (n : Nat) : Ty := (Ty.ofCode? n).getD .b32

def Ty.code : Ty → Nat
  | .b32 => 0x00 | .b64 => 0x01 | .i8 => 0x02 | .i16 => 0x03 | .i32 => 0x04 | .i64 => 0x05 | .n8 => 0x06
  | .n16 => 0x07 | .n32 => 0x08 | .n64 => 0x09 | .f32 => 0x10 | .f16 => 0x11 | .bf16 => 0x12 | .e4m3 => 0x13
  | .e5m2 => 0x14 | .e2m3 => 0x15 | .e3m2 => 0x16 | .e2m1 => 0x17 | .tap8 => 0x18 | .tap6 => 0x19 | .mxi8 => 0x1A
  | .int4 => 0x1C | .mdat => 0x1D

def tyIs (n : Nat) (f : Ty → Bool) : Bool :=
  match Ty.ofCode? n with | some t => f t | none => false

def Cc.ofCode (n : Nat) : Cc :=
  match n with | 0 => .eq | 1 => .ne | 2 => .lt | 3 => .le | 4 => .gt | _ => .ge
def Cc.code : Cc → Nat
  | .eq => 0 | .ne => 1 | .lt => 2 | .le => 3 | .gt => 4 | .ge => 5

def FCc.ofCode (n : Nat) : FCc :=
  match n with | 0 => .eq | 1 => .ne | 2 => .lt | 3 => .le | 4 => .gt | 5 => .ge | 6 => .num | _ => .nan
def FCc.code : FCc → Nat
  | .eq => 0 | .ne => 1 | .lt => 2 | .le => 3 | .gt => 4 | .ge => 5 | .num => 6 | .nan => 7

def BitOp.ofCode (n : Nat) : BitOp :=
  match n with | 0 => .pop | 1 => .clz | 2 => .ctz | _ => .brev
def BitOp.code : BitOp → Nat
  | .pop => 0 | .clz => 1 | .ctz => 2 | .brev => 3

def ClassFmt.ofCode (n : Nat) : ClassFmt :=
  match n with | 0 => .f32 | 1 => .f16 | _ => .bf16
def ClassFmt.code : ClassFmt → Nat
  | .f32 => 0 | .f16 => 1 | .bf16 => 2

def Msc.ofCode (n : Nat) : Msc :=
  match n with | 0 => .b | 1 => .cl | 2 => .dv | _ => .sy
def Msc.code : Msc → Nat
  | .b => 0 | .cl => 1 | .dv => 2 | .sy => 3

def Sem.ofCode (n : Nat) : Sem :=
  match n with | 0 => .none | 1 => .rel | 2 => .acq | _ => .ar
def Sem.code : Sem → Nat
  | .none => 0 | .rel => 1 | .acq => 2 | .ar => 3

def Size.ofCode (n : Nat) : Size :=
  match n with | 0 => .b32 | 1 => .b64 | 2 => .b128 | 3 => .n8 | 4 => .i8 | 5 => .n16 | _ => .i16
def Size.code : Size → Nat
  | .b32 => 0 | .b64 => 1 | .b128 => 2 | .n8 => 3 | .i8 => 4 | .n16 => 5 | .i16 => 6

def Hint.ofCode (n : Nat) : Hint :=
  match n with | 0 => .none | 1 => .nl1 | _ => .ef
def Hint.code : Hint → Nat
  | .none => 0 | .nl1 => 1 | .ef => 2

def SegW.ofCode (n : Nat) : SegW :=
  match n with | 0 => .w32 | 1 => .w16 | 2 => .w8 | _ => .w4
def SegW.code : SegW → Nat
  | .w32 => 0 | .w16 => 1 | .w8 => 2 | .w4 => 3

def ShflMode.ofCode (n : Nat) (edge : Bool) : ShflMode :=
  match n with | 0 => .sel | 1 => .ahead edge | 2 => .behind edge | 3 => .pair | _ => .rev
def ShflMode.code : ShflMode → Nat
  | .sel => 0 | .ahead e => 1 + (if e then 8 else 0) | .behind e => 2 + (if e then 8 else 0) | .pair => 3 | .rev => 4

def VoteMode.ofCode (n : Nat) : VoteMode :=
  match n with | 0 => .all | 1 => .any | 2 => .uni | 3 => .mask | 4 => .cnt | _ => .first
def VoteMode.code : VoteMode → Nat
  | .all => 0 | .any => 1 | .uni => 2 | .mask => 3 | .cnt => 4 | .first => 5

/-- R152: the minor less bit 7. -/
def RedOp.ofCode (op low : Nat) : RedOp :=
  match op with
  | 0 => .add (low % 2 == 1) | 1 => .min (low % 2 == 1) | 2 => .max (low % 2 == 1)
  | 3 => .and | 4 => .or | 5 => .xor | 6 => .fadd (Rm.ofCode low)
  | 7 => .fmin (low % 2 == 1) | _ => .fmax (low % 2 == 1)

def bn (b : Bool) : Nat := if b then 1 else 0

def RedOp.code : RedOp → Nat
  | .add n => bn n | .min n => 8 + bn n | .max n => 16 + bn n | .and => 24 | .or => 32 | .xor => 40
  | .fadd rm => 48 + rm.code | .fmin n => 56 + bn n | .fmax n => 64 + bn n

/-- R152: which minors are assigned. -/
def redMinorOk (op low : Nat) : Bool :=
  match op with
  | 0 | 1 | 2 | 7 | 8 => low < 2
  | 3 | 4 | 5 => low == 0
  | 6 => true
  | _ => false

def AtomOp.ofCode (n : Nat) : AtomOp :=
  match n with
  | 0 => .add | 1 => .min | 2 => .max | 3 => .and | 4 => .or | 5 => .xor | 6 => .xchg | 7 => .cas | 8 => .inc
  | 9 => .dec | 10 => .fadd | 11 => .fmin | _ => .fmax
def AtomOp.code : AtomOp → Nat
  | .add => 0 | .min => 1 | .max => 2 | .and => 3 | .or => 4 | .xor => 5 | .xchg => 6 | .cas => 7 | .inc => 8
  | .dec => 9 | .fadd => 10 | .fmin => 11 | .fmax => 12

def AtomTy.ofCode (n : Nat) : AtomTy :=
  match n with | 0 => .i32 | 1 => .n32 | 2 => .i64 | 3 => .n64 | 4 => .f32 | 5 => .b32 | _ => .b64
def AtomTy.code : AtomTy → Nat
  | .i32 => 0 | .n32 => 1 | .i64 => 2 | .n64 => 3 | .f32 => 4 | .b32 => 5 | .b64 => 6

/-- R203. -/
def Raw.atom (r : Raw) : AtomSpec :=
  { op := AtomOp.ofCode (r.m 3 4), ty := AtomTy.ofCode (r.m 0 3), sp := r.pay.getLsbD 15,
    sem := Sem.ofCode (r.p 16 2), msc := Msc.ofCode (r.p 18 2), off := r.pay.setWidth 15 }

def AtomSpec.minor (k : AtomSpec) : Nat := k.op.code * 8 + k.ty.code
def AtomSpec.payload (k : AtomSpec) : Nat :=
  k.off.toNat + bn k.sp * 2 ^ 15 + k.sem.code * 2 ^ 16 + k.msc.code * 2 ^ 18

def WaitCond.ofCode (n : Nat) : WaitCond :=
  match n with | 0 => .eq | 1 => .ne | 2 => .geu | 3 => .ges | _ => .any
def WaitCond.code : WaitCond → Nat
  | .eq => 0 | .ne => 1 | .geu => 2 | .ges => 3 | .any => 4

def SaluOp.ofCode (n : Nat) : SaluOp :=
  match n with
  | 0 => .add | 1 => .sub | 2 => .mul | 3 => .mulh | 4 => .min | 5 => .max | 6 => .and | 7 => .or | 8 => .xor
  | 9 => .shl | 10 => .shr | _ => .andn
def SaluOp.code : SaluOp → Nat
  | .add => 0 | .sub => 1 | .mul => 2 | .mulh => 3 | .min => 4 | .max => 5 | .and => 6 | .or => 7 | .xor => 8
  | .shl => 9 | .shr => 10 | .andn => 11

def SbraMode.ofCode (n : Nat) : SbraMode := match n with | 0 => .each | 1 => .any | _ => .all
def SbraMode.code : SbraMode → Nat | .each => 0 | .any => 1 | .all => 2

def GmembQ.ofCode (n : Nat) : GmembQ := match n with | 0 => .mask | 1 => .index | 2 => .count | _ => .live
def GmembQ.code : GmembQ → Nat | .mask => 0 | .index => 1 | .count => 2 | .live => 3

def BandRed.ofCode (n : Nat) : BandRed :=
  match n with | 0 => .add | 1 => .min | 2 => .max | 3 => .and | 4 => .or | _ => .xor
def BandRed.code : BandRed → Nat | .add => 0 | .min => 1 | .max => 2 | .and => 3 | .or => 4 | .xor => 5

/-- R160. -/
def Raw.bandOp (r : Raw) : BandOp :=
  match r.m 0 2 with
  | 0 => .sync
  | 1 => .red (BandRed.ofCode (r.m 2 4)) (r.mbit 6)
  | _ => .bcast (r.b.setWidth 3)

def BandOp.minor : BandOp → Nat
  | .sync => 0 | .red op n => 1 + op.code * 4 + bn n * 64 | .bcast _ => 2

def TstatQ.ofCode (n : Nat) : TstatQ := match n with | 0 => .seq | 1 => .state | _ => .stage
def TstatQ.code : TstatQ → Nat | .seq => 0 | .state => 1 | .stage => 3

def MstatQ.ofCode (n : Nat) : MstatQ := match n with | 0 => .queue | 1 => .slot | 2 => .own | _ => .free
def MstatQ.code : MstatQ → Nat | .queue => 0 | .slot => 1 | .own => 2 | .free => 3

def SpPat.ofCode (n : Nat) : SpPat := match n with | 0 => .p4 | 1 => .p2 | _ => .p1
def SpPat.code : SpPat → Nat | .p4 => 0 | .p2 => 1 | .p1 => 2

/-- R114: the seed fields of a conversion. -/
def Raw.seed (r : Raw) : Seed := if r.pbit 10 then .reg (r.rest.extractLsb' 11 6) else .launch
def Seed.payload : Seed → Nat
  | .launch => 0
  | .reg n => 2 ^ 10 + n.toNat * 2 ^ 11
/-- R114: SS and SREG are zero unless the rounding code is SR. -/
def Raw.seedZero (r : Raw) : Bool := r.m 0 3 == 4 || r.p 10 7 == 0

/-- R236, R273, R355: the valid count. -/
def Raw.vc (r : Raw) : Vc := if r.mbit 4 then .reg r.b else .all
def Raw.vcZero (r : Raw) : Bool := r.mbit 4 || r.b == 0
def Vc.name : Vc → Name | .all => 0 | .reg n => n
def Vc.bit : Vc → Nat | .all => 0 | .reg _ => 1

/-- What an entry says of a word: the instruction it stands for, and whether the word passes check 4 (`minor`),
check 6 (`zero`), check 7 (`types`), the predicate part of check 8 (`preds`), and whether it needs X = 1 (R33). -/
structure Entry where
  instr : Instr
  minor : Bool
  zero : Bool
  types : Bool := true
  preds : List Name := []
  xreq : Bool := false
  deriving DecidableEq, Repr

/-- R101. -/
def Raw.intBin (r : Raw) (i : IntTy → Bool → Name → ASrc → BSrc → Instr) (narrow sat : Bool) : Entry :=
  { instr := i r.wTy (r.mbit 3) r.d r.asrc r.bsrc
    minor := r.m 0 3 == 0 && (sat || !r.mbit 3)
    zero := r.bZero
    types := !narrow || r.m 4 2 < 2 }

/-- R103, R110: a word with a fourth register. -/
def Raw.withC (r : Raw) (i : Instr) (minor types : Bool) : Entry :=
  { instr := i, minor := minor && !r.mbit 6, zero := r.f4Zero, types := types, xreq := true }

/-- R106. -/
def Raw.logic (r : Raw) (i : Bool → Bool → Name → ASrc → BSrc → Instr) : Entry :=
  { instr := i (r.m 4 2 == 2) (r.mbit 0) r.d r.asrc r.bsrc
    minor := !r.mbit 3 && r.m 1 2 == 0
    zero := r.bZero
    types := r.m 4 2 == 0 || r.m 4 2 == 2 }

/-- R110: FADD and FMUL. -/
def Raw.fbin (r : Raw) (i : Rm → Bool → Bool → Name → ASrc → BSrc → Instr) : Entry :=
  { instr := i (Rm.ofCode (r.m 0 3)) (r.mbit 3) (r.mbit 4) r.d r.asrc r.bsrc
    minor := !r.mbit 5, zero := r.bZero, types := r.m 0 3 < 4 }

/-- R110: FMIN and FMAX. -/
def Raw.fminmax (r : Raw) (i : Bool → Bool → Bool → Name → ASrc → BSrc → Instr) : Entry :=
  { instr := i (r.mbit 5) (r.mbit 3) (r.mbit 4) r.d r.asrc r.bsrc
    minor := true, zero := r.bZero, types := r.m 0 3 == 0 }

/-- R111, R120: one source, one rounding code up to `top`. -/
def Raw.f1 (r : Raw) (i : Instr) (top : Nat) : Entry :=
  { instr := i, minor := r.m 3 4 == 0, zero := r.b == 0 && r.rest == 0, types := r.m 0 3 ≤ top }

/-- R179. -/
def Raw.ldst (r : Raw) (i : Instr) (load hints : Bool) : Entry :=
  let sem := r.b.toNat % 4
  let msc := (r.b.toNat / 4) % 8
  let z := r.m 3 3
  { instr := i
    minor := r.m 0 3 == 0 || (hints && (r.m 0 3 == 2 || (load && r.m 0 3 == 1)))
    zero := (r.mbit 7 || r.rest == 0) && r.b.toNat < 32
      && (sem == 0 || (r.mbit 6 && sem == (if load then 2 else 1))) && (sem != 0 || msc == 0)
    types := msc < 4 && z != 7 && (load || (z != 4 && z != 6)) }

def Raw.ldSem (r : Raw) : Sem := Sem.ofCode (r.b.toNat % 4)
def Raw.ldMsc (r : Raw) : Msc := Msc.ofCode ((r.b.toNat / 4) % 4)

/-- R203, R204. -/
def Raw.atomEntry (r : Raw) (i : Instr) (isRed uniform : Bool) : Entry :=
  let k := r.atom
  { instr := i
    minor := r.m 3 4 < 13 && !(isRed && (r.m 3 4 == 6 || r.m 3 4 == 7)) && !(uniform && r.mbit 7)
    zero := (!k.sp || k.msc == .b) && (!isRed || ((k.sem == .none || k.sem == .rel) && r.d == 0))
      && (uniform || r.mbit 7 || k.off == 0)
    types := r.m 0 3 < 7 && k.op.permits k.ty }

/-- A P-word of the control majors: no U, no fields but those named (R133, R134, R211). -/
def Raw.ctl (r : Raw) (i : Instr) (d a pay : Bool) (xreq : Bool := false) : Entry :=
  { instr := i, minor := !r.mbit 7, zero := (d || r.d == 0) && (a || r.a == 0) && r.b == 0 && (pay || r.rest == 0)
    xreq := xreq }

/-- The P-word entries (R48, R49). Under E1 a tapered type with a K beyond its range is turned away by its K, check 6
(log entry 71, DESIGN CHOICE). -/
def Raw.pEntry (r : Raw) : Entry :=
  let h := r.hdr
  let rm := Rm.ofCode (r.m 0 3)
  match r.major.toNat with
  | 0x00 => r.intBin (fun t s d a b => .iadd h t s d a b) false true
  | 0x01 => r.intBin (fun t s d a b => .isub h t s d a b) false true
  | 0x02 => r.intBin (fun t _ d a b => .imul h t d a b) false false
  | 0x03 => r.intBin (fun t _ d a b => .imulh h (t == .n32) d a b) true false
  | 0x04 => r.withC (.imad h (r.wTy == .n32) r.d r.asrc r.b r.f4) (r.m 0 4 == 0) (r.m 4 2 < 2)
  | 0x05 => r.withC (.imadw h (r.wTy == .n32) r.d r.asrc r.b r.f4) (r.m 0 4 == 0) (r.m 4 2 < 2)
  | 0x06 => r.intBin (fun t _ d a b => .imin h t d a b) false false
  | 0x07 => r.intBin (fun t _ d a b => .imax h t d a b) false false
  | 0x08 => r.intBin (fun t _ d a b => .iabsd h t d a b) false false
  | 0x09 => r.intBin (fun t _ d a b => .idiv h (t == .n32) d a b) true false
  | 0x0A => r.intBin (fun t _ d a b => .irem h (t == .n32) d a b) true false
  | 0x0B => { instr := .lea h (r.wTy == .n32) r.d r.asrc r.b (r.rest.setWidth 3)
              minor := r.m 0 4 == 0 && !r.mbit 6, zero := r.rest.toNat < 8, types := r.m 4 2 < 2 }
  | 0x0C => { instr := .mov h (r.m 4 2 == 2) r.d r.asrc
              minor := r.m 0 4 == 0 && !r.mbit 6, zero := r.b == 0 && r.rest == 0
              types := r.m 4 2 == 0 || r.m 4 2 == 2 }
  | 0x0D => { instr := .movi h r.wTy r.d r.rest
              minor := r.m 0 4 == 0 && !r.mbit 6 && !r.mbit 7, zero := r.a == 0 && r.b == 0 }
  | 0x0E => { instr := .movhi h r.d r.asrc r.rest
              minor := r.m 0 4 == 0 && !r.mbit 6, zero := r.b == 0, types := r.m 4 2 == 0 }
  | 0x0F => r.withC (.idot4 h (r.mbit 4) (r.mbit 5) (r.mbit 3) r.d r.asrc r.b r.f4) (r.m 0 3 == 0) true
  | 0x10 => r.logic (fun w n d a b => .and h w n d a b)
  | 0x11 => r.logic (fun w n d a b => .or h w n d a b)
  | 0x12 => r.logic (fun w n d a b => .xor h w n d a b)
  | 0x13 => { instr := .lop3 h (r.m 4 2 == 2) r.d r.asrc r.b (r.rest.setWidth 7)
                (r.rest.extractLsb' 11 4) (r.rest.extractLsb' 7 4)
              minor := r.m 0 4 == 0 && !r.mbit 6, zero := r.rest.toNat < 2 ^ 15
              types := r.m 4 2 == 0 || r.m 4 2 == 2, xreq := true }
  | 0x14 => { instr := .shl h (r.m 4 2 == 2) r.d r.asrc r.bsrc
              minor := r.m 0 4 == 0, zero := r.bZero && r.rest.toNat < 256
              types := r.m 4 2 == 0 || r.m 4 2 == 2 }
  | 0x15 => { instr := .shr h r.wTy r.d r.asrc r.bsrc
              minor := r.m 0 4 == 0, zero := r.bZero && r.rest.toNat < 256 }
  | 0x16 => { instr := .bfx h (r.wTy == .n32) r.d r.asrc
                (if r.mbit 6 then .imm (r.rest.setWidth 5) (r.rest.extractLsb' 5 6) else .reg r.b)
              minor := r.m 0 4 == 0, zero := r.bZero && r.rest.toNat < 2 ^ 11 && r.p 5 6 ≤ 32
              types := r.m 4 2 < 2 }
  | 0x17 => { instr := .bcnt h (BitOp.ofCode (r.m 0 2)) (r.m 4 2 == 2) r.d r.asrc
              minor := !r.mbit 2 && !r.mbit 3 && !r.mbit 6, zero := r.b == 0 && r.rest == 0
              types := r.m 4 2 == 0 || r.m 4 2 == 2 }
  | 0x18 => r.fbin (fun m x y d a b => .fadd h m x y d a b)
  | 0x19 => r.fbin (fun m x y d a b => .fmul h m x y d a b)
  | 0x1A => r.withC (.ffma h rm (r.mbit 3) (r.mbit 4) r.d r.asrc r.b r.f4) (!r.mbit 5) (r.m 0 3 < 4)
  | 0x1B => r.fminmax (fun n x y d a b => .fmin h n x y d a b)
  | 0x1C => r.fminmax (fun n x y d a b => .fmax h n x y d a b)
  | 0x1D => r.f1 (.frcp h rm r.d r.asrc) 3
  | 0x1E => r.f1 (.frsq h rm r.d r.asrc) 3
  | 0x1F => r.f1 (.fsqrt h rm r.d r.asrc) 3
  | 0x20 => r.f1 (.fex2 h r.d r.asrc) 0
  | 0x21 => r.f1 (.flg2 h r.d r.asrc) 0
  | 0x22 => r.f1 (.fsin h r.d r.asrc) 0
  | 0x23 => r.f1 (.fcos h r.d r.asrc) 0
  | 0x24 => { instr := .hfma2 h (r.mbit 6) (r.mbit 5) (r.mbit 4) (r.mbit 3) rm r.d r.asrc r.b r.f4
              minor := true, zero := r.f4Zero, types := r.m 0 3 < 4, xreq := true }
  | 0x25 => { instr := .fclass h (ClassFmt.ofCode (r.m 4 2)) r.d r.asrc
              minor := r.m 0 4 == 0 && !r.mbit 6, zero := r.b == 0 && r.rest == 0, types := r.m 4 2 < 3 }
  | 0x26 => { instr := .cvtf h (Ty.ofCode (r.p 0 5)) (Ty.ofCode (r.p 5 5)) rm r.seed r.d r.asrc
              minor := r.m 3 4 == 0, zero := r.b == 0 && r.p 17 3 == 0 && r.seedZero
              types := tyIs (r.p 0 5) Ty.isFloat && tyIs (r.p 5 5) (fun t => t.isFloat || t.isInt) && r.m 0 3 < 5
              xreq := true }
  | 0x27 => { instr := .cvti h (Ty.ofCode (r.p 0 5)) (Ty.ofCode (r.p 5 5)) rm r.d r.asrc
              minor := r.m 3 4 == 0, zero := r.b == 0 && r.p 17 3 == 0 && r.seedZero
              types := tyIs (r.p 0 5) Ty.isInt && tyIs (r.p 5 5) (fun t => t.isFloat || t.isInt) && r.m 0 3 < 4
              xreq := true }
  | 0x28 =>
    let t := Ty.ofCode (r.p 0 5)
    { instr := .pack h t (r.rest.extractLsb' 5 2) rm r.seed r.d r.asrc r.b
      minor := r.m 3 4 == 0
      zero := r.p 7 3 == 0 && r.p 17 3 == 0 && r.seedZero && (t.packSlots == 0 || r.p 5 2 < t.packSlots)
      types := tyIs (r.p 0 5) (fun t => t.packSlots != 0)
        && (r.m 0 3 < 4 || (r.m 0 3 == 4 && t.isFloat && t != .e2m1))
      xreq := true }
  | 0x29 =>
    let t := Ty.ofCode (r.p 0 5)
    { instr := .unpack h t (r.rest.extractLsb' 5 3) r.d r.asrc (if r.mbit 3 then some r.b else none)
      minor := r.m 4 3 == 0
      zero := r.p 8 2 == 0 && r.p 17 3 == 0 && r.seedZero && (r.mbit 3 || r.b == 0) && (t.unpackSlots == 0 || r.p 5 3 < t.unpackSlots)
      types := tyIs (r.p 0 5) (fun t => t.unpackSlots != 0) && r.m 0 3 == 0 && (!r.mbit 3 || t.isScaled)
      xreq := true }
  | 0x2A =>
    { instr := .qscale h (Ty.ofCode (r.p 0 5)) rm r.seed r.d r.asrc (if r.mbit 3 then some r.b else none)
      minor := r.m 4 3 == 0
      zero := r.p 5 5 == 0 && r.p 17 3 == 0 && r.seedZero && (r.mbit 3 || r.b == 0)
      types := tyIs (r.p 0 5) Ty.isScaled && (if r.mbit 3 then r.m 0 3 < 5 else r.m 0 3 == 0)
      xreq := true }
  | 0x2B => r.f1 (.frnd h rm r.d r.asrc) 3
  | 0x2C => { instr := .icmp h (Cc.ofCode (r.m 0 3)) r.wTy (r.d.setWidth 3) r.asrc r.bsrc
              minor := r.m 0 3 < 6 && !r.mbit 3, zero := r.bZero, preds := [r.d] }
  | 0x2D => { instr := .fcmp h (FCc.ofCode (r.m 0 3)) (r.d.setWidth 3) r.asrc r.bsrc
              minor := r.m 3 3 == 0, zero := r.bZero, preds := [r.d] }
  | 0x2E => { instr := .sel h (r.m 4 2 == 2) (r.rest.setWidth 3) (r.pbit 3) r.d r.asrc r.b
              minor := r.m 0 4 == 0 && !r.mbit 6, zero := r.rest.toNat < 16
              types := r.m 4 2 == 0 || r.m 4 2 == 2 }
  | 0x2F =>
    match r.m 0 2 with
    | 0 => { instr := .plop h (.lut (r.d.setWidth 3) (r.a.setWidth 3) (r.b.setWidth 3) (r.rest.setWidth 3)
               (r.rest.extractLsb' 3 8))
             minor := r.minor == 0, zero := r.rest.toNat < 2 ^ 11, preds := [r.d, r.a, r.b] }
    | 1 => { instr := .plop h (.toReg r.d), minor := r.minor == 1
             zero := r.a == 0 && r.b == 0 && r.rest == 0 }
    | _ => { instr := .plop h (.fromReg r.asrc (r.rest.setWidth 7)), minor := r.m 0 7 == 2
             zero := r.d == 0 && r.b == 0 && r.rest.toNat < 128 }
  | 0x30 =>
    { instr := .shfl h (ShflMode.ofCode (r.m 0 3) (r.mbit 3)) (SegW.ofCode (r.m 4 2)) r.d r.asrc
        (if r.mbit 6 then .imm (r.rest.setWidth 5) else .reg r.b)
      minor := r.m 0 3 < 5 && (!r.mbit 3 || r.m 0 3 == 1 || r.m 0 3 == 2)
      zero := r.bZero && r.rest.toNat < 32 && (r.m 0 3 != 4 || (!r.mbit 6 && r.b == 0)) }
  | 0x31 =>
    { instr := .vote h (VoteMode.ofCode (r.m 0 3)) (r.b == 1) r.d (r.a.setWidth 3)
      minor := r.m 0 3 < 6 && r.m 3 5 == 0, zero := r.b.toNat < 2 && r.rest == 0
      preds := if r.m 0 3 < 3 then [r.d, r.a] else [r.a] }
  | 0x32 => { instr := .prmt h (r.rest.setWidth 16) r.d r.asrc r.b
              minor := r.m 0 7 == 0, zero := r.rest.toNat < 2 ^ 16 }
  | 0x33 => { instr := .xred h (RedOp.ofCode (r.m 3 4) (r.m 0 3)) r.d r.asrc
              minor := redMinorOk (r.m 3 4) (r.m 0 3), zero := r.b == 0 && r.rest == 0
              types := r.m 3 4 != 6 || r.m 0 3 < 4 }
  | 0x34 => r.ldst (.ld h (r.mbit 6) (Size.ofCode (r.m 3 3)) r.ldSem r.ldMsc (Hint.ofCode (r.m 0 3)) r.d r.asrc r.rest)
              true true
  | 0x35 => r.ldst (.st h (r.mbit 6) (Size.ofCode (r.m 3 3)) r.ldSem r.ldMsc (Hint.ofCode (r.m 0 3)) r.d r.asrc r.rest)
              false true
  | 0x36 => r.ldst (.lds h (r.mbit 6) (Size.ofCode (r.m 3 3)) r.ldSem r.ldMsc r.d r.asrc r.rest) true false
  | 0x37 => r.ldst (.sts h (r.mbit 6) (Size.ofCode (r.m 3 3)) r.ldSem r.ldMsc r.d r.asrc r.rest) false false
  | 0x38 => r.atomEntry (.atom h r.atom r.d r.asrc r.b) false false
  | 0x39 => r.atomEntry (.red h r.atom r.asrc r.b) true false
  | 0x3A =>
    match r.m 0 7 with
    | 0 => r.ctl (.txb h r.d r.rest) true false true true
    | 1 => r.ctl (.txe h) false false false true
    | 2 => { instr := .txa h (r.rest.setWidth 8), minor := !r.mbit 7
             zero := r.d == 0 && r.a == 0 && r.b == 0 && r.rest.toNat < 256, xreq := true }
    | 3 => r.ctl (.txq h r.d) true false false true
    | _ => { instr := .txe h, minor := false, zero := true, xreq := true }
  | 0x3B => { instr := .fence h (Sem.ofCode (r.m 0 2)) (Msc.ofCode (r.m 2 2))
              minor := r.m 0 2 != 0 && r.m 5 3 == 0, zero := r.d == 0 && r.a == 0 && r.b == 0 && r.rest == 0
              types := r.m 2 3 < 4, xreq := true }
  | 0x3C => { r.ctl (.bra h r.rest) false false true true with minor := r.minor == 0 }
  | 0x3D => { r.ctl (.brx h r.asrc) false true false with minor := r.m 0 7 == 0 }
  | 0x3E =>
    match r.m 0 7 with
    | 0 => r.ctl (.call h r.d r.rest) true false true true
    | 1 => { r.ctl (.ret h r.asrc) false true false true with minor := true }
    | _ => { instr := .nop h, minor := false, zero := true, xreq := true }
  | _ =>
    match r.m 0 7 with
    | 0 => r.ctl (.nop h) false false false
    | 1 => r.ctl (.meet h r.rest) false false true true
    | 2 => r.ctl (.meetsv h r.d) true false false true
    | 3 => { r.ctl (.meetld h r.asrc) false true false true with minor := true }
    | 4 => r.ctl (.exit h) false false false true
    | 5 => r.ctl (.yield h) false false false true
    | 6 => { r.ctl (.trap h (r.rest.setWidth 16)) false false true true with
             zero := r.d == 0 && r.a == 0 && r.b == 0 && r.rest.toNat < 2 ^ 16 }
    | 7 => { r.ctl (.bkpt h (r.rest.setWidth 16)) false false true true with
             zero := r.d == 0 && r.a == 0 && r.b == 0 && r.rest.toNat < 2 ^ 16 }
    | 8 => { instr := .waita h (WaitCond.ofCode (r.p 0 3)) (r.pbit 3) (r.pbit 4) (Msc.ofCode (r.p 5 2))
               (r.rest.extractLsb' 8 4) r.d r.a r.b
             minor := !r.mbit 7
             zero := r.p 0 3 < 5 && (r.pbit 4 || r.p 5 2 == 0) && !r.pbit 7 && r.p 12 8 == 0
             xreq := true }
    | _ => { instr := .nop h, minor := false, zero := true }

/-- R154, R156: B of a uniform word, register or immediate under I (minor [7]). -/
def Raw.gB (r : Raw) : BSrc := if r.mbit 7 then .imm r.immI else .reg r.b
def Raw.gBZero (r : Raw) : Bool := if r.mbit 7 then r.b == 0 else r.rest == 0

/-- A G-word whose minor selects the form and nothing else; `pay` says that the payload is the entry's own. -/
def Raw.gForm (r : Raw) (i : Instr) (d a b : Bool) (pay : Bool := false) : Entry :=
  { instr := i, minor := true
    zero := (d || r.d == 0) && (a || r.a == 0) && (b || r.b == 0) && (pay || r.rest == 0) }

def Raw.badMinor (r : Raw) : Entry := { instr := .nop r.hdr, minor := false, zero := true }

/-- R182. -/
def Raw.sldst (r : Raw) (i : Instr) (load : Bool) : Entry :=
  let sem := r.b.toNat % 4
  let msc := (r.b.toNat / 4) % 8
  { instr := i, minor := r.m 3 5 == 0
    zero := r.b.toNat < 32 && (sem == 0 || (r.mbit 1 && sem == (if load then 2 else 1))) && (sem != 0 || msc == 0)
    types := msc < 4 }

/-- R236: the engine ordering fields SEM and MSC of the minor. -/
def Raw.eSem (r : Raw) : Sem := Sem.ofCode (r.m 0 2)
def Raw.eMsc (r : Raw) : Msc := Msc.ofCode (r.m 2 2)
def Raw.eOrdZero (r : Raw) : Bool := r.m 0 2 != 0 || r.m 2 2 == 0

/-- The queued commands of R236, R273 and R355: minor bits above [4] in `hi`, SEM limited to `semMax`. -/
def Raw.cmd (r : Raw) (i : Instr) (semMax : Nat) (vc : Bool) (hi : Bool) (payBits : Nat) : Entry :=
  { instr := i
    minor := hi && r.m 0 2 ≤ semMax && (vc || !r.mbit 4)
    zero := r.eOrdZero && r.vcZero && r.rest.toNat < 2 ^ payBits }

/-- CSRW to the five registers whose write is a row of its own, and to every other. -/
def csrwInstr (h : Hdr) (n : BitVec 12) (a : Name) : Instr :=
  if n = 0x005#12 then .tmaskWrite h a
  else if n = 0x004#12 then .tpendWrite h a
  else if n = 0x201#12 then .mextWrite h a
  else if n = 0x250#12 then .colcmdWrite h a
  else if n = 0x120#12 then .errinjWrite h a
  else .csrw h n a

/-- The G-word entries (R48, R49). Major 0x23 is reserved and answers as a bad minor after check 1. -/
def Raw.gEntry (r : Raw) : Entry :=
  let h := r.hdr
  let mn := r.minor.toNat
  match r.major.toNat with
  | 0x00 =>
    let op := SaluOp.ofCode (r.m 3 4)
    { instr := .salu h op (r.mbit 0) r.d r.a r.gB
      minor := r.m 3 4 < 12 && r.m 1 2 == 0, zero := r.gBZero
      types := !r.mbit 0 || op == .mulh || op == .min || op == .max || op == .shr }
  | 0x01 =>
    match mn with
    | 0 => r.gForm (.smov h r.d r.a) true true false
    | 1 => r.gForm (.smovI h r.d r.immI) true false false true
    | 2 => r.gForm (.smovCat h r.d r.a r.rest) true true false true
    | 3 => r.gForm (.smovGtos h r.d) true false false
    | 4 => r.gForm (.smovStog h r.a) false true false
    | 5 => { r.gForm (.smovRdl h r.d r.a (r.b.setWidth 5)) true true true with
             zero := r.b.toNat < 32 && r.rest == 0 }
    | _ => r.badMinor
  | 0x02 => { instr := .scmp h (Cc.ofCode (r.m 0 3)) (r.mbit 3) r.d r.a r.gB
              minor := r.m 0 3 < 6 && r.m 4 3 == 0, zero := r.gBZero }
  | 0x03 => { instr := .sbra h (SbraMode.ofCode (r.m 0 2)) r.immI
              minor := r.m 0 2 < 3 && r.m 2 6 == 0, zero := r.d == 0 && r.a == 0 && r.b == 0, xreq := true }
  | 0x04 => r.sldst (.sld h (r.mbit 0) (r.mbit 1) (r.mbit 2) r.ldSem r.ldMsc r.d r.a r.immI) true
  | 0x05 => r.sldst (.sst h (r.mbit 0) (r.mbit 1) (r.mbit 2) r.ldSem r.ldMsc r.d r.a r.immI) false
  | 0x06 => r.atomEntry (.satom h r.atom r.d r.a r.b) false true
  | 0x07 =>
    match mn with
    | 0 => { r.gForm (.csrr h r.d (r.rest.setWidth 12)) true false false true with
             zero := r.a == 0 && r.b == 0 && r.rest.toNat < 2 ^ 12 && csrReadable (r.p 0 12) }
    | 1 => { r.gForm (csrwInstr h (r.rest.setWidth 12) r.a) false true false true with
             zero := r.d == 0 && r.b == 0 && r.rest.toNat < 2 ^ 12 && csrWritable (r.p 0 12) }
    | _ => r.badMinor
  | 0x08 => { instr := .bar h (Sem.ofCode (r.m 0 2)) (Msc.ofCode (r.m 2 2))
              minor := r.m 5 3 == 0, zero := r.d == 0 && r.a == 0 && r.b == 0 && r.rest == 0
              types := r.m 2 3 < 4 }
  | 0x09 => { instr := .elect h (r.d.setWidth 3) (if r.mbit 0 then some r.a else none)
              minor := r.m 1 7 == 0, zero := (r.mbit 0 || r.a == 0) && r.b == 0 && r.rest == 0, preds := [r.d] }
  | 0x0A =>
    match mn with
    | 0 => r.gForm (.wmovTol h r.d r.a) true true false
    | 1 => r.gForm (.wmovFroml h r.d r.a) true true false
    | _ => r.badMinor
  | 0x0B => { instr := .wred h (RedOp.ofCode (r.m 3 4) (r.m 0 3)) r.d r.a
              minor := redMinorOk (r.m 3 4) (r.m 0 3) && !r.mbit 7, zero := r.b == 0 && r.rest == 0
              types := r.m 3 4 != 6 || r.m 0 3 < 4 }
  | 0x0C => { instr := .gmemb h (GmembQ.ofCode (r.m 0 2)) r.d (r.rest.setWidth 8)
              minor := r.m 2 6 == 0, zero := r.a == 0 && r.b == 0 && r.rest.toNat < 256 }
  | 0x0D => { instr := .grow h (if r.mbit 0 then some r.d else none) (r.rest.setWidth 7)
              minor := r.m 1 7 == 0
              zero := (r.mbit 0 || r.d == 0) && r.a == 0 && r.b == 0 && r.rest.toNat < 128
                && r.p 0 7 % 8 == 0 && 8 ≤ r.p 0 7 && r.p 0 7 ≤ 112 }
  | 0x0E => { instr := .band h r.bandOp r.d r.a
              minor := !r.mbit 7 && (match r.m 0 2 with
                | 0 => r.m 2 5 == 0
                | 1 => r.m 2 4 < 6 && (!r.mbit 6 || r.m 2 4 == 1 || r.m 2 4 == 2)
                | 2 => r.m 2 5 == 0
                | _ => false)
              zero := r.rest == 0 && (if r.m 0 2 == 2 then r.b.toNat < 8 else r.b == 0)
                && (r.m 0 2 != 0 || (r.d == 0 && r.a == 0)) }
  | 0x0F => { r.gForm (.sflush h) false false false with minor := mn == 0 }
  | 0x10 => r.cmd (.tcopy h r.eSem r.eMsc r.vc r.d r.a (r.rest.setWidth 4)) 3 true (r.m 5 3 == 0) 4
  | 0x11 => r.cmd (.tstore h r.eSem r.eMsc r.vc r.d r.a (r.rest.setWidth 4)) 3 true (r.m 5 3 == 0) 4
  | 0x12 => { r.cmd (.ring h r.eSem r.eMsc r.d r.a) 3 false (r.m 5 3 == 0) 0 with types := r.m 2 2 < 2 }
  | 0x13 => { instr := .twait h (WaitCond.ofCode (r.m 0 3)) (r.mbit 3) (Msc.ofCode (r.m 4 2))
                (r.minor.extractLsb' 6 2) r.d r.a r.b r.immI
              minor := r.m 0 3 < 5, zero := r.mbit 3 || r.m 4 2 == 0 }
  | 0x14 => r.cmd (.tfill h r.eSem r.eMsc r.d r.a (r.rest.setWidth 4)) 1 false (r.m 5 3 == 0) 4
  | 0x15 =>
    { instr := if r.m 0 2 = 2 then .tstatClr h r.d (r.rest.setWidth 5)
               else .tstat h (TstatQ.ofCode (r.m 0 2)) r.d (r.rest.setWidth 5)
      minor := r.m 2 6 == 0
      zero := r.a == 0 && r.b == 0 && r.rest.toNat ≤ 16 && (r.m 0 2 != 3 || r.rest == 0) }
  | 0x16 =>
    match mn with
    | 0 => r.gForm (.prefCc h r.a r.b r.rest) false true true true
    | 1 => r.gForm (.prefL1 h r.a r.b r.rest) false true true true
    | 2 => r.gForm (.prefIx h r.a r.b r.rest) false true true true
    | _ => r.badMinor
  | 0x17 =>
    match mn with
    | 0 => r.gForm (.cctlL1inv h) false false false
    | 1 => r.gForm (.cctlFxinv h r.a r.b) false true true
    | 2 => r.gForm (.cctlAppend h) false false false
    | _ => r.badMinor
  | 0x18 => { instr := .mclaim h (r.mbit 0) r.d (r.rest.setWidth 8)
              minor := r.m 1 7 == 0
              zero := r.a == 0 && r.b == 0 && r.rest.toNat < 256 && 1 ≤ r.p 0 8
                && r.p 0 8 ≤ (if r.mbit 0 then 16 else 128) }
  | 0x19 => { instr := .mrel h (r.mbit 0) r.d r.a (r.rest.setWidth 8)
              minor := r.m 1 7 == 0
              zero := r.b == 0 && r.rest.toNat < 256 && 1 ≤ r.p 0 8 && r.p 0 8 ≤ (if r.mbit 0 then 16 else 128) }
  | 0x1A => r.cmd (.mload h r.eSem r.eMsc r.vc (r.mbit 5) r.d r.a (r.rest.setWidth 6)) 3 true (r.m 6 2 == 0) 6
  | 0x1B => r.cmd (.mma h r.vc (r.mbit 5) r.d r.a (r.rest.setWidth 6)) 0 true (r.m 6 2 == 0) 6
  | 0x1C => r.cmd (.mmasp h (SpPat.ofCode (r.m 6 2)) r.vc (r.mbit 5) r.d r.a (r.rest.setWidth 6)) 0 true
              (r.m 6 2 < 3) 6
  | 0x1D => r.cmd (.mzero h r.d r.a (r.rest.setWidth 6)) 0 false (r.m 5 3 == 0) 6
  | 0x1E => r.cmd (.mstore h r.eSem r.eMsc r.vc (r.mbit 5) r.d r.a (r.rest.setWidth 6)) 3 true (r.m 6 2 == 0) 6
  | 0x1F => { instr := .mwait h (r.mbit 0) (Msc.ofCode (r.m 1 2)) (r.minor.extractLsb' 3 2) r.d (r.rest.setWidth 6) r.b
              minor := r.m 5 3 == 0, zero := (r.mbit 0 || r.m 1 2 == 0) && r.a == 0 && r.rest.toNat < 64 }
  | 0x20 => { r.gForm (.mstat h (MstatQ.ofCode (r.m 0 2)) r.d r.a) true true false with minor := r.m 2 6 == 0 }
  | 0x21 => r.cmd (.mcvt h r.vc r.d r.a (r.rest.setWidth 6)) 0 true (r.m 5 3 == 0) 6
  | 0x22 =>
    match mn with
    | 0 => r.gForm (.mqcfgAlloc h r.d) true false false
    | 1 => r.gForm (.mqcfgFree h r.d r.a) true true false
    | 2 => r.gForm (.mqcfgClr h r.d r.a) true true false
    | _ => r.badMinor
  | 0x24 => { r.gForm (.lbind h r.d r.a r.b) true true true with minor := mn == 0 }
  | 0x25 => r.cmd (.mmad h r.vc (r.mbit 5) r.d r.a (r.rest.setWidth 6)) 0 true (r.m 6 2 == 0) 6
  | 0x26 =>
    match mn with
    | 0 => r.gForm (.lrefForce h r.d r.a) true true false
    | 1 => r.gForm (.lrefDrop h r.d r.a) true true false
    | 2 => r.gForm (.lrefQuery h r.d r.a) true true false
    | _ => r.badMinor
  | 0x27 =>
    match mn with
    | 0 => r.gForm (.lwatchAdd h r.d r.a r.b) true true true
    | 1 => r.gForm (.lwatchDel h r.d r.a) true true false
    | 2 => r.gForm (.lwatchGen h r.d r.a) true true false
    | _ => r.badMinor
  | 0x28 =>
    match mn with
    | 0 => r.gForm (.snapTake h r.d r.a r.b) true true true
    | 1 => { r.gForm (.snapRd h r.d (r.rest.setWidth 3) r.a r.b) true true true true with zero := r.rest.toNat < 8 }
    | 2 => r.gForm (.snapQuery h r.d r.a) true true false
    | _ => r.badMinor
  | 0x29 => { r.gForm (.sndrop h r.d r.a) true true false with minor := mn == 0 }
  | 0x2A => { r.gForm (.rollb h r.d r.a r.b) true true true with minor := mn == 0 }
  | 0x2B =>
    match mn with
    | 0 => r.gForm (.publ h r.d) true false false
    | 1 => r.gForm (.publWait h false r.d r.a) true true false
    | 5 => r.gForm (.publWait h true r.d r.a) true true false
    | 2 => r.gForm (.publSeal h r.d) true false false
    | _ => r.badMinor
  | 0x2C =>
    let rr : BitVec 2 := r.rest.setWidth 2
    match mn with
    | 0 => { r.gForm (.shipCfg h r.d r.a rr) true true false true with zero := r.b == 0 && r.rest.toNat < 4 }
    | 1 => { r.gForm (.shipStart h r.d rr) true false false true with zero := r.a == 0 && r.b == 0 && r.rest.toNat < 4 }
    | 2 => { r.gForm (.shipStop h r.d rr) true false false true with zero := r.a == 0 && r.b == 0 && r.rest.toNat < 4 }
    | 3 => { r.gForm (.shipStat h r.d rr) true false false true with zero := r.a == 0 && r.b == 0 && r.rest.toNat < 4 }
    | 4 => r.gForm (.shipAccept h r.d r.a) true true false
    | 5 => r.gForm (.shipPromote h r.d) true false false
    | _ => r.badMinor
  | 0x2D =>
    match mn with
    | 0 => r.gForm (.ixctlQuery h r.d r.a r.rest) true true false true
    | 1 => r.gForm (.ixctlDrop h r.a r.b) false true true
    | 2 => r.gForm (.ixctlUnhome h r.a r.rest) false true false true
    | _ => r.badMinor
  | 0x2E => { r.gForm (.nbarm h r.d r.a r.b) true true true with minor := mn == 0 }
  | 0x2F => { r.gForm (.nbdisarm h r.d r.a) true true false with minor := mn == 0 }
  | 0x30 => r.cmd (.nbload h r.vc r.d r.a) 0 true (r.m 5 3 == 0) 0
  | 0x31 => r.cmd (.nbstrm h r.vc (r.mbit 5) r.d r.a) 0 true (r.m 6 2 == 0) 0
  | 0x32 =>
    if r.mbit 5 then
      { instr := .nbdrainClr h r.d
        minor := r.m 0 2 == 0 && r.m 4 4 == 2
        zero := r.m 2 2 == 0 && r.a == 0 && r.b == 0 && r.rest == 0 }
    else r.cmd (.nbdrain h (r.mbit 0) r.eMsc r.d r.a) 1 false (r.m 6 2 == 0) 0
  | 0x33 => r.cmd (.nbop h r.eSem r.eMsc r.vc r.d r.a) 3 true (r.m 5 3 == 0) 0
  | 0x34 => { r.gForm (.trav h r.eSem r.eMsc r.d r.a) true true false with
              minor := r.m 4 4 == 0, zero := r.eOrdZero && r.b == 0 && r.rest == 0 }
  | 0x35 =>
    match mn with
    | 0 => r.gForm (.travqCount h r.d) true false false
    | 1 => r.gForm (.travqCancel h r.d r.a) true true false
    | _ => r.badMinor
  | 0x36 => { r.gForm (.launch h r.d r.a) true true false with minor := mn == 0 }
  | 0x37 =>
    match mn with
    | 0 => r.gForm (.mboxCfg h r.d r.a r.b) true true true
    | 1 => r.gForm (.mboxPost h r.d r.a r.b) true true true
    | 2 => r.gForm (.mboxOpen h r.d r.a r.b) true true true
    | _ => r.badMinor
  | 0x38 =>
    match mn with
    | 0 => r.gForm (.ctxsvWrite h r.d r.a r.b) true true true
    | 1 => r.gForm (.ctxsvRead h r.d r.a r.b) true true true
    | 2 => r.gForm (.ctxsvResume h r.d r.a) true true false
    | 3 => r.gForm (.ctxsvKill h r.d r.a) true true false
    | _ => r.badMinor
  | 0x39 =>
    match mn with
    | 0 => r.gForm (.preemptCtx h r.d r.a) true true false
    | 1 => r.gForm (.preemptLaunch h r.d r.a) true true false
    | 2 => r.gForm (.preemptBlock h r.d r.a r.b) true true true
    | 3 => r.gForm (.preemptResume h r.d r.a) true true false
    | _ => r.badMinor
  | 0x3A =>
    match mn with
    | 0 => r.gForm (.tret h) false false false
    | 1 => r.gForm (.tretExit h) false false false
    | _ => r.badMinor
  | 0x3B =>
    match mn with
    | 0 => r.gForm (.clk h r.d) true false false
    | 1 => r.gForm (.clkCyc h r.d) true false false
    | _ => r.badMinor
  | 0x3C =>
    match mn with
    | 0 => r.gForm (.fltqDone h r.d r.a) true true false
    | 1 => r.gForm (.fltqFail h r.d r.a r.b) true true true
    | 2 => r.gForm (.fltqStat h r.d r.a) true true false
    | _ => r.badMinor
  | 0x3D =>
    match mn with
    | 0 => r.gForm (.tlbiAll h r.d) true false false
    | 1 => r.gForm (.tlbiCtx h r.d r.a) true true false
    | 2 => r.gForm (.tlbiRange h r.d r.a r.b) true true true
    | _ => r.badMinor
  | 0x3E =>
    match mn with
    | 0 => r.gForm (.keyctlLoad h r.d r.a r.b) true true true
    | 1 => r.gForm (.keyctlBind h r.d r.a r.b) true true true
    | 2 => r.gForm (.keyctlErase h r.d r.a) true true false
    | 3 => r.gForm (.keyctlQuery h r.d r.a) true true false
    | _ => r.badMinor
  | 0x3F =>
    match mn with
    | 0 => r.gForm (.dbgAttach h r.d r.a) true true false
    | 1 => r.gForm (.dbgDetach h r.d r.a) true true false
    | 2 => r.gForm (.dbgStop h r.d r.a r.b) true true true
    | 3 => r.gForm (.dbgResume h r.d r.a r.b) true true true
    | 4 => r.gForm (.dbgRdreg h r.d r.a) true true false
    | 5 => r.gForm (.dbgWrreg h r.d r.a r.b) true true true
    | 6 => r.gForm (.dbgStat h r.d r.a r.b) true true true
    | _ => r.badMinor
  | _ => r.badMinor

def Raw.entry (r : Raw) : Entry := if r.g then r.gEntry else r.pEntry

/-- What the checks of R50 depend on beside the word: the encoding revision (R71), the launch's band flag (R160, R259)
and determinism flag (R229), whether the warp is in a trap handler (R395), and how many valid sets the block has
(R161). -/
structure DecCtx where
  e1 : Bool
  band : Bool
  det : Bool
  handler : Bool
  sets : Nat := 0
  deriving DecidableEq, Repr

/-- E2, with every state-dependent form permitted. -/
def DecCtx.open : DecCtx := { e1 := false, band := true, det := false, handler := true }

/-- The forms that check 4 turns away by state (R229, R395). -/
def Instr.formOk (cx : DecCtx) : Instr → Bool
  | .clkCyc .. => !cx.det
  | .tret .. | .tretExit .. => cx.handler
  | _ => true

/-- The forms that check 5 turns away by state (R160, R259). -/
def Instr.bandOk (cx : DecCtx) : Instr → Bool
  | .band .. | .ring .. => cx.band
  | _ => true

/-- The forms that check 6 turns away by state: a GROW that can never be granted (R161). -/
def Instr.zeroOk (cx : DecCtx) : Instr → Bool
  | .grow _ _ n => n.toNat + 16 * cx.sets ≤ 3584
  | _ => true

/-- R71: the type codes that E1 reserves. -/
def Instr.tapered : Instr → Bool
  | .cvtf _ dt sty .. => dt.isTapered || sty.isTapered
  | .cvti _ _ sty .. => sty.isTapered
  | .pack _ dt .. => dt.isTapered
  | .unpack _ sty .. => sty.isTapered
  | _ => false

/-- Checks 1 to 9 of R50, in their order; checks 10 and 11 depend on the warp and are made at issue. -/
def decodeRaw (cx : DecCtx) (r : Raw) : Except (BitVec 8) Instr :=
  let e := r.entry
  if r.g && r.major = 0x23#6 then .error 0x01
  else if !r.x && (r.scope = 2#2 || e.xreq) then .error 0x07
  else if r.gp = 7#3 && r.gn && !cx.e1 then .error 0x0A
  else if !(e.minor && e.instr.formOk cx) then .error 0x02
  else if !(e.instr.scopes.contains (Scope.ofCode r.scope) && e.instr.bandOk cx) then .error 0x05
  else if !(e.zero && e.instr.zeroOk cx) then .error 0x08
  else if !(e.types && (!cx.e1 || !e.instr.tapered)) then .error 0x0B
  else if !(e.preds.all (fun n => n.toNat < 8) && e.instr.opnds.all Opnd.classOk) then .error 0x03
  else if !(e.instr.opnds.all Opnd.alignOk) then .error 0x04
  else .ok e.instr

/-- The instruction that the word at a PC and the word after it hold, or the subcode of the illegal-instruction trap. -/
def decode (cx : DecCtx) (iw ew : Word) : Except (BitVec 8) Instr := decodeRaw cx (Raw.ofWords iw ew)

/-- R28, R38: how far the next word in sequence lies. -/
def Hdr.size (h : Hdr) : Nat := if h.x then 8 else 4

/-- The instruction a table word stands for: `w` holds the instruction word in bits [31:0], an extension word above. -/
def decodeTableWord (nbits w : Nat) : Option Instr :=
  let v := w % 2 ^ nbits
  match decode .open (BitVec.ofNat 32 v) (BitVec.ofNat 32 (v / 2 ^ 32)) with
  | .ok i => some i
  | .error _ => none

/-! ## The encoder -/

/-- The fields of a word from its frame, its minor and the rest of its payload; at set scope the set number stands
above the low 12 payload bits (R34). -/
def Hdr.fields (h : Hdr) (g : Bool) (major minor : Nat) (d a b : Name) (rest : Nat) : Raw :=
  { g := g, s := h.s, scope := h.scope.code, major := BitVec.ofNat 6 major, d := d, a := a, b := b, x := h.x,
    gn := h.gn, gp := h.gp, minor := BitVec.ofNat 8 minor,
    pay := if h.scope = .set then h.set ++ BitVec.ofNat 12 rest else BitVec.ofNat 20 rest }

def ASrc.name : ASrc → Name | .lane n => n | .uni n => n
def ASrc.u : ASrc → Nat | .lane _ => 0 | .uni _ => 128
def BSrc.name : BSrc → Name | .reg n => n | .imm _ => 0
def BSrc.i (k : Nat) : BSrc → Nat | .reg _ => 0 | .imm _ => k
def BSrc.rest : BSrc → Nat | .reg _ => 0 | .imm v => v.toNat
def w64Code (b : Bool) : Nat := if b then 32 else 0
def pn (p : BitVec 3) : Name := p.setWidth 7
def optName : Option Name → Name | some n => n | none => 0

/-- A P-word with A in the ASrc form. -/
def Hdr.p (h : Hdr) (major minor : Nat) (d : Name) (a : ASrc) (b : Name) (rest : Nat) : Raw :=
  h.fields false major (minor + a.u) d a.name b rest

/-- A P-word whose B is a register or the immediate of R99. -/
def Hdr.pb (h : Hdr) (major minor : Nat) (d : Name) (a : ASrc) (b : BSrc) : Raw :=
  h.fields false major (minor + a.u + b.i 64) d a.name b.name b.rest

/-- A P-word without U. -/
def Hdr.p0 (h : Hdr) (major minor : Nat) (d a b : Name) (rest : Nat) : Raw := h.fields false major minor d a b rest

def Hdr.gw (h : Hdr) (major minor : Nat) (d a b : Name) (rest : Nat) : Raw := h.fields true major minor d a b rest

def ldB (sem : Sem) (msc : Msc) : Name := BitVec.ofNat 7 (sem.code + 4 * msc.code)
def ordCode (sem : Sem) (msc : Msc) : Nat := sem.code + 4 * msc.code
def ldMinor (strong : Bool) (z : Size) (hint : Hint) : Nat := hint.code + z.code * 8 + bn strong * 64

/-- The fields of the word of an instruction; none for an event. -/
def Instr.raw : Instr → Option Raw
  | .iadd h t sat d a b => some (h.pb 0x00 (t.code * 16 + bn sat * 8) d a b)
  | .isub h t sat d a b => some (h.pb 0x01 (t.code * 16 + bn sat * 8) d a b)
  | .imul h t d a b => some (h.pb 0x02 (t.code * 16) d a b)
  | .imulh h u d a b => some (h.pb 0x03 (bn u * 16) d a b)
  | .imad h u d a b c => some (h.p 0x04 (bn u * 16) d a b c.toNat)
  | .imadw h u d a b c => some (h.p 0x05 (bn u * 16) d a b c.toNat)
  | .imin h t d a b => some (h.pb 0x06 (t.code * 16) d a b)
  | .imax h t d a b => some (h.pb 0x07 (t.code * 16) d a b)
  | .iabsd h t d a b => some (h.pb 0x08 (t.code * 16) d a b)
  | .idiv h u d a b => some (h.pb 0x09 (bn u * 16) d a b)
  | .irem h u d a b => some (h.pb 0x0A (bn u * 16) d a b)
  | .lea h u d a b sh => some (h.p 0x0B (bn u * 16) d a b sh.toNat)
  | .mov h w d a => some (h.p 0x0C (w64Code w) d a 0 0)
  | .movi h t d v => some (h.p0 0x0D (t.code * 16) d 0 0 v.toNat)
  | .movhi h d a v => some (h.p 0x0E 0 d a 0 v.toNat)
  | .idot4 h an bn' sat d a b c => some (h.p 0x0F (bn an * 16 + bn bn' * 32 + bn sat * 8) d a b c.toNat)
  | .and h w n d a b => some (h.pb 0x10 (w64Code w + bn n) d a b)
  | .or h w n d a b => some (h.pb 0x11 (w64Code w + bn n) d a b)
  | .xor h w n d a b => some (h.pb 0x12 (w64Code w + bn n) d a b)
  | .lop3 h w d a b c h1 h0 => some (h.p 0x13 (w64Code w) d a b (c.toNat + h0.toNat * 2 ^ 7 + h1.toNat * 2 ^ 11))
  | .shl h w d a b => some (h.pb 0x14 (w64Code w) d a b)
  | .shr h t d a b => some (h.pb 0x15 (t.code * 16) d a b)
  | .bfx h u d a b => match b with
    | .reg n => some (h.p 0x16 (bn u * 16) d a n 0)
    | .imm pos len => some (h.p 0x16 (bn u * 16 + 64) d a 0 (pos.toNat + len.toNat * 32))
  | .bcnt h op w d a => some (h.p 0x17 (w64Code w + op.code) d a 0 0)
  | .fadd h rm na nb d a b => some (h.pb 0x18 (rm.code + bn na * 8 + bn nb * 16) d a b)
  | .fmul h rm na nb d a b => some (h.pb 0x19 (rm.code + bn na * 8 + bn nb * 16) d a b)
  | .ffma h rm na nc d a b c => some (h.p 0x1A (rm.code + bn na * 8 + bn nc * 16) d a b c.toNat)
  | .fmin h np na nb d a b => some (h.pb 0x1B (bn na * 8 + bn nb * 16 + bn np * 32) d a b)
  | .fmax h np na nb d a b => some (h.pb 0x1C (bn na * 8 + bn nb * 16 + bn np * 32) d a b)
  | .frcp h rm d a => some (h.p 0x1D rm.code d a 0 0)
  | .frsq h rm d a => some (h.p 0x1E rm.code d a 0 0)
  | .fsqrt h rm d a => some (h.p 0x1F rm.code d a 0 0)
  | .fex2 h d a => some (h.p 0x20 0 d a 0 0)
  | .flg2 h d a => some (h.p 0x21 0 d a 0 0)
  | .fsin h d a => some (h.p 0x22 0 d a 0 0)
  | .fcos h d a => some (h.p 0x23 0 d a 0 0)
  | .hfma2 h swb bf nc na rm d a b c =>
    some (h.p 0x24 (rm.code + bn na * 8 + bn nc * 16 + bn bf * 32 + bn swb * 64) d a b c.toNat)
  | .fclass h f d a => some (h.p 0x25 (f.code * 16) d a 0 0)
  | .cvtf h dt sty rm seed d a => some (h.p 0x26 rm.code d a 0 (dt.code + sty.code * 32 + seed.payload))
  | .cvti h dt sty rm d a => some (h.p 0x27 rm.code d a 0 (dt.code + sty.code * 32))
  | .pack h dt k rm seed d a b => some (h.p 0x28 rm.code d a b (dt.code + k.toNat * 32 + seed.payload))
  | .unpack h sty k d a sc => some (h.p 0x29 (bn sc.isSome * 8) d a (optName sc) (sty.code + k.toNat * 32))
  | .qscale h dt rm seed d a enc => some (h.p 0x2A (rm.code + bn enc.isSome * 8) d a (optName enc) (dt.code + seed.payload))
  | .frnd h rm d a => some (h.p 0x2B rm.code d a 0 0)
  | .icmp h cc t p a b => some (h.pb 0x2C (cc.code + t.code * 16) (pn p) a b)
  | .fcmp h cc p a b => some (h.pb 0x2D cc.code (pn p) a b)
  | .sel h w p neg d a b => some (h.p 0x2E (w64Code w) d a b (p.toNat + bn neg * 8))
  | .plop h f => match f with
    | .lut d a b c l => some (h.p0 0x2F 0 (pn d) (pn a) (pn b) (c.toNat + l.toNat * 8))
    | .toReg d => some (h.p0 0x2F 1 d 0 0 0)
    | .fromReg a m => some (h.p 0x2F 2 0 a 0 m.toNat)
  | .shfl h m w d a b => match b with
    | .reg n => some (h.p 0x30 (m.code + w.code * 16) d a (if m = .rev then 0 else n) 0)
    | .imm v => some (h.p 0x30 (m.code + w.code * 16 + 64) d a 0 v.toNat)
  | .vote h m neg d p => some (h.p0 0x31 m.code d (pn p) (if neg then 1 else 0) 0)
  | .prmt h v d a b => some (h.p 0x32 0 d a b v.toNat)
  | .xred h op d a => some (h.p 0x33 op.code d a 0 0)
  | .ld h k z sem msc hint d a off => some (h.p 0x34 (ldMinor k z hint) d a (ldB sem msc) off.toNat)
  | .st h k z sem msc hint d a off => some (h.p 0x35 (ldMinor k z hint) d a (ldB sem msc) off.toNat)
  | .lds h k z sem msc d a off => some (h.p 0x36 (ldMinor k z .none) d a (ldB sem msc) off.toNat)
  | .sts h k z sem msc d a off => some (h.p 0x37 (ldMinor k z .none) d a (ldB sem msc) off.toNat)
  | .atom h k d a b => some (h.p 0x38 k.minor d a b k.payload)
  | .red h k a b => some (h.p 0x39 k.minor 0 a b k.payload)
  | .txb h d off => some (h.p0 0x3A 0 d 0 0 off.toNat)
  | .txe h => some (h.p0 0x3A 1 0 0 0 0)
  | .txa h c => some (h.p0 0x3A 2 0 0 0 c.toNat)
  | .txq h d => some (h.p0 0x3A 3 d 0 0 0)
  | .fence h sem msc => some (h.p0 0x3B (ordCode sem msc) 0 0 0 0)
  | .bra h off => some (h.p0 0x3C 0 0 0 0 off.toNat)
  | .brx h a => some (h.p 0x3D 0 0 a 0 0)
  | .call h d off => some (h.p0 0x3E 0 d 0 0 off.toNat)
  | .ret h a => some (h.p 0x3E 1 0 a 0 0)
  | .nop h => some (h.p0 0x3F 0 0 0 0 0)
  | .meet h off => some (h.p0 0x3F 1 0 0 0 off.toNat)
  | .meetsv h d => some (h.p0 0x3F 2 d 0 0 0)
  | .meetld h a => some (h.p 0x3F 3 0 a 0 0)
  | .exit h => some (h.p0 0x3F 4 0 0 0 0)
  | .yield h => some (h.p0 0x3F 5 0 0 0 0)
  | .trap h c => some (h.p0 0x3F 6 0 0 0 c.toNat)
  | .bkpt h c => some (h.p0 0x3F 7 0 0 0 c.toNat)
  | .waita h c sp acq msc tmo d a b =>
    some (h.p0 0x3F 8 d a b (c.code + bn sp * 8 + bn acq * 16 + msc.code * 32 + tmo.toNat * 256))
  | .salu h op n d a b => some (h.gw 0x00 (op.code * 8 + bn n + b.i 128) d a b.name b.rest)
  | .smov h d a => some (h.gw 0x01 0 d a 0 0)
  | .smovI h d v => some (h.gw 0x01 1 d 0 0 v.toNat)
  | .smovCat h d a v => some (h.gw 0x01 2 d a 0 v.toNat)
  | .smovGtos h d => some (h.gw 0x01 3 d 0 0 0)
  | .smovStog h a => some (h.gw 0x01 4 0 a 0 0)
  | .smovRdl h d a k => some (h.gw 0x01 5 d a (k.setWidth 7) 0)
  | .scmp h cc n g a b => some (h.gw 0x02 (cc.code + bn n * 8 + b.i 128) g a b.name b.rest)
  | .sbra h m off => some (h.gw 0x03 m.code 0 0 0 off.toNat)
  | .sld h b32 k sp sem msc d a off => some (h.gw 0x04 (bn b32 + bn k * 2 + bn sp * 4) d a (ldB sem msc) off.toNat)
  | .sst h b32 k sp sem msc d a off => some (h.gw 0x05 (bn b32 + bn k * 2 + bn sp * 4) d a (ldB sem msc) off.toNat)
  | .satom h k d a b => some (h.gw 0x06 k.minor d a b k.payload)
  | .csrr h d n => some (h.gw 0x07 0 d 0 0 n.toNat)
  | .csrw h n a => some (h.gw 0x07 1 0 a 0 n.toNat)
  | .bar h sem msc => some (h.gw 0x08 (ordCode sem msc) 0 0 0 0)
  | .elect h p sa => some (h.gw 0x09 (bn sa.isSome) (pn p) (optName sa) 0 0)
  | .wmovTol h d w => some (h.gw 0x0A 0 d w 0 0)
  | .wmovFroml h w a => some (h.gw 0x0A 1 w a 0 0)
  | .wred h op d a => some (h.gw 0x0B op.code d a 0 0)
  | .gmemb h q d n => some (h.gw 0x0C q.code d 0 0 n.toNat)
  | .grow h g n => some (h.gw 0x0D (bn g.isSome) (optName g) 0 0 n.toNat)
  | .band h op d a => some (h.gw 0x0E op.minor d a (match op with | .bcast k => pn k | _ => 0) 0)
  | .sflush h => some (h.gw 0x0F 0 0 0 0 0)
  | .tcopy h sem msc v d a q => some (h.gw 0x10 (ordCode sem msc + v.bit * 16) d a v.name q.toNat)
  | .tstore h sem msc v d a q => some (h.gw 0x11 (ordCode sem msc + v.bit * 16) d a v.name q.toNat)
  | .ring h sem msc d a => some (h.gw 0x12 (ordCode sem msc) d a 0 0)
  | .twait h c acq msc tmo d a b off =>
    some (h.gw 0x13 (c.code + bn acq * 8 + msc.code * 16 + tmo.toNat * 64) d a b off.toNat)
  | .tfill h sem msc d a q => some (h.gw 0x14 (ordCode sem msc) d a 0 q.toNat)
  | .tstat h q d n => some (h.gw 0x15 q.code d 0 0 n.toNat)
  | .tstatClr h d n => some (h.gw 0x15 2 d 0 0 n.toNat)
  | .prefCc h a b off => some (h.gw 0x16 0 0 a b off.toNat)
  | .prefL1 h a b off => some (h.gw 0x16 1 0 a b off.toNat)
  | .prefIx h a b off => some (h.gw 0x16 2 0 a b off.toNat)
  | .cctlL1inv h => some (h.gw 0x17 0 0 0 0 0)
  | .cctlFxinv h a b => some (h.gw 0x17 1 0 a b 0)
  | .cctlAppend h => some (h.gw 0x17 2 0 0 0 0)
  | .mclaim h acc d n => some (h.gw 0x18 (bn acc) d 0 0 n.toNat)
  | .mrel h acc d a n => some (h.gw 0x19 (bn acc) d a 0 n.toNat)
  | .mload h sem msc v sp d a q => some (h.gw 0x1A (ordCode sem msc + v.bit * 16 + bn sp * 32) d a v.name q.toNat)
  | .mma h v z d a q => some (h.gw 0x1B (v.bit * 16 + bn z * 32) d a v.name q.toNat)
  | .mmasp h pat v z d a q => some (h.gw 0x1C (v.bit * 16 + bn z * 32 + pat.code * 64) d a v.name q.toNat)
  | .mzero h d a q => some (h.gw 0x1D 0 d a 0 q.toNat)
  | .mstore h sem msc v sp d a q => some (h.gw 0x1E (ordCode sem msc + v.bit * 16 + bn sp * 32) d a v.name q.toNat)
  | .mwait h acq msc tmo d q b => some (h.gw 0x1F (bn acq + msc.code * 2 + tmo.toNat * 8) d 0 b q.toNat)
  | .mstat h q d a => some (h.gw 0x20 q.code d a 0 0)
  | .mcvt h v d a q => some (h.gw 0x21 (v.bit * 16) d a v.name q.toNat)
  | .mqcfgAlloc h d => some (h.gw 0x22 0 d 0 0 0)
  | .mqcfgFree h d a => some (h.gw 0x22 1 d a 0 0)
  | .mqcfgClr h d a => some (h.gw 0x22 2 d a 0 0)
  | .lbind h d a b => some (h.gw 0x24 0 d a b 0)
  | .mmad h v f d a q => some (h.gw 0x25 (v.bit * 16 + bn f * 32) d a v.name q.toNat)
  | .lrefForce h d a => some (h.gw 0x26 0 d a 0 0)
  | .lrefDrop h d a => some (h.gw 0x26 1 d a 0 0)
  | .lrefQuery h d a => some (h.gw 0x26 2 d a 0 0)
  | .lwatchAdd h d a b => some (h.gw 0x27 0 d a b 0)
  | .lwatchDel h d a => some (h.gw 0x27 1 d a 0 0)
  | .lwatchGen h d a => some (h.gw 0x27 2 d a 0 0)
  | .snapTake h d a b => some (h.gw 0x28 0 d a b 0)
  | .snapRd h d g a b => some (h.gw 0x28 1 d a b g.toNat)
  | .snapQuery h d a => some (h.gw 0x28 2 d a 0 0)
  | .sndrop h d a => some (h.gw 0x29 0 d a 0 0)
  | .rollb h d a b => some (h.gw 0x2A 0 d a b 0)
  | .publ h d => some (h.gw 0x2B 0 d 0 0 0)
  | .publWait h acq d a => some (h.gw 0x2B (1 + bn acq * 4) d a 0 0)
  | .publSeal h d => some (h.gw 0x2B 2 d 0 0 0)
  | .shipCfg h d a r => some (h.gw 0x2C 0 d a 0 r.toNat)
  | .shipStart h d r => some (h.gw 0x2C 1 d 0 0 r.toNat)
  | .shipStop h d r => some (h.gw 0x2C 2 d 0 0 r.toNat)
  | .shipStat h d r => some (h.gw 0x2C 3 d 0 0 r.toNat)
  | .shipAccept h d a => some (h.gw 0x2C 4 d a 0 0)
  | .shipPromote h d => some (h.gw 0x2C 5 d 0 0 0)
  | .ixctlQuery h d a off => some (h.gw 0x2D 0 d a 0 off.toNat)
  | .ixctlDrop h a b => some (h.gw 0x2D 1 0 a b 0)
  | .ixctlUnhome h a off => some (h.gw 0x2D 2 0 a 0 off.toNat)
  | .nbarm h d a b => some (h.gw 0x2E 0 d a b 0)
  | .nbdisarm h d a => some (h.gw 0x2F 0 d a 0 0)
  | .nbload h v d a => some (h.gw 0x30 (v.bit * 16) d a v.name 0)
  | .nbstrm h v acc d a => some (h.gw 0x31 (v.bit * 16 + bn acc * 32) d a v.name 0)
  | .nbdrain h rel msc d a => some (h.gw 0x32 (bn rel + msc.code * 4) d a 0 0)
  | .nbdrainClr h d => some (h.gw 0x32 32 d 0 0 0)
  | .nbop h sem msc v d a => some (h.gw 0x33 (ordCode sem msc + v.bit * 16) d a v.name 0)
  | .trav h sem msc d a => some (h.gw 0x34 (ordCode sem msc) d a 0 0)
  | .travqCount h d => some (h.gw 0x35 0 d 0 0 0)
  | .travqCancel h d a => some (h.gw 0x35 1 d a 0 0)
  | .launch h d a => some (h.gw 0x36 0 d a 0 0)
  | .mboxCfg h d a b => some (h.gw 0x37 0 d a b 0)
  | .mboxPost h d a b => some (h.gw 0x37 1 d a b 0)
  | .mboxOpen h d a b => some (h.gw 0x37 2 d a b 0)
  | .ctxsvWrite h d a b => some (h.gw 0x38 0 d a b 0)
  | .ctxsvRead h d a b => some (h.gw 0x38 1 d a b 0)
  | .ctxsvResume h d a => some (h.gw 0x38 2 d a 0 0)
  | .ctxsvKill h d a => some (h.gw 0x38 3 d a 0 0)
  | .preemptCtx h d a => some (h.gw 0x39 0 d a 0 0)
  | .preemptLaunch h d a => some (h.gw 0x39 1 d a 0 0)
  | .preemptBlock h d a b => some (h.gw 0x39 2 d a b 0)
  | .preemptResume h d a => some (h.gw 0x39 3 d a 0 0)
  | .tret h => some (h.gw 0x3A 0 0 0 0 0)
  | .tretExit h => some (h.gw 0x3A 1 0 0 0 0)
  | .clk h d => some (h.gw 0x3B 0 d 0 0 0)
  | .clkCyc h d => some (h.gw 0x3B 1 d 0 0 0)
  | .fltqDone h d a => some (h.gw 0x3C 0 d a 0 0)
  | .fltqFail h d a b => some (h.gw 0x3C 1 d a b 0)
  | .fltqStat h d a => some (h.gw 0x3C 2 d a 0 0)
  | .tlbiAll h d => some (h.gw 0x3D 0 d 0 0 0)
  | .tlbiCtx h d a => some (h.gw 0x3D 1 d a 0 0)
  | .tlbiRange h d a b => some (h.gw 0x3D 2 d a b 0)
  | .keyctlLoad h d a b => some (h.gw 0x3E 0 d a b 0)
  | .keyctlBind h d a b => some (h.gw 0x3E 1 d a b 0)
  | .keyctlErase h d a => some (h.gw 0x3E 2 d a 0 0)
  | .keyctlQuery h d a => some (h.gw 0x3E 3 d a 0 0)
  | .dbgAttach h d a => some (h.gw 0x3F 0 d a 0 0)
  | .dbgDetach h d a => some (h.gw 0x3F 1 d a 0 0)
  | .dbgStop h d a b => some (h.gw 0x3F 2 d a b 0)
  | .dbgResume h d a b => some (h.gw 0x3F 3 d a b 0)
  | .dbgRdreg h d a => some (h.gw 0x3F 4 d a 0 0)
  | .dbgWrreg h d a b => some (h.gw 0x3F 5 d a b 0)
  | .dbgStat h d a b => some (h.gw 0x3F 6 d a b 0)
  | .tmaskWrite h a => some (h.gw 0x07 1 0 a 0 0x005)
  | .tpendWrite h a => some (h.gw 0x07 1 0 a 0 0x004)
  | .mextWrite h a => some (h.gw 0x07 1 0 a 0 0x201)
  | .colcmdWrite h a => some (h.gw 0x07 1 0 a 0 0x250)
  | .errinjWrite h a => some (h.gw 0x07 1 0 a 0 0x120)
  | _ => none

/-- R33: the term fits the words its X bit gives it: with X = 0 the extension fields are those of 0x7000_0000. -/
def Instr.frameOk (i : Instr) : Bool :=
  match i.raw with
  | none => false
  | some r => r.x || (!r.gn && r.gp == 7 && r.minor == 0 && r.pay == 0 && r.scope != 2 && !r.entry.xreq)

/-- A well-formed instruction that some words encode under E2: its guard is not the reserved form (R35). -/
def Instr.encodable (i : Instr) : Bool :=
  i.wellFormed && i.frameOk && (match i.hdr? with | some h => !(h.gn && h.gp == 7) | none => false)

/-- The words of an instruction: one, or two when X = 1 (R28). -/
def encode (i : Instr) : List Word :=
  match i.raw with
  | none => []
  | some r => if r.x then [r.iw, r.ew] else [r.iw]

end Sys2Proof
end

