-- ==== Sys2Proof/Config.lean ====
section
/-!
DEFINITION. Config.lean: what an implementation or a published standard fixes and the spec does not define, as
opaque constants: nothing can be proved of their values (log entries 8, PRESUMED, and 9, DESIGN CHOICE).
-/
namespace Sys2Proof.Config

/-- A free 64-bit value: the n-th value the spec leaves open (log entry 9, DESIGN CHOICE). -/
opaque free64 : Nat → BitVec 64

/-- A free 1,024-bit value for data the spec leaves open (log entry 6, DESIGN CHOICE). -/
opaque freeLine : Nat → BitVec 1024

/-- SHAKE256 with 512 bits of output (R424). -/
opaque shake512 : List (BitVec 8) → BitVec 512

/-- ML-DSA-65 verification of a signature over data (R425). -/
opaque mldsaVerify : List (BitVec 8) → List (BitVec 8) → Bool

/-- ML-DSA-65 signature under the alias key (R423, R426). -/
opaque aliasSign : List (BitVec 8) → List (BitVec 8)

/-- The SPDM responder's answer bytes to a request (R426); the SPDM specification gives them, this spec does not. -/
opaque spdmAnswer : List (BitVec 8) → List (BitVec 8)

/-- Whether an SPDM message of a session authenticates (R426). -/
opaque spdmAccept : Nat → List (BitVec 8) → Bool

/-- The session key derived from a session's application secret (R426). -/
opaque sessionKey : Nat → List (BitVec 8) → BitVec 512

/-- AES-256-GCM: ciphertext and tag of a plaintext under key, IV and associated data (R380). -/
opaque gcmSeal : BitVec 512 → BitVec 96 → List (BitVec 8) → List (BitVec 8) → List (BitVec 8) × BitVec 128

/-- AES-256-GCM opening: the plaintext, or none on a tag mismatch (R382). -/
opaque gcmOpen : BitVec 512 → BitVec 96 → List (BitVec 8) → List (BitVec 8) → BitVec 128 → Option (List (BitVec 8))

/-- RFC 3394 key unwrap of 72 bytes under a session key: the 64-byte key pair, or none (R409). -/
opaque keyUnwrap : BitVec 512 → List (BitVec 8) → Option (BitVec 512)

/-- KMAC256 authentication of a retirement entry under the PUF-derived key (R441). -/
opaque kmacOk : List (BitVec 8) → Bool

/-- What a line holds that was encrypted under one key slot, stands at a position, and is read under another key slot
whose integrity tag agrees (log entry 6, DESIGN CHOICE): slot written, slot read, position, contents. -/
opaque crossKey : Nat → Nat → Nat → BitVec 1024 → BitVec 1024

/-- Key slot 64's key pair, which bring-up writes (R409). -/
opaque bootKey : BitVec 512

/-- The boot ROM's own digest (R424). -/
opaque romDigest : BitVec 512

/-- A byte of a remote device's answer to a load (R193): device, address, number of the answer. -/
opaque remoteByte : Nat → Nat → Nat → BitVec 8

end Sys2Proof.Config
end

