-- ==== Sys2Proof/Machine/State.lean ====
section
/-!
DEFINITION. Machine/State.lean: everything the spec gives the machine, as plain data, and the machine after reset.

Maps are lists of (key, value) pairs. A `Sparse n` map is in canonical form: keys strictly rising, no value zero, and a
key that is not listed reads zero. Every other keyed list has rising keys (Machine/Sparse.lean).
-/
namespace Sys2Proof.Machine

/-- Reasons a step stops with a fault. -/
inductive Fault where
  /-- Raised by `Machine.finish` when an agent of the device (no program) accessed a physical address that R164 calls
  invalid, because software pointed it there (a context table, a fault queue, a frame area). Safe: the spec names no
  such address and no effect. -/
  | badPhysical
  deriving DecidableEq, Repr

/-- Reasons a step has no meaning. -/
inductive Refusal where
  /-- Raised by Machine/Dispatch.lean for an instruction that has no meaning yet. Safe: nothing is claimed of it. -/
  | notModelled (mnemonic : String)
  deriving DecidableEq, Repr

/-- A zero-default map in canonical form. -/
abbrev Sparse (n : Nat) := List (Nat × BitVec n)

/-- A set of lanes of a warp, bit L for lane L. -/
abbrev Lanes := BitVec 32

/-- Where a translated access goes (R164, R193): log lines by logical address and key slot, fixed bytes by physical
address, a remote device's logical address, or the block's scratchpad. A remote fixed page (R195) stands at its physical address + 2^60. -/
inductive Place where
  | log (la : Nat) (ks : Nat)
  | fixed (pa : Nat) (nc : Bool) (ks : Nat)
  | remote (dev : Nat) (la : Nat)
  | scratch (off : Nat)
  deriving DecidableEq, Repr

/-- R128. -/
inductive LaneState where
  | running | held | waiting | parked | asleep | exited
  deriving DecidableEq, Repr

/-- R128, R393: a lane's control state; `susp` while it is suspended by a trap handler of its warp, `txe` while it is
held at TXE (R215). -/
structure Lane where
  pc : BitVec 53
  mt : BitVec 53
  st : LaneState
  susp : Bool
  txe : Bool
  deriving DecidableEq, Repr

/-- A register write of a result: a lane register (R39: each 32-bit register of each lane for itself) or an `s` register. -/
inductive RegWrite where
  | lane (l : Nat) (n : Name) (v : BitVec 32)
  | uni (n : Name) (v : BitVec 64)
  deriving DecidableEq, Repr

/-- A variable-latency result not yet written (R38): the word, its address, and for each lane the place it accesses.
`parts` are the accesses that have not been performed, `vals` the register writes whose values are there and which have
not been made (R39). `members` are the warps that receive a uniform result; `ops` are an atomic's operands, lane by
lane, and `sites` its execution sites (R198). `lead` stands in the other members of a wider-scope access: the warp and
number of the result that accesses for them. -/
structure Outst where
  id : Nat
  pc : BitVec 53
  iw : Word
  ew : Word
  instr : Instr
  lanes : Lanes
  parts : List (Nat × Nat × Place)
  ops : List (Nat × BitVec 64 × BitVec 64)
  sites : List Nat
  members : List Nat
  vals : List RegWrite
  lead : Option (Nat × Nat)
  deriving DecidableEq, Repr

/-- What a release still has to do (R185, R470). -/
inductive RelPhase where
  | ckpt       -- a rollback-capable block's checkpoint comes first (R411)
  | capture    -- its instant has been taken, its copy is not complete
  | ready      -- its checkpoint is complete, and the word that carries it begins it at issue
  | acks       -- the warp's stores are unacknowledged
  | store      -- the releasing store waits for its acknowledgement (R179)
  | publish    -- the cluster's publish is due
  | remote     -- the publishes on the home devices are due
  | done
  deriving DecidableEq, Repr

/-- A release in progress. `holds` says that the word at `pc` waits at issue for it; `stores` are the bytes the
releasing store writes under it, and `iw`, `ew` its word; `out` is the atomic's result that leaves the core after it (R202); `epoch` is the
epoch of the publish that performed it; `carried` says that only its checkpoint
holds the word, which begins the release itself. -/
structure Release where
  msc : Msc
  phase : RelPhase
  pc : BitVec 53
  iw : Word
  ew : Word
  holds : Bool
  carried : Bool
  stores : List (Nat × Place × List (BitVec 8))
  out : Option Nat
  acq : Option Msc
  epoch : Nat
  deriving DecidableEq, Repr

/-- Lanes asleep in one word (R210, R255, R288, R332): the address, offset, queue or epoch waited on, the comparand,
the deadline by the reference count, and the value last read. `members` are the warps of a wider scope; `word` is the
number of the issued word, which the sleeps of its lanes share (R230). -/
structure Sleep where
  instr : Instr
  pc : BitVec 53
  lanes : Lanes
  place : Place
  va : Nat
  cmp : BitVec 64
  deadline : Option Nat
  since : Nat
  last : BitVec 64
  members : List Nat
  word : Nat
  deriving DecidableEq, Repr

/-- A lane parked on a fault of class 0x5 or 0x6 (R196, R397). -/
structure Park where
  lane : Nat
  token : Option Nat
  va : Nat
  cls : Nat
  store : Bool
  since : Nat
  deriving DecidableEq, Repr

/-- R376, R394: the pending trap. -/
structure Tpend where
  v : Bool
  ovf : Bool
  record : BitVec 256
  deriving DecidableEq, Repr

/-- A lane's part of a transaction (R212 to R220): handler, status register, its own read and write lines, and the
bytes it has buffered, each write line with its bytes and mask. -/
structure TxLane where
  lane : Nat
  handler : BitVec 53
  dst : Name
  committing : Bool
  reads : List Nat
  writes : List (Nat × BitVec 1024 × BitVec 128 × Nat)
  deriving DecidableEq, Repr

/-- A warp's transaction: its lanes, the index entry each read line had when read, whether it is closed to joins, how
many TXE words wait to retire with it (R465), and the sequence number that the last of them took (R222). -/
structure Tx where
  lanes : List TxLane
  seen : List (Nat × BitVec 32)
  closed : Bool
  words : Nat
  key : Nat
  deriving DecidableEq, Repr

/-- An entry of the deterministic atomic buffer (R222): its sequence number, its word for R473, and the atomic. -/
structure DetEntry where
  lane : Nat
  seq : Nat
  out : Outst
  commit : Bool
  deriving DecidableEq, Repr

/-- R161: a warp waiting in GROW. -/
structure GrowWait where
  n : Nat
  gd : Option Name
  pc : BitVec 53
  next : BitVec 53
  deriving DecidableEq, Repr

/-- An error that a warp takes at its next issue boundary (R248, R433, R439, R472, R473): in the lanes of `lanes`, or in
the issue group when there is none; `pc` is the trapping word, if the trap resumes there, and `out` the result whose word
met it. -/
structure DueError where
  lanes : Lanes
  pc : Option (BitVec 53)
  out : Option Nat
  cause : Nat
  sub : Nat
  aux : Nat
  addr : Nat
  iw : Word
  ew : Word
  rollback : Bool
  deriving DecidableEq, Repr

/-- A warp (R128, R41, R376). `hand` are the lanes in the trap handler that have neither
returned nor exited (R395); `trapping` is a trap that waits for the outstanding results (R393); `frozenBy` are the
warps whose trap at a set-scope or block-scope word suspends this one (R52); `late` are traps of lanes outside the
handler, which wait until traps are unmasked (R141, R393); `unack` are the stores made and not yet
acknowledged, with their lanes (R23), `remoteUnack` those to remote pages and the publishes on home devices (lane 32), with
their words (R185, R433; lane 33 for an engine of the warp). `frozenPend` are suspensions by traps that are still pending, with their records
(R26, R394); `fresh` holds until the first issue (R177); `switched`: a lane has come to its meeting since the scheduler
chose (R226); `bkpt` is the stop that a BKPT has still to report (R40, R417); `stopAt` is when the debugger stopped the
warp (R416). -/
structure Warp where
  lanes : List Lane
  regs : Sparse 32
  preds : Sparse 32
  s : Sparse 64
  g : BitVec 8
  allot : Nat
  role : Nat
  slot : Nat
  order : Nat
  retired : Nat
  acq : Nat
  unack : List (Nat × Place × Word × Word)
  remoteUnack : List (Nat × Word × Word)
  remoteHomes : List Nat
  outs : List Outst
  nextOut : Nat
  marker : Bool
  rel : Option Release
  trec : BitVec 256
  tmask : Bool
  tpend : Tpend
  hand : Lanes
  sleeps : List Sleep
  parks : List Park
  tx : Option Tx
  det : List DetEntry
  seqs : List (Nat × Nat)
  grow : Option GrowWait
  stopped : Bool
  due : List DueError
  waitOn : Option (Instr × BitVec 53 × Nat)
  evicted : Bool
  ended : Bool
  trapping : Option (BitVec 256)
  late : List (BitVec 256)
  frozenBy : List Nat
  frozenPend : List (Nat × BitVec 256)
  fresh : Bool
  switched : Bool
  bkpt : Option (BitVec 53)
  stopAt : Nat
  deriving DecidableEq, Repr

/-- R140: the phases of a rendezvous; `held`: complete, and waiting for the checkpoint before its execution (R410);
`suspended` by a fault of its execution that is served in warp `by'` (R139); `pended`: that fault's trap is still pending,
with its record (R394). -/
inductive RdvPhase where
  | gathering | held | executing
  | suspended (by' : Nat)
  | pended (by' : Nat) (record : BitVec 256)
  deriving DecidableEq, Repr

/-- A rendezvous (R136): the word's address, scope, set number and band flag, the word, the lanes that have arrived in
each warp, the warp that arrived last, and the largest epoch of the publishes of the releases before it (R332). -/
structure Rdv where
  pc : BitVec 53
  scope : Scope
  set : Nat
  band : Bool
  warp : Nat
  iw : Word
  ew : Word
  instr : Instr
  arrived : List (Nat × Lanes)
  last : Nat
  phase : RdvPhase
  epoch : Nat
  deriving DecidableEq, Repr

/-- R250, R291, R363: queue states. -/
inductive QState where
  | idle | running | stalled | error
  deriving DecidableEq, Repr

/-- What the ordering fields of an engine command ask for (R236, R273, R355). -/
structure EngOrd where
  rel : Bool
  acq : Bool
  msc : Msc
  deriving DecidableEq, Repr

/-- The kinds of copy command (R236). -/
inductive CopyKind where
  | copy | store | fill | ring
  deriving DecidableEq, Repr

/-- Where a command's own acquire, data and release stand; `release` waits for its checkpoint (R410, R411), `remote` for
the publishes on home devices (R185). -/
inductive CmdStage where
  | start | data | release | finished | remote
  deriving DecidableEq, Repr

/-- An accepted copy command (R238 to R246): the descriptor, V, the issuing warp, how far it has come in bytes, the
snapshot epoch of a read-only copy, and the devices it has stored to. -/
structure CopyCmd where
  kind : CopyKind
  desc : BitVec 512
  v : Nat
  ord : EngOrd
  warp : Nat
  seq : Nat
  pos : Nat
  stage : CmdStage
  snap : Option Nat
  homes : List Nat
  deriving DecidableEq, Repr

/-- A copy queue (R235, R250, R257). -/
structure CopyQueue where
  issued : BitVec 32
  completed : BitVec 32
  cmds : List CopyCmd
  state : QState
  cls : Nat
  offset : Nat
  token : Option Nat
  since : Nat
  deriving DecidableEq, Repr

/-- A staging record of the copy engine (R251): its number on the core, the descriptor, V and the snapshot epoch. -/
structure Staging where
  num : Nat
  desc : BitVec 512
  v : Nat
  epoch : Nat
  deriving DecidableEq, Repr

/-- The kinds of near-memory command (R355). -/
inductive NmKind where
  | load | strm (acc : Bool) | drain | op
  deriving DecidableEq, Repr

/-- An accepted near-memory command (R356 to R360): the descriptor, V, X as read at issue, and for NBDRAIN the offset
of its arrival word. -/
structure NmCmd where
  kind : NmKind
  desc : BitVec 512
  v : Nat
  x : List (BitVec 16)
  aoff : Nat
  ord : EngOrd
  warp : Nat
  seq : Nat
  stage : CmdStage
  deriving DecidableEq, Repr

/-- The near-memory queue of a block (R359, R363); `sum` is what the next NBDRAIN adds (R360). -/
structure NmQueue where
  issued : BitVec 32
  completed : BitVec 32
  cmds : List NmCmd
  state : QState
  sum : Nat
  deriving DecidableEq, Repr

/-- R373; an ending walk has its status and class, and may still wait for its release. -/
inductive WalkPhase where
  | starting | running | reading | ending (status cls : Nat) (stage : CmdStage)
  deriving DecidableEq, Repr

/-- A walk in flight (R366 to R373). -/
structure Walk where
  wid : Nat
  desc : BitVec 512
  rules : List (BitVec 64)
  ord : EngOrd
  warp : Nat
  ptr : BitVec 64
  buf : List (BitVec 8)
  rule : Nat
  steps : Nat
  run : Nat
  epoch : Nat
  phase : WalkPhase
  cancel : Bool
  deriving DecidableEq, Repr

/-- What an operand slot holds (R262, R264): its number, tag, SREF, data and sidecar bytes, and its staging record. -/
structure SlotImage where
  num : Nat
  tag : BitVec 5
  sref : Bool
  data : Sparse 8
  side : Sparse 8
  stage : Option (BitVec 512 × Nat × Nat)
  deriving DecidableEq, Repr

/-- Undo records of one interval (R413): scratchpad granules, operand slots with sidecars, accumulators, and runs
released by MREL in the interval; `filed` are how many of the first three stand in the frame's undo logs and areas (R404). -/
structure Undo where
  granules : List (Nat × List (BitVec 8))
  slots : List SlotImage
  accs : List (Nat × Sparse 32)
  relSlots : List Nat
  relAccs : List Nat
  handles : List Nat
  filed : Nat × Nat × Nat
  deriving DecidableEq, Repr

/-- A tentative line of a rollback-capable block (R412): its bytes, their mask, its key slot and its poisoned sectors. -/
structure Tentative where
  line : Nat
  data : Line
  mask : Mask
  ks : Nat
  poison : BitVec 4
  deriving DecidableEq, Repr

/-- A copy of a line at a core atomic unit (R198): contents, mask of changed bytes; a rollback-capable block has its
own copies. `stale`: an acquire dropped all but the changed bytes (R185). -/
structure AtomCopy where
  key : Nat
  fixed : Bool
  ks : Nat
  data : Line
  mask : Mask
  stale : Bool
  owner : Option BlockId
  deriving DecidableEq, Repr

/-- R383: a role. -/
structure Role where
  entry : BitVec 53
  regs : Nat
  warps : Nat
  deriving DecidableEq, Repr

/-- A launch in flight (R383 to R386); `code` are the code lines fetched since the last LAUNCH (R178). -/
structure Launch where
  lid : BitVec 32
  super : Bool
  gdim : BitVec 63
  band : Bool
  det : Bool
  rb : Bool
  e1 : Bool
  prio : Nat
  scratch : Nat
  ctx : BitVec 12
  seed : BitVec 64
  handler : BitVec 64
  data : BitVec 64
  const : BitVec 64
  args : BitVec 64
  ltag : BitVec 64
  roles : List Role
  groups : List (Nat × BitVec 32)
  total : Nat
  nextBlk : Nat
  ended : Nat
  killed : Nat
  held : Bool
  heldBlks : List Nat
  code : List (Nat × Line)
  deriving DecidableEq, Repr

/-- Why a block is being saved (R399 to R402, R162). -/
inductive SaveWhy where
  | preempt | hold | swap | evict
  deriving DecidableEq, Repr

/-- A save in progress or done: why, since when, whether the checkpoint that it needs is still to be asked for (0), is
asked for (1), has had its instant (2) or is complete (3), and whether it no longer waits for masked warps (R402). -/
structure Saving where
  why : SaveWhy
  since : Nat
  stage : Nat
  masked : Bool
  deriving DecidableEq, Repr

/-- What a step is about when a word runs: the block and warp that issue it, the issue group, the word, and whether
this is the single execution of a rendezvous (R137). -/
structure Cur where
  block : BlockId
  warp : Nat
  group : Lanes
  pc : BitVec 53
  iw : Word
  ew : Word
  single : Option Rdv
  deriving DecidableEq, Repr

/-- A pending line of a publish table (R172): contents, mask of written bytes, key slot, poisoned sectors (R472), and
the slot already appended by CCTL.APPEND with the entry it was formed on. -/
structure Pending where
  line : Nat
  data : Line
  mask : Mask
  ks : Nat
  poison : BitVec 4
  appended : Option (BitVec 32 × BitVec 32)
  tx : Bool
  deriving DecidableEq, Repr

/-- A leaf translation in a TLB (R166 to R168): context (none at level S), virtual base, size, and the leaf entry. -/
structure TlbEntry where
  ctx : Option (BitVec 12)
  base : Nat
  size : Nat
  pte : BitVec 64
  deriving DecidableEq, Repr

/-- A line in an L1 (R178), by its place: log, fixed or remote, with the valid bytes. -/
structure L1Line where
  kind : Nat
  key : Nat
  data : Line
  deriving DecidableEq, Repr

/-- A core (R10): L1, micro index cache with its accumulator (R174), TLB, atomic copies, scheduler current warps. -/
structure Core where
  l1 : List L1Line
  ix : List (Nat × BitVec 32)
  acc : BitVec 4096
  tlb : List TlbEntry
  atoms : List AtomCopy
  current : List (Nat × WarpId)
  deriving DecidableEq, Repr

/-- Commands of the Massif (R270): what the task word or descriptor says, as accepted. -/
inductive MKind where
  | load | mma | mmasp | zero | store | cvt | mmad
  deriving DecidableEq, Repr

/-- An accepted Massif command: its place in the acceptance order, its word flags, its descriptor or task word, V, the
issuing warp, the seed of SR, its progress in bytes or tasks, the devices it has stored to, what an MMAD read when it
started (R306), and the tag and SREF of each slot it reads as they stood at acceptance (R270). `done` stands in a command
that is complete before an earlier one of its queue (R270, R292). -/
structure MCmd where
  kind : MKind
  order : Nat
  done : Bool
  desc : BitVec 512
  v : Nat
  sp : Bool
  z : Bool
  pat : SpPat
  ord : EngOrd
  block : BlockId
  warp : Nat
  seq : Nat
  seed : BitVec 64
  pos : Nat
  stage : CmdStage
  snap : Option Nat
  homes : List Nat
  gen : Nat
  all : Bool
  tags : List (Nat × BitVec 5 × Bool)
  deriving DecidableEq, Repr

/-- R304, R308: what an LBIND or an LREF does at its turn; LBIND writes a record. -/
inductive BindOp where
  | bind (record : Nat)
  | force
  | drop
  | query
  deriving DecidableEq, Repr

/-- An accepted LBIND or LREF that has not taken effect (R304, R307, R308): its place in the acceptance order, its handle,
and the warp and number of its result. -/
structure Bind where
  order : Nat
  handle : Nat
  block : BlockId
  warp : Nat
  out : Nat
  op : BindOp
  deriving DecidableEq, Repr

/-- A line of a Cornice cache (R311): its context (0xFFF at level S) and line address, its contents, the sectors that it
holds and those that HBM does not have yet, and the key slot that they are written back under. -/
structure CLine where
  ctx : Nat
  line : Nat
  data : Line
  valid : BitVec 4
  dirty : BitVec 4
  ks : Nat
  deriving DecidableEq, Repr

/-- A matrix queue (R269, R290, R291); `held` is the place of the command that stalls or has failed. -/
structure MQueue where
  owner : BlockId
  issued : BitVec 32
  completed : BitVec 32
  cmds : List MCmd
  state : QState
  cls : Nat
  estat : Nat
  offset : Nat
  token : Option Nat
  held : Nat
  deriving DecidableEq, Repr

/-- What a rollback restores of a block (R411, R414): its warps, registers, queues and counts; `owned` are the slots and
accumulators that the block owned (log entry 25, DEDUCED). -/
structure Checkpoint where
  warps : List Warp
  wregs : Sparse 32
  rdvs : List Rdv
  copyQ : List (Nat × CopyQueue)
  mqueues : List (Nat × MQueue)
  binds : List Bind
  nm : NmQueue
  walks : List Walk
  draining : Option (List Nat)
  owned : List Nat × List Nat
  deriving DecidableEq, Repr

/-- The rollback state of a block (R410 to R415): newest complete checkpoint, the one being captured with the clock at
its instant, the undo records and tentative lines of the open interval and of the interval that the capture closes,
what waits for a checkpoint, and how often the block rolled back to the newest one. -/
structure RbState where
  newest : Option Checkpoint
  capture : Option (Checkpoint × Nat)
  undo : Undo
  undoPrev : Undo
  tent : List Tentative
  tentPrev : List Tentative
  want : Bool
  count : Nat
  secB : Bool
  deriving DecidableEq, Repr

/-- A block, resident (`core` is its core, cluster × 8 + core) or saved in a frame (R386, R401, R405);
`draining` are the warps whose entries a drain that is not over takes (R224); `header` is what the device last wrote as the
header of its frame (R405); `massif`, `maccs` and `mqueues` are its Massif
state while it is saved (R294), `current` its warps that were their
scheduler's current warp (R228). -/
structure Block where
  id : BlockId
  core : Nat
  warps : List Warp
  wregs : Sparse 32
  scratch : Sparse 8
  rdvs : List Rdv
  copyQ : List (Nat × CopyQueue)
  staging : List Staging
  nm : NmQueue
  walks : List Walk
  nextWid : Nat
  draining : Option (List Nat)
  rb : RbState
  frame : Option Nat
  header : Nat
  saving : Option Saving
  saved : Bool
  requeued : Bool
  massif : List SlotImage
  maccs : List (Nat × Sparse 32)
  mqueues : List (Nat × MQueue)
  current : List Nat
  deriving DecidableEq, Repr

/-- An operand slot (R262, R264, R293). -/
structure MSlot where
  owner : BlockId
  tag : BitVec 5
  sref : Bool
  data : Sparse 8
  side : Sparse 8
  stage : Option (BitVec 512 × Nat × Nat)
  deriving DecidableEq, Repr

/-- An accumulator (R265): element m × 256 + n. -/
structure MAcc where
  owner : BlockId
  data : Sparse 32
  deriving DecidableEq, Repr

/-- A cluster (R11): publish table, open segments by key slot with their last use, index cache, cluster cache (clean fixed
lines by address, log lines by position, lines of translation tables, R168, R178), TLB, whether a publish is due, the
stall on a full table, the blocks whose checkpoints the end of that stall awaits (true: the instant is taken, R24), and the
Massif with its Cornice cache. -/
structure Cluster where
  pend : List Pending
  openSegs : List (Nat × Nat)
  ix : List (Nat × BitVec 32)
  acc : BitVec 4096
  fixed : List (Nat × Line)
  logs : List (Nat × Line)
  tables : List (Nat × Line)
  tlb : List TlbEntry
  publish : Bool
  stallSince : Option Nat
  ending : Option (List (BlockId × Bool))
  slots : List (Nat × MSlot)
  accs : List (Nat × MAcc)
  queues : List (Nat × MQueue)
  binds : List Bind
  cornice : List CLine
  nextOrder : Nat
  lastTile : Nat
  lastCopy : List (Nat × Nat)
  deriving DecidableEq, Repr

/-- R319: a summary entry. -/
structure Summary where
  line : Nat
  back : BitVec 32
  eoff : Nat
  z : Bool
  tx : Bool
  cc : Bool
  deriving DecidableEq, Repr

/-- R338: the states of a segment that is not free. -/
inductive SegPhase where
  | opened | closed | cleaning | retiring
  deriving DecidableEq, Repr

/-- A segment (R317 to R320): header fields, summaries by slot, data lines by slot, poisoned sectors, and the clock when it
was opened (R342). -/
structure Segment where
  base : Nat
  span : Nat
  used : Nat
  kind : Nat
  owner : Nat
  ks : Nat
  prev : Nat
  seq : Nat
  crc : BitVec 32
  phase : SegPhase
  sums : List (Nat × Summary)
  data : Sparse 1024
  poison : Sparse 4
  shipped : List Nat
  barred : Bool
  since : Nat
  deriving DecidableEq, Repr

/-- R336: a segment that a Talus engine cleans: the lines still to be swung, the head of the live chain last copied with
its copies, newest first (none: not copied yet), and the failed compares on that line. -/
structure Clean where
  seg : Nat
  engine : Nat
  todo : List Nat
  old : BitVec 32
  copies : List (BitVec 32)
  fails : Nat
  deriving DecidableEq, Repr

/-- A home-held line (R176, R200, R322): contents, the position it had, the epoch of its homing, its key slot, and the
order of its last access. -/
structure Home where
  data : Line
  kept : BitVec 32
  homed : Nat
  ks : Nat
  last : Nat
  deriving DecidableEq, Repr

/-- R299: a watch-table entry. -/
structure Watch where
  first : Nat
  count : Nat
  gen : Nat
  ctx : BitVec 12
  v : Bool
  deriving DecidableEq, Repr

/-- R349: an arm-table entry. -/
structure Arm where
  base : Nat
  vbase : Nat
  ctx : BitVec 12
  ks : Nat
  window : Nat
  deriving DecidableEq, Repr

/-- R354. -/
inductive RowState where
  | unadopted (crc : BitVec 16)
  | poisoned
  deriving DecidableEq, Repr

/-- An unserved fault (R397): its token once posted, context, page, class, who waits first, and how many. -/
structure FaultRec where
  token : Nat
  ctx : BitVec 12
  va : Nat
  cls : Nat
  src : Nat
  store : Bool
  lid : BitVec 32
  blk : Nat
  posted : Bool
  deriving DecidableEq, Repr

/-- A device record waiting to be posted (R381). -/
structure DevRec where
  type : Nat
  payload : List (BitVec 8)
  deriving DecidableEq, Repr

/-- R382: a mailbox's binding and the last SEQ it opened. -/
structure Mbox where
  ctx : BitVec 12
  slot : Nat
  vector : Nat
  seq : Option Nat
  deriving DecidableEq, Repr

/-- R343. -/
inductive ReplicaState where
  | configured | streaming | broken
  deriving DecidableEq, Repr

/-- Replica mode of a peer (R339, R342): its source, whether it has applied a record, the records that have arrived
and wait, and how many cairn records of its epoch it has applied (R344). -/
structure ReplicaMode where
  desc : BitVec 256
  started : Bool
  cairns : Nat
  queue : List ReplicaRec
  deriving DecidableEq, Repr

/-- R330: a ROLLB in progress. -/
structure Rollb where
  cairn : Nat
  mask : Nat
  since : Nat
  epoch : Nat
  waiter : WarpId
  members : List Nat
  dst : Name
  deriving DecidableEq, Repr

/-- A collective in progress (R435): its descriptor, the issuing block, and when it started. -/
structure Coll where
  desc : BitVec 1024
  block : BlockId
  since : Nat
  deriving DecidableEq, Repr

/-- A Ridgeline port (R431, R434): status fields, dropped lanes, flits sent and not acknowledged. -/
structure Port where
  state : Nat
  width : Nat
  lanes : BitVec 8
  dropped : BitVec 8
  replays : BitVec 32
  e2e : BitVec 16
  unacked : List Nat
  sent : Nat
  deriving DecidableEq, Repr

/-- R421. -/
inductive Tdisp where
  | unlocked | locked | run | error
  deriving DecidableEq, Repr

/-- An SPDM session (R426): open, finished into a session slot. -/
structure Session where
  slot : Option Nat
  secret : Nat
  deriving DecidableEq, Repr

/-- A firmware image in package flash (R425): the register it extends, its bytes and its signature. -/
structure FlashImage where
  reg : Nat
  data : List (BitVec 8)
  sig : List (BitVec 8)
  deriving DecidableEq, Repr

/-- A retirement entry (R441): the unit, as written with its authentication. -/
structure RetireEntry where
  unit : EvUnit
  bytes : List (BitVec 8)
  deriving DecidableEq, Repr

/-- Package flash (R8, R441, R442). -/
structure Flash where
  images : List FlashImage
  retire : List RetireEntry
  lifetime : List (List Nat)
  deriving DecidableEq, Repr

/-- What the configuration blob in package flash gives (R9, R171, R376, R389, R430): the harvest map binds a unit to the
physical unit that stands for it; the lane map and the clock table; its bytes and their signature. -/
structure Blob where
  harvest : List (EvUnit × Nat)
  lanes : List (Nat × Nat)
  clocks : List Nat
  data : List (BitVec 8)
  sig : List (BitVec 8)
  mbxbase : Nat
  ixbase : Nat
  ixlines : Nat
  device : Nat
  super : Option (BitVec 2048)
  thresholds : List Nat
  spares : Nat
  deriving DecidableEq, Repr

/-- What the device has sent out: MSI-X vectors with their table entries (R382, R420), DOE answers (R426), host read data (R420), Unsupported Request
completions, AER signals (R440), management answers (R442), fabric answers and retries (R432, R433), and what a source ships to a replica slot: segments, the base
copy, publish records, cairn records and rollback records (R342). -/
inductive Output where
  | msix (fn vector : Nat) (entry : BitVec 128)
  | doe (bytes : List (BitVec 8))
  | hostData (bytes : List (BitVec 8))
  | unsupported (fn : Nat)
  | aer
  | lifetime (records : List (List Nat))
  | fabric (dev seq : Nat) (bytes : List (BitVec 8))
  | fabricError (dev seq : Nat)
  | retry (dev seq : Nat)
  | replay (port : Nat) (flits : List Nat)
  | ack (port : Nat)
  | nak (port : Nat)
  | ship (slot seg : Nat)
  | baseCopy (slot epoch : Nat) (lines : List (Nat × BitVec 1024 × Nat))
  | record (slot epoch : Nat) (lines : List (Nat × BitVec 32))
  | cairn (slot epoch n k : Nat) (record : BitVec 1024)
  | rollback (slot epoch k mask c : Nat) (ranges : List (Nat × Nat))
  | applied (dev epoch : Nat)
  | remote (dev addr : Nat) (bytes : List (BitVec 8))
  | remoteAtomic (dev addr : Nat) (op : AtomOp) (ty : AtomTy) (b cmp : Dword)
  | homePublish (dev cluster : Nat)
  deriving DecidableEq, Repr

/-- A replica slot of a source (R340 to R344): what is to be sent after the base copy (R342), and how many cairn records
of an epoch have been sent (log entry 88, DESIGN CHOICE). -/
structure Replica where
  desc : BitVec 256
  state : ReplicaState
  base : Bool
  start : Nat
  applied : Nat
  since : Nat
  held : List Output
  marks : Nat × Nat
  deriving DecidableEq, Repr

/-- What happens next (log entry 1, DESIGN CHOICE): a warp issues a word, an event of the table takes place, a cache loses
an entry, one lane's access of an outstanding result is performed or one of its registers written before the rest
(R39), or the host writes an entry of a function's MSI-X table (R420); `ticks` of the reference count pass first. -/
inductive Act where
  | issue (w : WarpId)
  | event (i : Instr)
  | evictIx (core : Nat) (line : Nat)
  | evictClusterIx (cluster : Nat) (line : Nat)
  | evictL1 (core : Nat) (key : Nat)
  | evictFixed (cluster : Nat) (key : Nat)
  | evictTlb (core : Nat) (base : Nat)
  | evictClusterTlb (cluster : Nat) (base : Nat)
  | evictLog (cluster : Nat) (pos : Nat)
  | evictTable (cluster : Nat) (key : Nat)
  | holdTable (cluster : Nat) (key : Nat)
  | evictCornice (cluster : Nat) (ctx line : Nat)
  | perform (w : WarpId) (out lane : Nat) (ecc : Ecc)
  | deliver (w : WarpId) (out k : Nat)
  | hostMsix (fn vector : Nat) (entry : BitVec 128)
  deriving DecidableEq, Repr

structure Input where
  ticks : Nat
  act : Act
  deriving DecidableEq, Repr

/-- The control registers a CSRW may write (R376, R333, R444, R446). -/
structure Csrs where
  ctxbase : BitVec 64
  sroot : BitVec 64
  stvec : BitVec 64
  swaptmo : BitVec 64
  shtb : BitVec 64
  cleanctl : BitVec 64
  errinj : BitVec 64
  pwrlim : BitVec 64
  deriving DecidableEq, Repr

/-- The machine. -/
structure State where
  -- bring-up and device registers
  phase : Nat
  fatal : Nat
  lasting : Bool
  failed : FailUnit
  csr : Csrs
  rollbacks : BitVec 32
  kills : BitVec 32
  mbxdrop : Nat
  reclaimed : BitVec 32
  minFree : Nat
  blob : Blob
  flash : Flash
  retired : List EvUnit
  withheld : List Nat
  meas : Sparse 512
  keys : List (Nat × BitVec 512)
  sessions : List (Nat × Session)
  ides : List (Nat × Nat)
  linkIde : Bool
  msix : Sparse 128
  harvest : List (EvUnit × Nat)
  tdisp : List (Nat × Tdisp)
  counts : List (EvKind × EvUnit × Nat)
  totals : List (EvKind × EvUnit × Nat)
  hours : Nat
  resets : Nat
  power : Nat
  hottest : Nat
  slow : List (Nat × Nat)
  throttled : List Nat
  ports : List (Nat × Port)
  coll : Option Coll
  collStatus : BitVec 8
  remoteSeen : List (Nat × Nat)
  remoteTries : List (Nat × Nat)
  nextRemote : Nat
  out : List Output
  -- time and epochs
  clock : Nat
  epoch : Nat
  -- memory
  mem : List Host.Cell
  keyOf : Sparse 14
  bad : List Nat
  rows : List (Nat × RowState)
  segs : List (Nat × Segment)
  segSeq : List (Nat × Nat)
  lastSeg : List (Nat × Nat)
  talusOpen : List (Nat × Nat × Nat)
  cleans : List Clean
  homes : List (Nat × Home)
  accesses : Nat
  logFull : Bool
  -- log, delta, near memory
  watch : List (Nat × Watch)
  cairns : Sparse 1024
  rollbs : List Rollb
  arms : List Arm
  groups : List (Nat × BitVec 12)
  replicas : List (Nat × Replica)
  replica : Option ReplicaMode
  -- contexts, mailboxes, launches
  ctxs : List (Nat × BitVec 512)
  mboxes : List (Nat × Mbox)
  records : List DevRec
  recSeq : BitVec 32
  launches : List Launch
  nextLid : BitVec 32
  blocks : List Block
  nextOrder : Nat
  faults : List FaultRec
  nextToken : Nat
  fullFq : List Nat
  frames : List (Nat × Nat × Nat)
  -- clusters and cores that hold something
  clusters : List (Nat × Cluster)
  cores : List (Nat × Core)
  -- the model's own fields (log entries 1, 9, 10; DESIGN CHOICE)
  inputs : List Input
  cur : Option Cur
  draws : Nat
  badPhys : Bool
  deriving DecidableEq, Repr

def Csrs.reset : Csrs :=
  { ctxbase := 0, sroot := 0, stvec := 0, swaptmo := 1048576, shtb := 0,
    cleanctl := 0x2000400600#64, errinj := 0, pwrlim := 2200 }

/-- Log entry 4: the configuration blob of this model. -/
def Blob.default : Blob :=
  { harvest := [], lanes := [], clocks := [], data := [], sig := [], mbxbase := 0x0004000000, ixbase := 0x0100000000, ixlines := 3758096384, device := 0, super := none,
    thresholds := [256, 4, 65536, 1024, 64], spares := 2560 }

/-- The machine right after reset (R428: phase 0). -/
def State.reset : State :=
  { phase := 0, fatal := 0, lasting := false, failed := { cls := 0, num := 0 }, csr := Csrs.reset, rollbacks := 0,
    kills := 0, mbxdrop := 0, reclaimed := 0, minFree := 0, blob := Blob.default,
    flash := { images := [], retire := [], lifetime := [] }, retired := [], withheld := [], meas := [], keys := [],
    sessions := [], ides := [], linkIde := false, msix := [], harvest := [], tdisp := [], counts := [], totals := [], hours := 0, resets := 0, power := 0, hottest := 0,
    slow := [], throttled := [], ports := [], coll := none, collStatus := 0, remoteSeen := [], remoteTries := [],
    nextRemote := 0, out := [], clock := 0, epoch := 0, mem := [], keyOf := [], bad := [],
    rows := [], segs := [], segSeq := [], lastSeg := [], talusOpen := [], cleans := [], homes := [], accesses := 0, logFull := false, watch := [],
    cairns := [], rollbs := [], arms := [], groups := [], replicas := [], replica := none, ctxs := [], mboxes := [],
    records := [], recSeq := 0, launches := [], nextLid := 1, blocks := [], nextOrder := 0, faults := [],
    nextToken := 0, fullFq := [], frames := [], clusters := [], cores := [], inputs := [], cur := none, draws := 0,
    badPhys := false }

end Sys2Proof.Machine
end

