-- ==== Sys2Proof/Machine/Sparse.lean ====
section
/-!
DEFINITION. Machine/Sparse.lean: the operations of the keyed lists that State holds, each in one canonical form.
-/
namespace Sys2Proof.Machine

/-- What key `k` reads as: 0 when it is not listed. -/
def sget {n : Nat} : Sparse n → Nat → BitVec n
  | [], _ => 0
  | (j, v) :: t, k => if j = k then v else sget t k

/-- Puts a nonzero value at its place in the rising order of keys. -/
def sput {n : Nat} : Sparse n → Nat → BitVec n → Sparse n
  | [], k, v => [(k, v)]
  | (j, w) :: t, k, v => if k < j then (k, v) :: (j, w) :: t else if j = k then (k, v) :: t else (j, w) :: sput t k v

/-- Makes key `k` read `v`; a key that is to read 0 is not listed. -/
def sset {n : Nat} (m : Sparse n) (k : Nat) (v : BitVec n) : Sparse n :=
  if v = 0 then m.filter (fun c => c.1 != k) else sput m k v

/-- The canonical form: keys strictly rising, no value 0. -/
def sparseOk {n : Nat} : Sparse n → Bool
  | [] => true
  | [(_, v)] => v != 0
  | (j, v) :: (k, w) :: t => decide (j < k) && v != 0 && sparseOk ((k, w) :: t)

/-- Memory is in its canonical form: addresses strictly rising, no entry 0, which an unlisted address reads as (log
entry 2). -/
def Memory.wf (m : List Host.Cell) : Bool := sparseOk (n := 8) m

variable {α : Type}

/-- The entry of key `k`. -/
def aget (l : List (Nat × α)) (k : Nat) : Option α := (l.find? (fun c => c.1 == k)).map (·.2)

/-- Replaces or inserts the entry of key `k`, keys rising. -/
def aset : List (Nat × α) → Nat → α → List (Nat × α)
  | [], k, v => [(k, v)]
  | (j, w) :: t, k, v => if k < j then (k, v) :: (j, w) :: t else if j = k then (k, v) :: t else (j, w) :: aset t k v

def adel (l : List (Nat × α)) (k : Nat) : List (Nat × α) := l.filter (fun c => c.1 != k)

/-- Changes the entry of key `k`, if there is one. -/
def amod (l : List (Nat × α)) (k : Nat) (f : α → α) : List (Nat × α) :=
  l.map (fun c => if c.1 = k then (c.1, f c.2) else c)

/-- `n` bytes from key `k` up, the lowest first (R3). -/
def sbytes (m : Sparse 8) (k n : Nat) : List (BitVec 8) := (List.range n).map (fun i => sget m (k + i))

def sputBytes (m : Sparse 8) (k : Nat) (bs : List (BitVec 8)) : Sparse 8 :=
  (bs.zipIdx).foldl (fun m b => sset m (k + b.2) b.1) m

/-- The little-endian value of bytes (R3). -/
def leNat : List (BitVec 8) → Nat
  | [] => 0
  | b :: t => b.toNat + 256 * leNat t

/-- The low `n` bytes of a value, the lowest first (R3). -/
def leBytes : Nat → Nat → List (BitVec 8)
  | 0, _ => []
  | n + 1, v => BitVec.ofNat 8 v :: leBytes n (v / 256)

/-- Bits [hi:lo] of a number. -/
def bitsOf (v hi lo : Nat) : Nat := (v >>> lo) % 2 ^ (hi + 1 - lo)

/-- A set of numbers as a rising list. -/
def insertNat (l : List Nat) (k : Nat) : List Nat :=
  match l with
  | [] => [k]
  | j :: t => if k < j then k :: j :: t else if j = k then j :: t else j :: insertNat t k

end Sys2Proof.Machine
end

