-- ==== Sys2Proof/Machine/Ops.lean ====
section
/-!
DEFINITION. Machine/Ops.lean: the named operations over the state that every meaning uses: lanes, warps, blocks,
physical memory, device records, the end of a launch, killing a block, taking a trap and returning from one.
-/
namespace Sys2Proof.Machine

/-! ### Lanes and warps -/

/-- The lanes that satisfy `p`. -/
def lanesOf (p : Nat → Bool) : Lanes :=
  (List.range 32).foldl (fun m l => if p l then m ||| (1#32 <<< l) else m) 0

/-- The lane numbers of a mask, rising. -/
def laneNums (m : Lanes) : List Nat := (List.range 32).filter (fun l => m.getLsbD l)

def Lane.start (pc : BitVec 53) : Lane :=
  { pc := pc, mt := 0x1FFFFFFFFFFFFF#53, st := .running, susp := false, txe := false }

def Tpend.none : Tpend := { v := false, ovf := false, record := 0 }

/-- A warp as R383 starts it, but for its placement, registers s0 to s2 and acquired epoch. -/
def Warp.blank : Warp :=
  { lanes := List.replicate 32 (Lane.start 0), regs := [], preds := [], s := [], g := 0, allot := 0, role := 0,
    slot := 0, order := 0, retired := 0, acq := 0, unack := [], remoteUnack := [], remoteHomes := [], outs := [],
    nextOut := 0, marker := false, rel := none, trec := 0, tmask := false, tpend := Tpend.none, hand := 0,
    sleeps := [], parks := [], tx := none, det := [], seqs := [], grow := none, stopped := false, due := [],
    waitOn := none, evicted := false, ended := false, trapping := none, late := [], frozenBy := [], frozenPend := [],
    fresh := false, switched := false, bkpt := none, stopAt := 0 }

def Warp.lane (wp : Warp) (l : Nat) : Lane := (wp.lanes[l]?).getD (Lane.start 0)

def Warp.mask (wp : Warp) (p : Lane → Bool) : Lanes := lanesOf (fun l => p (wp.lane l))

def Warp.setLanes (wp : Warp) (m : Lanes) (f : Lane → Lane) : Warp :=
  { wp with lanes := wp.lanes.mapIdx (fun l x => if m.getLsbD l then f x else x) }

def Warp.live (wp : Warp) : Lanes := wp.mask (fun x => x.st != .exited)

def Warp.allExited (wp : Warp) : Bool := wp.lanes.all (fun x => x.st == .exited)

/-- R128, R393: a lane that can be in an issue group. -/
def Lane.ready (x : Lane) : Bool := x.st == .running && !x.susp

/-- R129: the lowest PC of the running lanes. -/
def Warp.lowPc (wp : Warp) : Option (BitVec 53) :=
  wp.lanes.foldl (fun o x =>
    if x.ready then (match o with | none => some x.pc | some p => if x.pc < p then some x.pc else some p) else o) none

/-- R129: the issue group. -/
def Warp.group (wp : Warp) : Option (BitVec 53 × Lanes) :=
  wp.lowPc.map (fun p => (p, wp.mask (fun x => x.ready && x.pc == p)))

/-- R130: a running lane whose PC equals its `mt` is held. -/
def Lane.hold (x : Lane) : Lane := if x.ready && x.pc == x.mt then { x with st := .held } else x

/-- R130: a held lane is released when every lane with its `mt` that has not exited is held. -/
def Lane.release (all : List Lane) (x : Lane) : Lane :=
  if x.st == .held && all.all (fun (y : Lane) => y.st == .exited || y.st == .held || y.mt != x.mt)
  then { x with st := .running, mt := 0x1FFFFFFFFFFFFF#53 } else x

/-- R130: running lanes at their meeting are held; a meeting all of whose lanes are held releases. An arrival at a
meeting is a switch point of a deterministic launch (R226), which Machine/Settle.lean carries out. -/
def Warp.meetings (wp : Warp) : Warp :=
  let held := wp.lanes.map Lane.hold
  { wp with lanes := held.map (Lane.release held),
            switched := wp.switched || wp.lanes.any (fun x => x.ready && x.pc == x.mt) }

/-- R162: a warp that only waits at rendezvous and meetings. -/
def Warp.waits (wp : Warp) : Bool :=
  wp.lanes.all (fun x => x.st == .exited || ((x.st == .waiting || x.st == .held) && !x.txe)) && !wp.allExited

def isRed : Instr → Bool
  | .red .. => true
  | _ => false

/-- R38: the outstanding results; a RED returns none. -/
def Warp.results (wp : Warp) : List Outst := wp.outs.filter (fun o => !isRed o.instr)

/-- R185, R205: what a release waits for: stores, and REDs but the one that carries the release. -/
def Warp.unacked (wp : Warp) : Nat :=
  let own := (wp.rel.bind (·.out)).getD wp.nextOut
  wp.unack.length + (wp.outs.filter (fun o => isRed o.instr && o.id != own)).length

def Warp.reg (wp : Warp) (n : Name) (l : Nat) : BitVec 32 := sget wp.regs (n.toNat * 32 + l)

def Warp.setReg (wp : Warp) (n : Name) (l : Nat) (v : BitVec 32) : Warp :=
  { wp with regs := sset wp.regs (n.toNat * 32 + l) v }

/-- R43: an even name holds bits [31:0], the next name bits [63:32]. -/
def Warp.reg64 (wp : Warp) (n : Name) (l : Nat) : BitVec 64 := wp.reg (n + 1) l ++ wp.reg n l

def Warp.setReg64 (wp : Warp) (n : Name) (l : Nat) (v : BitVec 64) : Warp :=
  (wp.setReg n l (v.setWidth 32)).setReg (n + 1) l ((v >>> 32).setWidth 32)

/-- R44: p7 reads true. -/
def Warp.pred (wp : Warp) (p : BitVec 3) (l : Nat) : Bool :=
  p == 7 || (sget wp.preds p.toNat).getLsbD l

/-- R44: a write of p7 is discarded. -/
def Warp.setPred (wp : Warp) (p : BitVec 3) (l : Nat) (v : Bool) : Warp :=
  if p = 7 then wp else
    let m := sget wp.preds p.toNat
    { wp with preds := sset wp.preds p.toNat (if v then m ||| (1#32 <<< l) else m &&& ~~~(1#32 <<< l)) }

def Warp.sreg (wp : Warp) (n : Name) : BitVec 64 := sget wp.s n.toNat

def Warp.setS (wp : Warp) (n : Name) (v : BitVec 64) : Warp := { wp with s := sset wp.s n.toNat v }

/-- R44: g7 reads true. -/
def Warp.gpred (wp : Warp) (g : BitVec 3) : Bool := g == 7 || wp.g.getLsbD g.toNat

/-- R44: a write of g7 is discarded. -/
def Warp.setG (wp : Warp) (g : BitVec 3) (v : Bool) : Warp :=
  if g = 7 then wp else
    { wp with g := if v then wp.g ||| (1#8 <<< g.toNat) else wp.g &&& ~~~(1#8 <<< g.toNat) }

/-! ### Blocks, launches, clusters, cores -/

def NmQueue.blank : NmQueue := { issued := 0, completed := 0, cmds := [], state := .idle, sum := 0 }

def Undo.blank : Undo := { granules := [], slots := [], accs := [], relSlots := [], relAccs := [], handles := [], filed := (0, 0, 0) }

def RbState.blank : RbState :=
  { newest := none, capture := none, undo := Undo.blank, undoPrev := Undo.blank, tent := [], tentPrev := [],
    want := false, count := 0, secB := false }

def Block.blank : Block :=
  { id := { lid := 0, blk := 0 }, core := 0, warps := [], wregs := [], scratch := [], rdvs := [], copyQ := [],
    staging := [], nm := NmQueue.blank, walks := [], nextWid := 0, draining := none, rb := RbState.blank, frame := none, header := 0, saving := none,
    saved := false, requeued := false, massif := [], maccs := [], mqueues := [], current := [] }

def Cluster.blank : Cluster :=
  { pend := [], openSegs := [], ix := [], acc := 0, fixed := [], logs := [], tables := [], tlb := [], publish := false, stallSince := none, ending := none,
    slots := [], accs := [], queues := [], binds := [], cornice := [], nextOrder := 0, lastTile := 0, lastCopy := [] }

def Core.blank : Core := { l1 := [], ix := [], acc := 0, tlb := [], atoms := [], current := [] }

def Launch.blank : Launch :=
  { lid := 0, super := false, gdim := 0, band := false, det := false, rb := false, e1 := false, prio := 0, scratch := 0,
    ctx := 0, seed := 0, handler := 0, data := 0, const := 0, args := 0, ltag := 0, roles := [], groups := [],
    total := 0, nextBlk := 0, ended := 0, killed := 0, held := false, heldBlks := [], code := [] }

def getBlock (s : State) (id : BlockId) : Option Block := s.blocks.find? (fun b => b.id == id)

def blockD (s : State) (id : BlockId) : Block := (getBlock s id).getD Block.blank

def modBlock (id : BlockId) (f : Block → Block) (s : State) : State :=
  { s with blocks := s.blocks.map (fun b => if b.id = id then f b else b) }

def warpD (s : State) (id : BlockId) (w : Nat) : Warp := ((blockD s id).warps[w]?).getD Warp.blank

def modWarp (id : BlockId) (w : Nat) (f : Warp → Warp) (s : State) : State :=
  modBlock id (fun b => { b with warps := b.warps.mapIdx (fun i x => if i = w then f x else x) }) s

def launchD (s : State) (lid : BitVec 32) : Launch := (s.launches.find? (fun l => l.lid == lid)).getD Launch.blank

def modLaunch (lid : BitVec 32) (f : Launch → Launch) (s : State) : State :=
  { s with launches := s.launches.map (fun l => if l.lid = lid then f l else l) }

def clusterD (s : State) (c : Nat) : Cluster := (aget s.clusters c).getD Cluster.blank

def modCluster (c : Nat) (f : Cluster → Cluster) (s : State) : State :=
  { s with clusters := aset s.clusters c (f (clusterD s c)) }

def coreD (s : State) (c : Nat) : Core := (aget s.cores c).getD Core.blank

def modCore (c : Nat) (f : Core → Core) (s : State) : State :=
  { s with cores := aset s.cores c (f (coreD s c)) }

/-- The cluster of a block's core. -/
def Block.cluster (b : Block) : Nat := b.core / 8

def Block.resident (b : Block) : Bool := !b.saved

/-- A context record as the device holds it (R375). -/
def ctxRec (s : State) (c : Nat) : BitVec 512 := (aget s.ctxs c).getD 0

def ctxField (s : State) (c hi lo : Nat) : Nat := bitsOf (ctxRec s c).toNat hi lo

/-! ### Physical memory -/

/-- R164: physical addresses that exist: HBM, and the mailbox rows. -/
def physOk (pa n : Nat) : Bool :=
  pa + n ≤ 0x8000000000 || (0x8000000000 ≤ pa && pa + n ≤ 0x8000000000 + 512 * 64 * 1024)

/-- A device access to an address R164 calls invalid. -/
def badAccess (s : State) : State := { s with badPhys := true }

def readBytes (s : State) (pa n : Nat) : List (BitVec 8) := sbytes s.mem pa n

def readNat (s : State) (pa n : Nat) : Nat := leNat (readBytes s pa n)

/-- R379: the mailbox region is stored in clear, under key slot 0. -/
def inMailbox (s : State) (pa : Nat) : Bool := s.blob.mbxbase ≤ pa && pa < s.blob.mbxbase + 0x400000

def sectorsOf (pa n : Nat) : List Nat := (List.range ((pa + n + 31) / 32 - pa / 32)).map (fun i => pa / 32 + i)

/-- Writes bytes in place under a key slot; a sector written whole becomes good (R472). -/
def writeBytes (s : State) (pa : Nat) (bs : List (BitVec 8)) (ks : Nat) : State :=
  if !physOk pa bs.length then badAccess s else
  let secs := sectorsOf pa bs.length
  let ks' := if inMailbox s pa then 0 else ks
  { s with
    mem := sputBytes s.mem pa bs
    keyOf := secs.foldl (fun m k => sset m k (BitVec.ofNat 14 ks')) s.keyOf
    bad := s.bad.filter (fun k => !(decide (pa ≤ k * 32) && decide (k * 32 + 32 ≤ pa + bs.length))) }

def writeNat (s : State) (pa n v ks : Nat) : State := writeBytes s pa (leBytes n v) ks

/-! ### Fatal errors, device records, the end of a launch -/

/-- R440: the first fatal error is recorded and signalled; every warp stops until a reset. -/
def fatalError (cause : Nat) (s : State) : State :=
  if s.fatal = 0 then { s with fatal := cause, out := s.out ++ [.aer] } else s

/-- R378: the device-record ring is full. -/
def ringFull (s : State) : Bool :=
  (readNat s (s.blob.mbxbase + 0x80) 4 + 2 ^ 32 - readNat s (s.blob.mbxbase + 0x84) 4) % 2 ^ 32 == 16

/-- R381: writes a record and its header into the ring, then advances DPROD. -/
def writeRecord (r : DevRec) (s : State) : State :=
  let prod := readNat s (s.blob.mbxbase + 0x80) 4
  let hdr := r.type + 1 * 2 ^ 8 + r.payload.length * 2 ^ 16 + s.recSeq.toNat * 2 ^ 32 + 0xFFF * 2 ^ 64
  let bytes := leBytes 32 hdr ++ r.payload ++ List.replicate (96 - r.payload.length) 0
  let s1 := writeBytes s (s.blob.mbxbase + 0x800 + 128 * (prod % 16)) bytes 0
  { writeNat s1 (s.blob.mbxbase + 0x80) 4 ((prod + 1) % 2 ^ 32) 0 with recSeq := s.recSeq + 1 }

/-- R381: posts a record, or lets it wait on die, or drops and counts it. -/
def postRecord (type : Nat) (payload : List (BitVec 8)) (s : State) : State :=
  let r : DevRec := { type := type, payload := payload }
  if s.records.isEmpty && !ringFull s then writeRecord r s
  else if s.records.length < 64 then { s with records := s.records ++ [r] }
  else { s with mbxdrop := s.mbxdrop + 1 }

/-- R385: after the last block, the launch ends and its record is posted. -/
def launchEndCheck (lid : BitVec 32) (s : State) : State :=
  let l := launchD s lid
  if s.launches.any (fun x => x.lid == lid) && l.ended + l.killed == l.total then
    postRecord 0x80 (leBytes 8 lid.toNat ++ leBytes 8 l.ltag.toNat ++ leBytes 8 l.ended ++ leBytes 8 l.killed)
      { s with launches := s.launches.filter (fun x => x.lid != lid) }
  else s

/-! ### Killing a block -/

/-- R404: where a frame of a context stands. -/
def frameAddr (s : State) (ctx f : Nat) : Nat := ctxField s ctx 250 224 * 8192 + f * 0x1000000

/-- R405: marks a frame of a context free. -/
def freeFrame (ctx f : Nat) (s : State) : State :=
  { writeNat s (frameAddr s ctx f) 1 0 64 with frames := s.frames.filter (fun x => !(x.1 == ctx && x.2.1 == f)) }

/-- R311: what HBM does not have of a line of a Cornice cache is written back. -/
def writeBackC (s : State) (x : CLine) : State :=
  (List.range 4).foldl (fun t i => if x.dirty.getLsbD i then
    writeBytes t (128 * x.line + 32 * i) (leBytes 32 (x.data.toNat / 2 ^ (256 * i))) x.ks else t) s

/-- R308, R312: the lines of a cluster's Cornice cache that satisfy `p` are written back and dropped. -/
def corniceFlush (cl : Nat) (p : CLine → Bool) (s : State) : State :=
  let lines := (clusterD s cl).cornice.filter p
  if lines.isEmpty then s else
  modCluster cl (fun c => { c with cornice := c.cornice.filter (fun x => !p x) }) (lines.foldl writeBackC s)

/-- R299, R311: the number of a launch's context; level S counts as 0xFFF. -/
def launchKey (l : Launch) : Nat := if l.super then 0xFFF else l.ctx.toNat

/-- R312: a tenant switch on a cluster, if no block of the context is resident there any more. -/
def tenantEnd (cl key : Nat) (s : State) : State :=
  if s.blocks.any (fun (x : Block) => x.resident && x.cluster == cl && launchKey (launchD s x.id.lid) == key) then s
  else corniceFlush cl (fun x => x.ctx == key) s

/-- R295, R312, R396: the Massif resources and engine state of a block are freed, and its frame. -/
def freeBlock (id : BlockId) (s : State) : State :=
  let b := blockD s id
  let l := launchD s id.lid
  let s1 := tenantEnd b.cluster (launchKey l) { s with
    blocks := s.blocks.filter (fun x => x.id != id)
    clusters := s.clusters.map (fun c => (c.1, { c.2 with
      slots := c.2.slots.filter (fun x => x.2.owner != id)
      accs := c.2.accs.filter (fun x => x.2.owner != id)
      queues := c.2.queues.filter (fun x => x.2.owner != id)
      binds := c.2.binds.filter (fun x => x.block != id) }))
    cores := s.cores.map (fun c => (c.1, { c.2 with
      atoms := c.2.atoms.filter (fun a => a.owner != some id)
      current := c.2.current.filter (fun x => x.2.block != id) })) }
  match b.frame with
  | some f => freeFrame l.ctx.toNat f s1
  | none => s1

/-- R396: the block's warps end, its work is discarded, its resources are freed and a record is posted. -/
def killBlock (id : BlockId) (record : BitVec 256) (s : State) : State :=
  if (getBlock s id).isNone then s else
  launchEndCheck id.lid
    (postRecord 0x81 (leBytes 8 id.lid.toNat ++ leBytes 8 id.blk ++ leBytes 32 record.toNat)
      (modLaunch id.lid (fun l => { l with killed := l.killed + 1 }) (freeBlock id s)))

/-! ### Traps -/

/-- What raises a trap (R390, R392): the lanes, the resume PC, where the lanes go on when traps are masked (none: where
they are), the words, and CAUSE, SUB, AUX and ADDR. -/
structure TrapReq where
  lanes : Lanes
  pc : BitVec 53
  next : Option (BitVec 53)
  iw : Word
  ew : Word
  cause : Nat
  sub : Nat
  aux : Nat
  addr : Nat

/-- R392. -/
def trapRecord (t : TrapReq) : BitVec 256 :=
  BitVec.ofNat 256 (t.pc.toNat + t.iw.toNat * 2 ^ 64 + t.ew.toNat * 2 ^ 96 + t.cause % 256 * 2 ^ 128
    + t.sub % 256 * 2 ^ 136 + t.aux % 65536 * 2 ^ 144 + t.lanes.toNat * 2 ^ 160 + t.addr % 2 ^ 64 * 2 ^ 192)

def recLanes (r : BitVec 256) : Lanes := r.extractLsb' 160 32

def recPc (r : BitVec 256) : BitVec 53 := r.extractLsb' 0 53

/-- R393, step 3: the record is written, traps are masked, the lanes go to the handler and the others are suspended. -/
def Warp.enterHandler (wp : Warp) (r : BitVec 256) (handler : BitVec 53) : Warp :=
  let m := recLanes r &&& wp.live
  let w1 := { wp with trec := r, tmask := true, hand := m, trapping := none }
  let w2 := w1.setLanes m (fun x => { x with pc := handler, st := .running, susp := false, txe := false })
  (w2.setLanes (wp.live &&& ~~~m) (fun x => { x with susp := true })).meetings

/-- R393: delivers a trap whose warp has no outstanding result. -/
def deliverTrap (id : BlockId) (w : Nat) (s : State) : State :=
  let wp := warpD s id w
  match wp.trapping with
  | none => s
  | some r =>
    if wp.results ≠ [] then s else
    let l := launchD s id.lid
    let handler := if l.super then s.csr.stvec else l.handler
    if handler = 0 then
      if l.super then fatalError 3 (modWarp id w (fun x => { x with trapping := none }) s) else killBlock id r s
    else modWarp id w (fun x => x.enterHandler r (handler.setWidth 53)) s

/-- R394: a trap while traps are masked: the lanes go on, and the record is kept or lost. -/
def Warp.pendTrap (wp : Warp) (t : TrapReq) : Warp :=
  let w1 := match t.next with
    | some p => (wp.setLanes t.lanes (fun x => { x with pc := p, st := .running })).meetings
    | none => wp
  if wp.tpend.v then { w1 with tpend := { wp.tpend with ovf := true } }
  else { w1 with tpend := { v := true, ovf := wp.tpend.ovf, record := trapRecord t } }

/-- What becomes of a trap raised now (R391 to R394): it is delivered; it waits for its turn; it is kept in TPEND; it is
lost; or it kills the block. -/
inductive TrapFate where
  | now | turn | kept | lost | kill
  deriving DecidableEq, Repr

/-- While traps are masked, lanes outside the handler take theirs when traps are unmasked, in turn (R393); so do lanes
whose warp already waits to deliver a trap. -/
def trapFate (wp : Warp) (lanes : Lanes) (cause : Nat) : TrapFate :=
  if wp.trapping.isSome || (wp.tmask && lanes &&& wp.hand == 0 && wp.hand != 0) then .turn
  else if wp.tmask then (if cause = 0x0A then .kill else if wp.tpend.v then .lost else .kept)
  else .now

/-- R391 to R394: raises a trap in lanes of a warp. -/
def raiseTrap (id : BlockId) (w : Nat) (t : TrapReq) (s : State) : State :=
  match trapFate (warpD s id w) t.lanes t.cause with
  | .turn => modWarp id w (fun x => { x with late := x.late ++ [trapRecord t] }) s
  | .kill => killBlock id (trapRecord t) s
  | .kept | .lost => modWarp id w (fun x => x.pendTrap t) s
  | .now => deliverTrap id w (modWarp id w (fun x => { x with trapping := some (trapRecord t) }) s)

/-- R52, R26: what a fault of warp `w` does to the other members of a set-scope or block-scope word: they are suspended
until it is served; while its trap with record `r` is pending, until that trap is served. -/
def Warp.freeze (w : Nat) (r : BitVec 256) (fate : TrapFate) (wp : Warp) : Warp :=
  match fate with
  | .now | .kill => { wp with frozenBy := insertNat wp.frozenBy w }
  | .turn | .kept => { wp with frozenPend := wp.frozenPend ++ [(w, r)] }
  | .lost => wp

def freezeOthers (id : BlockId) (w : Nat) (members : List Nat) (r : BitVec 256) (fate : TrapFate) (s : State) : State :=
  modBlock id (fun b => { b with warps := b.warps.mapIdx (fun i x =>
    if i != w && members.contains i then x.freeze w r fate else x) }) s

/-- The suspension that warp `w` caused ends. -/
def thawOthers (id : BlockId) (w : Nat) (s : State) : State :=
  modBlock id (fun b => { b with warps := b.warps.map (fun x => { x with frozenBy := x.frozenBy.filter (· != w) }) }) s

/-- R139: a suspended rendezvous whose fault was delivered to warp `w` runs again once the handler has returned. -/
def resumeRdvs (id : BlockId) (w : Nat) (s : State) : State :=
  modBlock id (fun b => { b with rdvs := b.rdvs.map (fun r =>
    if r.phase == .suspended w then { r with phase := .executing } else r) }) s

/-- A pending trap of warp `w` is delivered: what was suspended for its record is now suspended for its handler. -/
def claimFrozen (id : BlockId) (w : Nat) (r : BitVec 256) (s : State) : State :=
  modBlock id (fun b => { b with
    warps := b.warps.map (fun x => if x.frozenPend.contains (w, r) then
      { x with frozenPend := x.frozenPend.filter (· != (w, r)), frozenBy := insertNat x.frozenBy w } else x)
    rdvs := b.rdvs.map (fun x => if x.phase == .pended w r then { x with phase := .suspended w } else x) }) s

/-- R376: the record of a pending trap of warp `w` is discarded: what was suspended for it goes on (log entry 83, DEDUCED). -/
def dropFrozen (id : BlockId) (w : Nat) (r : BitVec 256) (s : State) : State :=
  modBlock id (fun b => { b with
    warps := b.warps.map (fun x => { x with frozenPend := x.frozenPend.filter (· != (w, r)) })
    rdvs := b.rdvs.map (fun x => if x.phase == .pended w r then { x with phase := .executing } else x) }) s

/-- Nothing is left to be served of warp `w`: the others go on. -/
def served (id : BlockId) (w : Nat) (s : State) : State := thawOthers id w (resumeRdvs id w s)

/-- A record that names only the lanes of `m`. -/
def narrowRecord (r : BitVec 256) (m : Lanes) : BitVec 256 :=
  (r &&& ~~~(0xFFFFFFFF#256 <<< 160)) ||| ((m.setWidth 256) <<< 160)

/-- Delivers a kept record to the lanes it names that are not exited (R394); with none left its fault is over. -/
def deliverRecord (id : BlockId) (w : Nat) (r : BitVec 256) (s : State) : State :=
  let m := recLanes r &&& (warpD s id w).live
  let s1 := claimFrozen id w r s
  if m = 0 then served id w s1
  else deliverTrap id w (modWarp id w (fun x => { x with trapping := some (narrowRecord r m) }) s1)

/-- The traps that waited for their turn: the first whose lanes are not all exited is delivered. -/
def deliverLate (id : BlockId) (w : Nat) : List (BitVec 256) → State → State
  | [], s => modWarp id w (fun x => { x with late := [] }) s
  | r :: rest, s =>
    if recLanes r &&& (warpD s id w).live = 0 then deliverLate id w rest (deliverRecord id w r s)
    else deliverRecord id w r (modWarp id w (fun x => { x with late := rest }) s)

/-- R394: when traps are unmasked, a pending record is delivered; then, one by one, the traps that lanes outside the
handler took meanwhile. A single execution whose trap was lost runs again (log entry 83, DEDUCED). -/
def deliverPending (id : BlockId) (w : Nat) (s : State) : State :=
  let wp := warpD s id w
  if wp.tmask || wp.trapping.isSome then s
  else
    let s0 := resumeRdvs id w (claimFrozen id w 0 s)
    if wp.tpend.v then
      deliverRecord id w wp.tpend.record
        (modWarp id w (fun x => { x with tpend := { v := false, ovf := x.tpend.ovf, record := 0 } }) s0)
    else if wp.late.isEmpty then s0
    else deliverLate id w wp.late s0

/-- R395: when no lane is left in the handler, the suspended lanes resume and traps are unmasked. -/
def handlerDone (id : BlockId) (w : Nat) (s : State) : State :=
  let wp := warpD s id w
  if wp.hand &&& wp.live = 0 then
    let s1 := modWarp id w (fun x =>
      ({ x with hand := 0, tmask := false, lanes := x.lanes.map (fun y => { y with susp := false }) } : Warp).meetings) s
    deliverPending id w (served id w s1)
  else s

/-- R395: TRET for the issuing lanes: they go to the resume PC and wait for the last lane of the handler. -/
def returnTrap (id : BlockId) (w : Nat) (m : Lanes) (s : State) : State :=
  handlerDone id w (modWarp id w (fun x =>
    { x.setLanes m (fun y => { y with pc := recPc x.trec, susp := true }) with hand := x.hand &&& ~~~m }) s)

/-- R135: the lanes become exited; a handler whose last lane exits is done. -/
def exitLanes (id : BlockId) (w : Nat) (m : Lanes) (s : State) : State :=
  let inHandler := (warpD s id w).hand != 0
  let s1 := modWarp id w (fun x => (x.setLanes m (fun y => { y with st := .exited, txe := false })).meetings) s
  if inHandler then handlerDone id w s1 else s1

/-- The outcome of a step: a stop where an agent of the device left the physical address space. -/
def finish (s : State) : Host.Outcome State Fault Refusal :=
  if s.badPhys then .fault .badPhysical else .next s

end Sys2Proof.Machine
end

