-- ==== Sys2Proof/Machine/Operands.lean ====
section
/-!
DEFINITION. Machine/Operands.lean: what the operand forms of a word read: lane and uniform registers, specials (R46),
immediates, guards (R35), and the members that contribute to a word (R136, R153).
-/
namespace Sys2Proof.Machine

/-- What a member of the word in hand reads from: the state at issue, the word, the warp and its lanes. -/
structure Env where
  s : State
  c : Cur
  w : Nat
  wp : Warp
  lanes : Lanes

/-- R46: 53 to 64-bit values of a special that is not there. -/
def noneVal : BitVec 64 := 0xFFFFFFFF#64

/-- R142: the group-table entries that name warp `w`, rising. -/
def warpSets (l : Launch) (w : Nat) : List Nat := (l.groups.filter (fun e => e.2.getLsbD w)).map (·.1)

/-- R142: the members of a set, rising. -/
def setMembers (l : Launch) (n : Nat) : List Nat :=
  match aget l.groups n with
  | some m => (List.range 32).filter (fun w => m.getLsbD w)
  | none => []

def nwarps (l : Launch) : Nat := (l.roles.map (·.warps)).sum

/-- R14, R46: the coordinates of a block, packed. -/
def blockCoord (l : Launch) (blk : Nat) : Nat :=
  let gx := bitsOf l.gdim.toNat 20 0
  let gy := bitsOf l.gdim.toNat 41 21
  blk % gx + (blk / gx) % gy * 2 ^ 21 + (blk / gx / gy) * 2 ^ 42

/-- R46, R229: `%clk` is the reference count, or the retired-word count in a deterministic launch. -/
def clkValue (l : Launch) (wp : Warp) (s : State) : Nat := if l.det then wp.retired else s.clock

/-- R46: the value of special `n` in lane `l`. -/
def special (e : Env) (n : Name) (l : Nat) : BitVec 64 :=
  let id := e.c.block
  let la := launchD e.s id.lid
  let b := blockD e.s id
  let nat (v : Nat) : BitVec 64 := BitVec.ofNat 64 v
  let set (k : Nat) : BitVec 64 := match (warpSets la e.w)[k]? with | some v => nat v | none => noneVal
  match n.toNat with
  | 96 => nat l
  | 97 => nat e.w
  | 98 => nat id.blk
  | 99 => if la.band then nat (id.blk / 8) else noneVal
  | 100 => if la.band then nat (id.blk % 8) else noneVal
  | 101 => set 0
  | 102 => set 1
  | 103 => set 2
  | 104 => set 3
  | 105 => nat e.wp.role
  | 106 => nat (id.blk * 32 + e.w)
  | 107 => if la.det then 0 else nat (b.core % 8)
  | 108 => if la.det then 0 else nat (b.core / 8)
  | 109 => nat e.s.blob.device
  | 110 => nat e.s.epoch
  | 111 => nat (clkValue la e.wp e.s)
  | 112 => nat (blockCoord la id.blk)
  | 113 => nat la.gdim.toNat
  | 114 => nat (nwarps la)
  | 115 => if la.super then noneVal else nat la.ctx.toNat
  | 116 => if la.super then 0 else 1
  | 117 => nat e.lanes.toNat
  | 118 => if la.det then 1 else 0
  | 119 => if la.rb then 1 else 0
  | 120 => nat la.scratch
  | 121 => la.seed
  | _ => 0

/-- R42: a uniform name: an s register or a special. -/
def uniVal (e : Env) (n : Name) (l : Nat) : BitVec 64 :=
  if n.toNat < 64 then e.wp.sreg n else special e n l

/-- R37: the A operand of a P-word, 32 bits. -/
def srcA32 (e : Env) (a : ASrc) (l : Nat) : BitVec 32 :=
  match a with
  | .lane n => e.wp.reg n l
  | .uni n => (uniVal e n l).setWidth 32

/-- R37: the A operand of a P-word, 64 bits. -/
def srcA64 (e : Env) (a : ASrc) (l : Nat) : BitVec 64 :=
  match a with
  | .lane n => e.wp.reg64 n l
  | .uni n => uniVal e n l

/-- R34: an unsigned 20-bit immediate, and a signed one. -/
def immS32 (v : BitVec 20) : BitVec 32 := v.signExtend 32
def immS64 (v : BitVec 20) : BitVec 64 := v.signExtend 64

/-- R28: the bytes of a word with its extension word. -/
def wordLen (h : Hdr) : BitVec 53 := if h.x then 8 else 4

/-- R35: a P-word's guard in lane `l`. -/
def guardP (h : Hdr) (wp : Warp) (l : Nat) : Bool := (wp.pred h.gp l) != h.gn

/-- R35: a G-word's guard in a warp. -/
def guardG (h : Hdr) (wp : Warp) : Bool := (wp.gpred h.gp) != h.gn

/-- The lanes that have arrived at a rendezvous, by warp, rising (R94, R136). -/
def Rdv.parts (r : Rdv) : List (Nat × Lanes) :=
  (List.range 32).filterMap (fun w => (aget r.arrived w).map (fun m => (w, m)))

/-- The members of the word in hand with their lanes: the issue group, or what waits at the rendezvous (R136). -/
def members (s : State) (c : Cur) : List Env :=
  match c.single with
  | none => [{ s := s, c := c, w := c.warp, wp := warpD s c.block c.warp, lanes := c.group }]
  | some r => r.parts.map (fun a =>
      { s := s, c := c, w := a.1, wp := warpD s c.block a.1, lanes := a.2 &&& (warpD s c.block a.1).live })

/-- R35: a member's lanes whose guard is true. -/
def Env.active (e : Env) (h : Hdr) : Lanes := lanesOf (fun l => e.lanes.getLsbD l && guardP h e.wp l)

/-- R35: the members whose guard is true; a member with no lane left contributes nothing. -/
def gMembers (h : Hdr) (s : State) (c : Cur) : List Env :=
  (members s c).filter (fun e => guardG h e.wp && e.lanes != 0)

/-- Writes through `f` in each active lane of each member of a P-word; all sources are read at issue (R38). -/
def onActive (h : Hdr) (f : Env → Nat → Warp → Warp) (c : Cur) (s : State) : State :=
  (members s c).foldl (fun t e =>
    modWarp c.block e.w (fun wp => (laneNums (e.active h)).foldl (fun x l => f e l x) wp) t) s

/-- Writes through `f` in each guard-true member of a G-word. -/
def onMembers (h : Hdr) (f : Env → Warp → Warp) (c : Cur) (s : State) : State :=
  (gMembers h s c).foldl (fun t e => modWarp c.block e.w (f e) t) s

/-- R153: a G-word reads from its lead member. -/
def leadOf (h : Hdr) (s : State) (c : Cur) : Option Env := (gMembers h s c).head?

/-! ### Typed operands of P-words (R99, R100) -/

/-- R99, R100: an operand of an integer type. -/
def intA (e : Env) (t : IntTy) (a : ASrc) (l : Nat) : Int :=
  if t.width = 64 then intVal (srcA64 e a l).toNat 64 t.signed else intVal (srcA32 e a l).toNat 32 t.signed

def intB (e : Env) (t : IntTy) (b : BSrc) (l : Nat) : Int :=
  match b with
  | .reg n => intA e t (.lane n) l
  | .imm v => if t.signed then v.toInt else (v.toNat : Int)

/-- D ← v mod 2^n. -/
def setInt (t : IntTy) (d : Name) (l : Nat) (v : Int) (wp : Warp) : Warp :=
  if t.width = 64 then wp.setReg64 d l (BitVec.ofInt 64 v) else wp.setReg d l (BitVec.ofInt 32 v)

def ity (uns : Bool) : IntTy := if uns then .n32 else .i32

/-- A raw operand of 32 or 64 bits. -/
def rawA (e : Env) (w64 : Bool) (a : ASrc) (l : Nat) : BitVec 64 :=
  if w64 then srcA64 e a l else (srcA32 e a l).setWidth 64

def rawB (e : Env) (w64 : Bool) (b : BSrc) (l : Nat) : BitVec 64 :=
  match b with
  | .reg n => rawA e w64 (.lane n) l
  | .imm v => immS64 v

def setRaw (w64 : Bool) (d : Name) (l : Nat) (v : BitVec 64) (wp : Warp) : Warp :=
  if w64 then wp.setReg64 d l v else wp.setReg d l (v.setWidth 32)

/-- R107: a shift count. -/
def shiftB (e : Env) (b : BSrc) (l : Nat) : Nat :=
  match b with
  | .reg n => (e.wp.reg n l).toNat % 256
  | .imm v => v.toNat % 256

/-- R99: an FP32 operand's code. -/
def f32B (e : Env) (b : BSrc) (l : Nat) : BitVec 32 :=
  match b with
  | .reg n => e.wp.reg n l
  | .imm v => v ++ 0#12

/-- R114: the seed of stochastic rounding. -/
def seedOf (e : Env) (x : Seed) : BitVec 64 :=
  match x with
  | .launch => (launchD e.s e.c.block.lid).seed
  | .reg n => e.wp.sreg (n.setWidth 7)

/-- R88: the draw of result element j of lane l. -/
def drawOf (e : Env) (x : Seed) (l j : Nat) : Draw :=
  { seed := seedOf e x, idx := BitVec.ofNat 64 (((e.c.block.blk * 32 + e.w) * 32 + l) * 4 + j) }

/-- R115: a source code of type `t`. -/
def codeA (e : Env) (t : Ty) (a : ASrc) (l : Nat) : Nat :=
  if t.width = 64 then (srcA64 e a l).toNat else (srcA32 e a l).toNat

end Sys2Proof.Machine
end

