-- ==== Sys2Proof/Machine/LogStore.lean ====
section
/-!
DEFINITION. Machine/LogStore.lean: index entries, segments, versions, appends, publishes, home-held lines, filters and
watches (R18 to R24, R170 to R176, R199, R200, R300, R317 to R323, R339).
-/
namespace Sys2Proof.Machine

/-! ### Lines -/

/-- A byte mask as a bit mask. -/
def expandMask (m : Mask) : Line :=
  BitVec.ofNat 1024 ((List.range 128).foldl (fun a i => if m.getLsbD i then a + 0xFF * 2 ^ (8 * i) else a) 0)

/-- The bytes of the mask over the base (R23, R172). -/
def mergeLine (base data : Line) (m : Mask) : Line :=
  let x := expandMask m
  (base &&& ~~~x) ||| (data &&& x)

/-- The mask of `n` bytes from offset `off`. -/
def maskOf (off n : Nat) : Mask := BitVec.ofNat 128 ((2 ^ n - 1) * 2 ^ off)

def lineBytes (d : Line) (off n : Nat) : List (BitVec 8) := leBytes n (d.toNat / 2 ^ (8 * off))

def bytesLine (off : Nat) (bs : List (BitVec 8)) : Line := BitVec.ofNat 1024 (leNat bs * 2 ^ (8 * off))

/-- Puts bytes into a line. -/
def putLine (d : Line) (off : Nat) (bs : List (BitVec 8)) : Line :=
  mergeLine d (bytesLine off bs) (maskOf off bs.length)

/-- The sectors that a mask covers whole. -/
def wholeSectors (m : Mask) : BitVec 4 :=
  (List.range 4).foldl (fun a i => if (m >>> (32 * i)).setWidth 32 = 0xFFFFFFFF#32 then a ||| (1#4 <<< i) else a) 0

/-- The sectors that a mask touches. -/
def touchedSectors (m : Mask) : BitVec 4 :=
  (List.range 4).foldl (fun a i => if (m >>> (32 * i)).setWidth 32 = 0#32 then a else a ||| (1#4 <<< i)) 0

/-! ### The index (R19, R170, R171) -/

def entrySeg (e : BitVec 32) : Nat := (e >>> 10).toNat
def entrySlot (e : BitVec 32) : Nat := e.toNat % 1024

def mkEntry (seg slot : Nat) : BitVec 32 := BitVec.ofNat 32 (seg * 1024 + slot)

/-- R19: the entry names a home slice. -/
def isHomeEntry (e : BitVec 32) : Bool := 0x3FFF00 ≤ entrySeg e

/-- R200. -/
def homeEntry (slice : Nat) : BitVec 32 := mkEntry (0x3FFF00 + slice) 0

/-- Entry(n), in the index in HBM. -/
def ixEntry (s : State) (n : Nat) : BitVec 32 := BitVec.ofNat 32 (readNat s (s.blob.ixbase + 4 * n) 4)

def setIxEntry (n : Nat) (e : BitVec 32) (s : State) : State :=
  { s with mem := sputBytes s.mem (s.blob.ixbase + 4 * n) (leBytes 4 e.toNat) }

/-- R199. -/
def homeSliceOf (n : Nat) : Nat :=
  (bitsOf n 11 0 ^^^ bitsOf n 23 12 ^^^ bitsOf n 35 24 ^^^ bitsOf n 44 36) % 160

/-! ### Segments (R317 to R320) -/

/-- Log entry 21: the segments of the log partition. -/
def logFirst : Nat := 917248
def logLast : Nat := 4194047

def segAddr (seg slot : Nat) : Nat := seg * 131072 + slot * 128

/-- A pseudo-channel that is retired (R441). -/
def channelRetired (s : State) (ch : Nat) : Bool := s.retired.contains (.channel ch)

/-- The lowest segment number from `n` up that is free. -/
def freeFrom (s : State) : Nat → Nat → Option Nat
  | 0, _ => none
  | fuel + 1, n =>
    if logLast < n then none
    else if (aget s.segs n).isNone && !channelRetired s (n % 512) then some n
    else freeFrom s fuel (n + 1)

def freeSegment (s : State) : Option Nat := freeFrom s (512 * (s.segs.length + 1) + 1) logFirst

/-- CRC-32C (reflected, polynomial 0x1EDC6F41) of bytes. -/
def crc32c (bs : List (BitVec 8)) : BitVec 32 :=
  let stepBit (c : BitVec 32) (_ : Nat) : BitVec 32 :=
    if c.getLsbD 0 then (c >>> 1) ^^^ 0x82F63B78#32 else c >>> 1
  ~~~ (bs.foldl (fun c b => (List.range 8).foldl stepBit (c ^^^ b.setWidth 32)) 0xFFFFFFFF#32)

/-- R318: the segment header. -/
def segHeader (g : Segment) : Nat :=
  g.base % 2 ^ 48 + g.span * 2 ^ 48 + g.used * 2 ^ 64 + g.kind * 2 ^ 74 + g.owner * 2 ^ 76 + g.ks * 2 ^ 81
    + (if g.phase == .opened then 0 else 1) * 2 ^ 95 + g.prev * 2 ^ 96 + g.seq % 2 ^ 32 * 2 ^ 128
    + g.crc.toNat * 2 ^ 160

/-- R319: a summary entry. -/
def sumEntry (v : Summary) : Nat :=
  v.line + v.back.toNat * 2 ^ 45 + v.eoff * 2 ^ 77 + (if v.z then 1 else 0) * 2 ^ 93 + (if v.tx then 1 else 0) * 2 ^ 94
    + (if v.cc then 1 else 0) * 2 ^ 95

def segCrc (g : Segment) : BitVec 32 :=
  crc32c (leBytes 20 (segHeader g) ++ ((List.range 936).map (fun i =>
    leBytes 12 (match aget g.sums i with | some v => if i < g.used then sumEntry v else 0 | none => 0))).flatten)

/-- R317, R320: closes a segment. Its CRC covers the header and summaries as they stand at the close; the publishes that
complete entries later leave it (log entry 81, DESIGN CHOICE). -/
def closeSeg (seg : Nat) (s : State) : State :=
  { s with
    segs := amod s.segs seg (fun g =>
      if g.phase == .opened then
        let g1 := { g with phase := .closed }
        { g1 with crc := segCrc g1 }
      else g)
    talusOpen := s.talusOpen.filter (fun x => x.2.2 != seg)
    clusters := s.clusters.map (fun c => (c.1, { c.2 with openSegs := c.2.openSegs.filter (fun x => x.2 != seg) })) }

/-- R320: closes a cluster's open segments; answers how many there were. -/
def sealCluster (c : Nat) (s : State) : State :=
  (clusterD s c).openSegs.foldl (fun t x => closeSeg x.2 t) s

/-- The key of an owner's list of segments: its kind and number. -/
def ownerKey (kind owner : Nat) : Nat := kind * 64 + owner

/-- R338: a free segment becomes an open one. -/
def openSegment (kind owner ks base : Nat) (s : State) : Option (Nat × State) :=
  match freeSegment s with
  | none => none
  | some n =>
    let k := ownerKey kind owner
    let seq := (aget s.segSeq k).getD 0
    let g : Segment :=
      { base := base, span := 0, used := 0, kind := kind, owner := owner, ks := ks,
        prev := (aget s.lastSeg k).getD 0, seq := seq, crc := 0, phase := .opened, sums := [], data := [], poison := [],
        shipped := [], barred := false, since := s.clock }
    some (n, { s with
      segs := aset s.segs n g
      segSeq := aset s.segSeq k ((seq + 1) % 2 ^ 32)
      lastSeg := aset s.lastSeg k n })

/-- R320: the cluster's open segment of a key slot, opened if there is none that admits the next epoch; the list keeps
the least recently used first. -/
def segFor (c ks : Nat) (s : State) : Option (Nat × State) :=
  let cl := clusterD s c
  let use (n : Nat) (t : State) : State :=
    modCluster c (fun x => { x with openSegs := x.openSegs.filter (fun y => y.1 != ks) ++ [(ks, n)] }) t
  let fresh (t : State) : Option (Nat × State) :=
    (openSegment 0 c ks (s.epoch + 1) t).map (fun r => (r.1, use r.1 r.2))
  match cl.openSegs.find? (fun y => y.1 == ks) with
  | some (_, n) =>
    match aget s.segs n with
    | some g => if s.epoch + 1 - g.base > 65535 || 936 ≤ g.used then fresh (closeSeg n s) else some (n, use n s)
    | none => fresh s
  | none =>
    match cl.openSegs with
    | (_, old) :: rest => if 7 ≤ rest.length then fresh (closeSeg old s) else fresh s
    | [] => fresh s

/-- R18, R23: appends a whole line; its summary is completed by the publish that installs it. A cluster never sets Z (log
entry 80, DESIGN CHOICE). -/
def appendTo (seg n : Nat) (d : Line) (poison : BitVec 4) (back : BitVec 32) (eoff : Nat) (z tx cc : Bool) (s : State) :
    BitVec 32 × State :=
  match aget s.segs seg with
  | none => (0, s)
  | some g =>
    let slot := g.used
    let g1 := { g with
      used := slot + 1, span := max g.span eoff
      sums := aset g.sums slot { line := n, back := back, eoff := eoff, z := z, tx := tx, cc := cc }
      data := sset g.data slot d, poison := sset g.poison slot poison }
    let s1 := { s with segs := aset s.segs seg g1 }
    (mkEntry seg slot, if slot + 1 = 936 then closeSeg seg s1 else s1)

/-! ### Caches of a fixed size (R10, R11; which entry leaves a full cache is log entry 86, DESIGN CHOICE) -/

/-- Puts an entry of key `k`; where more than `cap` entries satisfy `p`, the lowest of the others that does leaves. -/
def capPut {α : Type} (cap : Nat) (p : Nat → Bool) (l : List (Nat × α)) (k : Nat) (v : α) : List (Nat × α) :=
  let m := aset l k v
  if cap < (m.filter (fun x => p x.1)).length then
    match m.find? (fun x => p x.1 && x.1 != k) with
    | some x => adel m x.1
    | none => m
  else m

/-- R10: the micro index cache has 2 Ki entries. -/
def ixPut (core n : Nat) (e : BitVec 32) (s : State) : State :=
  modCore core (fun x => { x with ix := capPut 2048 (fun _ => true) x.ix n e }) s

/-- R11: the cluster index cache has 64 Ki entries in 8 ways. -/
def clusterIxPut (c n : Nat) (e : BitVec 32) (s : State) : State :=
  modCluster c (fun x => { x with ix := capPut 8 (fun k => k % 8192 == n % 8192) x.ix n e }) s

/-- R11: the cluster cache holds 131,072 lines, the pending ones among them, which never leave it (R178). -/
def Cluster.fit (x : Cluster) : Cluster :=
  if x.pend.length + x.fixed.length + x.logs.length + x.tables.length ≤ 131072 then x
  else if !x.logs.isEmpty then { x with logs := x.logs.drop 1 }
  else if !x.fixed.isEmpty then { x with fixed := x.fixed.drop 1 }
  else { x with tables := x.tables.drop 1 }

/-- The key of a log line in the cluster cache: its position and the key slot it was decrypted under. -/
def logKey (pos : BitVec 32) (ks : Nat) : Nat := pos.toNat * 2 ^ 14 + ks

/-! ### Versions (R19, R321) -/

/-- A line as a read finds it: contents, the key slot it was written under, uncorrectable sectors, and whether it needs
no decryption (zeros). -/
structure LineVal where
  data : Line
  ks : Nat
  poison : BitVec 4
  zero : Bool
  pa : Nat

def LineVal.zeros : LineVal := { data := 0, ks := 0, poison := 0, zero := true, pa := 0 }

/-- R19, R321: an entry for line `n` that a reader may follow. -/
def entryOk (s : State) (n : Nat) (e : BitVec 32) : Bool :=
  e == 0 ||
  (if isHomeEntry e then (entrySeg e - 0x3FFF00) < 160 && (aget s.homes n).isSome
   else match aget s.segs (entrySeg e) with
     | some g => entrySlot e < 936 && entrySlot e < g.used && (aget g.sums (entrySlot e)).any (fun v => v.line == n)
     | none => false)

/-- R439: the sector of Entry(n) is uncorrectable. -/
def entryBad (s : State) (n : Nat) : Bool := s.bad.contains ((s.blob.ixbase + 4 * n) / 32)

/-- R19, R439: Entry(n) may be taken as a starting position. -/
def startOk (s : State) (n : Nat) : Bool := !entryBad s n && entryOk s n (ixEntry s n)

/-- The uncorrectable sectors of four sectors of HBM. -/
def badSectors (s : State) (pa : Nat) : BitVec 4 :=
  (List.range 4).foldl (fun a i => if s.bad.contains (pa / 32 + i) then a ||| (1#4 <<< i) else a) 0

/-- The line at a position of a segment. -/
def segLine (s : State) (e : BitVec 32) : LineVal :=
  match aget s.segs (entrySeg e) with
  | none => LineVal.zeros
  | some g =>
    let pa := segAddr (entrySeg e) (entrySlot e)
    match aget g.sums (entrySlot e) with
    | some v =>
      if v.z then LineVal.zeros
      else { data := sget g.data (entrySlot e), ks := g.ks, poison := sget g.poison (entrySlot e) ||| badSectors s pa,
             zero := false, pa := pa }
    | none => LineVal.zeros

/-- The line an index entry names: zeros, the home-held line, or the line of a segment. -/
def lineAt (s : State) (n : Nat) (e : BitVec 32) : LineVal :=
  if e = 0 then LineVal.zeros
  else if isHomeEntry e then
    match aget s.homes n with
    | some h => { data := h.data, ks := h.ks, poison := 0, zero := false, pa := 0 }
    | none => LineVal.zeros
  else segLine s e

/-- R321: the position of the version of line `n` as of epoch `e` on the BACK path from `p`; 0 past its end. -/
def versionWalk (s : State) (n e : Nat) : Nat → BitVec 32 → BitVec 32
  | 0, _ => 0
  | fuel + 1, p =>
    if p = 0 then 0 else
    match aget s.segs (entrySeg p) with
    | none => 0
    | some g =>
      if 936 ≤ entrySlot p || g.used ≤ entrySlot p then 0 else
      match aget g.sums (entrySlot p) with
      | none => 0
      | some v =>
        if v.line ≠ n then 0
        else if g.base + v.eoff ≤ e then p
        else versionWalk s n e fuel v.back

def walkFuel (s : State) : Nat := (s.segs.map (fun g => g.2.used)).sum + 1

/-- What a read as of an epoch finds. -/
inductive AsOf where
  | home
  | at (p : BitVec 32)
  | bad

/-- R321, R19: where the version of line `n` as of epoch `e` stands. -/
def asOf (s : State) (n e : Nat) : AsOf :=
  let p := ixEntry s n
  if !startOk s n then .bad
  else if isHomeEntry p then
    match aget s.homes n with
    | some h =>
      if h.homed ≤ e then .home
      else if h.kept ≠ 0 && !entryOk s n h.kept then .bad
      else .at (versionWalk s n e (walkFuel s) h.kept)
    | none => .bad
  else .at (versionWalk s n e (walkFuel s) p)

/-- VersionAsOf(n, e); none is the index-integrity machine check. -/
def versionAsOf (s : State) (n e : Nat) : Option LineVal :=
  match asOf s n e with
  | .bad => none
  | .home => (aget s.homes n).map (fun h => { data := h.data, ks := h.ks, poison := 0, zero := false, pa := 0 })
  | .at p => some (if p = 0 then LineVal.zeros else segLine s p)

/-! ### Pins, live versions and candidates (R323, R335) -/

/-- R324: a cairn record. -/
def cairnRec (s : State) (k : Nat) : Nat := (sget s.cairns k).toNat

def cairnValid (c : Nat) : Bool := bitsOf c 48 48 == 1

/-- R324: the ranges of a cairn: first line and count. -/
def cairnRanges (c : Nat) : List (Nat × Nat) :=
  (List.range (bitsOf c 55 52)).map (fun i => (bitsOf c (128 + 96 * i + 44) (128 + 96 * i),
    bitsOf c (128 + 96 * i + 68) (128 + 96 * i + 45)))

def inRanges (rs : List (Nat × Nat)) (n : Nat) : Bool := rs.any (fun r => decide (r.1 ≤ n) && decide (n < r.1 + r.2))

/-- R323: the epochs of the pins that cover line `n`. -/
def pinEpochs (s : State) (n : Nat) : List Nat :=
  (s.cairns.filter (fun c => cairnValid c.2.toNat && inRanges (cairnRanges c.2.toNat) n)).map (fun c => bitsOf c.2.toNat 47 0)
  ++ s.blocks.flatMap (fun (b : Block) =>
      b.staging.map (·.epoch) ++ b.copyQ.flatMap (fun q => q.2.cmds.filterMap (·.snap)) ++ b.massif.filterMap (fun x => x.stage.map (·.2.2))
        ++ b.mqueues.flatMap (fun q => q.2.cmds.filterMap (·.snap))
        ++ (b.walks.filter (fun w => w.phase != .starting)).map (·.epoch))
  ++ s.clusters.flatMap (fun c => c.2.slots.filterMap (fun x => x.2.stage.map (·.2.2))
      ++ c.2.queues.flatMap (fun q => q.2.cmds.filterMap (·.snap)))
  ++ (s.rollbs.filter (fun r => inRanges (((cairnRanges (cairnRec s r.cairn)).zipIdx.filter (fun x =>
      r.mask.testBit x.2)).map (·.1)) n)).map (fun r => bitsOf (cairnRec s r.cairn) 47 0)
  ++ (s.replicas.filter (fun r => r.2.base)).map (fun r => r.2.start)

/-- f(n). -/
def lowestPin (s : State) (n : Nat) : Option Nat :=
  (pinEpochs s n).foldl (fun o e => some (match o with | none => e | some x => min x e)) none

/-- The positions of the BACK path from `p` down to and including the version as of epoch `e`, newest first. -/
def backPath (s : State) (n e : Nat) : Nat → BitVec 32 → List (BitVec 32)
  | 0, _ => []
  | fuel + 1, p =>
    if p = 0 then [] else
    match aget s.segs (entrySeg p) with
    | none => []
    | some g =>
      match aget g.sums (entrySlot p) with
      | none => []
      | some v => if v.line ≠ n then [] else if g.base + v.eoff ≤ e then [p] else p :: backPath s n e fuel v.back

/-- The position that stands for line `n` in the index, or Kept(n). -/
def headOf (s : State) (n : Nat) : BitVec 32 :=
  match aget s.homes n with
  | some h => h.kept
  | none => ixEntry s n

/-- R323, R336: the live chain of a line, newest first. -/
def liveChain (s : State) (n : Nat) : List (BitVec 32) :=
  let p := headOf s n
  if p = 0 || isHomeEntry p then [] else
  match lowestPin s n with
  | none => [p]
  | some e => backPath s n e (walkFuel s) p

/-- A slot appended for a publish or a swing that has not been made. -/
def appendedNow (s : State) (p : BitVec 32) : Bool :=
  s.clusters.any (fun c => c.2.pend.any (fun x => match x.appended with | some (q, _) => q == p | none => false))
    || s.cleans.any (fun x => x.copies.contains p)

/-- The lines with a live version in a segment. -/
def liveLines (s : State) (seg : Nat) (g : Segment) : List Nat :=
  (g.sums.filter (fun v => decide (v.1 < g.used) && (liveChain s v.2.line).contains (mkEntry seg v.1))).map (·.2.line)

/-- The live slots of a segment. -/
def liveSlots (s : State) (seg : Nat) (g : Segment) : Nat :=
  (g.sums.filter (fun v => decide (v.1 < g.used) &&
    ((liveChain s v.2.line).contains (mkEntry seg v.1) || appendedNow s (mkEntry seg v.1)))).length

/-- R335. -/
def isCandidate (s : State) (seg : Nat) (g : Segment) : Bool :=
  g.phase == .closed && decide (g.kind ≤ 2) && !g.barred && s.rollbs.isEmpty
    && s.replicas.all (fun r => r.2.state != .streaming || g.shipped.contains r.1)
    && decide (liveSlots s seg g * 1024 < bitsOf s.csr.cleanctl.toNat 9 0 * 936)

def anyCandidate (s : State) : Bool := s.segs.any (fun g => isCandidate s g.1 g.2)

/-! ### Filters, watches and what every publish does (R173 to R175, R300) -/

def filterBits (n : Nat) : Nat × Nat :=
  (bitsOf n 11 0, bitsOf n 23 12 ^^^ bitsOf n 35 24 ^^^ bitsOf n 44 36)

/-- R173. -/
def filterOf (lines : List Nat) : BitVec 4096 :=
  if 1024 < lines.length then BitVec.allOnes 4096
  else lines.foldl (fun f n => f ||| (1#4096 <<< (filterBits n).1) ||| (1#4096 <<< (filterBits n).2)) 0

def filterHit (f : BitVec 4096) (n : Nat) : Bool := f.getLsbD (filterBits n).1 && f.getLsbD (filterBits n).2

/-- R300: one bump of each valid entry that holds a line of the list. -/
def bumpWatches (lines : List Nat) (s : State) : State :=
  { s with watch := s.watch.map (fun w =>
      if w.2.v && lines.any (fun n => w.2.first ≤ n && n < w.2.first + w.2.count)
      then (w.1, { w.2 with gen := w.2.gen + 1 }) else w) }

/-- R342, R344: the epochs up to which a started slot has shipped every publish record. -/
def sentTo (s : State) (slot start : Nat) : Nat :=
  let unsent := (s.segs.filter (fun g => g.2.kind != 1 && !g.2.shipped.contains slot)).flatMap (fun g =>
    (g.2.sums.filter (fun v => decide (v.1 < g.2.used) && decide (start < g.2.base + v.2.eoff) &&
      !appendedNow s (mkEntry g.1 v.1))).map (fun v => g.2.base + v.2.eoff))
  unsent.foldl (fun m e => min m (e - 1)) s.epoch

/-- R343, R344: a started replica slot with over 1,048,576 unshipped records breaks. -/
def breakReplicas (s : State) : State :=
  s.replicas.foldl (fun t r =>
    if r.2.state == .streaming && 1048576 < t.epoch - sentTo t r.1 r.2.start then
      let t1 := { t with replicas := amod t.replicas r.1 (fun x => { x with state := .broken, base := false, held := [] }) }
      postRecord 0x84 (leBytes 8 r.1 ++ leBytes 8 (r.2.applied + 3 * 2 ^ 48)) t1
    else t) s

/-- R320: the clusters' open segments that the next epoch has left behind close. -/
def closeOld (s : State) : State :=
  (s.segs.filter (fun g => g.2.phase == .opened && g.2.kind != 1 && decide (65535 < s.epoch + 1 - g.2.base))).foldl
    (fun t g => closeSeg g.1 t) s

/-- R23, R215, R331: a publish of `lines` changes their installed versions: a copy formed from an older one is formed
again, and a transaction that has read an older one fails. The mark is an entry that no line has. -/
def outdate (lines : List Nat) (s : State) : State :=
  let seen (t : Tx) : Tx :=
    { t with seen := t.seen.map (fun x => if lines.contains (x.1 % 2 ^ 45) then (x.1, 0xFFFFFFFF#32) else x) }
  { s with
    blocks := s.blocks.map (fun (b : Block) => { b with warps := b.warps.map (fun wp => { wp with tx := wp.tx.map seen }) })
    clusters := s.clusters.map (fun c => (c.1, { c.2 with pend := c.2.pend.map (fun p =>
      if lines.contains p.line then { p with appended := none } else p) })) }

/-- R342: what a source sends to a replica slot goes out, or follows the base copy. -/
def sendTo (slot : Nat) (o : Output) (s : State) : State :=
  match aget s.replicas slot with
  | some r => if r.base then { s with replicas := amod s.replicas slot (fun x => { x with held := x.held ++ [o] }) }
    else { s with out := s.out ++ [o] }
  | none => s

def streamingSlots (s : State) : List Nat := (s.replicas.filter (fun r => r.2.state == .streaming)).map (·.1)

/-- R342: the record of a publish: its epoch, and the lines and entries that have data in the log. -/
def sendRecord (lines : List Nat) (s : State) : State :=
  let l := (lines.map (fun n => (n, ixEntry s n))).filter (fun x => !isHomeEntry x.2)
  (streamingSlots s).foldl (fun t r => sendTo r (.record r t.epoch l) t) s

/-- R20, R175: steps 2 to 4 of a publish of `lines` whose index entries `install` writes: the filter reaches every
accumulator, the entries are installed, Epoch() advances, watches are bumped. -/
def installStep (lines : List Nat) (install : State → State) (s : State) : State :=
  let f := filterOf lines
  let s1 := install (outdate lines { s with
    clusters := s.clusters.map (fun c => (c.1, { c.2 with acc := c.2.acc ||| f }))
    cores := s.cores.map (fun c => (c.1, { c.2 with acc := c.2.acc ||| f })) })
  let s2 := bumpWatches lines (closeOld { s1 with epoch := s.epoch + 1 })
  if s2.epoch = 0x800000000000 then postRecord 0x82 (leBytes 8 s2.epoch) s2 else s2

/-- R175, R342: a publish, with its records to the replica slots. -/
def publishStep (lines : List Nat) (install : State → State) (s : State) : State :=
  if s.epoch + 1 > 0xFFFFFFFFFFFF then fatalError 2 s else breakReplicas (sendRecord lines (installStep lines install s))

/-- R175: the publishing cluster writes the entry into its own index caches. -/
def cacheEntry (c n : Nat) (e : BitVec 32) (s : State) : State :=
  let s1 := clusterIxPut c n e s
  { s1 with cores := s1.cores.map (fun k =>
      if k.1 / 8 = c && (aget k.2.ix n).isSome then (k.1, { k.2 with ix := aset k.2.ix n e }) else k) }

/-! ### Publishing pending lines (R23, R172, R175, R472) -/

/-- The version installed now, as the base of a merge. -/
def installedLine (s : State) (n : Nat) : LineVal := lineAt s n (ixEntry s n)

/-- R472: the poisoned sectors of a line formed from a base and a mask. -/
def formPoison (base : LineVal) (m : Mask) : BitVec 4 := base.poison &&& ~~~ wholeSectors m

/-- R176: the masked bytes of a pending line are written at the home slice. -/
def writeHome (n : Nat) (d : Line) (m : Mask) (s : State) : State :=
  { s with homes := amod s.homes n (fun h => { h with data := mergeLine h.data d m }) }

/-- Forms and appends one pending line to the cluster's open segment of its key slot; a line already appended keeps its
slot while the installed version and the segment's epoch range admit it (R23, R320). None: no free segment. -/
def appendPending (c : Nat) (p : Pending) (s : State) : Option (BitVec 32 × State) :=
  let cur := ixEntry s p.line
  let again (t : State) : Option (BitVec 32 × State) :=
    let base := installedLine t p.line
    (segFor c p.ks t).map (fun r =>
      appendTo r.1 p.line (mergeLine base.data p.data p.mask) (formPoison base p.mask) 0 0 false p.tx false r.2)
  match p.appended with
  | some (slot, base) =>
    match aget s.segs (entrySeg slot) with
    | some g => if base = cur && s.epoch + 1 - g.base ≤ 65535 then some (slot, s) else again s
    | none => again s
  | none => again s

/-- R319, R320: the publish of epoch `e` completes the summary entry of an appended line. -/
def completeSum (pos : BitVec 32) (back : BitVec 32) (e : Nat) (s : State) : State :=
  { s with segs := amod s.segs (entrySeg pos) (fun g =>
      { g with span := max g.span (e - g.base)
               sums := amod g.sums (entrySlot pos) (fun v => { v with back := back, eoff := e - g.base }) }) }

/-- Appends pending lines in turn; none when the log is full. -/
def appendAll (c : Nat) : List Pending → State → Option (List (Nat × BitVec 32) × State)
  | [], s => some ([], s)
  | p :: t, s =>
    if isHomeEntry (ixEntry s p.line) then appendAll c t s
    else match appendPending c p s with
      | none => none
      | some (pos, s1) =>
        (appendAll c t s1).map (fun r => ((p.line, pos) :: r.1, r.2))

/-- R335: the log has no free segment; without a candidate either, a record says so, once for the stall (`logFull`). -/
def noteLogFull (s : State) : State :=
  if s.logFull || anyCandidate s then s else postRecord 0x83 (leBytes 8 0) { s with logFull := true }

/-- R175: the cluster's pending lines are appended and installed under one epoch. False: the log is full, or an entry is
none that a merge may start from (R19), and nothing is installed. -/
def publishCluster (c : Nat) (s : State) : State × Bool :=
  let pend := (clusterD s c).pend
  match s.replica with
  | some _ =>
    -- R339: no publish; pending lines are discarded and the discard is posted
    let s1 := modCluster c (fun x => { x with pend := [], stallSince := none, ending := none }) s
    (if pend.isEmpty then s1 else postRecord 0x84 (leBytes 8 0 ++ leBytes 8 s.epoch) s1, true)
  | none =>
    if s.epoch + 1 > 0xFFFFFFFFFFFF then (fatalError 2 s, false)
    else if pend.any (fun p => !startOk s p.line) then (fatalError 1 s, false) else
    match appendAll c pend s with
    | none => (noteLogFull s, false)
    | some (lines, s1) =>
      let homed := pend.filter (fun p => isHomeEntry (ixEntry s p.line))
      let s2 := homed.foldl (fun t p => bumpWatches [p.line] (writeHome p.line p.data p.mask t)) s1
      let e := s.epoch + 1
      let install (t : State) : State :=
        lines.foldl (fun t l => cacheEntry c l.1 l.2 (setIxEntry l.1 l.2 (completeSum l.2 (ixEntry t l.1) e t))) t
      let s3 := publishStep (lines.map (·.1)) install s2
      (modCluster c (fun x => { x with pend := [], stallSince := none, ending := none }) { s3 with logFull := false }, true)

/-! ### Home-held lines (R176, R200, R322) -/

/-- R176: the lines return to the log by one publish of the slice; those that no free segment takes stay. -/
def unhomeLines (slice : Nat) (lines : List Nat) (s : State) : State :=
  let c := slice / 8
  let step (acc : List (Nat × BitVec 32 × BitVec 32) × State) (n : Nat) :
      List (Nat × BitVec 32 × BitVec 32) × State :=
    match aget acc.2.homes n with
    | none => acc
    | some h =>
      match segFor c h.ks acc.2 with
      | none => (acc.1, noteLogFull acc.2)
      | some r =>
        let a := appendTo r.1 n h.data 0 h.kept 0 false false false r.2
        (acc.1 ++ [(n, a.1, h.kept)], a.2)
  let r := lines.foldl step ([], s)
  if r.1.isEmpty then r.2 else
  let e := s.epoch + 1
  publishStep (r.1.map (·.1)) (fun t => r.1.foldl (fun t x =>
    let t1 := setIxEntry x.1 x.2.1 (completeSum x.2.1 x.2.2 e t)
    { t1 with homes := adel t1.homes x.1 }) t) r.2

def sliceLines (s : State) (slice : Nat) : List (Nat × Home) := s.homes.filter (fun h => homeSliceOf h.1 == slice)

/-- R176: the least recently accessed line of a slice, the lowest number on a tie. -/
def lruHome (l : List (Nat × Home)) : Option Nat :=
  (l.foldl (fun o h => match o with
    | none => some (h.1, h.2.last)
    | some (n, t) => if h.2.last < t then some (h.1, h.2.last) else some (n, t)) none).map (·.1)

/-- R176: room for one more line in a slice, whose least recently accessed line returns to the log first. -/
def sliceRoom (slice : Nat) (s : State) : State :=
  if 4096 ≤ (sliceLines s slice).length then
    match lruHome (sliceLines s slice) with
    | some v => unhomeLines slice [v] s
    | none => s
  else s

/-- R200: the line becomes home-held by a publish of its own, with the pending bytes of cluster `c` ahead of it. False: it
cannot be now, since its slice is full and the log has no room for the line that must leave it (R176, R335), or since no
reader may follow its entry (R19). -/
def homeLine (c n ks : Nat) (s : State) : Bool × State :=
  if (aget s.homes n).isSome then (true, s) else
  if !startOk s n then (false, fatalError 1 s) else
  let slice := homeSliceOf n
  let s0 := sliceRoom slice s
  if 4096 ≤ (sliceLines s0 slice).length then (false, s0) else
  let pend := (clusterD s0 c).pend.find? (fun p => p.line == n)
  let base := installedLine s0 n
  let data := match pend with | some p => mergeLine base.data p.data p.mask | none => base.data
  let kept := ixEntry s0 n
  let s1 := modCluster c (fun x => { x with pend := x.pend.filter (fun p => p.line != n) }) s0
  (true, publishStep [n] (fun t => setIxEntry n (homeEntry slice)
    { t with homes := aset t.homes n { data := data, kept := kept, homed := t.epoch + 1, ks := ks, last := t.accesses },
             accesses := t.accesses + 1 }) s1)

/-- Notes an access to a home-held line (R176). -/
def touchHome (n : Nat) (s : State) : State :=
  { s with homes := amod s.homes n (fun h => { h with last := s.accesses }), accesses := s.accesses + 1 }

end Sys2Proof.Machine
end

