-- ==== Sys2Proof/Machine/Translate.lean ====
section
/-!
DEFINITION. Machine/Translate.lean: translation of virtual addresses and the memory faults (R164 to R169, R195, R439).
-/
namespace Sys2Proof.Machine

/-- What an access does, for R169. -/
inductive Access where
  | load | store | atomic (msc : Msc) | fetch | probe
  deriving DecidableEq, Repr

def Access.writes : Access → Bool
  | .store | .atomic _ => true
  | _ => false

/-- A leaf's fields (R165). -/
def pteBit (e : BitVec 64) (i : Nat) : Bool := e.getLsbD i
def pteAddr (e : BitVec 64) : Nat := bitsOf e.toNat 51 13 * 8192
def pteKsel (e : BitVec 64) : Nat := bitsOf e.toNat 53 52
def pteHome (e : BitVec 64) : Nat := bitsOf e.toNat 63 56

/-- R166: the bytes a leaf of a level maps. -/
def pageSize (level : Nat) : Nat := if level = 3 then 0x200000000 else if level = 2 then 0x800000 else 0x2000

/-- R166: the index of a level in a virtual address. -/
def levelIndex (va level : Nat) : Nat := (va >>> (13 + 10 * (level - 1))) % 1024

/-- The pseudo-channel of a physical address (R164). -/
def channelOf (pa : Nat) : Nat := if pa < 0x8000000000 then (pa / 131072) % 512 else ((pa - 0x8000000000) / 65536) % 512

/-- R165: constraints on a leaf's own fields. -/
def leafOk (e : BitVec 64) (level : Nat) : Bool :=
  level ≤ 3 && bitsOf e.toNat 55 54 == 0
    && (!pteBit e 10 || pteBit e 2) && (!pteBit e 11 || !pteBit e 2)
    && (!pteBit e 6 || (level == 1 && pteBit e 2))
    && pteAddr e % pageSize level == 0
    && (!pteBit e 2 || bitsOf e.toNat 51 40 == 0)

/-- R165: in a non-leaf entry only V, LEAF and ADDR may be nonzero. -/
def nonLeafOk (e : BitVec 64) (level : Nat) : Bool :=
  level ≠ 1 && bitsOf e.toNat 12 2 == 0 && bitsOf e.toNat 63 40 == 0

/-- An entry of a table in fixed physical memory, as the cluster cache holds its line or as it stands (R168, log entry 12,
DEDUCED); none when its sector is uncorrectable (R439) or its address does not exist. -/
def readPte (s : State) (c table idx : Nat) : Option (BitVec 64) :=
  let pa := table + 8 * idx
  match aget (clusterD s c).tables (pa / 128) with
  | some d => some (BitVec.ofNat 64 (leNat (lineBytes d (pa % 128) 8)))
  | none => if !physOk pa 8 || s.bad.contains (pa / 32) then none else some (BitVec.ofNat 64 (readNat s pa 8))

/-- R168: a cluster cache takes the line of a translation table as it stands. -/
def holdTable (c key : Nat) (s : State) : State :=
  if !physOk (key * 128) 128 || badSectors s (key * 128) ≠ 0 then s else
  modCluster c (fun x => { x with tables := aset x.tables key (BitVec.ofNat 1024 (leNat (readBytes s (key * 128) 128))) }.fit) s

/-- R167: the 256 entries of a compute extent. -/
def extentOk (s : State) (c table va : Nat) (e : BitVec 64) : Bool :=
  let first := (va / 0x2000) % 1024 / 256 * 256
  let keep (x : BitVec 64) : Nat := x.toNat % 8192 + x.toNat / 2 ^ 52 * 2 ^ 13
  match readPte s c table first with
  | none => false
  | some e0 =>
    pteAddr e0 % 0x200000 == 0 &&
    (List.range 256).all (fun i => match readPte s c table (first + i) with
      | some x => keep x == keep e && pteAddr x == pteAddr e0 + 8192 * i
      | none => false)

/-- R166, R169: the walk from a table at a level; the leaf with its page's base and size, or a class. -/
def walkTable (s : State) (c : Nat) (ctx : Option (BitVec 12)) (va : Nat) : Nat → Nat → Except Nat TlbEntry
  | 0, _ => .error 4
  | level + 1, table =>
    let l := level + 1
    match readPte s c table (levelIndex va l) with
    | none => .error 4
    | some e =>
      if !pteBit e 0 then .error 5
      else if pteBit e 1 then
        if !leafOk e l then .error 4
        else if pteBit e 6 then
          if extentOk s c table va e then
            .ok { ctx := ctx, base := va / 0x200000 * 0x200000, size := 0x200000,
                  pte := BitVec.ofNat 64 (e.toNat - (pteAddr e % 0x200000)) }
          else .error 4
        else .ok { ctx := ctx, base := va / pageSize l * pageSize l, size := pageSize l, pte := e }
      else if nonLeafOk e l then walkTable s c ctx va level (pteAddr e) else .error 4

/-- The root table of a level or context (R166, R375). -/
def rootOf (s : State) : Option (BitVec 12) → Nat
  | none => s.csr.sroot.toNat
  | some c => ctxField s c.toNat 34 8 * 8192

/-- R165, R166: the key slot that KSEL selects. -/
def keySlot (s : State) (ctx : Option (BitVec 12)) (ksel : Nat) : Nat :=
  match ctx with
  | none => 64
  | some c => ctxField s c.toNat (77 + 14 * ksel) (64 + 14 * ksel)

/-- R195: the page lies in its context's domain window. -/
def inWindow (s : State) (ctx : Option (BitVec 12)) (va : Nat) : Bool :=
  match ctx with
  | none => false
  | some c =>
    let pdva := ctxField s c.toNat 351 312
    pdva ≠ 0 && pdva ≤ va / 8192 && va / 8192 < pdva + 2 ^ ctxField s c.toNat 311 307

/-- R169, from class 0x4 on: what a leaf gives an access. -/
def leafAccess (s : State) (t : TlbEntry) (va n : Nat) (acc : Access) : Except Nat Place :=
  let e := t.pte
  let target := pteAddr e + (va - t.base)
  let fix := pteBit e 2
  let mbx := fix && inMailbox s target
  let ks := if mbx then 0 else keySlot s t.ctx (pteKsel e)
  let remote := pteBit e 12 && pteHome e ≠ s.blob.device
  if fix && !physOk target n then .error 4
  else if !fix && s.blob.ixlines ≤ target / 128 then .error 4
  else if pteBit e 11 && !inWindow s t.ctx va then .error 4
  else if t.ctx.isSome && ks == 0 && !mbx then .error 4
  else if pteBit e 11 && !pteBit e 12 then .error 6
  else if t.ctx.isSome && !pteBit e 5 then .error 7
  else if acc == .fetch && !pteBit e 4 then .error 8
  else if acc.writes && !pteBit e 3 then .error 9
  else if acc.writes && pteBit e 8 then .error 10
  else if remote && !pteBit e 10 && (match acc with | .atomic m => m != .sy | _ => false) then .error 11
  else if remote then .ok (.remote (pteHome e) (if fix then target + 2 ^ 60 else target))
  else if fix then .ok (.fixed target (pteBit e 10) ks)
  else .ok (.log target ks)

def TlbEntry.covers (t : TlbEntry) (ctx : Option (BitVec 12)) (va : Nat) : Bool :=
  t.ctx == ctx && t.base ≤ va && va < t.base + t.size

/-- Adds a translation; a full TLB drops its oldest. -/
def tlbAdd (cap : Nat) (l : List TlbEntry) (t : TlbEntry) : List TlbEntry :=
  let rest := l.filter (fun x => !(x.ctx == t.ctx && x.base == t.base && x.size == t.size))
  (if cap ≤ rest.length then rest.drop 1 else rest) ++ [t]

/-- R349: a fill whose physical range meets an armed extent takes SEAL. -/
def sealLeaf (s : State) (t : TlbEntry) : TlbEntry :=
  let pa := pteAddr t.pte
  let here := pteBit t.pte 2 && !(pteBit t.pte 12 && pteHome t.pte != s.blob.device)
  if here && s.arms.any (fun a => decide (pa < a.base + 0x200000) && decide (a.base < pa + t.size))
  then { t with pte := t.pte ||| 0x100#64 } else t

/-- The leaf a core's access uses: its TLB's, the cluster TLB's, or the walk's (R22, R168). -/
def findLeaf (s : State) (core : Nat) (ctx : Option (BitVec 12)) (va : Nat) : Except Nat TlbEntry :=
  match (coreD s core).tlb.find? (fun t => t.covers ctx va) with
  | some t => .ok t
  | none =>
    match (clusterD s (core / 8)).tlb.find? (fun t => t.covers ctx va) with
    | some t => .ok t
    | none => (walkTable s (core / 8) ctx va 4 (rootOf s ctx)).map (sealLeaf s)

/-- The TLBs take a leaf that was used. -/
def fillTlb (core : Nat) (t : TlbEntry) (s : State) : State :=
  modCore core (fun k => { k with tlb := tlbAdd 1024 k.tlb t })
    (modCluster (core / 8) (fun k => { k with tlb := tlbAdd 32768 k.tlb t }) s)

/-- R429: an access that phase 1 holds at issue: a log page, or stacks 4 to 7. -/
def heldInPhase1 (p : Place) : Bool :=
  match p with
  | .log _ _ => true
  | .fixed pa _ _ => 256 ≤ channelOf pa
  | _ => false

/-- The class that stands for a held access (R429): it is no fault, the word waits. -/
def heldClass : Nat := 16

/-- R169: classes 0x1 and 0x2, then the leaf's. `align` is what the address must be a multiple of. -/
def translate (s : State) (core : Nat) (ctx : Option (BitVec 12)) (va n align : Nat) (acc : Access) :
    Except Nat (Place × TlbEntry) :=
  if 2 ^ 53 ≤ va then .error 1
  else if va % align ≠ 0 then .error 2
  else match findLeaf s core ctx va with
    | .error c => .error c
    | .ok t => match leafAccess s t va n acc with
      | .error c => .error c
      | .ok p => if s.phase = 1 && heldInPhase1 p then .error heldClass else .ok (p, t)

/-- R169: a scratchpad access. -/
def scratchAccess (l : Launch) (off n align : Nat) : Except Nat Place :=
  if off % align ≠ 0 then .error 2 else if l.scratch < off + n then .error 3 else .ok (.scratch off)

/-- The context of a block; none at level S. -/
def blockCtx (s : State) (id : BlockId) : Option (BitVec 12) :=
  let l := launchD s id.lid
  if l.super then none else some l.ctx

/-- A virtual range as runs of places of at most `step` bytes, up to the first fault (no fault is raised). -/
def rangePlaces (s : State) (core : Nat) (ctx : Option (BitVec 12)) (acc : Access) (step : Nat) :
    Nat → Nat → List (Except Nat Place)
  | 0, _ => []
  | n + 1, va => (match translate s core ctx va step 1 acc with | .ok (p, _) => .ok p | .error c => .error c)
      :: rangePlaces s core ctx acc step n (va + step)

end Sys2Proof.Machine
end

