-- ==== Sys2Proof/Machine/Memory.lean ====
section
/-!
DEFINITION. Machine/Memory.lean: what a load finds and what a store does, place by place (R22 to R24, R172, R176 to
R178, R193, R198, R252, R353, R412, R413, R438, R441, R447, R472).
-/
namespace Sys2Proof.Machine

/-! ### Counted events (R441) and injected errors (R447) -/

def evIndex : EvKind → Nat
  | .hbmCorrectable => 0 | .hbmUncorrectable => 1 | .timingReplay => 2 | .hopCrc => 3 | .endToEnd => 4

/-- R441, R442: counts an event of a unit, in its window and for the lifetime records; a count that reaches its threshold marks a lasting fault. -/
def countEvent (k : EvKind) (u : EvUnit) (s : State) : State :=
  let old := (s.counts.find? (fun c => c.1 == k && c.2.1 == u)).elim 0 (·.2.2)
  let rest := s.counts.filter (fun c => !(c.1 == k && c.2.1 == u))
  let all := (s.totals.find? (fun c => c.1 == k && c.2.1 == u)).elim 0 (·.2.2)
  let s1 := { s with
    counts := rest ++ [(k, u, old + 1)]
    totals := s.totals.filter (fun c => !(c.1 == k && c.2.1 == u)) ++ [(k, u, all + 1)] }
  if old + 1 = (s.blob.thresholds[evIndex k]?).getD 0 then
    match k with
    | .endToEnd => { s1 with lasting := true }
    | .hopCrc =>
      match u with
      | .lane p l => { s1 with
          lasting := true
          flash := { s1.flash with retire := s1.flash.retire ++ [{ unit := u, bytes := [] }] }
          ports := amod s1.ports p (fun x => { x with dropped := x.dropped ||| (1#8 <<< l) }) }
      | _ => { s1 with lasting := true }
    | _ => { s1 with lasting := true, flash := { s1.flash with retire := s1.flash.retire ++ [{ unit := u, bytes := [] }] } }
  else s1

/-- R447: a read of lines for a context; true when the armed line is among them with SKIP 0, and the error is
delivered. -/
def injectRead (ctx : Nat) (lines : List Nat) (s : State) : Bool × State :=
  let e := s.csr.errinj.toNat
  if bitsOf e 45 45 = 1 && bitsOf e 57 46 = ctx && lines.contains (bitsOf e 44 0) then
    if bitsOf e 63 58 = 0 then
      (true, { s with csr := { s.csr with errinj := s.csr.errinj &&& ~~~(1#64 <<< 45) } })
    else (false, { s with csr := { s.csr with errinj := s.csr.errinj - (1#64 <<< 58) } })
  else (false, s)

/-- The number R447 compares a block's context with; level S is no context. -/
def ctxNumber (s : State) (id : BlockId) : Nat :=
  match blockCtx s id with
  | some c => c.toNat
  | none => 4096

/-! ### Mailbox rows (R352 to R354) -/

def isRow (pa : Nat) : Bool := 0x8000000000 ≤ pa

def Place.isRow : Place → Bool
  | .fixed pa _ _ => Sys2Proof.Machine.isRow pa
  | _ => false

def Place.isRemote : Place → Bool
  | .remote _ _ => true
  | _ => false

def rowOf (pa : Nat) : Nat := (pa - 0x8000000000) / 1024

/-- CRC-16: polynomial 0x1021, initial value 0xFFFF, no reflection, no final inversion (R353). -/
def crc16 (bs : List (BitVec 8)) : BitVec 16 :=
  let stepBit (c : BitVec 16) (_ : Nat) : BitVec 16 :=
    if c.getLsbD 15 then (c <<< 1) ^^^ 0x1021#16 else c <<< 1
  bs.foldl (fun c b => (List.range 8).foldl stepBit (c ^^^ ((b.setWidth 16 : BitVec 16) <<< 8))) 0xFFFF#16

def rowCrc (s : State) (row : Nat) : BitVec 16 := crc16 (readBytes s (0x8000000000 + row * 1024) 1024)

/-- R353: the controller's access to a row adopts or poisons it; false: the access is not performed. -/
def adoptRow (pa : Nat) (s : State) : Bool × State :=
  if !isRow pa then (true, s) else
  match aget s.rows (rowOf pa) with
  | none => (true, s)
  | some .poisoned => (false, s)
  | some (.unadopted crc) =>
    if rowCrc s (rowOf pa) = crc then (true, { s with rows := adel s.rows (rowOf pa) })
    else (false, { s with rows := aset s.rows (rowOf pa) .poisoned })

/-- R438: what an HBM read finds: counted, and an uncorrectable sector stays uncorrectable. In a row that is Unadopted the
row CRC stands in place of SEC-DED: it fails, and the row is poisoned (R353). -/
def hbmRead (ecc : Ecc) (pa : Nat) (s : State) : State :=
  let unit : EvUnit := .channel (channelOf pa)
  match ecc, if isRow pa then aget s.rows (rowOf pa) else none with
  | .ok, _ => s
  | _, some .poisoned => s
  | _, some (.unadopted _) => countEvent .hbmUncorrectable unit { s with rows := aset s.rows (rowOf pa) .poisoned }
  | .corrected, none => countEvent .hbmCorrectable unit s
  | .uncorrectable, none => countEvent .hbmUncorrectable unit { s with bad := insertNat s.bad (pa / 32) }

/-! ### Key slots and integrity tags (R438, log entry 6, DESIGN CHOICE) -/

/-- R438: XOR of the 6-bit groups of physical address [39:5] :: key slot [13:0]. -/
def integrityTag (pa ks : Nat) : Nat :=
  let x := bitsOf pa 39 5 * 2 ^ 14 + ks
  (List.range 9).foldl (fun a i => a ^^^ bitsOf x (6 * i + 5) (6 * i)) 0

/-- The key slot number a read of a sector needs to have; 0 written for a sector nobody has written. -/
def tagBad (wrote reads pa : Nat) : Bool := wrote ≠ 0 && wrote ≠ reads && integrityTag pa wrote ≠ integrityTag pa reads

/-- A key slot holds a key pair (R409); slot 0 stands for memory in clear (R379). -/
def keyLoaded (s : State) (ks : Nat) : Bool := ks == 0 || (aget s.keys ks).isSome

/-- A line found by a read of key slot `ks`: a sector written under another slot fails its tag, or decrypts to data the
spec does not give; after an erase nothing can be read (R409). -/
def decryptLine (s : State) (v : LineVal) (ks : Nat) : LineVal :=
  if v.zero then v
  else if !keyLoaded s ks then { v with poison := 0xF }
  else if v.ks = ks || v.ks = 0 then v
  else if tagBad v.ks ks v.pa then { v with poison := 0xF }
  else { v with data := Config.crossKey v.ks ks v.pa v.data }

/-! ### Loads (R22, R177, R178) -/

/-- What a line read gives: contents, the uncorrectable sectors, and the physical address for ADDR. -/
structure Read where
  data : Line
  poison : BitVec 4
  pa : Nat
  st : State

def L1Line.is (x : L1Line) (kind key : Nat) : Bool := x.kind == kind && x.key == key

/-- R10, R178: a line enters the L1 in place of its older copy; of 512 lines the oldest leaves (log entry 86, DESIGN
CHOICE). -/
def Core.fill (x : L1Line) (c : Core) : Core :=
  let rest := c.l1.filter (fun y => !y.is x.kind x.key)
  { c with l1 := (if 512 ≤ rest.length then rest.drop 1 else rest) ++ [x] }

/-- A copy at the core atomic unit that a thread of a block may use (R198): a rollback-capable block its own. -/
def copyOwner (s : State) (id : BlockId) : Option BlockId := if (launchD s id.lid).rb then some id else none

def findCopy (s : State) (id : BlockId) (fixed : Bool) (key : Nat) : Option AtomCopy :=
  (coreD s (blockD s id).core).atoms.find? (fun a => a.key == key && a.fixed == fixed && a.owner == copyOwner s id)

/-- R22 step 4, R177: the index entry a load uses; the caches take what it fetched. -/
def lookupIx (core n : Nat) (strong : Bool) (s : State) : BitVec 32 × State :=
  let k := coreD s core
  let cl := clusterD s (core / 8)
  let fromHbm : BitVec 32 × State :=
    let e := ixEntry s n
    -- R439: an uncorrectable index entry is a machine check
    let s := if s.bad.contains ((s.blob.ixbase + 4 * n) / 32) then fatalError 1 s else s
    (e, ixPut core n e (clusterIxPut (core / 8) n e s))
  let fresh (f : BitVec 4096) : Bool := !(strong && filterHit f n)
  match aget k.ix n with
  | some e => if fresh k.acc then (e, s) else fromHbm
  | none =>
    match aget cl.ix n with
    | some e => if fresh cl.acc then (e, ixPut core n e s) else fromHbm
    | none => fromHbm

/-- R22 steps 5 and 6: the line at a position, from the cluster cache or from HBM, which fills it. -/
def positionLine (core n : Nat) (e : BitVec 32) (ks : Nat) (s : State) : Read :=
  match aget (clusterD s (core / 8)).logs (logKey e ks) with
  | some d => { data := d, poison := 0, pa := segAddr (entrySeg e) (entrySlot e), st := s }
  | none =>
    let v := decryptLine s (lineAt s n e) ks
    { data := v.data, poison := v.poison, pa := v.pa,
      st := if v.zero || v.poison ≠ 0 then s
        else modCluster (core / 8) (fun c => { c with logs := aset c.logs (logKey e ks) v.data }.fit) s }

/-- The log line as the index gives it to a core; an entry that names a home slice the line has left is fetched again. An
entry that no load may follow is a machine check (R19). -/
def indexedLine (core n ks : Nat) (strong : Bool) (s : State) : Read :=
  let (e0, s1) := lookupIx core n strong s
  let e := if isHomeEntry e0 && (aget s1.homes n).isNone then ixEntry s1 n else e0
  if !entryOk s1 n e then { data := 0, poison := 0, pa := 0, st := fatalError 1 s1 }
  else if e = 0 || isHomeEntry e then
    let v := decryptLine s1 (lineAt s1 n e) ks
    { data := v.data, poison := v.poison, pa := v.pa, st := if isHomeEntry e then touchHome n s1 else s1 }
  else positionLine core n e ks s1

/-- R412: a block's tentative line. -/
def findTent (b : Block) (n : Nat) : Option Tentative :=
  match b.rb.tent.find? (fun t => t.line == n) with
  | some t => some t
  | none => b.rb.tentPrev.find? (fun t => t.line == n)

/-- The bytes of the sectors that a mask touches. -/
def sectorMask (m : Mask) : Mask :=
  (List.range 4).foldl (fun a i => if (touchedSectors m).getLsbD i then a ||| maskOf (32 * i) 32 else a) 0

/-- R412: the tentative sectors of a line over what lies beneath them. -/
def Tentative.over (t : Tentative) (r : Read) : Read :=
  { r with data := mergeLine r.data t.data (sectorMask t.mask)
           poison := (r.poison &&& ~~~ touchedSectors t.mask) ||| (t.poison &&& touchedSectors t.mask) }

/-- R22 steps 3 to 6, with a block's tentative sectors over them, those of the open interval last (R412). -/
def logLine (id : BlockId) (n ks : Nat) (strong : Bool) (s : State) : Read :=
  let b := blockD s id
  let r := match (clusterD s b.cluster).pend.find? (fun p => p.line == n) with
    | some p => { data := p.data, poison := p.poison, pa := 0, st := s }
    | none => indexedLine b.core n ks strong s
  ((b.rb.tentPrev ++ b.rb.tent).filter (fun t => t.line == n)).foldl (fun r t => t.over r) r

/-- R317: what stands in HBM in a line of a segment, with the key slot of a data slot (0: in clear); none above USED. -/
def segStored (g : Segment) (off : Nat) : Option (Line × Nat × BitVec 4) :=
  if off < 119808 then
    if off / 128 < g.used then some (sget g.data (off / 128), g.ks, sget g.poison (off / 128)) else none
  else
    let clear := leBytes 32 (segHeader g) ++ ((List.range 936).map (fun i =>
      leBytes 12 (match aget g.sums i with | some v => if i < g.used then sumEntry v else 0 | none => 0))).flatten
    some (bytesLine 0 ((clear.drop (off - 119808)).take 128), 0, 0)

/-- A fixed line in HBM as a read under a key slot finds it. The data lines of a segment have their log position as tweak,
so no key slot gives them back at a physical address (R166, R317). -/
def fixedFromHbm (s : State) (pa ks : Nat) : Line × BitVec 4 :=
  let line := pa / 128 * 128
  match (aget s.segs (line / 131072)).bind (fun g => segStored g (line % 131072)) with
  | some (d, wrote, poison) =>
    (if wrote = 0 then d else Config.crossKey wrote ks line d,
     if tagBad wrote ks line || (wrote ≠ 0 && !keyLoaded s ks) then 0xF else poison ||| badSectors s line)
  | none =>
    let d : Line := BitVec.ofNat 1024 (leNat (readBytes s line 128))
    let wrote (i : Nat) : Nat := (sget s.keyOf (line / 32 + i)).toNat
    let bad := (List.range 4).foldl (fun a i =>
      if s.bad.contains (line / 32 + i) || tagBad (wrote i) ks (line + 32 * i) || (wrote i ≠ 0 && !keyLoaded s ks)
      then a ||| (1#4 <<< i) else a) 0#4
    let d1 := (List.range 4).foldl (fun x i =>
      if wrote i ≠ 0 && wrote i ≠ ks then mergeLine x (Config.crossKey (wrote i) ks line d) (maskOf (32 * i) 32) else x) d
    (d1, bad)

/-- A fixed line as a load finds it: the cluster's clean copy, or HBM; pages with NC are cached nowhere. -/
def fixedLine (core pa ks : Nat) (nc : Bool) (s : State) : Read :=
  let line := pa / 128 * 128
  if nc || isRow pa then
    let (ok, s1) := adoptRow pa s
    let r := fixedFromHbm s1 pa ks
    { data := r.1, poison := if ok then r.2 else 0xF, pa := pa, st := s1 }
  else
    match aget (clusterD s (core / 8)).fixed line with
    | some d => { data := d, poison := 0, pa := pa, st := s }
    | none =>
      let r := fixedFromHbm s pa ks
      { data := r.1, poison := r.2, pa := pa,
        st := if r.2 = 0 then modCluster (core / 8) (fun c => { c with fixed := aset c.fixed line r.1 }.fit) s else s }

/-- R193: bytes of a remote device are outside this model (log entry 9, DESIGN CHOICE). -/
def remoteLine (dev la : Nat) (s : State) : Read :=
  { data := bytesLine 0 ((List.range 128).map (fun i => Config.remoteByte dev (la / 128 * 128 + i) s.draws)), poison := 0,
    pa := 0, st := { s with draws := s.draws + 1, nextRemote := s.nextRemote + 1 } }

/-- R185: a copy that kept only its changed bytes refetches the rest at its next use. -/
def freshCopy (id : BlockId) (fixed : Bool) (key ks : Nat) (nc : Bool) (s : State) : State :=
  match findCopy s id fixed key with
  | some a =>
    if a.stale then
      let core := (blockD s id).core
      let r := if fixed then fixedLine core (key * 128) ks nc s else logLine id key ks false s
      modCore core (fun k => { k with atoms := k.atoms.map (fun x =>
        if x.key == key && x.fixed == fixed && x.owner == copyOwner s id
        then { x with data := mergeLine r.data x.data x.mask, stale := false } else x) }) r.st
    else s
  | none => s

/-- The L1 tag of a place: its kind, and its line. -/
def l1Key : Place → Option (Nat × Nat)
  | .log la _ => some (0, la / 128)
  | .fixed pa nc _ => if nc then none else some (1, pa / 128)
  | .remote dev la => if la < 2 ^ 60 then some (2 + dev, la / 128) else none
  | .scratch _ => none

/-- The line of a place past the L1. -/
def lineBeyondL1 (id : BlockId) (p : Place) (strong : Bool) (s : State) : Read :=
  let core := (blockD s id).core
  match p with
  | .log la ks =>
    let s := freshCopy id false (la / 128) ks false s
    match findCopy s id false (la / 128) with
    | some a => { data := a.data, poison := 0, pa := 0, st := s }
    | none => logLine id (la / 128) ks strong s
  | .fixed pa nc ks =>
    let s := freshCopy id true (pa / 128) ks nc s
    match findCopy s id true (pa / 128) with
    | some a => { data := a.data, poison := 0, pa := 0, st := s }
    | none => fixedLine core pa ks nc s
  | .remote dev la => remoteLine dev la s
  | .scratch _ => { data := 0, poison := 0, pa := 0, st := s }

/-- The line that a load of a place reads (R22, R178): a weak load uses and fills the L1, a strong load reads past it
and drops the copy. `fill` is false under `.NL1` and for engines. -/
def readLine (id : BlockId) (p : Place) (strong fill : Bool) (s : State) : Read :=
  let core := (blockD s id).core
  match l1Key p with
  | none => lineBeyondL1 id p strong s
  | some (kind, key) =>
    -- R198, R412: a block's tentative line and its atomic copies are served past the L1, and never fill it
    let tent := match p with
      | .log la _ => (findTent (blockD s id) (la / 128)).isSome || (findCopy s id false (la / 128)).isSome
      | .fixed pa _ _ => (findCopy s id true (pa / 128)).isSome
      | _ => false
    let drop (t : State) : State := modCore core (fun c => { c with l1 := c.l1.filter (fun x => !x.is kind key) }) t
    let hit := if strong || tent then none else (coreD s core).l1.find? (fun x => x.is kind key)
    match hit with
    | some x => { data := x.data, poison := 0, pa := 0, st := s }
    | none =>
      let r := lineBeyondL1 id p strong s
      if strong then { r with st := drop r.st }
      else if fill && !tent && r.poison = 0 then
        { r with st := modCore core (fun c => c.fill { kind := kind, key := key, data := r.data }) r.st }
      else r

def Place.addr : Place → Nat
  | .log la _ => la
  | .fixed pa _ _ => pa
  | .remote _ la => la
  | .scratch off => off

/-- The log lines of places, for R447. -/
def Place.line? : Place → List Nat
  | .log la _ => [la / 128]
  | _ => []

/-- The sectors of a line that `n` bytes from `off` lie in. -/
def sectorsHit (off n : Nat) : BitVec 4 := touchedSectors (maskOf off n)

/-- A load of `n` bytes at a place: the bytes and the address of an uncorrectable sector, if one is read. -/
def loadPlace (id : BlockId) (p : Place) (n : Nat) (strong fill : Bool) (s : State) :
    List (BitVec 8) × Option Nat × State :=
  match p with
  | .scratch off => (sbytes (blockD s id).scratch off n, none, s)
  | _ =>
    let off := p.addr % 128
    let r := readLine id p strong fill s
    let bad := r.poison &&& sectorsHit off n
    let first := if bad.getLsbD 0 then 0 else if bad.getLsbD 1 then 1 else if bad.getLsbD 2 then 2 else 3
    (lineBytes r.data off n, if bad = 0 then none else some (r.pa / 128 * 128 + 32 * first), r.st)

/-! ### Scratchpad writes (R233, R252, R413) -/

/-- R238, R239: the fields of a copy descriptor. -/
def cdEs (d : Nat) : Nat := 2 ^ bitsOf d 163 162
def cdE (d k : Nat) : Nat := bitsOf d (207 + 16 * k) (192 + 16 * k)
def cdG (d k : Nat) : Nat := bitsOf d (255 + 32 * k) (224 + 32 * k)
def cdP (d k : Nat) : Nat := bitsOf d (351 + 32 * k) (320 + 32 * k)
def cdSoff (d : Nat) : Nat := bitsOf d 95 64
def cdAoff (d : Nat) : Nat := bitsOf d 127 96
def cdRowLen (d : Nat) : Nat := cdE d 0 * cdEs d
def cdRows (d : Nat) : Nat := cdE d 1 * cdE d 2 * cdE d 3
def cdLen (d : Nat) : Nat := cdRowLen d * cdRows d

/-- R239: the strides of row `r`. -/
def cdRow (d r : Nat) (stride : Nat → Nat) : Nat :=
  let e1 := cdE d 1
  let e2 := cdE d 2
  r % e1 * stride 1 + r / e1 % e2 * stride 2 + r / e1 / e2 * stride 3

/-- The scratchpad offset of row `r`, relative to the first. -/
def cdRowP (d r : Nat) : Nat := cdRow d r (cdP d)

/-- The rows of a copy that some of the bytes from `off` belong to: those below V, or all with ZF. -/
def rowsTouch (d v base off n : Nat) : Bool :=
  (List.range (if bitsOf d 166 166 = 1 then cdRows d else v)).any (fun r =>
    decide (off < base + cdRowP d r + cdRowLen d) && decide (base + cdRowP d r < off + n))

/-- R251, R252: bytes of the staged scratchpad region of a record. -/
def Staging.covers (x : Staging) (off n : Nat) : Bool := rowsTouch x.desc.toNat x.v (cdSoff x.desc.toNat) off n

/-- R413: the granules of a write that have no undo record in the open interval. -/
def newGranules (b : Block) (off n : Nat) : List Nat :=
  let first := off / 1024
  let all := (List.range ((off + n + 1023) / 1024 - first)).map (fun i => first + i)
  all.filter (fun g => (aget b.rb.undo.granules g).isNone)

/-- Writes the block's scratchpad: staging records over the bytes are dropped, and a rollback-capable block saves each
granule at its first write of the interval. -/
def scratchWrite (id : BlockId) (off : Nat) (bs : List (BitVec 8)) (s : State) : State :=
  let rb := (launchD s id.lid).rb
  modBlock id (fun b =>
    let undo := if rb then
        (newGranules b off bs.length).foldl (fun u g =>
          { u with granules := aset u.granules g (sbytes b.scratch (g * 1024) 1024) }) b.rb.undo
      else b.rb.undo
    { b with
      scratch := sputBytes b.scratch off bs
      staging := b.staging.filter (fun x => !x.covers off bs.length)
      rb := { b.rb with undo := undo } }) s

def scratchRead (s : State) (id : BlockId) (off n : Nat) : List (BitVec 8) := sbytes (blockD s id).scratch off n

/-! ### Stores (R23, R24, R172, R412, R472) -/

/-- How a store ends. -/
inductive StoreEnd where
  /-- The store is made and waits for its acknowledgement. -/
  | made (s : State)
  /-- A poisoned or uncorrectable sector that the store covers in part: it is not performed; the error's address. -/
  | error (pa : Nat) (s : State)
  /-- No publish-table entry can be had now (R24). -/
  | stall (s : State)

/-- Lines pending or reserved in a cluster (R24, R412). -/
def tableUse (s : State) (c : Nat) : Nat :=
  (clusterD s c).pend.length +
    ((s.blocks.filter (fun b => b.core / 8 == c && b.resident)).map (fun b =>
      b.rb.tent.length + b.rb.tentPrev.length)).sum

/-- R24: in a launch without the rollback flag a full table forces a publish; otherwise the store stalls. A release that waits
for a publish of the cluster goes on waiting for its own. -/
def tableRoom (c : Nat) (rb : Bool) (s : State) : Bool × State :=
  if tableUse s c < 16384 then (true, s)
  else if rb then
    (false, modCluster c (fun x => { x with stallSince := some (x.stallSince.getD s.clock) }) s)
  else
    let r := publishCluster c s
    (r.2 && decide (tableUse r.1 c < 16384), r.1)

/-- R23 step 2: a store updates the L1 line if present. -/
def updateL1 (core : Nat) (p : Place) (bs : List (BitVec 8)) (s : State) : State :=
  match l1Key p with
  | none => s
  | some (kind, key) =>
    modCore core (fun c => { c with l1 := c.l1.map (fun x =>
      if x.is kind key then { x with data := putLine x.data (p.addr % 128) bs } else x) }) s

/-- Merges bytes into a pending line (R172); poisoned sectors follow R472. -/
def Pending.put (p : Pending) (off : Nat) (bs : List (BitVec 8)) : Pending :=
  let m := maskOf off bs.length
  { p with data := putLine p.data off bs, mask := p.mask ||| m, poison := p.poison &&& ~~~ wholeSectors m,
           appended := none }

/-- R472: bytes that fall into part of a poisoned sector. -/
def partPoison (poison : BitVec 4) (off n : Nat) : Bool :=
  let m := maskOf off n
  poison &&& touchedSectors m &&& ~~~ wholeSectors m != 0

/-- A pending line's bytes (R23 step 3), allocated with its fetched version if absent. -/
def pendStore (core n ks off : Nat) (bs : List (BitVec 8)) (rb : Bool) (s : State) : StoreEnd :=
  let c := core / 8
  match (clusterD s c).pend.find? (fun p => p.line == n) with
  | some p =>
    if partPoison p.poison off bs.length then .error 0 s
    else .made (modCluster c (fun x => { x with pend := x.pend.map (fun q =>
      if q.line = n then q.put off bs else q) }) s)
  | none =>
    let (ok, s1) := tableRoom c rb s
    if !ok then .stall s1 else
    let r := indexedLine core n ks false s1
    if partPoison r.poison off bs.length then .error r.pa r.st
    else
      let fresh : Pending :=
        { line := n, data := r.data, mask := 0, ks := ks, poison := r.poison, appended := none, tx := false }
      .made (modCluster c (fun x => { x with pend := x.pend ++ [fresh.put off bs] }) r.st)

/-- R412: a rollback-capable block's store to a log line is tentative; the first to the line in the interval reserves an
entry. -/
def tentStore (id : BlockId) (n ks off : Nat) (bs : List (BitVec 8)) (s : State) : StoreEnd :=
  let b := blockD s id
  let held := b.rb.tent.any (fun t => t.line == n)
  let (ok, s1) := if held then (true, s) else tableRoom b.cluster true s
  if !ok then .stall s1 else
  let r := logLine id n ks false s1
  if partPoison r.poison off bs.length then .error r.pa r.st else
  let m := maskOf off bs.length
  let put (old : Mask) : Tentative :=
    { line := n, data := putLine r.data off bs, mask := old ||| m, ks := ks, poison := r.poison &&& ~~~ wholeSectors m }
  let set (l : List Tentative) : List Tentative :=
    if held then l.map (fun t => if t.line = n then put t.mask else t) else l ++ [put 0]
  .made (modBlock id (fun b => { b with rb := { b.rb with tent := set b.rb.tent } }) r.st)

/-- A store of bytes to a log line: the core atomic unit's copy, the home slice, or a pending or tentative line. -/
def logStore (id : BlockId) (la ks : Nat) (bs : List (BitVec 8)) (s : State) : StoreEnd :=
  let b := blockD s id
  let n := la / 128
  let off := la % 128
  match findCopy s id false n with
  | some _ =>
    .made (modCore b.core (fun k => { k with atoms := k.atoms.map (fun a =>
      if a.key == n && !a.fixed && a.owner == copyOwner s id
      then { a with data := putLine a.data off bs, mask := a.mask ||| maskOf off bs.length } else a) }) s)
  | none =>
    if (launchD s id.lid).rb then tentStore id n ks off bs s else
    let (e, s1) := lookupIx b.core n false s
    let pendingHere := (clusterD s1 b.cluster).pend.any (fun p => p.line == n)
    if isHomeEntry e && (aget s1.homes n).isSome && !pendingHere then
      .made (bumpWatches [n] (touchHome n (writeHome n (bytesLine off bs) (maskOf off bs.length) s1)))
    else pendStore b.core n ks off bs false s1

/-- Writes bytes of a line in place: a sector that another key slot wrote is written whole, merged with what this slot
reads there (R472, log entry 6, DESIGN CHOICE). -/
def mergeWrite (pa ks : Nat) (bs : List (BitVec 8)) (was : Line) (s : State) : State :=
  let lo := pa / 32 * 32
  let n := (pa + bs.length + 31) / 32 * 32 - lo
  if (sectorsOf pa bs.length).all (fun k => (sget s.keyOf k).toNat == ks || sget s.keyOf k == 0) then writeBytes s pa bs ks
  else writeBytes s lo (lineBytes (putLine was (pa % 128) bs) (lo % 128) n) ks

/-- R23 step 1, R472: a store to a fixed page is written in place at the controller. -/
def fixedStore (core pa : Nat) (nc : Bool) (ks : Nat) (bs : List (BitVec 8)) (s : State) : StoreEnd :=
  let (ok, s1) := adoptRow pa s
  if !ok then .made (countEvent .hbmUncorrectable (.channel (channelOf pa)) s1) else
  let line := pa / 128 * 128
  let was := fixedFromHbm s1 pa ks
  if partPoison was.2 (pa % 128) bs.length then .error pa s1
  else
    let s2 := mergeWrite pa ks bs was.1 s1
    .made (if nc then s2 else modCluster (core / 8) (fun c => { c with fixed := amod c.fixed line (fun d =>
      putLine d (pa % 128) bs) }) s2)

/-- The store of bytes at a place by a thread of a block; the L1 copy of its core follows (R23). -/
def storePlace (id : BlockId) (p : Place) (bs : List (BitVec 8)) (s : State) : StoreEnd :=
  let core := (blockD s id).core
  match p with
  | .scratch off => .made (scratchWrite id off bs s)
  | .log la ks => match logStore id la ks bs s with
    | .made t => .made (if (findTent (blockD t id) (la / 128)).isSome then t else updateL1 core p bs t)
    | r => r
  | .fixed pa nc ks =>
    match findCopy s id true (pa / 128) with
    | some _ =>
      .made (updateL1 core p bs (modCore core (fun k => { k with atoms := k.atoms.map (fun a =>
        if a.key == pa / 128 && a.fixed && a.owner == copyOwner s id
        then { a with data := putLine a.data (pa % 128) bs, mask := a.mask ||| maskOf (pa % 128) bs.length }
        else a) }) s))
    | none => match fixedStore core pa nc ks bs s with
      | .made t => .made (updateL1 core p bs t)
      | r => r
  | .remote dev la => .made (updateL1 core p bs { s with out := s.out ++ [.remote dev la bs] })

def StoreEnd.state : StoreEnd → State
  | .made s | .error _ s | .stall s => s

end Sys2Proof.Machine
end

