-- ==== Sys2Proof/Machine/Release.lean ====
section
/-!
DEFINITION. Machine/Release.lean: what releases and acquires do and when they count as performed (R179, R185, R470).
-/
namespace Sys2Proof.Machine

/-- R184: the scopes from block to system, ranked. -/
def mscRank (m : Msc) : Nat := match m with | .b => 0 | .cl => 1 | .dv => 2 | .sy => 3

/-- R174: drops every index entry whose line hits the accumulator, and clears it. -/
def scrub (core : Nat) (s : State) : State :=
  modCore core (fun k => { k with ix := k.ix.filter (fun e => !filterHit k.acc e.1), acc := 0 })
    (modCluster (core / 8) (fun k => { k with ix := k.ix.filter (fun e => !filterHit k.acc e.1), acc := 0, fixed := [] }) s)

/-- R185: a cluster-scope acquire drops the core atomic unit's copies but for their changed bytes. -/
def dropCopies (core : Nat) (s : State) : State :=
  modCore core (fun k => { k with
    atoms := (k.atoms.filter (fun a => a.mask != 0)).map (fun a => { a with stale := true }) }) s

/-- R185: the actions of an acquire of a warp. -/
def acquireNow (id : BlockId) (w : Nat) (m : Msc) (s : State) : State :=
  let core := (blockD s id).core
  let s1 := modCore core (fun k => { k with l1 := [] }) s
  let s2 := if 1 ≤ mscRank m then dropCopies core s1 else s1
  if 2 ≤ mscRank m then
    let s3 := scrub core s2
    modWarp id w (fun wp => { wp with acq := s3.epoch }) s3
  else s2

/-- Masked bytes written into the cluster's pending line (R185, R215); none when the table has no room. -/
def pendMask (core n ks : Nat) (d : Line) (m : Mask) (rb tx : Bool) (s : State) : Option State :=
  let c := core / 8
  let put (t : State) : State := modCluster c (fun x => { x with pend := x.pend.map (fun q =>
    if q.line = n then { q with data := mergeLine q.data d m, mask := q.mask ||| m, appended := none, tx := q.tx || tx,
                                poison := q.poison &&& ~~~ wholeSectors m } else q) }) t
  if (clusterD s c).pend.any (fun q => q.line == n) then some (put s) else
  let (ok, s1) := tableRoom c rb s
  if !ok then none else
  let r := indexedLine core n ks false s1
  let fresh : Pending :=
    { line := n, data := r.data, mask := 0, ks := ks, poison := r.poison, appended := none, tx := tx }
  some (put (modCluster c (fun x => { x with pend := x.pend ++ [fresh] }) r.st))

/-- R185: one changed copy is written back: into the pending line, or to the controller. -/
def writeBackCopy (core : Nat) (rb : Bool) (a : AtomCopy) (s : State) : Option State :=
  if a.fixed then
    some ((List.range 128).foldl (fun t i =>
      if a.mask.getLsbD i then writeBytes t (a.key * 128 + i) (lineBytes a.data i 1) a.ks else t) s)
  else pendMask core a.key a.ks a.data a.mask rb false s

/-- R185, R198: a cluster-scope release writes back every changed copy that the block's atomics use. -/
def writeBackCopies (id : BlockId) (s : State) : Option State :=
  let core := (blockD s id).core
  let rb := (launchD s id.lid).rb
  let mine (a : AtomCopy) : Bool := a.owner == copyOwner s id && a.mask != 0
  let r := ((coreD s core).atoms.filter mine).foldl (fun o a => o.bind (writeBackCopy core rb a)) (some s)
  r.map (modCore core (fun k => { k with atoms := k.atoms.map (fun a => if mine a then { a with mask := 0 } else a) }))

/-- A releasing store of a rollback-capable block at cluster scope or wider: it is made after the checkpoint that its
release waited for, into the pending line itself, so that the release's publish installs it (R179, R412; log entry 23, DEDUCED). -/
def directStore (id : BlockId) (p : Place) (bs : List (BitVec 8)) (s : State) : StoreEnd :=
  match p with
  | .log la ks =>
    if (findCopy s id false (la / 128)).isSome || (aget s.homes (la / 128)).isSome then storePlace id p bs s
    else match pendStore (blockD s id).core (la / 128) ks (la % 128) bs true s with
      | .made t => .made (updateL1 (blockD s id).core p bs (modBlock id (fun b =>
          let put (x : Tentative) : Tentative :=
            if x.line = la / 128 then { x with data := putLine x.data (la % 128) bs } else x
          { b with rb := { b.rb with tent := b.rb.tent.map put, tentPrev := b.rb.tentPrev.map put } }) t))
      | r => r
  | _ => storePlace id p bs s

/-- R392: two errors of one word make one trap, whose record is that of the lowest lane. -/
def DueError.joins (d e : DueError) : Bool :=
  d.cause == e.cause && d.pc == e.pc && d.out == e.out && d.iw == e.iw && d.ew == e.ew && d.lanes &&& e.lanes == 0
    && d.lanes != 0 && e.lanes != 0

def addDue (e : DueError) (ds : List DueError) : List DueError :=
  match ds.getLast? with
  | some d =>
    let low := if (laneNums e.lanes).headD 32 < (laneNums d.lanes).headD 32 then e else d
    let both : DueError := { low with lanes := d.lanes ||| e.lanes }
    if d.joins e then ds.dropLast ++ [both] else ds ++ [e]
  | none => [e]

/-- R439: an uncorrectable error of an access of the word at `iw`, `ew` is due in lanes of the warp. -/
def dueData (id : BlockId) (w : Nat) (lanes : Lanes) (pc : Option (BitVec 53)) (out : Option Nat) (iw ew : Word) (pa : Nat)
    (s : State) : State :=
  let e : DueError :=
    { lanes := lanes, pc := pc, out := out, cause := 0x0A, sub := 0, aux := 0, addr := pa / 32 * 32, iw := iw, ew := ew,
      rollback := true }
  modWarp id w (fun wp => { wp with due := addDue e wp.due }) s

/-- The lanes that take an error of a uniform access (R391): those that issued it, or the last arriver's; and the word at
which their trap resumes, none after a rendezvous (log entry 26, DEDUCED). -/
def errorLanes (e : Env) : Lanes := if e.c.single.isNone then e.lanes else e.wp.live

def errorPc (c : Cur) : Option (BitVec 53) := if c.single.isNone then some c.pc else none

/-- The lane, or the lanes of a uniform access, that take an error of an outstanding result, and where they resume. -/
def Outst.errLanes (o : Outst) (lane : Nat) : Lanes := if o.members.isEmpty then 1#32 <<< lane else o.lanes

def Outst.errPc (o : Outst) : Option (BitVec 53) := if o.members.length ≤ 1 then some o.pc else none

/-- R24, R335: a store stalls for want of a publish-table entry: in a rollback-capable launch from now on, in any other
since the log has no room for the forced publish. -/
def stallOnTable (id : BlockId) (s : State) : State :=
  if (launchD s id.lid).rb then
    modCluster (blockD s id).cluster (fun x => { x with stallSince := some (x.stallSince.getD s.clock) }) s
  else if (freeSegment s).isNone then noteLogFull s else s

/-- Stores of a warp in turn, each counted as unacknowledged (R23, R179, R193); none when one must stall (R24). A store
into part of a poisoned sector is not made and its error is due (R472). `direct` is for a release (log entry 23, DEDUCED). -/
def makeStores (id : BlockId) (w : Nat) (iw ew : Word) (direct : Bool) : List (Nat × Place × List (BitVec 8)) → State → Option State
  | [], s => some s
  | (l, p, bs) :: t, s =>
    match (if direct then directStore id p bs s else storePlace id p bs s) with
    | .made s1 =>
      makeStores id w iw ew direct t (modWarp id w (fun wp => match p with
        | .scratch _ => wp
        | .remote dev _ =>
          { wp with remoteUnack := wp.remoteUnack ++ [(l, iw, ew)], remoteHomes := insertNat wp.remoteHomes dev }
        | _ => { wp with unack := wp.unack ++ [(l, p, iw, ew)] }) s1)
    | .error pa s1 =>
      makeStores id w iw ew direct t (dueData id w (1#32 <<< l) none none iw ew pa s1)
    | .stall _ => none

def setRel (id : BlockId) (w : Nat) (r : Option Release) (s : State) : State :=
  modWarp id w (fun wp => { wp with rel := r }) s

/-- R185: a release of system scope then publishes on each home device that received the warp's stores. -/
def startRemote (id : BlockId) (w : Nat) (s : State) : State :=
  let homes := (warpD s id w).remoteHomes
  let cl := (blockD s id).cluster
  let words (wp : Warp) : Nat × Word × Word := match wp.rel with | some r => (32, r.iw, r.ew) | none => (32, 0, 0)
  modWarp id w (fun wp => { wp with remoteUnack := homes.map (fun _ => words wp), remoteHomes := [] })
    { s with out := s.out ++ homes.map (fun d => .homePublish d cl) }

/-- R185: a remote atomic of the warp, other than the one that leaves after its release, has no result yet. -/
def Warp.remoteAtomic (wp : Warp) : Bool :=
  let own := (wp.rel.bind (·.out)).getD wp.nextOut
  wp.outs.any (fun o => o.id != own && !o.ops.isEmpty && o.parts.any (fun x => match x.2.2 with | .remote _ _ => true | _ => false))

/-- One step of a release in progress (R185). -/
def relStep (id : BlockId) (w : Nat) (s : State) : State :=
  let wp := warpD s id w
  match wp.rel with
  | none => s
  | some r =>
    match r.phase with
    | .ckpt | .capture | .ready | .publish | .done => s
    | .acks =>
      if wp.unacked ≠ 0 then s else
      let back := if 1 ≤ mscRank r.msc then writeBackCopies id s else some s
      match back with
      | none => stallOnTable id s
      | some s1 =>
        match makeStores id w r.iw r.ew ((launchD s id.lid).rb && decide (1 ≤ mscRank r.msc)) r.stores s1 with
        | none => stallOnTable id s
        | some s2 =>
          if s.phase ≠ 2 && decide (2 ≤ mscRank r.msc) then s   -- R429: held until phase 2
          else if mscRank r.msc < 2 then setRel id w (some { r with phase := .done, stores := [], epoch := s2.epoch }) s2
          else if r.stores.isEmpty then
            modCluster (blockD s id).cluster (fun c => { c with publish := true })
              (setRel id w (some { r with phase := .publish }) s2)
          else setRel id w (some { r with phase := .store, stores := [] }) s2
    | .store =>
      if wp.unacked ≠ 0 then s
      else modCluster (blockD s id).cluster (fun c => { c with publish := true })
        (setRel id w (some { r with phase := .publish }) s)
    | .remote =>
      if wp.remoteUnack.any (fun x => x.1 != 33) || wp.remoteAtomic then s
      else if wp.remoteHomes.isEmpty then setRel id w (some { r with phase := .done }) s
      else startRemote id w s

/-- A performed release that does not hold the warp is over; an acquire it carries follows (R470). -/
def relDone (id : BlockId) (w : Nat) (s : State) : State :=
  match (warpD s id w).rel with
  | some r =>
    if r.phase == .done && !r.holds then
      let s1 := setRel id w none s
      match r.acq with | some m => acquireNow id w m s1 | none => s1
    else s
  | none => s

/-- Advances a release as far as it can go now. -/
def relAdvance (id : BlockId) (w : Nat) (s : State) : State :=
  relDone id w (relStep id w (relStep id w (relStep id w (relStep id w s))))

/-- The words of the word in hand. -/
def curWords (s : State) : Word × Word :=
  match s.cur with
  | some c => (c.iw, c.ew)
  | none => (0, 0)

/-- A release begins (R185, R410): in a rollback-capable launch at cluster scope or wider its checkpoint comes first. -/
def startRelease (id : BlockId) (w : Nat) (m : Msc) (pc : BitVec 53) (holds carried : Bool)
    (stores : List (Nat × Place × List (BitVec 8))) (s : State) : State :=
  let rb := (launchD s id.lid).rb && decide (1 ≤ mscRank m)
  let r : Release :=
    { msc := m, phase := if rb then .ckpt else .acks, pc := pc, iw := (curWords s).1, ew := (curWords s).2, holds := holds, carried := carried, stores := stores, out := none,
      acq := none, epoch := 0 }
  let s1 := setRel id w (some r) s
  if rb then modBlock id (fun b => { b with rb := { b.rb with want := true } }) s1 else relAdvance id w s1

/-- What a word whose release comes before it finds (BAR, BAND, SST.REL at a wider scope, SNAP, TXE, LAUNCH, FENCE.AR):
`.ready` with the release taken off, or the state in which it still waits. -/
inductive HeldRelease where
  | ready (s : State) (epoch : Nat)
  | wait (s : State)

/-- R411: the release waits for its checkpoint. -/
def RelPhase.early (p : RelPhase) : Bool := p == .ckpt || p == .capture

/-- R470: a release that does not hold its warp, carried by the word at `pc`: in a rollback-capable launch it first
waits at issue for its checkpoint. `.ready` when the word may go on, the release begun; `.wait` while it stalls. -/
def carriedRelease (id : BlockId) (w : Nat) (m : Msc) (pc : BitVec 53)
    (stores : List (Nat × Place × List (BitVec 8))) (out : Option Nat) (s : State) : HeldRelease :=
  let begin (t : State) : HeldRelease :=
    let r : Release :=
      { msc := m, phase := .acks, pc := pc, iw := (curWords t).1, ew := (curWords t).2, holds := false, carried := false, stores := stores, out := out, acq := none, epoch := 0 }
    .ready (relAdvance id w (setRel id w (some r) t)) 0
  match (warpD s id w).rel with
  | some r => if r.pc == pc && r.phase == .ready then begin s else .wait s
  | none =>
    if (launchD s id.lid).rb && decide (1 ≤ mscRank m) then .wait (startRelease id w m pc true true [] s) else begin s

/-- R175: a warp whose release waited for the publish of epoch `e`. -/
def Warp.published (e : Nat) (wp : Warp) : Warp :=
  match wp.rel with
  | some r =>
    if r.phase == .publish then
      { wp with rel := some { r with phase := if mscRank r.msc = 3 then .remote else .done, epoch := e } }
    else wp
  | none => wp

/-- R175: a cluster's publish performs the releases that wait for it. -/
def releasePublished (c : Nat) (s : State) : State :=
  let s1 := { s with blocks := s.blocks.map (fun (b : Block) =>
    if b.core / 8 = c && b.resident then { b with warps := b.warps.map (Warp.published s.epoch) } else b) }
  s1.blocks.foldl (fun t (b : Block) =>
    if b.core / 8 = c && b.resident then
      (List.range b.warps.length).foldl (fun t w => relAdvance b.id w t) t
    else t) s1

def heldRelease (id : BlockId) (w : Nat) (m : Msc) (pc : BitVec 53) (s : State) : HeldRelease :=
  let look (t : State) : HeldRelease :=
    match (warpD t id w).rel with
    | some r => if r.phase == .done && r.pc == pc && r.holds then .ready (setRel id w none t) r.epoch else .wait t
    | none => .wait t
  match (warpD s id w).rel with
  | some _ => look s
  | none => look (startRelease id w m pc true false [] s)

/-- R202, R410: the word at `pc` first waits for a checkpoint of its own. -/
def checkpointFirst (id : BlockId) (w : Nat) (pc : BitVec 53) (s : State) : HeldRelease :=
  match (warpD s id w).rel with
  | some r => if r.pc == pc && r.phase == .ready then .ready (setRel id w none s) 0 else .wait s
  | none => .wait (startRelease id w .cl pc true true [] s)

/-- R470: whether the word at `pc` still waits for its own checkpoint, for a release that does not hold the warp. -/
def ownCheckpoint (wp : Warp) (pc : BitVec 53) : Bool :=
  match wp.rel with
  | some r => r.pc == pc && r.phase.early
  | none => false

end Sys2Proof.Machine
end

