-- ==== Sys2Proof/Machine/Issue.lean ====
section
/-!
DEFINITION. Machine/Issue.lean: what every word goes through at issue and at its end: the checks that depend on the state
(R50 checks 10 and 11, R17), aborts of transaction lanes (R213, R471), arrival at a rendezvous (R136), faults of lanes
(R169, R196, R397), the end of a word (R28, R130, R137, R230), and the stalls before it (R40, R470).
-/
namespace Sys2Proof.Machine

/-! ### Which words are which -/

/-- R17, R48, R376: words and registers of level S. -/
def sOnly : Instr → Bool
  | .shipCfg .. | .shipStart .. | .shipStop .. | .shipStat .. | .shipAccept .. | .shipPromote .. | .launch ..
  | .mboxCfg .. | .mboxPost .. | .mboxOpen .. | .ctxsvWrite .. | .ctxsvRead .. | .ctxsvResume .. | .ctxsvKill ..
  | .preemptCtx .. | .preemptLaunch .. | .preemptBlock .. | .preemptResume .. | .fltqDone .. | .fltqFail ..
  | .fltqStat .. | .tlbiAll .. | .tlbiCtx .. | .tlbiRange .. | .keyctlLoad .. | .keyctlBind .. | .keyctlErase ..
  | .keyctlQuery .. | .dbgAttach .. | .dbgDetach .. | .dbgStop .. | .dbgResume .. | .dbgRdreg .. | .dbgWrreg ..
  | .dbgStat .. | .mextWrite .. | .colcmdWrite .. | .errinjWrite .. => true
  | .csrr _ _ n | .csrw _ n _ => 0x100 ≤ n.toNat
  | _ => false

/-- R213: the P-words that abort a transaction lane. -/
def txAbortsP : Instr → Bool
  | .sts .. | .atom .. | .red .. | .waita .. | .fence .. | .trap .. | .bkpt .. => true
  | _ => false

/-- R471: the G-words that abort the transaction lanes of their warp. -/
def txAbortsG : Instr → Bool
  | .sld .. | .sst .. | .satom .. | .prefCc .. | .prefL1 .. | .prefIx .. | .cctlL1inv .. | .cctlFxinv ..
  | .cctlAppend .. | .ixctlQuery .. | .ixctlDrop .. | .ixctlUnhome .. | .sflush .. | .tcopy .. | .tstore .. | .ring ..
  | .tfill .. | .twait .. | .tstatClr .. | .mclaim .. | .mrel .. | .mload .. | .mma .. | .mmasp .. | .mzero ..
  | .mstore .. | .mcvt .. | .mwait .. | .mqcfgAlloc .. | .mqcfgFree .. | .mqcfgClr .. | .lbind .. | .mmad ..
  | .lrefForce .. | .lrefDrop .. | .lwatchAdd .. | .lwatchDel .. | .snapTake .. | .snapRd .. | .sndrop .. | .rollb ..
  | .publ .. | .publWait .. | .publSeal .. | .shipCfg .. | .shipStart .. | .shipStop .. | .shipStat ..
  | .shipAccept .. | .shipPromote .. | .nbarm .. | .nbdisarm .. | .nbload .. | .nbstrm .. | .nbdrain ..
  | .nbdrainClr .. | .nbop .. | .trav .. | .travqCancel .. | .csrw .. | .tmaskWrite .. | .tpendWrite ..
  | .mextWrite .. | .colcmdWrite .. | .errinjWrite .. | .tret .. | .tretExit .. => true
  | .csrr .. => false
  | i => sOnly i

/-- Band collectives by their own entries (R30). -/
def isBandWord : Instr → Bool
  | .band .. | .ring .. => true
  | _ => false

/-- Words of sub-warp or lane scope whose execution needs a performed release at arrival of a wider scope: the release
and the members that make it (R158, R160, R182, R325). -/
def arrivalRelease (i : Instr) : Option Msc :=
  match i with
  | .bar _ sem msc => if sem = .rel || sem = .ar then some msc else none
  | .band .. => some .cl
  | .sst _ _ _ _ sem msc .. => if sem = .rel then some (if msc = .b then .b else .cl) else none
  | .satom _ k .. => if k.sem = .rel || k.sem = .ar then some k.msc else none
  | .snapTake .. | .snapRd .. | .snapQuery .. | .sndrop .. | .rollb .. | .publ .. => some .dv
  | _ => none

/-- R186, R470: a word that carries a release or an acquire, itself, in its command, or before its arrival. -/
def carriesOrder (i : Instr) : Bool :=
  (arrivalRelease i).isSome || match i with
  | .fence .. | .publ .. | .txb .. | .txe .. | .launch .. | .colcmdWrite .. => true
  | .ld _ _ _ sem .. | .st _ _ _ sem .. | .lds _ _ _ sem .. | .sts _ _ _ sem .. => sem != .none
  | .sld _ _ _ _ sem .. | .sst _ _ _ _ sem .. => sem != .none
  | .atom _ k .. | .red _ k .. | .satom _ k .. => k.sem != .none
  | .bar _ sem _ => sem != .none
  | .waita _ _ _ acq .. => acq
  | .twait _ _ acq .. | .mwait _ acq .. | .publWait _ acq .. => acq
  | .tcopy _ sem .. | .tstore _ sem .. | .ring _ sem .. | .tfill _ sem .. | .mload _ sem .. | .mstore _ sem ..
  | .nbop _ sem .. | .trav _ sem .. => sem != .none
  | .nbdrain _ rel .. => rel
  | _ => false

/-- R470: a strong access or an atomic. -/
def isStrong : Instr → Bool
  | .ld _ strong .. | .st _ strong .. | .lds _ strong .. | .sts _ strong .. => strong
  | .sld _ _ strong .. | .sst _ _ strong .. => strong
  | .atom .. | .red .. | .satom .. | .waita .. => true
  | _ => false

/-! ### Checks at issue that depend on the state -/

/-- R50 check 10: a `v` name at or above the allotment. -/
def aboveAllot (allot : Nat) : Opnd → Bool
  | .lane n c => 16 ≤ n.toNat && allot ≤ n.toNat + c - 1 - 16
  | _ => false

/-- R45: the set whose `w` registers a word names. -/
def wSet (l : Launch) (h : Hdr) (w : Nat) : Option Nat :=
  if h.scope = .set then some h.set.toNat else (warpSets l w).head?

/-- R50 check 11. -/
def setBad (l : Launch) (h : Hdr) (w : Nat) (i : Instr) : Bool :=
  (h.scope == .set && !(setMembers l h.set.toNat).contains w)
    || (i.opnds.any (fun o => match o with | .w _ => true | _ => false) && (wSet l h w).isNone)

/-- The subcode of the first check of R50 that the state makes fail: allotment, sets, and what an entry checks against
the launch (R147, R160, R161, R229, R395). -/
def dynSubcode (s : State) (c : Cur) (h : Hdr) (i : Instr) : Option Nat :=
  let l := launchD s c.block.lid
  let wp := warpD s c.block c.warp
  let early := match i with
    | .clkCyc _ _ => if l.det then some 0x02 else none
    | .tret _ | .tretExit _ => if wp.hand = 0 then some 0x02 else none
    | .band .. | .ring .. => if l.band then none else some 0x05
    | _ => none
  match early with
  | some x => some x
  | none =>
    if i.opnds.any (aboveAllot wp.allot) then some 0x09
    else if setBad l h c.warp i then some 0x06
    else match i with
      | .gmemb _ _ _ n => if (aget l.groups n.toNat).isNone then some 0x06 else none
      | _ => none

/-- Cause and subcode of a trap that stops the word at issue: R50, then R17. -/
def issueTrap (s : State) (c : Cur) (h : Hdr) (i : Instr) : Option (Nat × Nat) :=
  match dynSubcode s c h i with
  | some x => some (0x01, x)
  | none => if sOnly i && !(launchD s c.block.lid).super then some (0x02, 0) else none

/-- R142, R136: the warps a word's scope takes in. -/
def scopeWarps (s : State) (id : BlockId) (w : Nat) (scope : Scope) (set : Nat) : List Nat :=
  match scope with
  | .own | .warp => [w]
  | .set => setMembers (launchD s id.lid) set
  | .block => List.range (blockD s id).warps.length

/-- A trap raised by the word in hand in some of its lanes; at set or block scope the other members are suspended
(R52). -/
def wordTrap (c : Cur) (h : Hdr) (lanes : Lanes) (cause sub aux addr : Nat) (s : State) : State :=
  let t : TrapReq :=
    { lanes := lanes, pc := c.pc, next := some (c.pc + wordLen h), iw := c.iw, ew := c.ew, cause := cause, sub := sub,
      aux := aux, addr := addr }
  let s1 := if h.scope = .set || h.scope = .block then
      freezeOthers c.block c.warp (scopeWarps s c.block c.warp h.scope h.set.toNat) (trapRecord t)
        (trapFate (warpD s c.block c.warp) lanes cause) s
    else s
  raiseTrap c.block c.warp t s1

/-! ### Transactions: leaving one (R217, R218) -/

/-- R218: codes 0x04, 0x05 and 0x06 ask for a retry. -/
def txStatus (code aux : Nat) : BitVec 32 :=
  BitVec.ofNat 32 (code + aux % 256 * 2 ^ 8 + (if code = 4 || code = 5 || code = 6 then 2 ^ 16 else 0))

/-- The lanes of a warp that are in its transaction. -/
def txLanes (wp : Warp) : Lanes :=
  match wp.tx with
  | some t => lanesOf (fun l => t.lanes.any (fun x => x.lane == l))
  | none => 0

/-- The key under which `seen` keeps the entry of line `n` at the first read by lane `l`. -/
def seenKey (l n : Nat) : Nat := l * 2 ^ 45 + n

/-- A lane's part is discarded, with what the lane has read (R217). -/
def Tx.without (t : Tx) (l : Nat) : Option Tx :=
  let rest := t.lanes.filter (fun x => x.lane != l)
  if rest.isEmpty then none
  else some { t with lanes := rest, seen := t.seen.filter (fun e => e.1 / 2 ^ 45 != l) }

/-- R217, R465: a lane's part of the transaction ends; the TXE words retire with the last part. -/
def Warp.txLeave (l : Nat) (wp : Warp) : Warp :=
  match wp.tx with
  | none => wp
  | some t => match t.without l with
    | some u => { wp with tx := some u }
    | none => { wp with tx := none, retired := wp.retired + t.words }

/-- R212: when the transaction has ended, the lanes that waited to begin the next one run. -/
def Warp.txEnd (wp : Warp) : Warp :=
  if wp.tx.isSome then wp else
    { wp with lanes := wp.lanes.map (fun x =>
        if x.txe && x.st == .waiting then { x with st := .running, txe := false } else x) }

/-- R217: a lane leaves its transaction, its status register and its PC are set. -/
def Warp.txAbort (code aux : Nat) (l : Nat) (wp : Warp) : Warp :=
  match wp.tx with
  | none => wp
  | some t =>
    match t.lanes.find? (fun x => x.lane == l) with
    | none => wp
    | some x =>
      let w1 := wp.setReg x.dst l (txStatus code aux)
      ((w1.txLeave l).setLanes (1#32 <<< l)
        (fun y => { y with pc := x.handler, st := .running, txe := false })).txEnd.meetings

def Warp.txAbortAll (code aux : Nat) (m : Lanes) (wp : Warp) : Warp :=
  (laneNums m).foldl (fun x l => x.txAbort code aux l) wp

/-- R213: an exiting lane's part of a transaction is discarded. -/
def Warp.txDrop (m : Lanes) (wp : Warp) : Warp :=
  ((laneNums m).foldl (fun (x : Warp) l => x.txLeave l) wp).txEnd

/-! ### The end of a word -/

/-- R226: a switch point of a deterministic launch: the scheduler chooses its current warp anew. -/
def switchPoint (id : BlockId) (w : Nat) (s : State) : State :=
  modCore (blockD s id).core (fun k => { k with
    current := k.current.filter (fun x => !(x.2.block == id && x.2.warp == w)) }) s

/-- Lanes go to `next` and the word is retired once (R230); S = 1 makes the warp park (R38). -/
def Warp.retire (h : Hdr) (m : Lanes) (next : BitVec 53) (wp : Warp) : Warp :=
  (({ wp with retired := wp.retired + 1, marker := wp.marker || h.s } : Warp).setLanes m
    (fun x => { x with pc := next, st := .running })).meetings

/-- As `retire`, each lane going to its own address. -/
def Warp.retireAt (h : Hdr) (m : Lanes) (next : Nat → BitVec 53) (wp : Warp) : Warp :=
  ({ wp with retired := wp.retired + 1, marker := wp.marker || h.s,
             lanes := wp.lanes.mapIdx (fun l x =>
               if m.getLsbD l then { x with pc := next l, st := .running } else x) } : Warp).meetings

/-- R137: every waiting lane of a completed rendezvous is released to the address its member goes to. -/
def releaseMembers (h : Hdr) (c : Cur) (r : Rdv) (next : Nat → BitVec 53) (s : State) : State :=
  let s1 := r.parts.foldl (fun t a =>
    modWarp c.block a.1 (fun wp => if a.2 &&& wp.live = 0 then wp else wp.retire h (a.2 &&& wp.live) (next a.1)) t) s
  modBlock c.block (fun b => { b with rdvs := b.rdvs.filter (fun x =>
    !(x.pc == r.pc && x.scope == r.scope && x.set == r.set && x.warp == r.warp)) }) s1

/-- The word is done for `lanes` of its issue group, or for every member of its rendezvous; each member's lanes go to
`next` of its warp. -/
def endWordTo (h : Hdr) (c : Cur) (lanes : Lanes) (next : Nat → BitVec 53) (s : State) : State :=
  match c.single with
  | none => if lanes = 0 then s else modWarp c.block c.warp (fun wp => wp.retire h lanes (next c.warp)) s
  | some r => releaseMembers h c r next s

/-- R28: the word is done and its lanes go on at the next word. -/
def endWord (h : Hdr) (c : Cur) (s : State) : State :=
  endWordTo h c c.group (fun _ => c.pc + wordLen h) s

/-! ### Faults of lanes -/

/-- R397: the device posts a fault record at FQB; true when the ring had room. -/
def fqPost (f : FaultRec) (s : State) : Bool × State :=
  let c := f.ctx.toNat
  let fqb := ctxField s c 154 128 * 8192
  let cap := 2 ^ ctxField s c 159 155
  let prod := readNat s fqb 4
  let cons := readNat s (fqb + 128) 4
  if (prod + 2 ^ 32 - cons) % 2 ^ 32 < cap then
    let v := f.va % 2 ^ 53 + f.cls * 2 ^ 53 + f.src * 2 ^ 57 + (if f.store then 1 else 0) * 2 ^ 59
      + f.token % 2 ^ 32 * 2 ^ 64 + f.lid.toNat * 2 ^ 96 + f.blk * 2 ^ 128
    (true, writeNat (writeNat s (fqb + 256 + 32 * (prod % cap)) 32 v 64) fqb 4 ((prod + 1) % 2 ^ 32) 64)
  else (false, s)

/-- R397: a fault joins an unserved record of its context, page and class, or makes one; its token. -/
def postFault (ctx : BitVec 12) (va cls src : Nat) (store : Bool) (id : BlockId) (s : State) : Nat × State :=
  match s.faults.find? (fun f => f.ctx == ctx && f.va / 8192 == va / 8192 && f.cls == cls) with
  | some f => (f.token, { s with faults := s.faults.map (fun (x : FaultRec) =>
      if x.token = f.token then { x with store := x.store || store } else x) })
  | none =>
    let f : FaultRec :=
      { token := s.nextToken, ctx := ctx, va := va, cls := cls, src := src, store := store, lid := id.lid,
        blk := id.blk, posted := true }
    let s0 := { s with nextToken := s.nextToken + 1 }
    let (ok, s1) := if s0.fullFq.contains ctx.toNat then (false, s0) else fqPost f s0
    if ok then (f.token, { s1 with faults := s1.faults ++ [f] })
    else
      let s2 := { s1 with faults := s1.faults ++ [{ f with posted := false }] }
      if s2.fullFq.contains ctx.toNat then (f.token, s2)
      else (f.token, postRecord 0x85 (leBytes 8 ctx.toNat) { s2 with fullFq := insertNat s2.fullFq ctx.toNat })

/-- A fault of one lane of a word. -/
structure LaneFault where
  lane : Nat
  cls : Nat
  va : Nat
  store : Bool

/-- R196: parks a lane until its fault is served. -/
def parkLane (id : BlockId) (w : Nat) (f : LaneFault) (s : State) : State :=
  match blockCtx s id with
  | none => s
  | some ctx =>
    let (tok, s1) := postFault ctx f.va f.cls 0 f.store id s
    let p : Park := { lane := f.lane, token := some tok, va := f.va, cls := f.cls, store := f.store, since := s.clock }
    modWarp id w (fun wp => ({ wp with parks := wp.parks ++ [p] } : Warp).setLanes (1#32 <<< f.lane)
      (fun x => { x with st := .parked })) s1

/-- R169, R196, R213, R389, R390: what faults of lanes of the word in hand do: transaction lanes abort, lanes with a
fault of class 0x5 or 0x6 at level T park, the others trap together. -/
def laneFaults (h : Hdr) (c : Cur) (fs : List LaneFault) (s : State) : State :=
  let super := (launchD s c.block.lid).super
  let inTx := txLanes (warpD s c.block c.warp)
  let fs := fs.filter (fun f => f.cls != heldClass)
  let (txf, rest) := fs.partition (fun f => inTx.getLsbD f.lane)
  let s1 := txf.foldl (fun t f => modWarp c.block c.warp (fun wp => wp.txAbort 7 f.cls f.lane) t) s
  let (pk, tr) := rest.partition (fun f => (f.cls == 5 || f.cls == 6) && !super)
  let s2 := pk.foldl (fun t f => parkLane c.block c.warp f t) s1
  match tr with
  | [] => s2
  | f :: _ =>
    wordTrap c h (lanesOf (fun l => tr.any (fun x => x.lane == l))) 0x04 f.cls (if f.store then 1 else 0) f.va s2

/-- The lanes of a list of faults. -/
def faultLanes (fs : List LaneFault) : Lanes := lanesOf (fun l => fs.any (fun f => f.lane == l))

/-! ### A fault in a single execution (R139, R391) -/

def Rdv.same (r x : Rdv) : Bool := r.pc == x.pc && r.scope == x.scope && r.set == x.set && r.warp == x.warp

/-- The arrivals of warp `w` at a rendezvous are withdrawn: its lanes go on (R394); with no member left it is over. -/
def Rdv.leave (r : Rdv) (w : Nat) : Rdv :=
  let rest := r.arrived.filter (fun a => a.1 != w)
  { r with arrived := rest, last := (rest.getLast?.map (·.1)).getD r.last }

/-- R139, R394: the phase in which a fault of the single execution leaves its rendezvous; where the last arriver's lanes
go on with traps masked, the other members stay suspended (log entry 83, DEDUCED). -/
def suspendRdv (c : Cur) (r : Rdv) (record : BitVec 256) (fate : TrapFate) (s : State) : State :=
  let x := match fate with
    | .now | .kill => { r with phase := RdvPhase.suspended r.last }
    | .turn => { r with phase := .pended r.last record }
    | .kept => { r.leave r.last with phase := .pended r.last record }
    | .lost => { r.leave r.last with phase := .pended r.last 0 }
  modBlock c.block (fun b => { b with
    rdvs := (b.rdvs.map (fun y => if y.same r then x else y)).filter (fun y => !y.arrived.isEmpty) }) s

/-- R139, R391: a fault in the single execution suspends every member; a fault of class 0x5 or 0x6 at level T waits for
the fault queue, any other is delivered to the last arriver for all of its lanes. -/
def singleFault (h : Hdr) (c : Cur) (r : Rdv) (cls va : Nat) (store : Bool) (s : State) : State :=
  match (cls == 5 || cls == 6) && !(launchD s c.block.lid).super, blockCtx s c.block with
  | true, some ctx =>
    let (tok, s2) := postFault ctx va cls 0 store c.block (suspendRdv c r 0 .now s)
    let p : Park := { lane := 32, token := some tok, va := va, cls := cls, store := store, since := s.clock }
    modWarp c.block r.last (fun wp => { wp with parks := wp.parks ++ [p] }) s2
  | _, _ =>
    let t : TrapReq :=
      { lanes := (warpD s c.block r.last).live, pc := c.pc, next := some (c.pc + wordLen h), iw := c.iw, ew := c.ew,
        cause := 0x04, sub := cls, aux := if store then 1 else 0, addr := va }
    raiseTrap c.block r.last t
      (suspendRdv c r (trapRecord t) (trapFate (warpD s c.block r.last) t.lanes t.cause) s)

/-- A fault of a G-word's access: of its issue group, or of its single execution (R169, R26). -/
def uniFault (h : Hdr) (c : Cur) (cls va : Nat) (store : Bool) (s : State) : State :=
  if cls = heldClass then s else
  match c.single with
  | some r => singleFault h c r cls va store s
  | none => laneFaults h c ((laneNums c.group).map (fun l => { lane := l, cls := cls, va := va, store := store })) s

/-! ### Arrival at a rendezvous (R136, R137) -/

/-- Adds a member's lanes to the arrivals, members rising. -/
def addArrival : List (Nat × Lanes) → Nat → Lanes → List (Nat × Lanes)
  | [], w, m => [(w, m)]
  | (v, k) :: t, w, m =>
    if w < v then (w, m) :: (v, k) :: t else if w = v then (v, k ||| m) :: t else (v, k) :: addArrival t w m

/-- An arrival joins its rendezvous, or makes it (R136). -/
def joinRdv (x : Rdv) (w : Nat) (m : Lanes) (l : List Rdv) : List Rdv :=
  if l.any x.same then
    l.map (fun r => if x.same r then { r with arrived := addArrival r.arrived w m, last := w, epoch := max r.epoch x.epoch } else r)
  else l ++ [x]

/-- The lanes of the issue group wait at the word's rendezvous. -/
def arrive (i : Instr) (h : Hdr) (c : Cur) (epoch : Nat) (s : State) : State :=
  let fresh : Rdv :=
    { pc := c.pc, scope := h.scope, set := if h.scope = .set then h.set.toNat else 0, band := isBandWord i,
      warp := if h.scope = .warp then c.warp else 0, iw := c.iw, ew := c.ew, instr := i,
      arrived := [(c.warp, c.group)], last := c.warp, phase := .gathering,
      epoch := epoch }
  let s1 := modWarp c.block c.warp (fun wp => wp.setLanes c.group (fun x => { x with st := .waiting })) s
  switchPoint c.block c.warp
    (modBlock c.block (fun b => { b with rdvs := joinRdv fresh c.warp c.group b.rdvs }) s1)

/-! ### Stalls before a word (R40, R470) -/

/-- R470: an earlier release that has not been performed makes this word wait at issue. -/
def relStall (wp : Warp) (c : Cur) (h : Hdr) (i : Instr) : Bool :=
  match wp.rel with
  | none => false
  | some r => r.pc != c.pc && (carriesOrder i || isStrong i || h.scope != .own)

/-- R40: the word would create a 65th outstanding result. -/
def outsFull (wp : Warp) : Bool := 64 ≤ wp.results.length

/-- R38: words whose result is variable-latency, as their entries say. -/
def isLate : Instr → Bool
  | .ld .. | .lds .. | .sld .. | .atom .. | .satom .. | .tcopy .. | .tstore .. | .tfill .. | .ring .. | .tstat ..
  | .tstatClr .. | .mclaim .. | .mrel .. | .mload .. | .mma .. | .mmasp .. | .mzero .. | .mstore .. | .mcvt .. | .mstat ..
  | .mqcfgAlloc .. | .mqcfgFree .. | .mqcfgClr .. | .lbind .. | .mmad .. | .lrefForce .. | .lrefDrop .. | .lrefQuery ..
  | .lwatchAdd .. | .lwatchDel .. | .lwatchGen .. | .snapTake .. | .snapRd .. | .snapQuery .. | .sndrop .. | .rollb ..
  | .publ .. | .publWait .. | .publSeal .. | .shipCfg .. | .shipStart .. | .shipStop .. | .shipStat .. | .shipAccept .. | .shipPromote ..
  | .ixctlQuery .. | .nbarm .. | .nbdisarm .. | .nbload .. | .nbstrm .. | .nbdrain .. | .nbdrainClr .. | .nbop .. | .trav ..
  | .travqCount .. | .travqCancel .. | .launch .. | .mboxCfg .. | .mboxPost .. | .mboxOpen .. | .ctxsvWrite ..
  | .ctxsvRead .. | .ctxsvResume .. | .ctxsvKill .. | .preemptCtx .. | .preemptLaunch .. | .preemptBlock ..
  | .preemptResume .. | .fltqDone .. | .fltqFail .. | .fltqStat .. | .tlbiAll .. | .tlbiCtx .. | .tlbiRange ..
  | .keyctlLoad .. | .keyctlBind .. | .keyctlErase .. | .keyctlQuery .. | .dbgAttach .. | .dbgDetach .. | .dbgStop ..
  | .dbgResume .. | .dbgRdreg .. | .dbgWrreg .. | .dbgStat .. => true
  | _ => false

/-- R237 to R246, R268 to R289: words that queue a command whose engine accesses the scratchpad (R245, R260). -/
def isCommand : Instr → Bool
  | .tcopy .. | .tstore .. | .tfill .. | .ring .. | .mload .. | .mma .. | .mmasp .. | .mzero .. | .mstore .. | .mcvt ..
  | .mmad .. | .nbload .. | .nbstrm .. | .nbdrain .. | .nbop .. | .trav .. => true
  | _ => false

/-! ### The order of one thread's accesses (R177, R180, R188 to R190, log entry 84, DEDUCED) -/

/-- The bytes that each access of a word of memory takes. -/
def accessBytes : Instr → Nat
  | .ld _ _ z .. => z.bytes
  | .sld _ b32 .. => if b32 then 4 else 8
  | .atom _ k .. | .red _ k .. | .satom _ k .. => 4 * k.ty.regs
  | _ => 0

/-- `n` bytes at one place and `m` at another have a byte in common. -/
def Place.meets (p q : Place) (n m : Nat) : Bool :=
  let common (a b : Nat) : Bool := decide (a < b + m) && decide (b < a + n)
  match p, q with
  | .log a _, .log b _ | .fixed a _ _, .fixed b _ _ | .scratch a, .scratch b => common a b
  | .remote d a, .remote e b => d == e && common a b
  | _, _ => false

def Place.sameLine (p q : Place) : Bool :=
  match p, q with
  | .log a _, .log b _ | .fixed a _ _, .fixed b _ _ => a / 128 == b / 128
  | .remote d a, .remote e b => d == e && a / 128 == b / 128
  | _, _ => false

def Place.isScratch : Place → Bool
  | .scratch _ => true
  | _ => false

/-- R222: an atomic that stands in the deterministic buffer, of this warp or of the lead of a wider scope; its own order is
the drain's. -/
def Warp.buffered (wp : Warp) (o : Outst) : Bool :=
  (o.lead.isSome && (match o.instr with | .satom .. => true | _ => false)) || wp.det.any (fun d => d.out.id == o.id)

/-- The access is made by a thread of the lanes `m`: a uniform access by those that issued it. -/
def Outst.byLanes (o : Outst) (m : Lanes) (x : Nat × Nat × Place) : Bool :=
  if o.members.isEmpty then m.getLsbD x.1 else o.lanes &&& m != 0

/-- An access that words before the `n`-th result issued and that has not been performed, of which `p` holds. -/
def Warp.earlier (wp : Warp) (n : Nat) (p : Outst → Nat × Nat × Place → Bool) : Bool :=
  wp.outs.any (fun o => decide (o.id < n) && !wp.buffered o && o.parts.any (p o))

/-- R177, R189: what a weak access of lanes `m` to `n` bytes at `q` must follow: their accesses to the same bytes, and for
a load their loads of the same line. -/
def Outst.before (o : Outst) (m : Lanes) (q : Place) (n : Nat) (load : Bool) (x : Nat × Nat × Place) : Bool :=
  let lines := load && (match o.instr with | .ld .. | .sld .. => true | _ => false)
  o.byLanes m x && (x.2.2.meets q (accessBytes o.instr) n || (lines && x.2.2.sameLine q))

/-- R180, R187 to R190, R245, R260: the word waits at issue until earlier accesses of its threads have been performed:
all of them before a release or an acquire, those of its lanes before a strong access, those to the scratchpad before a
command. -/
def orderStall (wp : Warp) (c : Cur) (i : Instr) : Bool :=
  (carriesOrder i && wp.earlier wp.nextOut (fun o _ => !isRed o.instr))
    || (isStrong i && wp.earlier wp.nextOut (fun o x => o.byLanes c.group x))
    || (isCommand i && wp.earlier wp.nextOut (fun _ x => x.2.2.isScratch))

/-- Whether a word stalls at issue, whatever its guard. -/
def issueStall (wp : Warp) (c : Cur) (h : Hdr) (i : Instr) : Bool :=
  relStall wp c h i || ownCheckpoint wp c.pc || (isLate i && outsFull wp) || orderStall wp c i

/-- R202: in a rollback-capable launch an atomic of cluster scope or wider first closes the interval. -/
def atomCloses (s : State) (id : BlockId) (k : AtomSpec) : Bool := (launchD s id.lid).rb && !k.sp && k.msc != .b

/-- R237, R274, R355, R366: an engine command with an acquire, which waits for its warp's stores. -/
def acqCommand : Instr → Bool
  | .tcopy _ sem .. | .tstore _ sem .. | .ring _ sem .. | .mload _ sem .. | .mstore _ sem .. | .nbop _ sem ..
  | .trav _ sem .. => sem = .acq || sem = .ar
  | _ => false

/-- What a guard-true member does before its arrival counts: its release, its checkpoint, or its stores. -/
def beforeArrival (i : Instr) (c : Cur) (s : State) : HeldRelease :=
  match arrivalRelease i with
  | some m => heldRelease c.block c.warp m c.pc s
  | none =>
    match i with
    | .satom _ k .. => if atomCloses s c.block k then checkpointFirst c.block c.warp c.pc s else .ready s 0
    | _ => if acqCommand i && (warpD s c.block c.warp).unacked ≠ 0 then .wait s else .ready s 0

/-- A word of wider scope arrives: its transaction lanes abort (R213), its release comes first. -/
def arriveWord (i : Instr) (h : Hdr) (c : Cur) (s : State) : State :=
  let wp := warpD s c.block c.warp
  let inTx := txLanes wp &&& c.group
  let s1 := if inTx = 0 then s else modWarp c.block c.warp (fun wp => wp.txAbortAll 8 0 inTx) s
  let rest := c.group &&& ~~~inTx
  if rest = 0 then s1 else
  let c1 := { c with group := rest }
  if guardG h wp then
    match beforeArrival i c1 s1 with
    | .ready t e => arrive i h c1 e t
    | .wait t => t
  else match i with
    -- R158, R160: a member of a band collective makes its release whatever its guard
    | .band .. => match beforeArrival i c1 s1 with
      | .ready t e => arrive i h c1 e t
      | .wait t => t
    | _ => arrive i h c1 0 s1

/-! ### The way of every word -/

/-- R213, R471: the lanes whose transaction the word aborts at sub-warp or lane scope, should their guard be true. -/
def txHit (i : Instr) (h : Hdr) (wp : Warp) (group : Lanes) : Lanes :=
  (if txAbortsP i then txLanes wp &&& group else 0) ||| (if txAbortsG i && guardG h wp then txLanes wp else 0)

/-- Runs a word: traps at issue, stalls, aborts and arrivals come before its own effect `k`, which sees the issue group
or the members of its rendezvous. A word at which every lane of the group aborts is not retired (log entry 74, DESIGN
CHOICE: R213 and R230 do not say). -/
def runWord (i : Instr) (h : Hdr) (k : Cur → State → State) (s : State) : Host.Outcome State Fault Refusal :=
  match s.cur with
  | none => .next s
  | some c =>
    match c.single with
    | some _ => finish (k c s)
    | none =>
      match issueTrap s c h i with
      | some (cause, sub) => finish (wordTrap c h c.group cause sub 0 0 s)
      | none =>
        let wp := warpD s c.block c.warp
        if issueStall wp c h i then .next s
        else if h.scope != .own then finish (arriveWord i h c s)
        else
          let hit := txHit i h wp c.group
          if hit = 0 then finish (k c s)
          else
            let act := if txAbortsP i then hit &&& lanesOf (fun l => guardP h wp l) else hit
            let s1 := modWarp c.block c.warp (fun wp => wp.txAbortAll 8 0 act) s
            let rest := c.group &&& ~~~act
            if rest = 0 then finish s1 else finish (k { c with group := rest } s1)

end Sys2Proof.Machine
end

