-- ==== Sys2Proof/Machine/Fetch.lean ====
section
/-!
DEFINITION. Machine/Fetch.lean: which warp may issue (R24, R38, R129, R140, R226, R388, R389), the fetch of its word
(R28, R36, R132, R169, R178) and the decoder's answer (R50 to R52, R71).
-/
namespace Sys2Proof.Machine

/-! ### Which warp may issue -/

/-- R228, R401, R402, R466: a save stops the warps of a block, but for a warp in a handler, and for a block of a
deterministic launch with an open transaction. -/
def mayRun (l : Launch) (b : Block) (wp : Warp) : Bool :=
  match b.saving with
  | none => true
  | some x => (wp.tmask && !x.masked) || (l.det && b.warps.any (fun y => y.tx.isSome))

/-- R212: lanes wait at a TXB for the end of a closed transaction; the warp stalls. -/
def Warp.txbWaits (wp : Warp) : Bool :=
  wp.mask (fun x => x.txe && x.st == .waiting && !x.susp) &&& ~~~txLanes wp != 0

/-- R38, R40, R212, R224, R228, R393, R411, R416: nothing holds the warp back from issuing a word. -/
def warpFree (l : Launch) (b : Block) (wp : Warp) : Bool :=
  b.resident && mayRun l b wp && !wp.ended && !wp.evicted && (!wp.stopped || (l.det && wp.tx.isSome))
    && wp.trapping.isNone && wp.frozenBy.isEmpty && wp.frozenPend.isEmpty && !wp.txbWaits
    && wp.grow.isNone && wp.waitOn.isNone && (!wp.marker || wp.results.isEmpty)
    && !(b.rb.want && b.rb.capture.isNone) && b.draining.isNone

/-- The outstanding results but those of undrained atomics, which a save keeps with the buffer entries (R228). -/
def Warp.awaited (wp : Warp) : List Outst := wp.results.filter (fun o => !wp.buffered o)

/-- R401 step 3: the engines of a block being saved stop once its results are in, but for a checkpoint (R411). -/
def enginesHeld (b : Block) : Bool :=
  match b.saving with
  | none => false
  | some x => x.stage != 1 && b.warps.all (fun wp => wp.awaited.isEmpty)

/-- R226: the scheduler of a warp slot, for a launch. -/
def schedKey (lid : BitVec 32) (slot : Nat) : Nat := lid.toNat * 4 + slot % 4

/-- R226: a warp parked on an undrained result (R222). -/
def parkedUndrained (wp : Warp) : Bool :=
  (wp.marker || outsFull wp) && wp.outs.any wp.buffered

/-- R226: not a candidate: waiting, in GROW, parked on an undrained result, held at TXE, or exited. -/
def notCandidate (wp : Warp) : Bool :=
  wp.allExited || wp.waits || wp.grow.isSome || parkedUndrained wp || wp.txbWaits
    || wp.lanes.all (fun x => x.st == .exited || x.txe || x.st == .waiting || x.st == .held)

/-- The warp of lowest logical wave index. -/
def lowestWave (l : List WarpId) : Option WarpId :=
  l.foldl (fun o x => match o with
    | none => some x
    | some y => if x.block.blk * 32 + x.warp < y.block.blk * 32 + y.warp then some x else some y) none

/-- R226: the candidates of a deterministic launch on a scheduler. -/
def schedWarps (s : State) (core key : Nat) (lid : BitVec 32) : List WarpId :=
  let bs := s.blocks.filter (fun (b : Block) => b.core == core && b.resident && b.id.lid == lid)
  bs.flatMap (fun b => (List.range b.warps.length).filterMap (fun w =>
    match b.warps[w]? with
    | some wp => if schedKey lid wp.slot == key && !notCandidate wp then some { block := b.id, warp := w } else none
    | none => none))

/-- R222, R226: the scheduler's current warp; a park on an undrained result is a switch point. -/
def currentWarp (s : State) (core key : Nat) : Option WarpId :=
  (aget (coreD s core).current key).bind (fun x => if parkedUndrained (warpD s x.block x.warp) then none else some x)

/-- R226: in a deterministic launch a scheduler issues only from its current warp, chosen at a switch point. -/
def detTurn (s : State) (w : WarpId) : Bool × State :=
  let l := launchD s w.block.lid
  if !l.det then (true, s) else
  let b := blockD s w.block
  let key := schedKey l.lid (warpD s w.block w.warp).slot
  match currentWarp s b.core key with
  | some x => (x == w, s)
  | none =>
    match lowestWave (schedWarps s b.core key l.lid) with
    | some x => (x == w, modCore b.core (fun k => { k with current := aset k.current key x }) s)
    | none => (false, s)

/-- R428, R429, R440: warps run in phase 2, and not after a fatal error; in phase 1 the supervisor's may. -/
def deviceRuns (s : State) (id : BlockId) : Bool :=
  s.fatal == 0 && (s.phase == 2 || (s.phase == 1 && (launchD s id.lid).super))

/-! ### Fetch -/

/-- A 4-byte word of code: from the launch's fetched lines, or from memory (R178). Faults give their class. -/
def fetchWord (id : BlockId) (va : Nat) (s : State) : Except Nat (Word × State) :=
  let core := (blockD s id).core
  match translate s core (blockCtx s id) va 4 4 .fetch with
  | .error c => .error c
  | .ok (p, t) =>
    let s1 := fillTlb core t s
    match aget (launchD s id.lid).code (va / 128) with
    | some d => .ok (BitVec.ofNat 32 (leNat (lineBytes d (va % 128) 4)), s1)
    | none =>
      let r := lineBeyondL1 id p true s1
      .ok (BitVec.ofNat 32 (leNat (lineBytes r.data (va % 128) 4)),
        modLaunch id.lid (fun l => { l with code := aset l.code (va / 128) r.data }) r.st)

/-- R28: the word at the PC and, when X = 1, the extension word at PC + 4; or the class and address of a fault with the
word, 0 where the word itself could not be fetched (log entry 70, DESIGN CHOICE). -/
def fetchPair (id : BlockId) (pc : BitVec 53) (s : State) : Except (Nat × Nat × Word) (Word × Option Word × State) :=
  match fetchWord id pc.toNat s with
  | .error c => .error (c, pc.toNat, 0)
  | .ok (iw, s1) =>
    if iw.getLsbD 0 then
      match fetchWord id (pc.toNat + 4) s1 with
      | .error c => .error (c, pc.toNat + 4, iw)
      | .ok (ew, s2) => .ok (iw, some ew, s2)
    else .ok (iw, none, s1)

/-- What the launch and the warp tell the decoder (R71, R160, R161, R229, R395). -/
def decCtx (s : State) (id : BlockId) (w : Nat) : DecCtx :=
  let l := launchD s id.lid
  { e1 := l.e1, band := l.band, det := l.det, handler := (warpD s id w).hand != 0, sets := l.groups.length }

/-- The frame of a word that the decoder refuses, for its trap: its length, scope and set number. -/
def rawHdr (iw ew : Word) : Hdr :=
  { s := false, x := iw.getLsbD 0, scope := match (iw.extractLsb' 28 2).toNat with
      | 0 => .own | 1 => .warp | 2 => .set | _ => .block,
    set := ew.extractLsb' 12 8, gn := false, gp := 7 }

/-- What fetching for a warp comes to: a word to run with the state that has it in hand, or a state after a trap, a
fault or a wait. -/
inductive Fetched where
  | run (i : Instr) (s : State)
  | done (s : State)

/-- Lanes that wait at a rendezvous or sleep stop doing so: they arrive or wait again at the same word (R141, R473). -/
def withdraw (id : BlockId) (w : Nat) (m : Lanes) (s : State) : State :=
  let off (a : Nat × Lanes) : Nat × Lanes := if a.1 = w then (a.1, a.2 &&& ~~~m) else a
  let s1 := modBlock id (fun b => { b with
    rdvs := (b.rdvs.map (fun r => { r with arrived := (r.arrived.map off).filter (fun a => a.2 != 0) })).filter
      (fun r => !r.arrived.isEmpty) }) s
  modWarp id w (fun wp => { wp with
    sleeps := (wp.sleeps.map (fun z => { z with lanes := z.lanes &&& ~~~m })).filter (fun z => z.lanes != 0 || !z.members.isEmpty) })
    s1

/-- R439, R472, R473: an error that is due is taken at the issue boundary instead of a word: in its own lanes, or, when
they have exited, in the lowest that has not; an engine trap in the issue group. -/
def takeDue (id : BlockId) (w : Nat) (d : DueError) (s : State) : State :=
  let wp := warpD s id w
  let rest := modWarp id w (fun x => { x with due := x.due.drop 1 }) s
  let own := d.lanes &&& wp.live
  let lanes :=
    if d.lanes = 0 then (wp.group.map (·.2)).getD 0
    else if own ≠ 0 then own
    else match laneNums wp.live with | k :: _ => 1#32 <<< k | [] => 0
  match laneNums lanes with
  | [] => rest
  | l :: _ =>
    let calm := (laneNums lanes).all (fun k => (wp.lane k).ready)
    raiseTrap id w { lanes := lanes, pc := if own = 0 then (wp.lane l).pc else d.pc.getD (wp.lane l).pc, next := none,
                     iw := d.iw, ew := d.ew, cause := d.cause, sub := d.sub, aux := d.aux, addr := d.addr }
      (if calm then rest else withdraw id w lanes rest)

/-- An error that is due can be taken now: an engine trap needs an issue group. -/
def dueNow (wp : Warp) (d : DueError) : Bool := d.lanes != 0 || wp.group.isSome

/-- R177: at its first issue a warp starts as if it had performed a device-scope acquire. -/
def firstIssue (w : WarpId) (s : State) : State :=
  if (warpD s w.block w.warp).fresh then
    acquireNow w.block w.warp .dv (modWarp w.block w.warp (fun x => { x with fresh := false }) s)
  else s

/-- Issues from a warp: chooses its issue group, fetches and decodes. A fault of a fetch is one of the issue group: its
trap record gives in IW the word where that was fetched and in EW 0, and with traps masked the lanes go on past the word
(R28, R394; log entry 70, DESIGN CHOICE). -/
def fetchFor (w : WarpId) (s0 : State) : Fetched :=
  let b := blockD s0 w.block
  let wp := warpD s0 w.block w.warp
  if (getBlock s0 w.block).isNone || !deviceRuns s0 w.block || !warpFree (launchD s0 w.block.lid) b wp then .done s0 else
  let (turn, s1) := detTurn s0 w
  if !turn then .done s1 else
  match wp.due with
  | d :: _ =>
    if (d.rollback && (launchD s1 w.block.lid).rb) || !dueNow wp d then .done s1
    else .done (takeDue w.block w.warp d s1)
  | [] =>
    match wp.group with
    | none => .done s1
    | some (pc, m) =>
      let s2 := firstIssue w (modWarp w.block w.warp (fun x => { x with marker := false }) s1)
      let cur (iw ew : Word) : Cur :=
        { block := w.block, warp := w.warp, group := m, pc := pc, iw := iw, ew := ew, single := none }
      match fetchPair w.block pc s2 with
      | .error (cls, va, iw) =>
        let h := { rawHdr iw 0 with scope := .own }
        .done (laneFaults h (cur iw 0)
          ((laneNums m).map (fun l => { lane := l, cls := cls, va := va, store := false })) s2)
      | .ok (iw, ew, s3) =>
        let e := ew.getD 0
        match decode (decCtx s3 w.block w.warp) iw e with
        | .ok i => .run i { s3 with cur := some (cur iw e) }
        | .error sub => .done (wordTrap (cur iw e) (rawHdr iw e) m 0x01 sub.toNat 0 0 s3)

end Sys2Proof.Machine
end

