-- ==== Sys2Proof/Machine/Boot.lean ====
section
/-!
DEFINITION. Machine/Boot.lean: how a block's warps start (R128, R144, R177, R258, R383), and a launch loaded from outside
with one word to run (log entry 3, DESIGN CHOICE).
-/
namespace Sys2Proof.Machine

/-- The role of each warp of a block, role 0's warps first (R14). -/
def roleOf (l : Launch) (w : Nat) : Nat :=
  (l.roles.foldl (fun (acc : Nat × Nat × Option Nat) r =>
    let (i, first, found) := acc
    (i + 1, first + r.warps, if found.isNone && first ≤ w && w < first + r.warps then some i else found))
    (0, 0, none)).2.2.getD 0

/-- R383: a warp as it starts, on a slot; its starting acquire comes at its first issue (R177). -/
def startWarp (l : Launch) (w slot order epoch : Nat) : Warp :=
  let k := roleOf l w
  let r := (l.roles[k]?).getD { entry := 0, regs := 8, warps := 1 }
  { Warp.blank with
    lanes := List.replicate 32 (Lane.start r.entry), allot := r.regs, role := k, slot := slot, order := order,
    acq := epoch, fresh := true,
    s := sset (sset (sset [] 0 l.data) 1 l.const) 2 l.args }

/-- The warp slots of a core that resident warps hold. -/
def usedSlots (s : State) (core : Nat) : List Nat :=
  (s.blocks.filter (fun (b : Block) => b.core == core && b.resident)).flatMap (fun b =>
    (b.warps.filter (fun wp => !wp.ended)).map (·.slot))

def freeSlots (s : State) (core : Nat) : List Nat := (List.range 32).filter (fun k => !(usedSlots s core).contains k)

/-- R258: a block starts with its copy queues empty and idle. -/
def CopyQueue.blank : CopyQueue :=
  { issued := 0, completed := 0, cmds := [], state := .idle, cls := 0, offset := 0, token := none, since := 0 }

/-- R27: the islands that serve a block on a core: its core pair, and the Massif and the cache of its cluster. -/
def blockIslands (core : Nat) : List Nat := [6 * (core / 8) + core % 8 / 2, 6 * (core / 8) + 4, 6 * (core / 8) + 5]

/-- R7, R27: the islands that serve a block of a deterministic launch are at 1.85 GHz. -/
def nominalFor (l : Launch) (core : Nat) (s : State) : State :=
  if l.det then { s with slow := s.slow.filter (fun x => !(blockIslands core).contains x.1) } else s

/-- A block of a launch starts on a core: every warp at its entry (R383, R386). -/
def startBlock (l : Launch) (blk core : Nat) (s : State) : State :=
  let id : BlockId := { lid := l.lid, blk := blk }
  let slots := freeSlots s core
  let warps := (List.range (nwarps l)).map (fun w => startWarp l w ((slots[w]?).getD 0) (s.nextOrder + w) s.epoch)
  let b := { Block.blank with id := id, core := core, warps := warps }
  let s1 := { s with blocks := s.blocks ++ [b], nextOrder := s.nextOrder + nwarps l }
  modCore core (fun k => k) (modCluster (core / 8) (fun k => k) (nominalFor l core s1))

/-- Where the code of a loaded launch stands, and its page tables: a level-4 table whose entry 0 names a level-3 table
whose entry 0 maps 8 GiB of fixed memory at virtual address 0. -/
def codeAddr : Nat := 0x200000
def rootAddr : Nat := 0x100000

/-- The launch that `loadWord` puts in flight: level S, one block of one warp, one set, in a band. -/
def loadedLaunch : Launch :=
  { Launch.blank with
    lid := 1, super := true, gdim := 0x0000040000200001#63, band := true, scratch := 262144,
    roles := [{ entry := BitVec.ofNat 53 codeAddr, regs := 112, warps := 1 }], groups := [(0, 1#32)], total := 1,
    nextBlk := 1 }

/-- Log entry 3: the device in phase 2 with one level-S launch loaded from outside, whose warp issues next and whose code
is the given word and extension word. -/
def loadWord (iw ew : Word) (inHandler : Bool) (s : State) : State :=
  let s1 := { s with phase := 2, csr := { s.csr with sroot := BitVec.ofNat 64 rootAddr, stvec := 0x300000#64 },
                     keys := [(64, Config.bootKey)], launches := [loadedLaunch], nextLid := 2, blocks := [] }
  let s2 := writeNat (writeNat s1 rootAddr 8 (rootAddr + 0x2000 + 1) 64) (rootAddr + 0x2000) 8 0x1F 64
  let s3 := writeNat (writeNat s2 codeAddr 4 iw.toNat 64) (codeAddr + 4) 4 ew.toNat 64
  let s4 := startBlock loadedLaunch 0 0 s3
  let id : BlockId := { lid := 1, blk := 0 }
  let s5 := if inHandler then modWarp id 0 (fun wp => { wp with hand := 0xFFFFFFFF#32 }) s4 else s4
  { s5 with inputs := [{ ticks := 0, act := .issue { block := id, warp := 0 } }] }

end Sys2Proof.Machine
end

