-- ==== Sys2Proof/Machine/Flags.lean ====
section
/-!
DEFINITION. Machine/Flags.lean: what comparisons and classifications give a predicate or a mask (R113, R121, R122,
R150, R156, R209).
-/
namespace Sys2Proof.Machine

/-- R121, R156: integer comparison. -/
def ccHolds (cc : Cc) (a b : Int) : Bool :=
  match cc with
  | .eq => decide (a = b)
  | .ne => decide (a ≠ b)
  | .lt => decide (a < b)
  | .le => decide (a ≤ b)
  | .gt => decide (b < a)
  | .ge => decide (b ≤ a)

/-- R122: FP32 comparison; zeros compare equal. -/
def fccHolds (cc : FCc) (a b : FV) : Bool :=
  let nan := a == .nan || b == .nan
  match cc with
  | .num => !nan
  | .nan => nan
  | .ne => nan || a.lt b || b.lt a
  | .eq => !nan && !a.lt b && !b.lt a
  | .lt => a.lt b
  | .le => !nan && !b.lt a
  | .gt => b.lt a
  | .ge => !nan && !a.lt b

/-- R113: the class bit of a code of a format with infinities. -/
def classBit (f : Fmt) (c : Nat) : Nat :=
  let mag := c % 2 ^ (f.eb + f.mb)
  let neg := decide (c / 2 ^ (f.eb + f.mb) % 2 = 1)
  let e := mag / 2 ^ f.mb
  let m := mag % 2 ^ f.mb
  if e = 2 ^ f.eb - 1 then
    if m = 0 then (if neg then 0 else 7) else if 2 ^ (f.mb - 1) ≤ m then 9 else 8
  else if mag = 0 then (if neg then 3 else 4)
  else if e = 0 then (if neg then 2 else 5)
  else if neg then 1 else 6

def classFmt : ClassFmt → Fmt
  | .f32 => fmtF32
  | .f16 => fmtF16
  | .bf16 => fmtBf16

/-- R150: what VOTE gives a predicate. -/
def votePred (mode : VoteMode) (v : List Bool) : Bool :=
  match mode with
  | .any => v.any id
  | .uni => v.all id || v.all (fun x => !x)
  | _ => v.all id

end Sys2Proof.Machine
end

