-- ==== Sys2Proof/Machine/LaneInt.lean ====
section
/-!
DEFINITION. Machine/LaneInt.lean: integer, address, move, logic and bit-field P-words (R101 to R109).
-/
namespace Sys2Proof.Machine

/-- R96: a word that writes registers of its active lanes. -/
def laneWord (i : Instr) (h : Hdr) (f : Env → Nat → Warp → Warp) (s : State) : Host.Outcome State Fault Refusal :=
  runWord i h (fun c t => endWord h c (onActive h f c t)) s

/-- R101: saturation to the type. -/
def satTo (sat : Bool) (t : IntTy) (v : Int) : Int :=
  if sat then satInt (intLo t.width t.signed) (intHi t.width t.signed) v else v

/-- R102: quotient and remainder. -/
def divQ (sg : Bool) (a b : Int) : Int :=
  if b = 0 then 2 ^ 32 - 1 else if sg && decide (a = -(2 ^ 31)) && decide (b = -1) then -(2 ^ 31) else a.tdiv b

def divR (sg : Bool) (a b : Int) : Int :=
  if b = 0 then a else if sg && decide (a = -(2 ^ 31)) && decide (b = -1) then 0 else a - a.tdiv b * b

/-- R103: byte i of a register, unsigned or signed. -/
def dotByte (uns : Bool) (x : BitVec 32) (i : Nat) : Int := intVal (x.toNat / 2 ^ (8 * i)) 8 (!uns)

def dot4 (an bn : Bool) (a b : BitVec 32) : Int :=
  dotByte an a 0 * dotByte bn b 0 + dotByte an a 1 * dotByte bn b 1 + dotByte an a 2 * dotByte bn b 2
    + dotByte an a 3 * dotByte bn b 3

/-- R106: a two-input truth table, bit by bit. -/
def lut2 (t : BitVec 4) (b c : BitVec 64) : BitVec 64 :=
  let m (k : Nat) (x : BitVec 64) : BitVec 64 := if t.getLsbD k then x else 0
  m 3 (b &&& c) ||| m 2 (b &&& ~~~c) ||| m 1 (~~~b &&& c) ||| m 0 (~~~b &&& ~~~c)

/-- R106: the split form of LOP3. -/
def lop3 (h1 h0 : BitVec 4) (a b c : BitVec 64) : BitVec 64 := (a &&& lut2 h1 b c) ||| (~~~a &&& lut2 h0 b c)

/-- R108: the field of `a` at `pos` of length `len`, extended. -/
def bitField (uns : Bool) (a : BitVec 32) (pos len : Nat) : Int :=
  if len = 0 then 0 else
    let v : Int := if uns then (a.toNat : Int) else a.toInt
    intVal (((v / (2 ^ pos : Nat)) % (2 ^ len : Nat)).toNat) len (!uns)

/-- R109: the bits of an n-bit value from `i` − 1 down that are zero before the first one. -/
def leadZeros (v : Nat) : Nat → Nat
  | 0 => 0
  | i + 1 => if v.testBit i then 0 else leadZeros v i + 1

def trailZeros (v n : Nat) : Nat := ((List.range n).takeWhile (fun i => !v.testBit i)).length

def popCount (v n : Nat) : Nat := ((List.range n).filter (fun i => v.testBit i)).length

def revBits (v n : Nat) : Nat :=
  (List.range n).foldl (fun r i => if v.testBit i then r + 2 ^ (n - 1 - i) else r) 0

/-- R109. -/
def bcntVal (op : BitOp) (n v : Nat) : Nat :=
  match op with
  | .pop => popCount v n
  | .clz => leadZeros v n
  | .ctz => trailZeros v n
  | .brev => revBits v n

/-! ### R101 to R103 -/

def execIadd (h : Hdr) (t : IntTy) (sat : Bool) (d : Name) (a : ASrc) (b : BSrc) (s : State) :=
  laneWord (.iadd h t sat d a b) h (fun e l => setInt t d l (satTo sat t (intA e t a l + intB e t b l))) s

def execIsub (h : Hdr) (t : IntTy) (sat : Bool) (d : Name) (a : ASrc) (b : BSrc) (s : State) :=
  laneWord (.isub h t sat d a b) h (fun e l => setInt t d l (satTo sat t (intA e t a l - intB e t b l))) s

def execImul (h : Hdr) (t : IntTy) (d : Name) (a : ASrc) (b : BSrc) (s : State) :=
  laneWord (.imul h t d a b) h (fun e l => setInt t d l (intA e t a l * intB e t b l)) s

def execImulh (h : Hdr) (uns : Bool) (d : Name) (a : ASrc) (b : BSrc) (s : State) :=
  laneWord (.imulh h uns d a b) h
    (fun e l => setInt (ity uns) d l (intA e (ity uns) a l * intB e (ity uns) b l / 2 ^ 32)) s

def execImad (h : Hdr) (uns : Bool) (d : Name) (a : ASrc) (b c : Name) (s : State) :=
  laneWord (.imad h uns d a b c) h (fun e l => setInt (ity uns) d l
    (intA e (ity uns) a l * intB e (ity uns) (.reg b) l + intB e (ity uns) (.reg c) l)) s

def execImadw (h : Hdr) (uns : Bool) (d : Name) (a : ASrc) (b c : Name) (s : State) :=
  laneWord (.imadw h uns d a b c) h (fun e l => setInt .i64 d l
    (intA e (ity uns) a l * intB e (ity uns) (.reg b) l + intVal (e.wp.reg64 c l).toNat 64 (!uns))) s

def execImin (h : Hdr) (t : IntTy) (d : Name) (a : ASrc) (b : BSrc) (s : State) :=
  laneWord (.imin h t d a b) h (fun e l => setInt t d l (min (intA e t a l) (intB e t b l))) s

def execImax (h : Hdr) (t : IntTy) (d : Name) (a : ASrc) (b : BSrc) (s : State) :=
  laneWord (.imax h t d a b) h (fun e l => setInt t d l (max (intA e t a l) (intB e t b l))) s

def execIabsd (h : Hdr) (t : IntTy) (d : Name) (a : ASrc) (b : BSrc) (s : State) :=
  laneWord (.iabsd h t d a b) h (fun e l => setInt t d l ((intA e t a l - intB e t b l).natAbs : Int)) s

def execIdiv (h : Hdr) (uns : Bool) (d : Name) (a : ASrc) (b : BSrc) (s : State) :=
  laneWord (.idiv h uns d a b) h
    (fun e l => setInt (ity uns) d l (divQ (!uns) (intA e (ity uns) a l) (intB e (ity uns) b l))) s

def execIrem (h : Hdr) (uns : Bool) (d : Name) (a : ASrc) (b : BSrc) (s : State) :=
  laneWord (.irem h uns d a b) h
    (fun e l => setInt (ity uns) d l (divR (!uns) (intA e (ity uns) a l) (intB e (ity uns) b l))) s

def execIdot4 (h : Hdr) (an bn sat : Bool) (d : Name) (a : ASrc) (b c : Name) (s : State) :=
  laneWord (.idot4 h an bn sat d a b c) h (fun e l => setInt .i32 d l
    (satTo sat .i32 ((e.wp.reg c l).toInt + dot4 an bn (srcA32 e a l) (e.wp.reg b l)))) s

/-! ### R104, R105 -/

def execLea (h : Hdr) (uns : Bool) (d : Name) (a : ASrc) (b : Name) (sh : BitVec 3) (s : State) :=
  laneWord (.lea h uns d a b sh) h (fun e l => setInt .i64 d l
    ((srcA64 e a l).toNat + intB e (ity uns) (.reg b) l * (2 ^ sh.toNat : Nat))) s

def execMov (h : Hdr) (w64 : Bool) (d : Name) (a : ASrc) (s : State) :=
  laneWord (.mov h w64 d a) h (fun e l => setRaw w64 d l (rawA e w64 a l)) s

def execMovi (h : Hdr) (t : IntTy) (d : Name) (imm : BitVec 20) (s : State) :=
  laneWord (.movi h t d imm) h (fun e l => setInt t d l (intB e t (.imm imm) l)) s

def execMovhi (h : Hdr) (d : Name) (a : ASrc) (imm : BitVec 20) (s : State) :=
  laneWord (.movhi h d a imm) h (fun e l wp => wp.setReg d l (imm ++ (srcA32 e a l).setWidth 12)) s

/-! ### R106 to R109 -/

def execAnd (h : Hdr) (w64 notb : Bool) (d : Name) (a : ASrc) (b : BSrc) (s : State) :=
  laneWord (.and h w64 notb d a b) h (fun e l =>
    setRaw w64 d l (rawA e w64 a l &&& (if notb then ~~~rawB e w64 b l else rawB e w64 b l))) s

def execOr (h : Hdr) (w64 notb : Bool) (d : Name) (a : ASrc) (b : BSrc) (s : State) :=
  laneWord (.or h w64 notb d a b) h (fun e l =>
    setRaw w64 d l (rawA e w64 a l ||| (if notb then ~~~rawB e w64 b l else rawB e w64 b l))) s

def execXor (h : Hdr) (w64 notb : Bool) (d : Name) (a : ASrc) (b : BSrc) (s : State) :=
  laneWord (.xor h w64 notb d a b) h (fun e l =>
    setRaw w64 d l (rawA e w64 a l ^^^ (if notb then ~~~rawB e w64 b l else rawB e w64 b l))) s

def execLop3 (h : Hdr) (w64 : Bool) (d : Name) (a : ASrc) (b c : Name) (h1 h0 : BitVec 4) (s : State) :=
  laneWord (.lop3 h w64 d a b c h1 h0) h (fun e l =>
    setRaw w64 d l (lop3 h1 h0 (rawA e w64 a l) (rawA e w64 (.lane b) l) (rawA e w64 (.lane c) l))) s

def execShl (h : Hdr) (w64 : Bool) (d : Name) (a : ASrc) (b : BSrc) (s : State) :=
  laneWord (.shl h w64 d a b) h (fun e l => setRaw w64 d l (rawA e w64 a l <<< shiftB e b l)) s

def execShr (h : Hdr) (t : IntTy) (d : Name) (a : ASrc) (b : BSrc) (s : State) :=
  laneWord (.shr h t d a b) h (fun e l => setInt t d l (intA e t a l / (2 ^ shiftB e b l : Nat))) s

def execBfx (h : Hdr) (uns : Bool) (d : Name) (a : ASrc) (b : BfxSrc) (s : State) :=
  laneWord (.bfx h uns d a b) h (fun e l =>
    let (pos, len) := match b with
      | .reg n => ((e.wp.reg n l).toNat % 256, min ((e.wp.reg n l).toNat / 256 % 256) 32)
      | .imm p k => (p.toNat, k.toNat)
    setInt .i32 d l (bitField uns (srcA32 e a l) pos len)) s

def execBcnt (h : Hdr) (op : BitOp) (w64 : Bool) (d : Name) (a : ASrc) (s : State) :=
  laneWord (.bcnt h op w64 d a) h (fun e l =>
    setRaw (w64 && op == .brev) d l
      (BitVec.ofNat 64 (bcntVal op (if w64 then 64 else 32) (rawA e w64 a l).toNat))) s

end Sys2Proof.Machine
end

