-- ==== Sys2Proof/Machine/Control.lean ====
section
/-!
DEFINITION. Machine/Control.lean: branches, calls, meetings, EXIT, YIELD, TRAP and BKPT (R132 to R135, R417).
-/
namespace Sys2Proof.Machine

/-- R132: PC + 4 × offset. -/
def branchTarget (pc : BitVec 53) (off : BitVec 20) : BitVec 53 := pc + off.signExtend 53 * 4

/-- The active lanes of the issue group go to their targets, the others to the next word. -/
def branchWord (i : Instr) (h : Hdr) (put : Cur → Env → Nat → Warp → Warp) (tgt : Cur → Env → Nat → BitVec 53) (s : State) :
    Host.Outcome State Fault Refusal :=
  runWord i h (fun c t =>
    let e : Env := { s := t, c := c, w := c.warp, wp := warpD t c.block c.warp, lanes := c.group }
    let act := e.active h
    let next (l : Nat) : BitVec 53 := if act.getLsbD l then tgt c e l else c.pc + wordLen h
    modWarp c.block c.warp (fun wp => wp.retireAt h c.group next) (onActive h (put c) c t)) s

def execBra (h : Hdr) (off : BitVec 20) (s : State) :=
  branchWord (.bra h off) h (fun _ _ _ wp => wp) (fun c _ _ => branchTarget c.pc off) s

def execCall (h : Hdr) (d : Name) (off : BitVec 20) (s : State) :=
  branchWord (.call h d off) h (fun c _ l wp => wp.setReg64 d l ((c.pc + 8).setWidth 64))
    (fun c _ _ => branchTarget c.pc off) s

/-- R133: a target that is no PC. -/
def badTarget (x : BitVec 64) : Bool := x.extractLsb' 0 2 != 0 || x.extractLsb' 53 11 != 0

/-- R133: a branch to a register; lanes with a bad target trap and stay. -/
def branchReg (i : Instr) (h : Hdr) (a : ASrc) (s : State) : Host.Outcome State Fault Refusal :=
  runWord i h (fun c t =>
    let e : Env := { s := t, c := c, w := c.warp, wp := warpD t c.block c.warp, lanes := c.group }
    let act := e.active h
    let bad := lanesOf (fun l => act.getLsbD l && badTarget (srcA64 e a l))
    let next (l : Nat) : BitVec 53 := if act.getLsbD l then (srcA64 e a l).setWidth 53 else c.pc + wordLen h
    let good := c.group &&& ~~~bad
    let t1 := if good = 0 then t else modWarp c.block c.warp (fun wp => wp.retireAt h good next) t
    match laneNums bad with
    | [] => t1
    | l :: _ => wordTrap c h bad 0x03 0 0 (srcA64 e a l).toNat t1) s

def execBrx (h : Hdr) (a : ASrc) (s : State) := branchReg (.brx h a) h a s

def execRet (h : Hdr) (a : ASrc) (s : State) := branchReg (.ret h a) h a s

def execNop (h : Hdr) (s : State) := runWord (.nop h) h (fun c t => endWord h c t) s

/-- A word that sets `mt` in its active lanes. -/
def setMt (h : Hdr) (f : Cur → Env → Nat → BitVec 53) (c : Cur) (t : State) : State :=
  onActive h (fun e l wp => { wp with lanes := wp.lanes.mapIdx (fun k x => if k = l then { x with mt := f c e l } else x) }) c t

def execMeet (h : Hdr) (off : BitVec 20) (s : State) :=
  runWord (.meet h off) h (fun c t => endWord h c (setMt h (fun c _ _ => branchTarget c.pc off) c t)) s

def execMeetsv (h : Hdr) (d : Name) (s : State) :=
  laneWord (.meetsv h d) h (fun e l wp => wp.setReg64 d l ((e.wp.lane l).mt.setWidth 64)) s

def execMeetld (h : Hdr) (a : ASrc) (s : State) :=
  runWord (.meetld h a) h (fun c t => endWord h c (setMt h (fun _ e l => (srcA64 e a l).setWidth 53) c t)) s

/-- R135, R213: lanes exit, the others of the issue group go on. -/
def execExit (h : Hdr) (s : State) :=
  runWord (.exit h) h (fun c t =>
    let e : Env := { s := t, c := c, w := c.warp, wp := warpD t c.block c.warp, lanes := c.group }
    let act := e.active h
    let t1 := modWarp c.block c.warp (fun wp =>
      (wp.txDrop act).retire h (c.group &&& ~~~act) (c.pc + wordLen h)) t
    let t2 := exitLanes c.block c.warp act t1
    if (warpD t2 c.block c.warp).allExited then switchPoint c.block c.warp t2 else t2) s

/-- R134, R226: a switch point of a deterministic launch, where some lane's guard is true (R71). -/
def execYield (h : Hdr) (s : State) :=
  runWord (.yield h) h (fun c t =>
    let e : Env := { s := t, c := c, w := c.warp, wp := warpD t c.block c.warp, lanes := c.group }
    if e.active h = 0 then endWord h c t else switchPoint c.block c.warp (endWord h c t)) s

/-- A trap of the active lanes that resumes at the next word (R390 causes 0x06 and 0x07). -/
def softTrap (h : Hdr) (c : Cur) (cause : Nat) (code : BitVec 16) (t : State) : State :=
  let e : Env := { s := t, c := c, w := c.warp, wp := warpD t c.block c.warp, lanes := c.group }
  let act := e.active h
  let next := c.pc + wordLen h
  let t1 := endWordTo h c (c.group &&& ~~~act) (fun _ => next) t
  if act = 0 then t1 else
  raiseTrap c.block c.warp
    { lanes := act, pc := next, next := some next, iw := c.iw, ew := c.ew, cause := cause, sub := 0, aux := code.toNat,
      addr := 0 } t1

def execTrap (h : Hdr) (code : BitVec 16) (s : State) :=
  runWord (.trap h code) h (fun c t => softTrap h c 0x06 code t) s

/-- R220: a warp is to stop; in a normal launch its open transaction lanes abort. In a deterministic one the stop waits for
the transaction's end (R228, log entry 85, DEDUCED: the rule states it of pre-emption). -/
def Warp.abortOpen (det : Bool) (wp : Warp) : Warp :=
  let opened := match wp.tx with
    | some t => if det then 0 else lanesOf (fun l => t.lanes.any (fun x => x.lane == l && !x.committing))
    | none => 0
  wp.txAbortAll 6 0 opened

/-- R416: loads that wait on page faults are cancelled; their lanes run their words again. -/
def Warp.cancelLoads (wp : Warp) : Warp :=
  let mine := wp.parks.filter (fun p => decide (p.lane < 32) && !p.store)
  ({ wp with parks := wp.parks.filter (fun p => !(decide (p.lane < 32) && !p.store)) } : Warp).setLanes
    (lanesOf (fun l => mine.any (fun p => p.lane == l))) (fun x => if x.st = .parked then { x with st := .running } else x)
    |>.meetings

/-- R416: the debugger stops a warp, at `now`. -/
def Warp.stop (det : Bool) (now : Nat) (wp : Warp) : Warp :=
  { (wp.abortOpen det).cancelLoads with stopped := true, stopAt := if wp.stopped then wp.stopAt else now }

/-- R416, R417: every warp of a block stops. -/
def stopBlock (id : BlockId) (s : State) : State :=
  let det := (launchD s id.lid).det
  modBlock id (fun b => { b with warps := b.warps.map (fun wp => if wp.ended then wp else wp.stop det s.clock) }) s

/-- R375: a debugger is attached to the block's context. -/
def debugged (s : State) (id : BlockId) : Bool :=
  match blockCtx s id with
  | some c => ctxField s c.toNat 2 2 == 1
  | none => false

/-- R40, R417: a BKPT's stop is reported once the issuing warp has no outstanding result. -/
def reportStop (id : BlockId) (w : Nat) (s : State) : State :=
  let wp := warpD s id w
  match wp.bkpt with
  | some pc =>
    if wp.results ≠ [] then s else
    postRecord 0x87 (leBytes 8 id.lid.toNat ++ leBytes 8 id.blk ++ leBytes 8 w ++ leBytes 8 pc.toNat)
      (modWarp id w (fun x => { x with bkpt := none }) s)
  | none => s

def execBkpt (h : Hdr) (code : BitVec 16) (s : State) :=
  runWord (.bkpt h code) h (fun c t =>
    let e : Env := { s := t, c := c, w := c.warp, wp := warpD t c.block c.warp, lanes := c.group }
    if debugged t c.block then
      let t1 := endWord h c t
      if e.active h = 0 then t1 else
        reportStop c.block c.warp (modWarp c.block c.warp (fun wp => { wp with bkpt := some c.pc }) (stopBlock c.block t1))
    else softTrap h c 0x07 code t) s

end Sys2Proof.Machine
end

