-- ==== Sys2Proof/Machine/CrossLane.lean ====
section
/-!
DEFINITION. Machine/CrossLane.lean: cross-lane P-words (R148 to R152) and the tree-ordered reductions (R94, R95).
-/
namespace Sys2Proof.Machine

/-- R149: the lane that lane `l` of segment width `w` reads; itself where the edge stops it. -/
def shflSrc (mode : ShflMode) (w b l : Nat) : Nat :=
  let r := l % w
  let base := l - r
  match mode with
  | .sel => base + b % w
  | .ahead edge => if edge && decide (w ≤ r + b) then l else base + (r + b) % w
  | .behind edge => if edge && decide (r < b) then l else base + (r + 32 * w - b) % w
  | .pair => base + (r ^^^ b) % w
  | .rev => base + (w - 1 - r)

def segWidth : SegW → Nat
  | .w32 => 32
  | .w16 => 16
  | .w8 => 8
  | .w4 => 4

def execShfl (h : Hdr) (mode : ShflMode) (w : SegW) (d : Name) (a : ASrc) (b : ShflB) (s : State) :=
  laneWord (.shfl h mode w d a b) h (fun e l wp =>
    let k := match b with
      | .reg n => (e.wp.reg n l).toNat % 32
      | .imm v => v.toNat
    let src := shflSrc mode (segWidth w) k l
    wp.setReg d l (srcA32 e a (if (e.active h).getLsbD src then src else l))) s

/-- R150: the votes of every contributor, with its lane. -/
def votes (h : Hdr) (neg : Bool) (p : BitVec 3) (c : Cur) (s : State) : List (Nat × Bool) :=
  (members s c).flatMap (fun e => (laneNums (e.active h)).map (fun l => (l, e.wp.pred p l != neg)))

def execVote (h : Hdr) (mode : VoteMode) (neg : Bool) (d : Name) (p : BitVec 3) (s : State) :=
  runWord (.vote h mode neg d p) h (fun c t =>
    let v := votes h neg p c t
    let yes := (v.filter (·.2)).map (·.1)
    let put (l : Nat) (wp : Warp) : Warp := match mode with
      | .mask => wp.setReg d l (lanesOf (fun k => yes.contains k))
      | .cnt => wp.setReg d l (BitVec.ofNat 32 yes.length)
      | .first => wp.setReg d l (BitVec.ofNat 32 (yes.headD 32))
      | m => wp.setPred (d.setWidth 3) l (votePred m (v.map (·.2)))
    endWord h c (onActive h (fun _ l wp => put l wp) c t)) s

/-- R151: one byte of PRMT's result. -/
def prmtByte (x : Nat) (k : Nat) : Nat :=
  let y := x / 2 ^ (8 * (k % 8)) % 256
  if 8 ≤ k then (if 128 ≤ y then 0xFF else 0) else y

def prmtVal (sel : Nat) (x : Nat) : Nat :=
  prmtByte x (sel % 16) + prmtByte x (sel / 16 % 16) * 2 ^ 8 + prmtByte x (sel / 256 % 16) * 2 ^ 16
    + prmtByte x (sel / 4096 % 16) * 2 ^ 24

def execPrmt (h : Hdr) (sel : BitVec 16) (d : Name) (a : ASrc) (b : Name) (s : State) :=
  laneWord (.prmt h sel d a b) h (fun e l wp =>
    wp.setReg d l (BitVec.ofNat 32 (prmtVal sel.toNat ((srcA32 e a l).toNat + (e.wp.reg b l).toNat * 2 ^ 32)))) s

/-- R152: how two values combine. -/
def redOp (op : RedOp) (a b : BitVec 32) : BitVec 32 :=
  match op with
  | .add _ => a + b
  | .min n => if n then (if b < a then b else a) else (if b.toInt < a.toInt then b else a)
  | .max n => if n then (if a < b then b else a) else (if a.toInt < b.toInt then b else a)
  | .and => a &&& b
  | .or => a ||| b
  | .xor => a ^^^ b
  | .fadd rm => f32Add rm a b
  | .fmin nanp => f32MinMax false nanp a b
  | .fmax nanp => f32MinMax true nanp a b

/-- R95: a reduction without contributions. -/
def redEmpty (op : RedOp) : BitVec 32 :=
  match op with
  | .and => 0xFFFFFFFF#32
  | .min n => if n then 0xFFFFFFFF#32 else 0x7FFFFFFF#32
  | .max n => if n then 0 else 0x80000000#32
  | .fmin _ => 0x7F800000#32
  | .fmax _ => 0xFF800000#32
  | _ => 0

/-- The warps whose members stand in the order of R94 for the word in hand. -/
def memberOrder (s : State) (c : Cur) : List Nat :=
  match c.single with
  | none => [c.warp]
  | some r => scopeWarps s c.block r.warp r.scope r.set

/-- The levels of a tree of n places. -/
def treeLevels (n : Nat) : Nat := ((List.range 6).find? (fun k => n ≤ 2 ^ k)).getD 6

/-- R94: a member's lanes are reduced first; lane L stands at place L. -/
def laneReduce (op : RedOp) (m : Lanes) (f : Nat → BitVec 32) : Option (BitVec 32) :=
  tree (redOp op) 5 ((List.range 32).map (fun l => if m.getLsbD l then some (f l) else none))

/-- R94, R95: the reduction of the word in hand; `lanes` are a member's contributors. -/
def reduceAll (op : RedOp) (c : Cur) (s : State) (ms : List Env) (lanes : Env → Lanes) (f : Env → Nat → BitVec 32) :
    BitVec 32 :=
  let order := memberOrder s c
  let per := order.map (fun w => (ms.find? (fun e => e.w == w)).bind (fun e => laneReduce op (lanes e) (f e)))
  (tree (redOp op) (treeLevels order.length) per).getD (redEmpty op)

def execXred (h : Hdr) (op : RedOp) (d : Name) (a : ASrc) (s : State) :=
  runWord (.xred h op d a) h (fun c t =>
    let v := reduceAll op c t (members t c) (fun e => e.active h) (fun e l => srcA32 e a l)
    endWord h c (onActive h (fun _ l wp => wp.setReg d l v) c t)) s

end Sys2Proof.Machine
end

