-- ==== Sys2Proof/Machine/Uniform.lean ====
section
/-!
DEFINITION. Machine/Uniform.lean: uniform G-words (R153 to R157).
-/
namespace Sys2Proof.Machine

/-- R153: a G-word that computes from its lead member and writes in every guard-true member. -/
def uniWord (i : Instr) (h : Hdr) (f : Env → Warp → Warp) (s : State) : Host.Outcome State Fault Refusal :=
  runWord i h (fun c t =>
    endWord h c (match leadOf h t c with
      | some e => onMembers h (fun _ wp => f e wp) c t
      | none => t)) s

/-- A uniform B operand. -/
def uniB (e : Env) (b : BSrc) : BitVec 64 :=
  match b with
  | .reg n => uniVal e n 0
  | .imm v => immS64 v

/-- R154. -/
def saluVal (op : SaluOp) (n64 : Bool) (a b : BitVec 64) : BitVec 64 :=
  let k := b.toNat % 256
  match op with
  | .add => a + b
  | .sub => a - b
  | .mul => a * b
  | .mulh =>
    if n64 then BitVec.ofNat 64 (a.toNat * b.toNat / 2 ^ 64) else BitVec.ofInt 64 (a.toInt * b.toInt / 2 ^ 64)
  | .min => if n64 then (if b < a then b else a) else (if b.toInt < a.toInt then b else a)
  | .max => if n64 then (if a < b then b else a) else (if a.toInt < b.toInt then b else a)
  | .and => a &&& b
  | .or => a ||| b
  | .xor => a ^^^ b
  | .shl => a <<< k
  | .shr => if n64 then a >>> k else a.sshiftRight k
  | .andn => a &&& ~~~b

def execSalu (h : Hdr) (op : SaluOp) (n64 : Bool) (d a : Name) (b : BSrc) (s : State) :=
  uniWord (.salu h op n64 d a b) h (fun e wp => wp.setS d (saluVal op n64 (uniVal e a 0) (uniB e b))) s

def execSmov (h : Hdr) (d a : Name) (s : State) := uniWord (.smov h d a) h (fun e wp => wp.setS d (uniVal e a 0)) s

def execSmovI (h : Hdr) (d : Name) (imm : BitVec 20) (s : State) :=
  uniWord (.smovI h d imm) h (fun _ wp => wp.setS d (immS64 imm)) s

def execSmovCat (h : Hdr) (d a : Name) (imm : BitVec 20) (s : State) :=
  uniWord (.smovCat h d a imm) h (fun e wp => wp.setS d (uniVal e a 0 * 1048576#64 + imm.setWidth 64)) s

/-- R44: the uniform predicates g7 to g0. -/
def gByte (wp : Warp) : Nat :=
  (List.range 8).foldl (fun v i => if wp.gpred (BitVec.ofNat 3 i) then v + 2 ^ i else v) 0

def execSmovGtos (h : Hdr) (d : Name) (s : State) :=
  uniWord (.smovGtos h d) h (fun e wp => wp.setS d (BitVec.ofNat 64 (gByte e.wp))) s

def execSmovStog (h : Hdr) (a : Name) (s : State) :=
  uniWord (.smovStog h a) h (fun e wp =>
    (List.range 7).foldl (fun x i => x.setG (BitVec.ofNat 3 i) ((uniVal e a 0).getLsbD i)) wp) s

def execSmovRdl (h : Hdr) (d a : Name) (k : BitVec 5) (s : State) :=
  uniWord (.smovRdl h d a k) h (fun e wp => wp.setS d ((e.wp.reg a k.toNat).setWidth 64)) s

/-- R156: comparison of 64-bit values. -/
def cmp64 (cc : Cc) (n64 : Bool) (a b : BitVec 64) : Bool :=
  if n64 then ccHolds cc a.toNat b.toNat else ccHolds cc a.toInt b.toInt

def execScmp (h : Hdr) (cc : Cc) (n64 : Bool) (g a : Name) (b : BSrc) (s : State) :=
  uniWord (.scmp h cc n64 g a b) h (fun e wp => wp.setG (g.setWidth 3) (cmp64 cc n64 (uniVal e a 0) (uniB e b))) s

/-- R157: whether warp `w` takes the branch. -/
def sbraTaken (h : Hdr) (mode : SbraMode) (c : Cur) (s : State) (w : Nat) : Bool :=
  let all := (members s c).filter (fun e => e.lanes != 0)
  match mode with
  | .each => guardG h (warpD s c.block w)
  | .any => all.any (fun e => guardG h e.wp)
  | .all => all.all (fun e => guardG h e.wp)

def execSbra (h : Hdr) (mode : SbraMode) (off : BitVec 20) (s : State) :=
  runWord (.sbra h mode off) h (fun c t =>
    endWordTo h c c.group (fun w => if sbraTaken h mode c t w then branchTarget c.pc off else c.pc + wordLen h) t) s

/-- R152: WRED. -/
def execWred (h : Hdr) (op : RedOp) (d a : Name) (s : State) :=
  runWord (.wred h op d a) h (fun c t =>
    let v := reduceAll op c t (gMembers h t c) (fun e => e.lanes) (fun e l => e.wp.reg a l)
    let x : BitVec 64 := match op with
      | .add n | .min n | .max n => if n then v.setWidth 64 else v.signExtend 64
      | _ => v.setWidth 64
    endWord h c (onMembers h (fun _ wp => wp.setS d x) c t)) s

end Sys2Proof.Machine
end

