-- ==== Sys2Proof/Machine/Group.lean ====
section
/-!
DEFINITION. Machine/Group.lean: group G-words: BAR, ELECT, WMOV, GMEMB, GROW and BAND (R146, R147, R158 to R162).
-/
namespace Sys2Proof.Machine

/-- Acquires by the guard-true members of the word in hand, before their next words (R158, R160). -/
def acquireMembers (h : Hdr) (m : Msc) (c : Cur) (s : State) : State :=
  (gMembers h s c).foldl (fun t e => acquireNow c.block e.w m t) s

/-- R158: the members' releases came before their arrivals; the acquires follow. -/
def execBar (h : Hdr) (sem : Sem) (msc : Msc) (s : State) :=
  runWord (.bar h sem msc) h (fun c t =>
    endWord h c (if sem = .acq || sem = .ar then acquireMembers h msc c t else t)) s

/-- R159. -/
def execElect (h : Hdr) (p : BitVec 3) (sa : Option Name) (s : State) :=
  runWord (.elect h p sa) h (fun c t =>
    endWord h c (match leadOf h t c with
      | none => t
      | some e =>
        let l := (laneNums e.lanes).headD 0
        onMembers h (fun x wp =>
          let w1 := (laneNums x.lanes).foldl (fun y k => y.setPred p k (x.w == e.w && k == l)) wp
          match sa with
          | some n => w1.setS n (BitVec.ofNat 64 (l + e.w * 2 ^ 32))
          | none => w1) c t)) s

/-- R144: where a set's register stands: set, register, lane. -/
def wKey (set : Nat) (n : Name) (l : Nat) : Nat := (set * 16 + (n.toNat - 64)) * 32 + l

/-- R45: the set whose registers the word in hand names. -/
def wSetOf (h : Hdr) (c : Cur) (s : State) : Nat := (wSet (launchD s c.block.lid) h c.warp).getD 0

/-- R146. -/
def execWmovTol (h : Hdr) (d w : Name) (s : State) :=
  runWord (.wmovTol h d w) h (fun c t =>
    let set := wSetOf h c t
    let ws := (blockD t c.block).wregs
    endWord h c (onMembers h (fun e wp =>
      (laneNums e.lanes).foldl (fun x l => x.setReg d l (sget ws (wKey set w l))) wp) c t)) s

/-- R146: the lowest member with the lane gives the value. -/
def execWmovFroml (h : Hdr) (w a : Name) (s : State) :=
  runWord (.wmovFroml h w a) h (fun c t =>
    let set := wSetOf h c t
    let ms := gMembers h t c
    let src (l : Nat) : Option (BitVec 32) := (ms.find? (fun e => e.lanes.getLsbD l)).map (fun e => e.wp.reg a l)
    endWord h c (modBlock c.block (fun b => { b with wregs := (List.range 32).foldl (fun m l =>
      match src l with | some v => sset m (wKey set w l) v | none => m) b.wregs }) t)) s

/-- R147. -/
def gmembVal (s : State) (c : Cur) (q : GmembQ) (n : Nat) : BitVec 64 :=
  let ms := setMembers (launchD s c.block.lid) n
  match q with
  | .mask => BitVec.ofNat 64 (ms.foldl (fun v w => v + 2 ^ w) 0)
  | .index => if ms.contains c.warp then BitVec.ofNat 64 (ms.idxOf c.warp) else 0xFFFFFFFFFFFFFFFF#64
  | .count => BitVec.ofNat 64 ms.length
  | .live => BitVec.ofNat 64 (ms.foldl (fun v w => if (warpD s c.block w).allExited then v else v + 2 ^ w) 0)

def execGmemb (h : Hdr) (q : GmembQ) (d : Name) (n : BitVec 8) (s : State) :=
  uniWord (.gmemb h q d n) h (fun e wp => wp.setS d (gmembVal e.s e.c q n.toNat)) s

/-! ### GROW (R161) -/

/-- R144: the names a block's warps and sets hold. -/
def blockNames (l : Launch) (b : Block) : Nat :=
  16 * l.groups.length + (b.warps.map (fun wp => if wp.ended || wp.evicted then 0 else wp.allot)).sum

/-- The names of a core's pool. -/
def poolNames (s : State) (core : Nat) : Nat :=
  3584 - ((s.blocks.filter (fun (b : Block) => b.core == core && b.resident)).map
    (fun b => blockNames (launchD s b.id.lid) b)).sum

/-- The lane registers an outstanding result targets: first name and count. -/
def outTarget (o : Outst) : Nat × Nat :=
  match o.instr with
  | .ld _ _ z _ _ _ d .. | .lds _ _ z _ _ d .. => (d.toNat, z.regs)
  | .atom _ k d .. => (d.toNat, k.ty.regs)
  | _ => (0, 0)

/-- R161: no outstanding result of the warp targets a name from v(n) up. -/
def namesQuiet (wp : Warp) (n : Nat) : Bool := wp.outs.all (fun o => (outTarget o).1 + (outTarget o).2 ≤ 16 + n)

/-- R161: whether a request for `n` names can be granted now. -/
def growReady (s : State) (core : Nat) (wp : Warp) (n : Nat) : Bool :=
  if n ≤ wp.allot then namesQuiet wp n else decide (n - wp.allot ≤ poolNames s core)

/-- R161: a grant; names given up or newly taken hold 0. -/
def Warp.grant (n : Nat) (gd : Option Name) (wp : Warp) : Warp :=
  let keep := min n wp.allot
  let w1 := { wp with allot := n, regs := wp.regs.filter (fun r => decide (r.1 < (16 + keep) * 32)), grow := none }
  match gd with
  | some g => w1.setG (g.setWidth 3) true
  | none => w1

def execGrow (h : Hdr) (g : Option Name) (n : BitVec 7) (s : State) :=
  runWord (.grow h g n) h (fun c t =>
    match gMembers h t c with
    | [] => endWord h c t
    | e :: _ =>
      let core := (blockD t c.block).core
      if growReady t core e.wp n.toNat then endWord h c (modWarp c.block e.w (Warp.grant n.toNat g) t)
      else if g.isSome && decide (e.wp.allot < n.toNat) then
        endWord h c (modWarp c.block e.w (fun wp => wp.setG ((g.getD 0).setWidth 3) false) t)
      else
        let t1 := endWord h c t
        modWarp c.block e.w (fun wp =>
          { wp with grow := some { n := n.toNat, gd := g, pc := c.pc, next := c.pc + wordLen h } }) t1) s

/-! ### BAND (R160) -/

/-- The blocks of a block's band that are still there, by position. -/
def bandBlocks (s : State) (id : BlockId) : List BlockId :=
  ((List.range 8).map (fun p => ({ lid := id.lid, blk := id.blk / 8 * 8 + p } : BlockId))).filter
    (fun x => (getBlock s x).isSome)

/-- The word in hand as the single execution of each block of the band, with the block's arrivals. -/
def bandCurs (s : State) (c : Cur) (r : Rdv) : List Cur :=
  (bandBlocks s c.block).filterMap (fun id =>
    ((blockD s id).rdvs.find? r.same).map (fun x => { c with block := id, single := some x }))

def bandRedOp (op : BandRed) (n64 : Bool) (a b : BitVec 64) : BitVec 64 :=
  match op with
  | .add => a + b
  | .min => saluVal .min n64 a b
  | .max => saluVal .max n64 a b
  | .and => a &&& b
  | .or => a ||| b
  | .xor => a ^^^ b

/-- R95 on 64 bits. -/
def bandRedEmpty (op : BandRed) (n64 : Bool) : BitVec 64 :=
  match op with
  | .and => 0xFFFFFFFFFFFFFFFF#64
  | .min => if n64 then 0xFFFFFFFFFFFFFFFF#64 else 0x7FFFFFFFFFFFFFFF#64
  | .max => if n64 then 0 else 0x8000000000000000#64
  | _ => 0

/-- R160: what the band position `p` contributes. -/
def bandValue (h : Hdr) (a : Name) (cs : List Cur) (s : State) (p : Nat) : Option (BitVec 64) :=
  (cs.find? (fun c => c.block.blk % 8 == p)).bind (fun c => (leadOf h s c).map (fun e => uniVal e a 0))

/-- R160: the acquires of every member warp that has arrived, whatever its guard. -/
def acquireArrived (c : Cur) (s : State) : State :=
  ((members s c).filter (fun e => e.lanes != 0)).foldl (fun t e => acquireNow c.block e.w .cl t) s

def execBand (h : Hdr) (op : BandOp) (d a : Name) (s : State) :=
  runWord (.band h op d a) h (fun c t =>
    match c.single with
    | none => t
    | some r =>
      let cs := bandCurs t c r
      let vals := (List.range 8).map (bandValue h a cs t)
      let res : Option (BitVec 64) := match op with
        | .sync => none
        | .red o n64 => some ((tree (bandRedOp o n64) 3 vals).getD (bandRedEmpty o n64))
        | .bcast k => some ((vals[k.toNat]?).join.getD 0)
      cs.foldl (fun u x =>
        let u1 := match res with
          | some v => onMembers h (fun _ wp => wp.setS d v) x u
          | none => u
        endWord h x (acquireArrived x u1)) t) s

end Sys2Proof.Machine
end

