-- ==== Sys2Proof/Machine/Tx.lean ====
section
/-!
DEFINITION. Machine/Tx.lean: accesses inside a transaction and its commit (R212 to R220, R465), and data errors that a warp
consumes (R439).
-/
namespace Sys2Proof.Machine


def Tx.lane? (t : Tx) (l : Nat) : Option TxLane := t.lanes.find? (fun x => x.lane == l)

def Tx.modLane (t : Tx) (l : Nat) (f : TxLane → TxLane) : Tx :=
  { t with lanes := t.lanes.map (fun x => if x.lane = l then f x else x) }

/-- R214: the union of the lanes' sets, as a rising list. -/
def Tx.readSet (t : Tx) : List Nat := (t.lanes.flatMap (·.reads)).foldl insertNat []

def Tx.writeSet (t : Tx) : List Nat := (t.lanes.flatMap (fun x => x.writes.map (·.1))).foldl insertNat []

def txMod (c : Cur) (f : Tx → Tx) (s : State) : State :=
  modWarp c.block c.warp (fun wp => { wp with tx := wp.tx.map f }) s

def txAbortLane (c : Cur) (code l : Nat) (s : State) : State :=
  modWarp c.block c.warp (fun wp => wp.txAbort code 0 l) s

/-- Reads another pending version of a line than the installed one: the cluster's, or the block's own tentative one. -/
def txPendingHere (s : State) (id : BlockId) (n : Nat) : Bool :=
  (clusterD s (blockD s id).cluster).pend.any (fun p => p.line == n) || (findTent (blockD s id) n).isSome

/-- What a transaction lane's load comes to: bytes, an uncorrectable sector, or an abort. -/
inductive TxRead where
  | bytes (bs : List (BitVec 8)) (s : State)
  | error (pa : Nat) (s : State)
  | aborted (s : State)

/-- R213, R214: a load of lane `l` inside its transaction. -/
def txLoad (c : Cur) (l : Nat) (p : Place) (len : Nat) (s : State) : TxRead :=
  match (warpD s c.block c.warp).tx with
  | none => .aborted s
  | some t =>
    match p with
    | .log la ks =>
      let n := la / 128
      let own := (t.lane? l).elim [] (·.reads)
      if (aget s.homes n).isSome then .aborted (txAbortLane c 8 l s)
      else if txPendingHere s c.block n then .aborted (txAbortLane c 5 l s)
      else if !own.contains n && !t.readSet.contains n && decide (64 ≤ t.readSet.length) then
        .aborted (txAbortLane c 2 l s)
      else
        let s1 := if own.contains n then s else
          txMod c (fun x => { x.modLane l (fun y => { y with reads := y.reads ++ [n] }) with
            seen := x.seen ++ [(seenKey l n, ixEntry s n)] }) s
        let r := indexedLine (blockD s c.block).core n ks true s1
        let mine := (t.lane? l).bind (fun x => x.writes.find? (fun e => e.1 == n))
        let (d, covered) := match mine with
          | some (_, b, m, _) => (mergeLine r.data b m, wholeSectors m)
          | none => (r.data, 0)
        if r.poison &&& sectorsHit (la % 128) len &&& ~~~covered ≠ 0 then .error r.pa r.st
        else .bytes (lineBytes d (la % 128) len) r.st
    | _ => .aborted (txAbortLane c 8 l s)

/-- R213: bytes buffered privately in a lane's write lines. -/
def bufferBytes (n off ks : Nat) (bs : List (BitVec 8)) (l : List (Nat × BitVec 1024 × BitVec 128 × Nat)) :
    List (Nat × BitVec 1024 × BitVec 128 × Nat) :=
  if l.any (fun e => e.1 == n) then
    l.map (fun e => if e.1 = n then (n, putLine e.2.1 off bs, e.2.2.1 ||| maskOf off bs.length, e.2.2.2) else e)
  else l ++ [(n, bytesLine off bs, maskOf off bs.length, ks)]

/-- R213, R214: a store of lane `l` inside its transaction. -/
def txStore (c : Cur) (l : Nat) (p : Place) (bs : List (BitVec 8)) (s : State) : State :=
  match (warpD s c.block c.warp).tx with
  | none => s
  | some t =>
    match p with
    | .log la ks =>
      let n := la / 128
      if (aget s.homes n).isSome then txAbortLane c 8 l s
      else if !t.writeSet.contains n && decide (32 ≤ t.writeSet.length) then txAbortLane c 3 l s
      else txMod c (fun x => x.modLane l (fun y => { y with writes := bufferBytes n (la % 128) ks bs y.writes })) s
    | _ => txAbortLane c 8 l s

/-! ### Commit (R215, R216) -/

/-- R215: the line sets of two lanes clash: `l` reads or writes what a survivor writes, or writes what it reads. -/
def txClash (l x : TxLane) : Bool :=
  let w (y : TxLane) : List Nat := y.writes.map (·.1)
  (l.reads ++ w l).any (fun n => (w x).contains n) || (w l).any (fun n => x.reads.contains n)

/-- R215: the lanes that survive, and those that lose with their winner; lanes rising. -/
def txSurvivors (lanes : List TxLane) : List TxLane × List (Nat × Nat) :=
  ((List.range 32).filterMap (fun l => lanes.find? (fun x => x.lane == l))).foldl (fun acc x =>
    match acc.1.find? (fun y => txClash x y) with
    | some y => (acc.1, acc.2 ++ [(x.lane, y.lane)])
    | none => (acc.1 ++ [x], acc.2)) ([], [])

/-- R215: no line of the lane's read set has changed since the lane read it, nor is pending by another warp. -/
def txValid (s : State) (id : BlockId) (t : Tx) (x : TxLane) : Bool :=
  x.reads.all (fun n => aget t.seen (seenKey x.lane n) == some (ixEntry s n) && !txPendingHere s id n)

/-- The bytes of a lane merge into pending lines; none when the table has no room. -/
def txMerge (core : Nat) (rb : Bool) (x : TxLane) (s : State) : Option State :=
  x.writes.foldl (fun o e => o.bind (pendMask core e.1 e.2.2.2 e.2.1 e.2.2.1 rb true)) (some s)

/-- R215, R24: entries are freed before the commit's own step. -/
def txRoom (id : BlockId) (need : Nat) (s : State) : State :=
  let c := (blockD s id).cluster
  if 16384 < tableUse s c + need && !(launchD s id.lid).rb then (publishCluster c s).1 else s

/-- R215: the commit of a closed transaction whose release is performed; none while it must wait for entries or for
the log. -/
def commitTx (id : BlockId) (w : Nat) (s : State) : Option State :=
  match (warpD s id w).tx with
  | none => some s
  | some t =>
    let b := blockD s id
    let rb := (launchD s id.lid).rb
    let (live, lost) := txSurvivors t.lanes
    let s0 := txRoom id t.writeSet.length s
    let (ok, changed) := live.partition (txValid s0 id t)
    let s1 := lost.foldl (fun u x => modWarp id w (fun wp => wp.txAbort 4 x.2 x.1) u) s0
    let s2 := changed.foldl (fun u x => modWarp id w (fun wp => wp.txAbort 5 0 x.lane) u) s1
    match ok.foldl (fun o x => o.bind (txMerge b.core rb x)) (some s2) with
    | none => none
    | some s3 =>
      let (s4, done) := if ok.isEmpty then (s3, true) else publishCluster b.cluster s3
      if !done then none else
      let m := lanesOf (fun l => ok.any (fun x => x.lane == l))
      let s5 := modWarp id w (fun wp =>
        ({ wp with tx := none, retired := wp.retired + (wp.tx.map (·.words)).getD 0 } : Warp).setLanes m
          (fun x => { x with pc := x.pc + 8, st := .running, txe := false }) |>.txEnd |>.meetings) s4
      some (acquireNow id w .dv s5)

/-- R212: every lane that joined has issued TXE, aborted or exited. -/
def txComplete (wp : Warp) : Bool :=
  match wp.tx with
  | some t => !t.closed && !t.lanes.isEmpty && t.lanes.all (·.committing)
  | none => false

/-! ### The words (R211) -/

/-- R212: the lanes' parts of a transaction as TXB makes them. -/
def newTxLanes (d : Name) (handler : BitVec 53) (m : Lanes) : List TxLane :=
  (laneNums m).map (fun l =>
    { lane := l, handler := handler, dst := d, committing := false, reads := [], writes := [] })

/-- R212: lanes join the warp's transaction, which begins with the first of them. -/
def Warp.txJoin (d : Name) (handler : BitVec 53) (m : Lanes) (wp : Warp) : Warp :=
  if m = 0 then wp else
    let t := wp.tx.getD { lanes := [], seen := [], closed := false, words := 0, key := 0 }
    (laneNums m).foldl (fun y l => y.setReg d l 0)
      { wp with tx := some { t with lanes := t.lanes ++ newTxLanes d handler m } }

/-- R211, R212: a TXB at a closed transaction stalls the word: its lanes count as held at TXE until the transaction ends.
A lane that is in the transaction aborts with 0x09; where that ends the transaction, the others begin the next one. -/
def execTxb (h : Hdr) (d : Name) (off : BitVec 20) (s : State) :=
  runWord (.txb h d off) h (fun c t =>
    let wp := warpD t c.block c.warp
    let act := lanesOf (fun l => c.group.getLsbD l && guardP h wp l)
    let handler := c.pc + off.signExtend 53 * 4
    if act ≠ 0 && wp.tx.any (·.closed) then
      switchPoint c.block c.warp
        (modWarp c.block c.warp (fun wp => wp.setLanes c.group (fun y => { y with st := .waiting, txe := true })) t)
    else
      let nested := act &&& txLanes wp
      let join := act &&& ~~~nested
      let t1 := modWarp c.block c.warp (fun wp => wp.txAbortAll 9 0 nested) t
      let t2 := if join ≠ 0 && (warpD t1 c.block c.warp).tx.isNone then acquireNow c.block c.warp .dv t1 else t1
      modWarp c.block c.warp (fun wp =>
        (wp.txJoin d handler join).retire h (c.group &&& ~~~nested) (c.pc + wordLen h)) t2) s

/-- R222: a TXE takes the next value of lane 0's sequence in a deterministic launch. -/
def Warp.takeKey (det : Bool) (wp : Warp) : Warp :=
  if det then
    let q := (aget wp.seqs 0).getD 0
    { wp with seqs := aset wp.seqs 0 (q + 1), tx := wp.tx.map (fun t => { t with key := q }) }
  else wp

/-- R215: the active lanes of the transaction are held; the others go on. The commit follows (Machine/Settle.lean). -/
def execTxe (h : Hdr) (s : State) :=
  runWord (.txe h) h (fun c t =>
    let wp := warpD t c.block c.warp
    let act := lanesOf (fun l => c.group.getLsbD l && guardP h wp l) &&& txLanes wp
    let next := c.pc + wordLen h
    if act = 0 then modWarp c.block c.warp (fun wp => wp.retire h c.group next) t else
    switchPoint c.block c.warp (modWarp c.block c.warp (fun wp0 =>
      let wp := wp0.takeKey (launchD t c.block.lid).det
      (({ wp with marker := wp.marker || h.s
                  tx := wp.tx.map (fun x => { x with words := x.words + 1, lanes := x.lanes.map (fun y =>
          if act.getLsbD y.lane then { y with committing := true } else y) }) } : Warp).setLanes act
        (fun y => { y with st := .waiting, txe := true })).setLanes (c.group &&& ~~~act)
          (fun y => { y with pc := next }) |>.meetings) t)) s

def execTxa (h : Hdr) (code : BitVec 8) (s : State) :=
  runWord (.txa h code) h (fun c t =>
    let wp := warpD t c.block c.warp
    let act := lanesOf (fun l => c.group.getLsbD l && guardP h wp l) &&& txLanes wp
    let t1 := modWarp c.block c.warp (fun wp => wp.retire h (c.group &&& ~~~act) (c.pc + wordLen h)) t
    modWarp c.block c.warp (fun wp => wp.txAbortAll 1 code.toNat act) t1) s

/-- R219. -/
def txqVal (wp : Warp) (l : Nat) : Nat :=
  match wp.tx with
  | none => 0
  | some t => (if (t.lane? l).isSome then 1 else 0) + t.readSet.length * 2 ^ 8 + t.writeSet.length * 2 ^ 16

def execTxq (h : Hdr) (d : Name) (s : State) :=
  runWord (.txq h d) h (fun c t =>
    endWord h c (onActive h (fun e l wp => wp.setReg d l (BitVec.ofNat 32 (txqVal e.wp l))) c t)) s

end Sys2Proof.Machine
end

