-- ==== Sys2Proof/Machine/LoadStore.lean ====
section
/-!
DEFINITION. Machine/LoadStore.lean: loads, stores, fences, prefetches and cache control (R179 to R183, R213, R470).
-/
namespace Sys2Proof.Machine

/-! ### Addresses and data -/

/-- R179: a lane's global address. -/
def globalVa (e : Env) (a : ASrc) (off : BitVec 20) (l : Nat) : Nat :=
  match a with
  | .lane n => (e.wp.reg64 n l).toNat
  | .uni n => (uniVal e n l + off.signExtend 64).toNat

/-- R179: a lane's scratchpad offset. -/
def scratchVa (e : Env) (a : ASrc) (off : BitVec 20) (l : Nat) : Nat :=
  match a with
  | .lane n => (e.wp.reg n l).toNat
  | .uni n => ((uniVal e n l).setWidth 32 + off.signExtend 32).toNat

/-- R179: what a load of a size writes, register by register. -/
def loadRegs (z : Size) (bs : List (BitVec 8)) : List (BitVec 32) :=
  match z with
  | .i8 => [BitVec.ofInt 32 (intVal (leNat bs) 8 true)]
  | .i16 => [BitVec.ofInt 32 (intVal (leNat bs) 16 true)]
  | _ => (List.range z.regs).map (fun i => BitVec.ofNat 32 (leNat ((bs.drop (4 * i)).take 4)))

def Warp.putRegs (d : Name) (l : Nat) (vs : List (BitVec 32)) (wp : Warp) : Warp :=
  vs.zipIdx.foldl (fun w v => w.setReg (d + BitVec.ofNat 7 v.2) l v.1) wp

/-- R179: the bytes a store of a size takes from its registers. -/
def storeData (z : Size) (wp : Warp) (d : Name) (l : Nat) : List (BitVec 8) :=
  ((List.range z.regs).flatMap (fun i => leBytes 4 (wp.reg (d + BitVec.ofNat 7 i) l).toNat)).take z.bytes

/-- What the translations of the lanes of a word come to. -/
structure Resolved where
  faults : List LaneFault
  parts : List (Nat × Nat × Place)
  st : State

/-- R169: translates an access of `n` bytes in each of the lanes. -/
def resolve (c : Cur) (lanes : List Nat) (va : Nat → Nat) (n : Nat) (acc : Access) (s : State) : Resolved :=
  let core := (blockD s c.block).core
  let ctx := blockCtx s c.block
  lanes.foldl (fun r l =>
    match translate r.st core ctx (va l) n n acc with
    | .error cls => { r with faults := r.faults ++ [{ lane := l, cls := cls, va := va l, store := acc.writes }] }
    | .ok (p, t) => { r with parts := r.parts ++ [(l, va l, p)], st := fillTlb core t r.st })
    { faults := [], parts := [], st := s }

/-- R169: checks scratchpad accesses of `n` bytes. -/
def resolveScratch (c : Cur) (lanes : List Nat) (va : Nat → Nat) (n : Nat) (store : Bool) (s : State) : Resolved :=
  let la := launchD s c.block.lid
  lanes.foldl (fun r l =>
    match scratchAccess la (va l) n n with
    | .error cls => { r with faults := r.faults ++ [{ lane := l, cls := cls, va := va l, store := store }] }
    | .ok p => { r with parts := r.parts ++ [(l, va l, p)] }) { faults := [], parts := [], st := s }

/-- R179: the register writes of a lane's load. -/
def loadVals (d : Name) (l : Nat) (vs : List (BitVec 32)) : List RegWrite :=
  vs.zipIdx.map (fun v => .lane l (d + BitVec.ofNat 7 v.2) v.1)

def Warp.put (wp : Warp) (v : RegWrite) : Warp :=
  match v with
  | .lane l n x => wp.setReg n l x
  | .uni n x => wp.setS n x

def RegWrite.lanes : RegWrite → Lanes
  | .lane l _ _ => 1#32 <<< l
  | .uni .. => 0

/-- R39: the register writes of a result are made. -/
def Warp.puts (vs : List RegWrite) (wp : Warp) : Warp := vs.foldl Warp.put wp

def partLanes (parts : List (Nat × Nat × Place)) : Lanes := lanesOf (fun l => parts.any (fun x => x.1 == l))

/-- Adds an outstanding result to a warp. -/
def addOut (id : BlockId) (w : Nat) (f : Nat → Outst) (s : State) : State :=
  modWarp id w (fun wp => { wp with outs := wp.outs ++ [f wp.nextOut], nextOut := wp.nextOut + 1 }) s

/-- R470: an acquire holds its warps until the result with this number has returned. -/
def holdWarps (id : BlockId) (ws : List Nat) (i : Instr) (pc : BitVec 53) (n : Nat) (s : State) : State :=
  ws.foldl (fun t w => modWarp id w (fun wp => { wp with waitOn := some (i, pc, n) }) t) s

def blankOut (i : Instr) (c : Cur) (n : Nat) : Outst :=
  { id := n, pc := c.pc, iw := c.iw, ew := c.ew, instr := i, lanes := 0, parts := [], ops := [], sites := [],
    members := [], vals := [], lead := none }

/-- What stands for the word of a result whose value is there from issue. -/
def noWord : Instr := .nop { s := false, x := false, scope := .own, set := 0, gn := false, gp := 7 }

/-- R38: a variable-latency result of sD whose value is there from issue. -/
def Warp.addLate (c : Cur) (lanes : Lanes) (vs : List RegWrite) (wp : Warp) : Warp :=
  { wp with outs := wp.outs ++ [{ blankOut noWord c wp.nextOut with lanes := lanes, vals := vs }], nextOut := wp.nextOut + 1 }

/-- R352, R470: accesses of mailbox rows, by lanes `m`, are strong, weak ones too: the word stalls as a strong one does. -/
def rowStall (wp : Warp) (c : Cur) (m : Lanes) : Bool :=
  m != 0 && (wp.rel.any (fun r => r.pc != c.pc) || wp.earlier wp.nextOut (fun o x => o.byLanes m x))

/-- The lanes that access mailbox rows. -/
def rowLanes (parts : List (Nat × Nat × Place)) : Lanes := partLanes (parts.filter (fun x => x.2.2.isRow))

/-- R189: accesses of `n` bytes at these places must follow earlier ones of their lanes that are not performed. -/
def weakStall (wp : Warp) (n : Nat) (parts : List (Nat × Nat × Place)) : Bool :=
  parts.any (fun x => wp.earlier wp.nextOut (fun o => o.before (1#32 <<< x.1) x.2.2 n false))

/-- R189: the same of a uniform access, for the lanes of each member. -/
def uniStall (s : State) (c : Cur) (p : Place) (n : Nat) : Bool :=
  (members s c).any (fun e => e.wp.earlier e.wp.nextOut (fun o => o.before e.lanes p n false))

/-- The environment of a lane-scope word. -/
def laneEnv (c : Cur) (t : State) : Env := { s := t, c := c, w := c.warp, wp := warpD t c.block c.warp, lanes := c.group }

/-! ### LD and ST (R179) -/

/-- R213: the transaction lanes' loads are performed: the register writes they give. -/
def txLoads (c : Cur) (z : Size) (d : Name) (parts : List (Nat × Nat × Place)) (s : State) : List RegWrite × State :=
  parts.foldl (fun t x => match txLoad c x.1 x.2.2 z.bytes t.2 with
    | .bytes bs u => (t.1 ++ loadVals d x.1 (loadRegs z bs), u)
    | .error pa u => (t.1, dueData c.block c.warp (1#32 <<< x.1) (some c.pc) none c.iw c.ew pa u)
    | .aborted u => (t.1, u)) ([], s)

/-- R38, R179, R470: the lanes' accesses are outstanding, and `.ACQ` holds the warp until they have returned; an acquire by a
transaction lane is made as any other (R213 names none of its own; log entry 73, DESIGN CHOICE). -/
def execLd (h : Hdr) (strong : Bool) (sz : Size) (sem : Sem) (msc : Msc) (hint : Hint) (d : Name) (a : ASrc)
    (off : BitVec 20) (s : State) :=
  let i := Instr.ld h strong sz sem msc hint d a off
  runWord i h (fun c t =>
    let e := laneEnv c t
    let r := resolve c (laneNums (e.active h)) (globalVa e a off) sz.bytes .load t
    let inTx := txLanes e.wp
    let (txp, parts) := r.parts.partition (fun x => inTx.getLsbD x.1)
    if rowStall e.wp c (rowLanes parts) then t else
    let (vals, t1) := txLoads c sz d txp r.st
    let aborted := partLanes txp &&& ~~~txLanes (warpD t1 c.block c.warp)
    let n := (warpD t1 c.block c.warp).nextOut
    let none' := parts.isEmpty && vals.isEmpty
    let lanes := partLanes parts ||| (partLanes txp &&& ~~~aborted)
    let t2 := if none' then t1 else
      addOut c.block c.warp (fun k => { blankOut i c k with lanes := lanes, parts := parts, vals := vals }) t1
    let good := c.group &&& ~~~faultLanes r.faults &&& ~~~aborted
    let t3 := laneFaults h c r.faults (endWordTo h c good (fun _ => c.pc + wordLen h) t2)
    if sem = .acq && !none' then holdWarps c.block [c.warp] i c.pc n t3 else t3) s

/-- R179, R470: the stores of the lanes, at once or under the release of `.REL`. Where every storing lane is in a
transaction, whose stores are buffered, the release is not made (log entry 73, DESIGN CHOICE: R213 names none). -/
def execSt (h : Hdr) (strong : Bool) (sz : Size) (sem : Sem) (msc : Msc) (hint : Hint) (d : Name) (a : ASrc)
    (off : BitVec 20) (s : State) :=
  runWord (.st h strong sz sem msc hint d a off) h (fun c t =>
    let e := laneEnv c t
    let r := resolve c (laneNums (e.active h)) (globalVa e a off) sz.bytes .store t
    let inTx := txLanes e.wp
    let (txp, parts) := r.parts.partition (fun x => inTx.getLsbD x.1)
    let stores := parts.map (fun x => (x.1, x.2.2, storeData sz e.wp d x.1))
    if rowStall e.wp c (rowLanes parts) || weakStall e.wp sz.bytes parts then t else
    let made : HeldRelease :=
      if stores.isEmpty then .ready r.st 0
      else if sem = .rel then carriedRelease c.block c.warp msc c.pc stores none r.st
      else match makeStores c.block c.warp c.iw c.ew false stores r.st with
        | some u => .ready u 0
        | none => .wait (stallOnTable c.block t)
    match made with
    | .wait u => u
    | .ready u _ =>
      let t1 := txp.foldl (fun v x => txStore c x.1 x.2.2 (storeData sz e.wp d x.1) v) u
      let aborted := partLanes txp &&& ~~~txLanes (warpD t1 c.block c.warp)
      let good := c.group &&& ~~~faultLanes r.faults &&& ~~~aborted
      laneFaults h c r.faults (endWordTo h c good (fun _ => c.pc + wordLen h) t1)) s

/-! ### LDS and STS (R179) -/

/-- The scratchpad is read at issue; the registers are written when the result returns (R38). -/
def execLds (h : Hdr) (strong : Bool) (sz : Size) (sem : Sem) (msc : Msc) (d : Name) (a : ASrc) (off : BitVec 20)
    (s : State) :=
  let i := Instr.lds h strong sz sem msc d a off
  runWord i h (fun c t =>
    let e := laneEnv c t
    let r := resolveScratch c (laneNums (e.active h)) (scratchVa e a off) sz.bytes false t
    if weakStall e.wp sz.bytes r.parts then t else
    let vals := r.parts.flatMap (fun x => loadVals d x.1 (loadRegs sz (scratchRead t c.block x.2.1 sz.bytes)))
    let t1 := if r.parts.isEmpty then t else
      addOut c.block c.warp (fun k => { blankOut i c k with lanes := partLanes r.parts, vals := vals }) t
    let t2 := if sem = .acq && !r.parts.isEmpty then acquireNow c.block c.warp msc t1 else t1
    laneFaults h c r.faults (endWordTo h c (c.group &&& ~~~faultLanes r.faults) (fun _ => c.pc + wordLen h) t2)) s

/-- R413: the writes of a word would bring the open interval above 64 undo granules. -/
def needsCheckpoint (s : State) (id : BlockId) (offs : List (Nat × Nat)) : Bool :=
  let b := blockD s id
  (launchD s id.lid).rb &&
    decide (64 < (offs.foldl (fun g x => (newGranules b x.1 x.2).foldl insertNat g) []).length + b.rb.undo.granules.length)

/-- R413: the word waits at issue for a checkpoint. -/
def askCheckpoint (id : BlockId) (s : State) : State := modBlock id (fun b => { b with rb := { b.rb with want := true } }) s

def execSts (h : Hdr) (strong : Bool) (sz : Size) (sem : Sem) (msc : Msc) (d : Name) (a : ASrc) (off : BitVec 20)
    (s : State) :=
  runWord (.sts h strong sz sem msc d a off) h (fun c t =>
    let e := laneEnv c t
    let r := resolveScratch c (laneNums (e.active h)) (scratchVa e a off) sz.bytes true t
    let stores := r.parts.map (fun x => (x.1, x.2.2, storeData sz e.wp d x.1))
    if weakStall e.wp sz.bytes r.parts then t else
    if needsCheckpoint t c.block (r.parts.map (fun x => (x.2.1, sz.bytes))) then askCheckpoint c.block t else
    let made : HeldRelease :=
      if stores.isEmpty then .ready t 0
      else if sem = .rel then carriedRelease c.block c.warp msc c.pc stores none t
      else match makeStores c.block c.warp c.iw c.ew false stores t with
        | some u => .ready u 0
        | none => .wait t
    match made with
    | .wait u => u
    | .ready u _ =>
      laneFaults h c r.faults (endWordTo h c (c.group &&& ~~~faultLanes r.faults) (fun _ => c.pc + wordLen h) u)) s

/-! ### FENCE (R181) -/

def execFence (h : Hdr) (sem : Sem) (msc : Msc) (s : State) :=
  runWord (.fence h sem msc) h (fun c t =>
    if (laneEnv c t).active h = 0 then endWord h c t else
    match sem with
    | .none => endWord h c t
    | .acq => endWord h c (acquireNow c.block c.warp msc t)
    | .rel => match carriedRelease c.block c.warp msc c.pc [] none t with
      | .ready u _ => endWord h c u
      | .wait u => u
    | .ar => match heldRelease c.block c.warp msc c.pc t with
      | .ready u _ => endWord h c (acquireNow c.block c.warp msc u)
      | .wait u => u) s

/-! ### SLD and SST (R182) -/

/-- R182: the address of a uniform access. -/
def uniAddr (e : Env) (sp : Bool) (a : Name) (off : BitVec 20) : Nat :=
  if sp then ((uniVal e a 0).setWidth 32 + off.signExtend 32).toNat else (uniVal e a 0 + off.signExtend 64).toNat

/-- R169: the place of a uniform access. -/
def uniPlace (c : Cur) (sp : Bool) (va n : Nat) (acc : Access) (s : State) : Except Nat (Place × State) :=
  if sp then
    match scratchAccess (launchD s c.block.lid) va n n with
    | .error k => .error k
    | .ok p => .ok (p, s)
  else
    let core := (blockD s c.block).core
    match translate s core (blockCtx s c.block) va n n acc with
    | .error k => .error k
    | .ok (p, t) => .ok (p, fillTlb core t s)

/-- R38, R137, R153: the variable-latency result of a G-word for its guard-true members: outstanding at sub-warp scope,
written in every member by the single execution of a wider one. -/
def setMembersS (h : Hdr) (d : Name) (v : BitVec 64) (c : Cur) (s : State) : State :=
  onMembers h (fun e wp => if c.single.isSome then wp.setS d v else wp.addLate c e.lanes [.uni d v]) c s

/-- R38, R153: the fixed-latency result of a G-word for its guard-true members: written as the word ends. -/
def putMembersS (h : Hdr) (d : Name) (v : BitVec 64) (c : Cur) (s : State) : State :=
  onMembers h (fun _ wp => wp.setS d v) c s

/-- The other members of a wider-scope access count its result too, until it returns (R40). -/
def mirrorOut (i : Instr) (c : Cur) (lead n : Nat) (ws : List Nat) (s : State) : State :=
  (ws.filter (· != lead)).foldl (fun t w =>
    addOut c.block w (fun k => { blankOut i c k with lead := some (lead, n) }) t) s

/-- R137, R182, R470: a global access is outstanding; at a wider scope every member waits for its result. -/
def execSld (h : Hdr) (b32 strong sp : Bool) (sem : Sem) (msc : Msc) (d a : Name) (off : BitVec 20) (s : State) :=
  let i := Instr.sld h b32 strong sp sem msc d a off
  runWord i h (fun c t =>
    match leadOf h t c with
    | none => endWord h c t
    | some e =>
      let n := if b32 then 4 else 8
      let va := uniAddr e sp a off
      match uniPlace c sp va n .load t with
      | .error cls => uniFault h c cls va false t
      | .ok (.scratch o, u) =>
        if uniStall t c (.scratch o) n then t else
        let v := BitVec.ofNat 64 (leNat (scratchRead u c.block o n))
        endWord h c (if sem = .acq then acquireMembers h msc c (setMembersS h d v c u) else setMembersS h d v c u)
      | .ok (p, u) =>
        if rowStall e.wp c (if p.isRow then e.lanes else 0) then t else
        let ws := (gMembers h t c).map (·.w)
        let u1 := endWord h c (mirrorOut i c e.w e.wp.nextOut ws (addOut c.block e.w (fun k =>
          { blankOut i c k with lanes := errorLanes e, parts := [(0, va, p)], members := ws }) u))
        if sem = .acq || c.single.isSome then holdWarps c.block ws i c.pc e.wp.nextOut u1 else u1) s

/-- R182: after the rendezvous, each member's release of device scope or wider covers the store too. -/
def memberReleases (c : Cur) (ws : List Nat) (m : Msc) (s : State) : State :=
  ws.foldl (fun t w => relAdvance c.block w (setRel c.block w (some
    { msc := m, phase := .acks, pc := c.pc, iw := c.iw, ew := c.ew, holds := false, carried := false, stores := [], out := none, acq := none, epoch := 0 }) t)) s

def execSst (h : Hdr) (b32 strong sp : Bool) (sem : Sem) (msc : Msc) (d a : Name) (off : BitVec 20) (s : State) :=
  runWord (.sst h b32 strong sp sem msc d a off) h (fun c t =>
    match leadOf h t c with
    | none => endWord h c t
    | some e =>
      let n := if b32 then 4 else 8
      let va := uniAddr e sp a off
      match uniPlace c sp va n .store t with
      | .error cls => uniFault h c cls va true t
      | .ok (p, u) =>
        if uniStall t c p n || rowStall e.wp c (if p.isRow then e.lanes else 0) then t else
        if sp && needsCheckpoint t c.block [(va, n)] then askCheckpoint c.block t else
        let store := [(0, p, leBytes n (e.wp.sreg d).toNat)]
        let wide := c.single.isSome
        let made : HeldRelease :=
          if sem = .rel && !wide then carriedRelease c.block c.warp msc c.pc store none u
          else match makeStores c.block e.w c.iw c.ew (sem = .rel && (launchD u c.block.lid).rb && msc != .b) store u with
            | some v => .ready v 0
            | none => .wait (stallOnTable c.block t)
        match made with
        | .wait v => v
        | .ready v _ =>
          if wide && sem = .rel && decide (2 ≤ mscRank msc) then
            memberReleases c ((gMembers h t c).map (·.w)) msc (endWord h c v)
          else endWord h c v) s

/-! ### PREF, CCTL and IXCTL (R183) -/

/-- The lines of a virtual range that a prefetch reaches: addresses rising, one a line, up to the first fault. -/
def prefLines (va len : Nat) : List Nat :=
  if len = 0 then [] else
    (List.range ((va + len - 1) / 128 - va / 128 + 1)).map (fun i => max va ((va / 128 + i) * 128))

/-- Does `f` for each line of a range until one would fault. -/
def prefEach (c : Cur) (va len : Nat) (f : Place → State → State) (s : State) : State :=
  ((prefLines va len).foldl (fun (acc : Bool × State) x =>
    if !acc.1 then acc else
    let core := (blockD acc.2 c.block).core
    match translate acc.2 core (blockCtx acc.2 c.block) x 1 1 .load with
    | .error _ => (false, acc.2)
    | .ok (p, t) => (true, f p (fillTlb core t acc.2))) (true, s)).2

/-- The entry of a line into the cluster index cache, from HBM (R175). -/
def prefEntry (c : Cur) (p : Place) (s : State) : State :=
  match p with
  | .log la _ => clusterIxPut (blockD s c.block).cluster (la / 128) (ixEntry s (la / 128)) s
  | _ => s

def prefWord (i : Instr) (h : Hdr) (a b : Name) (off : BitVec 20) (f : Cur → Place → State → State) (s : State) :
    Host.Outcome State Fault Refusal :=
  runWord i h (fun c t =>
    endWord h c (match leadOf h t c with
      | none => t
      | some e =>
        prefEach c (uniVal e a 0 + off.signExtend 64).toNat (min (uniVal e b 0).toNat 0x100000) (f c) t)) s

/-- R183: a line into the cluster cache, as it stands installed; NC pages and remote pages are cached nowhere there. -/
def prefCluster (c : Cur) (p : Place) (s : State) : State :=
  let core := (blockD s c.block).core
  match p with
  | .fixed pa false ks => (fixedLine core pa ks false s).st
  | .log la ks =>
    let e := ixEntry s (la / 128)
    let t := prefEntry c p s
    if e = 0 || isHomeEntry e || !entryOk s (la / 128) e then t else (positionLine core (la / 128) e ks t).st
  | p => prefEntry c p s

def execPrefCc (h : Hdr) (a b : Name) (off : BitVec 20) (s : State) :=
  prefWord (.prefCc h a b off) h a b off prefCluster s

def execPrefL1 (h : Hdr) (a b : Name) (off : BitVec 20) (s : State) :=
  prefWord (.prefL1 h a b off) h a b off (fun c p t => match p with
    | .fixed _ true _ => t
    | _ => (readLine c.block p false true (prefCluster c p t)).st) s

def execPrefIx (h : Hdr) (a b : Name) (off : BitVec 20) (s : State) :=
  prefWord (.prefIx h a b off) h a b off prefEntry s

/-- A control word of the issuing warp's core. -/
def coreWord (i : Instr) (h : Hdr) (f : Cur → Env → State → State) (s : State) : Host.Outcome State Fault Refusal :=
  runWord i h (fun c t => match leadOf h t c with
    | none => endWord h c t
    | some e => f c e t) s

def execCctlL1inv (h : Hdr) (s : State) :=
  coreWord (.cctlL1inv h) h (fun c _ t => endWord h c (modCore (blockD t c.block).core (fun k => { k with l1 := [] }) t)) s

/-- Pages of a virtual range: each piece's address and length. -/
def pagePieces (va len : Nat) : List (Nat × Nat) :=
  if len = 0 then [] else
    (List.range ((va + len - 1) / 8192 - va / 8192 + 1)).map (fun i =>
      let lo := max va ((va / 8192 + i) * 8192)
      (lo, min (va + len) ((va / 8192 + i + 1) * 8192) - lo))

/-- R183: translates every page of a range; the first fault, or the places with their lengths. -/
def rangePieces (c : Cur) (va len : Nat) (s : State) : Except (Nat × Nat) (List (Place × Nat)) :=
  let core := (blockD s c.block).core
  (pagePieces va len).foldl (fun acc x => match acc with
    | .error e => .error e
    | .ok l => match translate s core (blockCtx s c.block) x.1 x.2 1 .load with
      | .error k => .error (k, x.1)
      | .ok (p, _) => .ok (l ++ [(p, x.2)])) (.ok [])

/-- R183: a word over a virtual range of at most 1 GiB. -/
def rangeWord (i : Instr) (h : Hdr) (a b : Name) (f : Cur → List (Place × Nat) → State → State) (s : State) :
    Host.Outcome State Fault Refusal :=
  coreWord i h (fun c e t =>
    let va := (uniVal e a 0).toNat
    let len := (uniVal e b 0).toNat
    if 0x40000000 < len then wordTrap c h c.group 0x01 0x08 0 0 t
    else match rangePieces c va len t with
      | .error (cls, x) => uniFault h c cls x false t
      | .ok ps => endWord h c (f c ps t)) s

/-- Whether a line number of a kind lies in one of the pieces. -/
def inPieces (ps : List (Place × Nat)) (fix : Bool) (line : Nat) : Bool :=
  ps.any (fun x => match x.1 with
    | .fixed pa _ _ => fix && decide (pa / 128 ≤ line) && decide (line * 128 < pa + x.2)
    | .log la _ => !fix && decide (la / 128 ≤ line) && decide (line * 128 < la + x.2)
    | _ => false)

def execCctlFxinv (h : Hdr) (a b : Name) (s : State) :=
  rangeWord (.cctlFxinv h a b) h a b (fun c ps t =>
    let core := (blockD t c.block).core
    modCore core (fun k => { k with l1 := k.l1.filter (fun x => !(x.kind == 1 && inPieces ps true x.key)) })
      (modCluster (core / 8) (fun k => { k with fixed := k.fixed.filter (fun x => !inPieces ps true (x.1 / 128)) }) t)) s

/-- R183: the cluster's pending lines are appended and stay pending. -/
def appendPendings (cl : Nat) (s : State) : State :=
  (clusterD s cl).pend.foldl (fun t p =>
    if isHomeEntry (ixEntry t p.line) then t else
    match appendPending cl p t with
    | none => noteLogFull t
    | some (pos, u) => modCluster cl (fun k => { k with pend := k.pend.map (fun q =>
        if q.line = p.line then { q with appended := some (pos, ixEntry u p.line) } else q) }) u) s

def execCctlAppend (h : Hdr) (s : State) :=
  coreWord (.cctlAppend h) h (fun c _ t => endWord h c (appendPendings (blockD t c.block).cluster t)) s

/-- R183: an entry read from HBM; another device's entry is a free value (log entry 9, DESIGN CHOICE). -/
def execIxctlQuery (h : Hdr) (d a : Name) (off : BitVec 20) (s : State) :=
  coreWord (.ixctlQuery h d a off) h (fun c e t =>
    let va := (uniVal e a 0 + off.signExtend 64).toNat
    match uniPlace c false va 1 .load t with
    | .error cls => uniFault h c cls va false t
    | .ok (p, u) =>
      let (v, u1) : BitVec 64 × State := match p with
        | .log la _ => ((ixEntry u (la / 128)).setWidth 64, u)
        | .remote _ la => if la < 2 ^ 60 then (Config.free64 u.draws, { u with draws := u.draws + 1 }) else (0, u)
        | _ => (0, u)
      endWord h c (setMembersS h d v c u1)) s

def execIxctlDrop (h : Hdr) (a b : Name) (s : State) :=
  rangeWord (.ixctlDrop h a b) h a b (fun c ps t =>
    let core := (blockD t c.block).core
    let keep (l : List (Nat × BitVec 32)) := l.filter (fun x => !inPieces ps false x.1)
    modCore core (fun k => { k with ix := keep k.ix }) (modCluster (core / 8) (fun k => { k with ix := keep k.ix }) t)) s

def execIxctlUnhome (h : Hdr) (a : Name) (off : BitVec 20) (s : State) :=
  coreWord (.ixctlUnhome h a off) h (fun c e t =>
    let va := (uniVal e a 0 + off.signExtend 64).toNat
    match uniPlace c false va 1 .store t with
    | .error cls => uniFault h c cls va true t
    | .ok (.log la _, u) =>
      let u1 := unhomeLines (homeSliceOf (la / 128)) [la / 128] u
      -- with no free segment the unhoming publish has not been made: the word waits
      if (aget u1.homes (la / 128)).isSome then u1 else endWord h c u1
    | .ok (_, u) => endWord h c u) s

end Sys2Proof.Machine
end

