-- ==== Sys2Proof/Machine/Atomics.lean ====
section
/-!
DEFINITION. Machine/Atomics.lean: atomics and where they are performed (R198 to R208), WAITA (R209, R210), SFLUSH and the
deterministic atomic buffer with its drains (R222 to R225, R473), CLK (R229).
-/
namespace Sys2Proof.Machine

/-! ### What an atomic computes (R204) -/

def AtomTy.bits (t : AtomTy) : Nat := 32 * t.regs

def atomNew (op : AtomOp) (ty : AtomTy) (old b cmp : Nat) : Nat :=
  let n := 32 * ty.regs
  let lt (x y : Nat) : Bool := if ty.signed then decide (intVal x n true < intVal y n true) else decide (x < y)
  match op with
  | .add => (old + b) % 2 ^ n
  | .min => if lt b old then b else old
  | .max => if lt old b then b else old
  | .and => old &&& b
  | .or => old ||| b
  | .xor => old ^^^ b
  | .xchg => b
  | .cas => if old = cmp then b else old
  | .inc => if b ≤ old then 0 else old + 1
  | .dec => if old = 0 || b < old then b else old - 1
  | .fadd => (f32Add .rne (BitVec.ofNat 32 old) (BitVec.ofNat 32 b)).toNat
  | .fmin => (f32MinMax false false (BitVec.ofNat 32 old) (BitVec.ofNat 32 b)).toNat
  | .fmax => (f32MinMax true false (BitVec.ofNat 32 old) (BitVec.ofNat 32 b)).toNat

/-! ### Execution sites (R198) -/

/-- R198: the execution site an atomic of memory scope `m` chooses at issue: 0 scratchpad, 1 home slice, 2 controller,
3 home device, 4 core atomic unit, 5 cluster atomic unit. -/
def atomSite (s : State) (p : Place) (m : Msc) : Nat :=
  match p with
  | .scratch _ => 0
  | .log la _ =>
    if (aget s.homes (la / 128)).isSome then 1
    else match m with | .b => 4 | .cl => 5 | _ => 1
  | .fixed _ nc _ => if nc then 2 else match m with | .b => 4 | _ => 2
  | .remote .. => 3

/-- How an atomic ends at its site. -/
inductive AtomEnd where
  | done (old : Nat) (s : State)
  | error (pa : Nat) (s : State)
  | stall (s : State)

/-- Drops the issuing core's L1 copy of a place: an atomic is a strong access (R178, R202). -/
def dropL1 (core : Nat) (p : Place) (s : State) : State :=
  match l1Key p with
  | none => s
  | some (kind, key) => modCore core (fun k => { k with l1 := k.l1.filter (fun x => !x.is kind key) }) s

/-- R198: the copy at the core atomic unit, fetched as a load would when it is absent; none on an uncorrectable
sector. -/
def takeCopy (id : BlockId) (p : Place) (len : Nat) (s : State) : Option Nat × State :=
  let core := (blockD s id).core
  let owner := copyOwner s id
  let fetch (fixed : Bool) (key ks : Nat) (r : Read) : Option Nat × State :=
    if r.poison &&& sectorsHit (p.addr % 128) len ≠ 0 then (some r.pa, r.st)
    else (none, modCore core (fun k => { k with atoms := k.atoms ++
      [{ key := key, fixed := fixed, ks := ks, data := r.data, mask := 0, stale := false, owner := owner }] }) r.st)
  match p with
  | .log la ks =>
    if (findCopy s id false (la / 128)).isSome then (none, freshCopy id false (la / 128) ks false s)
    else fetch false (la / 128) ks (logLine id (la / 128) ks true s)
  | .fixed pa nc ks =>
    if (findCopy s id true (pa / 128)).isSome then (none, freshCopy id true (pa / 128) ks nc s)
    else fetch true (pa / 128) ks (fixedLine core pa ks nc s)
  | _ => (none, s)

/-- An atomic at the core atomic unit. -/
def atomCore (id : BlockId) (p : Place) (len : Nat) (f : Nat → Nat) (s : State) : AtomEnd :=
  match takeCopy id p len s with
  | (some pa, t) => .error pa t
  | (none, t) =>
    let fixed := match p with | .fixed .. => true | _ => false
    match findCopy t id fixed (p.addr / 128) with
    | none => .error 0 t
    | some a =>
      let off := p.addr % 128
      let old := leNat (lineBytes a.data off len)
      .done old (modCore (blockD t id).core (fun k => { k with atoms := k.atoms.map (fun x =>
        if x.key == a.key && x.fixed == a.fixed && x.owner == a.owner
        then { x with data := putLine x.data off (leBytes len (f old)), mask := x.mask ||| maskOf off len } else x) }) t)

/-- An atomic on the cluster's pending line. -/
def atomCluster (id : BlockId) (n ks off len : Nat) (f : Nat → Nat) (s : State) : AtomEnd :=
  let b := blockD s id
  let r : Read := match (clusterD s b.cluster).pend.find? (fun p => p.line == n) with
    | some p => { data := p.data, poison := p.poison, pa := 0, st := s }
    | none => indexedLine b.core n ks true s
  if r.poison &&& sectorsHit off len ≠ 0 then .error r.pa r.st else
  let old := leNat (lineBytes r.data off len)
  match pendStore b.core n ks off (leBytes len (f old)) (launchD s id.lid).rb r.st with
  | .made t => .done old t
  | .error pa t => .error pa t
  | .stall t => .stall t

/-- An atomic at the home slice, which takes the line first if it is not home-held (R200). -/
def atomHome (id : BlockId) (n ks off len : Nat) (f : Nat → Nat) (s : State) : AtomEnd :=
  let bad := if (aget s.homes n).isSome then 0 else (decryptLine s (installedLine s n) ks).poison
  if bad &&& sectorsHit off len ≠ 0 then .error (installedLine s n).pa s else
  let (homed, t) := homeLine (blockD s id).cluster n ks s
  match homed, aget t.homes n with
  | true, some h =>
    let old := leNat (lineBytes h.data off len)
    .done old (bumpWatches [n] (touchHome n (writeHome n (bytesLine off (leBytes len (f old))) (maskOf off len) t)))
  | _, _ => .stall t

/-- An atomic at the controller, in place. -/
def atomFixed (id : BlockId) (pa len : Nat) (nc : Bool) (ks : Nat) (f : Nat → Nat) (s : State) : AtomEnd :=
  let (ok, t) := adoptRow pa s
  let r := fixedFromHbm t pa ks
  if !ok || (r.2 &&& sectorsHit (pa % 128) len ≠ 0) then .error pa t else
  let old := leNat (lineBytes r.1 (pa % 128) len)
  match fixedStore (blockD s id).core pa nc ks (leBytes len (f old)) t with
  | .made u => .done old u
  | .error a u => .error a u
  | .stall u => .stall u

/-- R198, R201: performs one atomic at its site. A remote device's answer is free (log entry 9, DESIGN CHOICE). -/
def atomAt (id : BlockId) (k : AtomSpec) (site : Nat) (p : Place) (b cmp : BitVec 64) (s : State) : AtomEnd :=
  let len := k.ty.regs * 4
  let f (old : Nat) : Nat := atomNew k.op k.ty old (b.toNat % 2 ^ (8 * len)) (cmp.toNat % 2 ^ (8 * len))
  let core := (blockD s id).core
  let s := dropL1 core p s
  match p with
  | .scratch off =>
    let old := leNat (scratchRead s id off len)
    .done old (scratchWrite id off (leBytes len (f old)) s)
  | .log la ks =>
    if site = 4 then atomCore id p len f s
    else if site = 5 then atomCluster id (la / 128) ks (la % 128) len f s
    else atomHome id (la / 128) ks (la % 128) len f s
  | .fixed pa nc ks => if site = 4 then atomCore id p len f s else atomFixed id pa len nc ks f s
  | .remote dev la =>
    .done (leNat ((List.range len).map (fun i => Config.remoteByte dev (la + i) s.draws)))
      { s with draws := s.draws + 1, nextRemote := s.nextRemote + 1,
               out := s.out ++ [.remoteAtomic dev la k.op k.ty b cmp] }

/-! ### An atomic word's entries -/

/-- R206: operand and comparand of a lane. -/
def atomOperands (k : AtomSpec) (wp : Warp) (b : Name) (l : Nat) : BitVec 64 × BitVec 64 :=
  let get (n : Name) : BitVec 64 := if k.ty.regs = 2 then wp.reg64 n l else (wp.reg n l).setWidth 64
  if k.op = .cas then (get (b + BitVec.ofNat 7 k.ty.regs), get b) else (get b, 0)

/-- R203: the address of a lane of an atomic. -/
def atomVa (e : Env) (k : AtomSpec) (a : ASrc) (l : Nat) : Nat :=
  if k.sp then scratchVa e a (k.off.signExtend 20) l else globalVa e a (k.off.signExtend 20) l

/-- R204, R208: the result written for an old value. -/
def atomResult (k : AtomSpec) (old : Nat) : BitVec 64 :=
  if k.ty.regs = 1 && k.ty.signed then BitVec.ofInt 64 (intVal old 32 true) else BitVec.ofNat 64 old

/-- What a word says of its atomic, if it is one. -/
def atomSpecOf : Instr → Option AtomSpec
  | .atom _ k .. | .red _ k .. | .satom _ k .. => some k
  | _ => none

/-- R205: writes an atomic's result where its word says. -/
def writeAtomResult (o : Outst) (k : AtomSpec) (id : BlockId) (w l old : Nat) (s : State) : State :=
  match o.instr with
  | .atom _ _ d _ _ => modWarp id w (fun wp =>
      if k.ty.regs = 2 then wp.setReg64 d l (BitVec.ofNat 64 old) else wp.setReg d l (BitVec.ofNat 32 old)) s
  | .satom _ _ d _ _ => o.members.foldl (fun t m => modWarp id m (fun wp => wp.setS d (atomResult k old)) t) s
  | _ => s

/-- The i-th lane of an atomic: place, site, operand and comparand. -/
def outLane (o : Outst) (i : Nat) : Option (Nat × Place × Nat × BitVec 64 × BitVec 64) :=
  match o.parts[i]?, o.sites[i]?, o.ops[i]? with
  | some (l, _, p), some site, some (_, b, cmp) => some (l, p, site, b, cmp)
  | _, _, _ => none

/-- R185: a home device has received an atomic of the warp. -/
def noteHome (id : BlockId) (w : Nat) (p : Place) (s : State) : State :=
  match p with
  | .remote dev _ => modWarp id w (fun wp => { wp with remoteHomes := insertNat wp.remoteHomes dev }) s
  | _ => s

/-- R205, R207: performs an outstanding atomic's lanes in ascending lane order, as one run; `.error` with the state found
when one must stall. With `failed` the transactions to home devices have failed (R433). -/
def performOut (id : BlockId) (w : Nat) (o : Outst) (k : AtomSpec) (failed : Bool) (s : State) : Except State State :=
  (List.range o.parts.length).foldl (fun acc i =>
    match acc, outLane o i with
    | .ok t, some (l, p, site, b, cmp) =>
      if failed && p.isRemote then .ok (dueData id w (o.errLanes l) o.errPc (some o.id) o.iw o.ew 0 t) else
      match atomAt id k site p b cmp t with
      | .done old u => .ok (noteHome id w p (writeAtomResult o k id w l old u))
      | .error pa u => .ok (dueData id w (o.errLanes l) o.errPc (some o.id) o.iw o.ew pa u)
      | .stall u => .error u
    | a, _ => a) (.ok s)

/-! ### The deterministic buffer (R222 to R224) -/

/-- R222: the next sequence number of a lane. -/
def nextSeq (wp : Warp) (l : Nat) : Nat := (aget wp.seqs l).getD 0

/-- R222: an entry for one lane of an atomic. -/
def Warp.buffer (lane : Nat) (o : Outst) (wp : Warp) : Warp :=
  let q := nextSeq wp lane
  { wp with det := wp.det ++ [{ lane := lane, seq := q, out := o, commit := false }], seqs := aset wp.seqs lane (q + 1) }

/-- R222: the commit request of a warp sorts at lane 0 and the sequence number that its last TXE took. -/
def Warp.bufferCommit (pc : BitVec 53) (wp : Warp) : Warp :=
  let o : Outst :=
    { id := wp.nextOut, pc := pc, iw := 0, ew := 0, instr := noWord, lanes := 0, parts := [], ops := [], sites := [],
      members := [], vals := [], lead := none }
  { wp with det := wp.det ++ [{ lane := 0, seq := (wp.tx.map (·.key)).getD 0, out := o, commit := true }],
            nextOut := wp.nextOut + 1 }

/-- R224: the least key among the entries of some warps: warp, lane, sequence. -/
def leastEntry (s : State) (id : BlockId) (ws : List Nat) : Option (Nat × DetEntry) :=
  (ws.flatMap (fun w => (warpD s id w).det.map (fun d => (w, d)))).foldl (fun o x => match o with
    | none => some x
    | some y =>
      if x.1 < y.1 || (x.1 == y.1 && (x.2.lane < y.2.lane || (x.2.lane == y.2.lane && x.2.seq < y.2.seq)))
      then some x else some y) none

/-- A result is no longer outstanding, in its warp or in the other members of its word. -/
def dropOut (id : BlockId) (w n : Nat) (s : State) : State :=
  modBlock id (fun b => { b with warps := b.warps.mapIdx (fun i wp =>
    { wp with outs := wp.outs.filter (fun o => !(i == w && o.id == n) && o.lead != some (w, n)) }) }) s

/-- An entry leaves the buffer; its result stops being outstanding when no other entry of its word is left. -/
def dropEntry (id : BlockId) (w : Nat) (d : DetEntry) (s : State) : State :=
  let t := modWarp id w (fun wp =>
    { wp with det := wp.det.filter (fun x => !(x.lane == d.lane && x.seq == d.seq)) }) s
  if (warpD t id w).det.any (fun x => x.out.id == d.out.id) then t else dropOut id w d.out.id t

/-- R473: the warp that takes an error of warp `w`: itself, or, once it has ended, the lowest that has not. -/
def errorWarp (s : State) (id : BlockId) (w : Nat) : Nat :=
  if (warpD s id w).ended then
    ((blockD s id).warps.findIdx? (fun x => !x.ended && !x.allExited)).getD w
  else w

/-- R473: an error that a drain delivers, due in the entry's lane. -/
def drainError (id : BlockId) (w : Nat) (d : DetEntry) (cause sub addr : Nat) (s : State) : State :=
  modWarp id (errorWarp s id w) (fun wp => { wp with due := wp.due ++
    [{ lanes := 1#32 <<< d.lane, pc := none, out := none, cause := cause, sub := sub, aux := if cause = 4 then 1 else 0, addr := addr, iw := d.out.iw,
       ew := d.out.ew, rollback := decide (cause = 0x0A) }] }) s

/-- R473: the place of an entry as the page tables stand now. -/
def entryPlace (s : State) (id : BlockId) (k : AtomSpec) (part : Nat × Nat × Place) : Except Nat Place :=
  match part.2.2 with
  | .scratch o => .ok (.scratch o)
  | _ => (translate s (blockD s id).core (blockCtx s id) part.2.1 (4 * k.ty.regs) (4 * k.ty.regs) (.atomic k.msc)).map (·.1)

/-- R222: the entry's `.REL` has not been performed, so it may not leave yet (R202). -/
def relHolds (wp : Warp) (n : Nat) : Bool := wp.rel.any (fun r => r.out == some n)

/-- R433: whether a drained atomic's transaction to its home device fails is free (log entry 9, DESIGN CHOICE). -/
def drainFails (s : State) (p : Place) : Bool := p.isRemote && (Config.free64 s.draws).getLsbD 0

/-- One entry of a drain (R224, R473); none when the drain must wait. -/
def drainOne (id : BlockId) (w : Nat) (d : DetEntry) (s : State) : Option State :=
  if relHolds (warpD s id w) d.out.id then none else
  if d.commit then
    match heldRelease id w .dv d.out.pc s with
    | .wait _ => none
    | .ready t _ => (commitTx id w t).map (dropEntry id w d)
  else match atomSpecOf d.out.instr, d.out.parts.head?, d.out.ops.head? with
    | some k, some part, some (_, b, cmp) =>
      match entryPlace s id k part with
      | .error cls =>
        if (cls == 5 || cls == 6) && !(launchD s id.lid).super then none
        else some (dropEntry id w d (drainError id w d 0x04 cls part.2.1 s))
      | .ok p =>
        if drainFails s p then
          some (dropEntry id w d (drainError id w d 0x0A 0 part.2.1 { s with draws := s.draws + 1 })) else
        match atomAt id k (atomSite s p k.msc) p b cmp s with
        | .done old t =>
          let t1 := noteHome id w p (writeAtomResult d.out k id w d.lane old t)
          let t2 := if k.sem = .acq || k.sem = .ar then
              (if d.out.members.isEmpty then [w] else d.out.members).foldl (fun u m => acquireNow id m k.msc u) t1
            else t1
          some (dropEntry id w d t2)
        | .error _ t => some (dropEntry id w d (drainError id w d 0x0A 0 part.2.1 t))
        | .stall _ => none
    | _, _, _ => some (dropEntry id w d s)

/-- R473: a drain that met a fault for the fault queue posts it, once. -/
def drainWait (id : BlockId) (w : Nat) (d : DetEntry) (s : State) : State :=
  if d.commit then
    match heldRelease id w .dv d.out.pc s with
    | .wait t => t
    | .ready _ _ => s
  else match atomSpecOf d.out.instr, d.out.parts.head?, blockCtx s id with
    | some k, some part, some ctx =>
      match entryPlace s id k part with
      | .error cls =>
        if (warpD s id w).parks.any (fun p => p.lane == 33) then s else
        let (tok, t) := postFault ctx part.2.1 cls 0 true id s
        modWarp id w (fun wp => { wp with parks := wp.parks ++
          [{ lane := 33, token := some tok, va := part.2.1, cls := cls, store := true, since := s.clock }] }) t
      | .ok _ => s
    | _, _, _ => s

/-- R224: drains the entries of some warps of a block in key order; false when it has to wait with entries left. -/
def drain (id : BlockId) (ws : List Nat) : Nat → State → State × Bool
  | 0, s => (s, (leastEntry s id ws).isNone)
  | fuel + 1, s =>
    match leastEntry s id ws with
    | none => (s, true)
    | some (w, d) =>
      if (warpD s id w).parks.any (fun p => p.lane == 33) then (s, false) else
      match drainOne id w d s with
      | some t => drain id ws fuel t
      | none => (drainWait id w d s, false)

/-- A drain of the entries of some warps, which the block notes while it has to wait. -/
def drainSome (id : BlockId) (ws : List Nat) (s : State) : State × Bool :=
  let r := drain id ws ((ws.map (fun w => (warpD s id w).det.length)).sum) s
  (modBlock id (fun b => { b with draining := if r.2 then none else some ws }) r.1, r.2)

/-- R224: a drain of the block that is not over comes first. -/
def drainAll (id : BlockId) (ws : List Nat) (s : State) : State × Bool :=
  match (blockD s id).draining with
  | some d =>
    let r := drainSome id d s
    if r.2 then drainSome id ws r.1 else r
  | none => drainSome id ws s

/-! ### ATOM, RED and SATOM -/

/-- R222: room in a warp's entries for `n` more: a fuller warp flushes its own first. -/
def drainRoom (id : BlockId) (w n : Nat) (s : State) : State × Bool :=
  if 128 < (warpD s id w).det.length + n then drainAll id [w] s else (s, true)

/-- The outstanding atomic of lanes that translated. -/
def atomOut (i : Instr) (c : Cur) (k : AtomSpec) (e : Env) (b : Name) (parts : List (Nat × Nat × Place)) (s : State) (n : Nat) :
    Outst :=
  { blankOut i c n with
    lanes := partLanes parts, parts := parts, sites := parts.map (fun x => atomSite s x.2.2 k.msc),
    ops := parts.map (fun x => (x.1, (atomOperands k e.wp b x.1).1, (atomOperands k e.wp b x.1).2)) }

/-- R222: each lane's entry. -/
def bufferLanes (o : Outst) (wp : Warp) : Warp :=
  (List.range o.parts.length).foldl (fun w i =>
    match o.parts[i]?, o.ops[i]? with
    | some part, some op => w.buffer part.1 { o with parts := [part], ops := [op] }
    | _, _ => w) wp

/-- R202, R222: the ordering before an atomic word: its release, or its checkpoint. -/
def atomBefore (c : Cur) (k : AtomSpec) (out : Option Nat) (s : State) : HeldRelease :=
  if k.sem = .rel || k.sem = .ar then carriedRelease c.block c.warp k.msc c.pc [] out s
  else if atomCloses s c.block k then
    checkpointFirst c.block c.warp c.pc s
  else .ready s 0

/-- ATOM and RED (R203 to R207). -/
def atomWord (i : Instr) (h : Hdr) (k : AtomSpec) (a : ASrc) (b : Name) (s : State) : Host.Outcome State Fault Refusal :=
  runWord i h (fun c t =>
    let e := laneEnv c t
    let n := k.ty.regs * 4
    let lanes := laneNums (e.active h)
    let r := if k.sp then resolveScratch c lanes (atomVa e k a) n true t else resolve c lanes (atomVa e k a) n (.atomic k.msc) t
    if k.sp && needsCheckpoint t c.block (r.parts.map (fun x => (x.2.1, n))) then askCheckpoint c.block t else
    let det := (launchD t c.block.lid).det
    let good := c.group &&& ~~~faultLanes r.faults
    let finish' (u : State) : State := laneFaults h c r.faults (endWordTo h c good (fun _ => c.pc + wordLen h) u)
    if r.parts.isEmpty then finish' r.st else
    let (t0, room) := if det then drainRoom c.block c.warp r.parts.length r.st else (r.st, true)
    if !room then t0 else
    let num := e.wp.nextOut
    match atomBefore c k (some num) t0 with
    | .wait u => u
    | .ready u _ =>
      let o := atomOut i c k e b r.parts u num
      let u1 := modWarp c.block c.warp (fun wp =>
        let w1 := { wp with nextOut := num + 1, outs := if det && isRed i then wp.outs else wp.outs ++ [o] }
        if det then bufferLanes o w1 else w1) u
      let u2 := if (k.sem = .acq || k.sem = .ar) && !det then holdWarps c.block [c.warp] i c.pc num u1 else u1
      finish' u2) s

def execAtom (h : Hdr) (k : AtomSpec) (d : Name) (a : ASrc) (b : Name) (s : State) :=
  atomWord (.atom h k d a b) h k a b s

def execRed (h : Hdr) (k : AtomSpec) (a : ASrc) (b : Name) (s : State) := atomWord (.red h k a b) h k a b s

/-- R208: operand and comparand of a uniform atomic. -/
def satomOperands (k : AtomSpec) (e : Env) (b : Name) : BitVec 64 × BitVec 64 :=
  if k.op = .cas then (e.wp.sreg (b + 1), e.wp.sreg b) else (e.wp.sreg b, 0)

/-- R208: the outstanding atomic of the lead member, which every other member's result follows. At a wider scope it takes
lane 0; so it does at sub-warp scope, which R222 leaves open (log entry 72, DESIGN CHOICE). -/
def execSatom (h : Hdr) (k : AtomSpec) (d a b : Name) (s : State) :=
  let i := Instr.satom h k d a b
  runWord i h (fun c t =>
    match leadOf h t c with
    | none => endWord h c t
    | some e =>
      let n := k.ty.regs * 4
      let va := uniAddr e k.sp a (k.off.signExtend 20)
      match uniPlace c k.sp va n (.atomic k.msc) t with
      | .error cls => uniFault h c cls va true t
      | .ok (p, t1) =>
        if k.sp && needsCheckpoint t c.block [(va, n)] then askCheckpoint c.block t else
        let det := (launchD t c.block.lid).det
        let (t2, room) := if det then drainRoom c.block e.w 1 t1 else (t1, true)
        if !room then t2 else
        let num := e.wp.nextOut
        let before := if c.single.isSome then HeldRelease.ready t2 0 else atomBefore c k (some num) t2
        match before with
        | .wait u => u
        | .ready u _ =>
          let ws := (gMembers h t c).map (·.w)
          let op := satomOperands k e b
          let o : Outst := { blankOut i c num with
            lanes := errorLanes e, parts := [(0, va, p)], sites := [atomSite u p k.msc], ops := [(0, op.1, op.2)], members := ws }
          let u1 := endWord h c (mirrorOut i c e.w num ws (modWarp c.block e.w (fun wp =>
            let w1 := { wp with nextOut := num + 1, outs := wp.outs ++ [o] }
            if det then w1.buffer 0 o else w1) u))
          if !det && (k.sem = .acq || k.sem = .ar || c.single.isSome) then holdWarps c.block ws i c.pc num u1 else u1) s

/-! ### WAITA (R209, R210) -/

/-- R209, R255: the condition of a wait on an n-bit word. -/
def waitHolds (cond : WaitCond) (n : Nat) (x b : Nat) : Bool :=
  match cond with
  | .eq => x == b
  | .ne => x != b
  | .geu => decide (b ≤ x)
  | .ges => decide (intVal b n true ≤ intVal x n true)
  | .any => x &&& b != 0

/-- A strong 4-byte read of a place by a wait. -/
def waitRead (id : BlockId) (p : Place) (s : State) : Nat × Option Nat × State :=
  let r := loadPlace id p 4 true false s
  (leNat r.1, r.2.1, r.2.2)

/-- R210: one lane's first read: it goes on, sleeps, or meets an uncorrectable sector. -/
inductive WaitEnd where
  | through | asleep | error
  deriving DecidableEq

def waitLane (i : Instr) (cond : WaitCond) (tmo : Nat) (c : Cur) (d : Name) (cmp word : Nat) (x : Nat × Nat × Place) (s : State) :
    WaitEnd × State :=
  match waitRead c.block x.2.2 s with
  | (_, some pa, t) => (.error, dueData c.block c.warp (1#32 <<< x.1) (some c.pc) none c.iw c.ew pa t)
  | (v, none, t) =>
    let t1 := modWarp c.block c.warp (fun wp => wp.setReg d x.1 (BitVec.ofNat 32 v)) t
    if waitHolds cond 32 v cmp then (.through, t1)
    else
      let z : Sleep :=
        { instr := i, pc := c.pc, lanes := 1#32 <<< x.1, place := x.2.2, va := x.2.1, cmp := BitVec.ofNat 64 cmp,
          deadline := if tmo = 0 then none else some (t.clock + 2 ^ (tmo + 9)), since := t.clock,
          last := BitVec.ofNat 64 v, members := [], word := word }
      (.asleep, modWarp c.block c.warp (fun wp => ({ wp with sleeps := wp.sleeps ++ [z] } : Warp).setLanes (1#32 <<< x.1)
        (fun y => { y with st := .asleep })) t1)

/-- R210: the lanes go on past the word. -/
def Warp.goOn (h : Hdr) (m : Lanes) (next : BitVec 53) (wp : Warp) : Warp :=
  (({ wp with marker := wp.marker || h.s } : Warp).setLanes m (fun x => { x with pc := next, st := .running })).meetings

/-- R209, R210: each lane reads its word and goes on or sleeps. The word retires when its last lane goes on (R230, log entry
82, DESIGN CHOICE). -/
def execWaita (h : Hdr) (cond : WaitCond) (sp acq : Bool) (msc : Msc) (tmo : BitVec 4) (d a b : Name) (s : State) :=
  let i := Instr.waita h cond sp acq msc tmo d a b
  runWord i h (fun c t =>
    let e := laneEnv c t
    let lanes := laneNums (e.active h)
    let va (l : Nat) : Nat := if sp then (e.wp.reg a l).toNat else (e.wp.reg64 a l).toNat
    let r := if sp then resolveScratch c lanes va 4 false t else resolve c lanes va 4 .load t
    let (through, stay, t1) := r.parts.foldl (fun (acc : Lanes × Lanes × State) x =>
      let (o, u) := waitLane i cond tmo.toNat c d (e.wp.reg b x.1).toNat e.wp.nextOut x acc.2.2
      match o with
      | .through => (acc.1 ||| (1#32 <<< x.1), acc.2.1, u)
      | _ => (acc.1, acc.2.1 ||| (1#32 <<< x.1), u)) (0#32, 0#32, r.st)
    let good := c.group &&& ~~~faultLanes r.faults &&& ~~~stay
    let asleep := (warpD t1 c.block c.warp).sleeps.any (fun z => z.word == e.wp.nextOut)
    let next := c.pc + wordLen h
    let t2 := if asleep then
        modWarp c.block c.warp (fun wp => ({ wp with nextOut := wp.nextOut + 1 } : Warp).goOn h good next) t1
      else endWordTo h c good (fun _ => next) t1
    let t3 := laneFaults h c r.faults t2
    let t4 := if acq && through ≠ 0 then acquireNow c.block c.warp msc t3 else t3
    if (warpD t4 c.block c.warp).lanes.any (fun x => x.st == .running) then t4 else switchPoint c.block c.warp t4) s

/-! ### SFLUSH and CLK (R225, R229) -/

/-- R225: no atomic of the warp is still to be performed. -/
def atomsQuiet (wp : Warp) : Bool := wp.outs.all (fun o => (atomSpecOf o.instr).isNone)

/-- R223, R225: the warps whose entries an SFLUSH drains: at set scope those of the whole set. -/
def flushWarps (h : Hdr) (c : Cur) (s : State) : List Nat :=
  if (gMembers h s c).isEmpty then [] else scopeWarps s c.block c.warp h.scope h.set.toNat

def execSflush (h : Hdr) (s : State) :=
  runWord (.sflush h) h (fun c t =>
    if (launchD t c.block.lid).det then
      let (u, done) := drainAll c.block (flushWarps h c t) t
      if done then endWord h c u else u
    else if ((gMembers h t c).map (·.w)).all (fun w => atomsQuiet (warpD t c.block w)) then endWord h c t
    else t) s

def execClk (h : Hdr) (d : Name) (s : State) :=
  uniWord (.clk h d) h (fun e wp =>
    wp.setS d (BitVec.ofNat 64 (clkValue (launchD e.s e.c.block.lid) e.wp e.s))) s

def execClkCyc (h : Hdr) (d : Name) (s : State) :=
  uniWord (.clkCyc h d) h (fun e wp => wp.setS d (BitVec.ofNat 64 e.s.clock)) s

end Sys2Proof.Machine
end

