-- ==== Sys2Proof/Machine/MemEvents.lean ====
section
/-!
DEFINITION. Machine/MemEvents.lean: the events of the memory system: results and acknowledgements that return (R22, R23,
R38, R205, R438, R447, R472), publishes (R24, R175, R342), and the checks and time-outs of WAITA (R210).
-/
namespace Sys2Proof.Machine

/-- An event of the device: nothing takes place after a fatal error (R440). -/
def event (f : State → State) (s : State) : Host.Outcome State Fault Refusal :=
  if s.fatal ≠ 0 then .next s else finish (f s)

/-! ### HBM reads behind an access (R22, R438) -/

/-- The HBM address that a read of a place goes to, if no cache or unit nearer holds the line. -/
def fromHbm (s : State) (id : BlockId) (p : Place) (strong : Bool) : Option Nat :=
  let b := blockD s id
  let hit := !strong && match l1Key p with
    | some (kind, key) => (coreD s b.core).l1.any (fun x => x.is kind key)
    | none => false
  if hit then none else
  match p with
  | .log la ks =>
    let n := la / 128
    let tent := (b.rb.tentPrev ++ b.rb.tent).any (fun t => t.line == n && (touchedSectors t.mask).getLsbD (la % 128 / 32))
    if (findCopy s id false n).isSome || tent || (clusterD s b.cluster).pend.any (fun x => x.line == n) then none
    else
      let e := (lookupIx b.core n strong s).1
      if e = 0 || isHomeEntry e || (aget (clusterD s b.cluster).logs (logKey e ks)).isSome then none
      else some (segAddr (entrySeg e) (entrySlot e) + la % 128)
  | .fixed pa nc _ =>
    if (findCopy s id true (pa / 128)).isSome || (!nc && (aget (clusterD s b.cluster).fixed (pa / 128 * 128)).isSome)
    then none else some pa
  | _ => none

/-- What the check bits say of the reads behind the accesses of a word: of each sector of HBM that they read (R438). -/
def eccRead (ecc : Ecc) (id : BlockId) (ps : List Place) (strong : Bool) (s : State) : State :=
  ((ps.filterMap (fun p => (fromHbm s id p strong).map (· / 32))).foldl insertNat []).foldl
    (fun t k => hbmRead ecc (k * 32) t) s

/-- The places of an outstanding result. -/
def Outst.places (o : Outst) : List Place := o.parts.map (·.2.2)

/-- The log lines that an outstanding result reads, for R447. -/
def Outst.logLines (o : Outst) : List Nat := o.places.flatMap Place.line?

/-! ### Results that return -/

/-- A result is no longer outstanding; the warps that its acquire held go on (R38, R470). -/
def closeOut (w : WarpId) (o : Outst) (s : State) : State :=
  modBlock w.block (fun b => { b with warps := b.warps.map (fun wp => match wp.waitOn with
    | some (_, pc, n) => if pc == o.pc && n == o.id then { wp with waitOn := none } else wp
    | none => wp) }) (dropOut w.block w.warp o.id s)

/-- What an access of one lane of a load finds: a consumer of an error takes it, and values come from the others. With
`failed` the access found an injected error, or its home device could not be reached (R433, R447). -/
def loadPart (w : WarpId) (o : Outst) (failed strong fill : Bool) (n : Nat) (val : Nat → List (BitVec 8) → List RegWrite)
    (x : Nat × Nat × Place) (acc : List RegWrite × State) : List RegWrite × State :=
  let due (pa : Nat) (t : State) : State := dueData w.block w.warp (o.errLanes x.1) o.errPc (some o.id) o.iw o.ew pa t
  if failed then (acc.1, due 0 acc.2) else
  let (bs, err, t) := loadPlace w.block x.2.2 n strong fill acc.2
  match err with
  | some pa => (acc.1, due pa t)
  | none => (acc.1 ++ val x.1 bs, t)

/-- R352: the accesses of a result that are strong: all of them with `.ST`, and those of mailbox rows. -/
def Outst.strongAt (o : Outst) (p : Place) : Bool := isStrong o.instr || p.isRow

/-- What a load of memory reads and writes: bytes, whether it fills the L1, and the register writes of a lane. -/
def loadForm : Instr → Option (Nat × Bool × (Nat → List (BitVec 8) → List RegWrite))
  | .ld _ _ z _ _ hint d _ _ => some (z.bytes, hint != .nl1, fun l bs => loadVals d l (loadRegs z bs))
  | .sld _ b32 _ _ _ _ d _ _ => some (if b32 then 4 else 8, true, fun _ bs => [.uni d (BitVec.ofNat 64 (leNat bs))])
  | _ => none

/-- R177, R180, R189: an access of a result has to follow an earlier one of its lanes that is not performed yet. -/
def Outst.waits (o : Outst) (wp : Warp) (x : Nat × Nat × Place) : Bool :=
  let m := o.errLanes x.1
  if o.strongAt x.2.2 then wp.earlier o.id (fun e y => e.byLanes m y)
  else wp.earlier o.id (fun e => e.before m x.2.2 (accessBytes o.instr) true)

/-- R38, R39: the values that are there are written and the result is closed; a machine check writes nothing (R19). -/
def deliver (w : WarpId) (o : Outst) (vals : List RegWrite) (s : State) : State :=
  if s.fatal ≠ 0 then s else
  closeOut w o ((if o.members.isEmpty then [w.warp] else o.members).foldl (fun t m =>
    modWarp w.block m (Warp.puts vals) t) s)

/-- R470: the acquire that follows a load, by each warp that takes its result. -/
def loadAcquire (w : WarpId) (o : Outst) (s : State) : State :=
  match o.instr with
  | .ld _ _ _ sem msc .. => if sem = .acq then acquireNow w.block w.warp msc s else s
  | .sld _ _ _ _ sem msc .. => if sem = .acq then o.members.foldl (fun t m => acquireNow w.block m msc t) s else s
  | _ => s

/-- Words whose results are there only when something else has taken place (R268, R304, R308, R330, R332, R349, R350, R400, R408). -/
def ownTurn : Instr → Bool
  | .mrel .. | .publ .. | .nbarm .. | .lbind .. | .lrefForce .. | .lrefDrop .. | .lrefQuery .. | .rollb .. | .nbdisarm .. | .preemptCtx ..
  | .preemptLaunch .. | .preemptBlock .. | .tlbiAll .. | .tlbiCtx .. | .tlbiRange .. => true
  | _ => false

/-- R22, R38, R39, R177: what is left of a load is performed, its values are written and its acquire made. A result that was
there from issue (LDS, a ticket, a status) is only written. -/
def returnLoad (w : WarpId) (o : Outst) (ecc : Ecc) (s : State) : State :=
  if o.lead.isSome || (atomSpecOf o.instr).isSome || o.parts.any (o.waits (warpD s w.block w.warp)) then s else
  match loadForm o.instr with
  | none => if o.vals.isEmpty && ownTurn o.instr then s else deliver w o o.vals s
  | some (n, fill, val) =>
    let (inj, s1) := injectRead (ctxNumber s w.block) o.logLines s
    let s2 := eccRead ecc w.block o.places (o.places.any o.strongAt) s1
    let r := o.parts.foldl (fun acc x =>
      loadPart w o (inj || (x.2.2.isRemote && ecc == .uncorrectable)) (o.strongAt x.2.2) fill n val x acc) (o.vals, s2)
    let s3 := deliver w o r.1 r.2
    if s3.fatal ≠ 0 then s3 else loadAcquire w o s3

def findOut (s : State) (w : WarpId) (i : Nat) : Option Outst := (warpD s w.block w.warp).outs.find? (fun o => o.id == i)

def execLoadDataReturn (w : WarpId) (i : Nat) (ecc : Ecc) (s : State) :=
  event (fun t => match findOut t w i with
    | some o => returnLoad w o ecc t
    | none => t) s

/-- R39: one register of a result is written before the rest. -/
def deliverOne (w : WarpId) (i k : Nat) (s : State) : State :=
  match findOut s w i with
  | none => s
  | some o => match o.members.isEmpty, o.vals[k]? with
    | true, some v =>
      modWarp w.block w.warp (fun wp =>
        { wp.put v with outs := wp.outs.map (fun x => if x.id = i then { x with vals := x.vals.eraseIdx k } else x) }) s
    | _, _ => s

/-- The armed error of R447 is for one of these lines, so that the word's read counts as one. -/
def injectArmed (ctx : Nat) (lines : List Nat) (s : State) : Bool :=
  let e := s.csr.errinj.toNat
  bitsOf e 45 45 == 1 && bitsOf e 57 46 == ctx && lines.contains (bitsOf e 44 0)

/-- R39: the access of one lane of a load is performed before the rest. -/
def performLane (w : WarpId) (i lane : Nat) (ecc : Ecc) (s : State) : State :=
  match findOut s w i with
  | none => s
  | some o => match o.members.isEmpty, loadForm o.instr, o.parts.find? (fun x => x.1 == lane) with
    | true, some (n, fill, val), some x =>
      if o.waits (warpD s w.block w.warp) x || injectArmed (ctxNumber s w.block) o.logLines s then s else
      let strong := o.strongAt x.2.2
      let (vals, t) := loadPart w o (x.2.2.isRemote && ecc == .uncorrectable) strong fill n val x
        ([], eccRead ecc w.block [x.2.2] strong s)
      if t.fatal ≠ 0 then t else
      modWarp w.block w.warp (fun wp => { wp with outs := wp.outs.map (fun y =>
        if y.id = i then { y with parts := y.parts.filter (fun z => z.1 != lane), vals := y.vals ++ vals } else y) }) t
    | _, _, _ => s

/-- R472: the read behind a store that covers part of a sector finds it uncorrectable. -/
def storeFound (w : WarpId) (l : Nat) (p : Place) (iw ew : Word) (s : State) : State :=
  match p with
  | .fixed pa _ _ =>
    dueData w.block w.warp (1#32 <<< l) none none iw ew pa (hbmRead .uncorrectable pa s)
  | .log la _ =>
    let c := (blockD s w.block).cluster
    let secs := touchedSectors (maskOf (la % 128) 1)
    dueData w.block w.warp (1#32 <<< l) none none iw ew 0
      (modCluster c (fun x => { x with pend := x.pend.map (fun q =>
        if q.line = la / 128 then { q with poison := q.poison ||| (secs &&& ~~~ wholeSectors q.mask) } else q) }) s)
  | _ => s

/-- R23, R193, R433: the warp's oldest store is acknowledged; one to a home device, or a publish there, may have failed. -/
def ackStore (w : WarpId) (ecc : Ecc) (s : State) : State :=
  let wp := warpD s w.block w.warp
  match wp.unack with
  | (l, p, iw, ew) :: rest =>
    let s1 := modWarp w.block w.warp (fun x => { x with unack := rest }) s
    let s2 := match ecc with
      | .uncorrectable => storeFound w l p iw ew s1
      | .corrected => eccRead ecc w.block [p] true s1
      | .ok => s1
    relAdvance w.block w.warp s2
  | [] =>
    match wp.remoteUnack with
    | [] => s
    | (l, iw, ew) :: rest =>
      let s1 := modWarp w.block w.warp (fun x => { x with remoteUnack := rest }) s
      relAdvance w.block w.warp (if ecc = .uncorrectable then
        dueData w.block w.warp (if l < 32 then 1#32 <<< l else 0) none none iw ew 0 s1 else s1)

def execStoreAcknowledge (w : WarpId) (ecc : Ecc) (s : State) := event (ackStore w ecc) s

/-- R202, R222: the atomic may not leave yet: its release is not performed, or it stands in the deterministic buffer. -/
def atomHeld (wp : Warp) (i : Nat) : Bool :=
  wp.det.any (fun d => d.out.id == i) ||
    (match wp.rel with | some r => r.out == some i | none => false)

/-- R205, R207: an atomic is performed at its site and returns; its acquire follows. -/
def returnAtomic (w : WarpId) (o : Outst) (k : AtomSpec) (ecc : Ecc) (s : State) : State :=
  let (inj, s1) := injectRead (ctxNumber s w.block) o.logLines s
  let s2 := eccRead ecc w.block o.places true s1
  let done : Except State State :=
    if inj then .ok (o.parts.foldl (fun t x => dueData w.block w.warp (o.errLanes x.1) o.errPc (some o.id) o.iw o.ew 0 t) s2)
    else performOut w.block w.warp o k (ecc == .uncorrectable) s2
  match done with
  | .error t => if t.fatal ≠ 0 then fatalError t.fatal s else stallOnTable w.block s
  | .ok s3 =>
    if s3.fatal ≠ 0 then s3 else
    let s4 := closeOut w o s3
    let ms := match o.instr with | .satom .. => o.members | _ => [w.warp]
    let s5 := if k.sem = .acq || k.sem = .ar then ms.foldl (fun t m => acquireNow w.block m k.msc t) s4 else s4
    relAdvance w.block w.warp s5

def execAtomicResultReturn (w : WarpId) (i : Nat) (ecc : Ecc) (s : State) :=
  event (fun t => match findOut t w i with
    | none => t
    | some o => match atomSpecOf o.instr with
      | none => t
      | some k =>
        let wp := warpD t w.block w.warp
        if atomHeld wp i || o.lead.isSome || o.parts.any (o.waits wp) then t else returnAtomic w o k ecc t) s

/-! ### Publishes -/

/-- R175: the cluster's publish is formed and installed, and what waited for it is performed; false while it cannot be. -/
def publishDone (c : Nat) (s : State) : State × Bool :=
  let (s1, ok) := publishCluster c s
  (if ok then releasePublished c (modCluster c (fun x => { x with publish := false }) s1) else s1, ok)

def publishNow (c : Nat) (s : State) : State := (publishDone c s).1

def execPublishInstall (c : Nat) (s : State) :=
  event (fun t => if (clusterD t c).publish then publishNow c t else t) s

/-- The rollback-capable blocks of a cluster that hold tentative lines (R24, R412). -/
def tentBlocks (s : State) (c : Nat) : List BlockId :=
  (s.blocks.filter (fun (b : Block) => b.cluster == c && b.resident && !(b.rb.tent.isEmpty && b.rb.tentPrev.isEmpty))).map (·.id)

/-- R24: what the end of a cluster's stall still awaits: blocks that are there and whose checkpoint is not complete. -/
def endingLeft (s : State) (c : Nat) (l : List (BlockId × Bool)) : List (BlockId × Bool) :=
  l.filter (fun x => (getBlock s x.1).any (fun b => b.cluster == c && b.resident))

/-- R24: after 65,536 cycles the cluster ends the stall itself: checkpoints first, then a forced publish. -/
def execPublishTableStallTimeout (c : Nat) (s : State) :=
  event (fun t =>
    let close (u : State) : State :=
      modCluster c (fun k => { k with stallSince := none, ending := none }) (publishNow c u)
    match (clusterD t c).stallSince, (clusterD t c).ending with
    | none, _ => t
    | some since, none =>
      if t.clock < since + 65536 then t else
      match tentBlocks t c with
      | [] => close t
      | ids => ids.foldl (fun u id => askCheckpoint id u)
          (modCluster c (fun k => { k with ending := some (ids.map (fun id => (id, false))) }) t)
    | some _, some l => if (endingLeft t c l).isEmpty then close t else t) s

/-- R320, R342: the age limit of a replica slot, 1,850 ticks a µs, closes the cluster's open segments that have held
unshipped publishes for longer. -/
def execReplicaAgeLimit (c slot : Nat) (s : State) :=
  event (fun t => match aget t.replicas slot with
    | none => t
    | some r =>
      if r.state != .streaming || bitsOf r.desc.toNat 31 16 = 0 then t else
      (clusterD t c).openSegs.foldl (fun u x => match aget u.segs x.2 with
        | some g =>
          if decide (g.since + 1850 * bitsOf r.desc.toNat 31 16 < u.clock) && g.sums.any (fun v =>
              decide (v.1 < g.used) && decide (r.start < g.base + v.2.eoff) && !appendedNow u (mkEntry x.2 v.1))
          then closeSeg x.2 u else u
        | none => u) t) s

/-! ### WAITA (R210) -/

/-- The sleep of a lane in WAITA. -/
def waitaSleep (wp : Warp) (lane : Nat) : Option Sleep :=
  wp.sleeps.find? (fun z => z.lanes.getLsbD lane && match z.instr with | .waita .. => true | _ => false)

/-- R210: the lane runs at PC + 8 with the value last read; the word retires with its last lane (R230, log entry 82, DESIGN
CHOICE); true conditions acquire. -/
def wakeLane (w : WarpId) (lane v : Nat) (holds : Bool) (z : Sleep) (s : State) : State :=
  match z.instr with
  | .waita h _ _ acq msc _ d _ _ =>
    let s1 := modWarp w.block w.warp (fun wp0 =>
      let wp : Warp := ({ wp0 with sleeps := wp0.sleeps.filter (fun x => !(x.lanes == z.lanes && x.pc == z.pc)) } : Warp).setReg d lane
        (BitVec.ofNat 32 v)
      let next := z.pc + wordLen h
      if wp.sleeps.any (fun x => x.word == z.word) then wp.goOn h (1#32 <<< lane) next else wp.retire h (1#32 <<< lane) next) s
    if acq && holds then acquireNow w.block w.warp msc s1 else s1
  | _ => s

/-- A lane stops sleeping and runs at its word again. -/
def endSleep (w : WarpId) (z : Sleep) (s : State) : State :=
  modWarp w.block w.warp (fun wp =>
    ({ wp with sleeps := wp.sleeps.filter (fun x => !(x.lanes == z.lanes && x.pc == z.pc)) } : Warp).setLanes z.lanes
      (fun y => { y with st := .running })) s

/-- R168, R210: the place of a sleeping lane's word as the tables stand now. -/
def sleepPlace (w : WarpId) (z : Sleep) (s : State) : Except Nat Place :=
  match z.place with
  | .scratch o => .ok (.scratch o)
  | _ => (translate s (blockD s w.block).core (blockCtx s w.block) z.va 4 4 .load).map (·.1)

/-- R210: one check of a sleeping lane's word. -/
def checkLane (w : WarpId) (lane : Nat) (z : Sleep) (s : State) : State :=
  let ws := encode z.instr
  match z.instr, sleepPlace w z s with
  | .waita h .., .error cls =>
    if cls = heldClass then s else
    let c : Cur :=
      { block := w.block, warp := w.warp, group := z.lanes, pc := z.pc, iw := ws[0]?.getD 0, ew := ws[1]?.getD 0, single := none }
    laneFaults h c [{ lane := lane, cls := cls, va := z.va, store := false }] (endSleep w z s)
  | .waita _ cond .., .ok p =>
    match waitRead w.block p s with
    | (_, some pa, t) =>
      dueData w.block w.warp (1#32 <<< lane) (some z.pc) none (ws[0]?.getD 0) (ws[1]?.getD 0) pa (endSleep w z t)
    | (v, none, t) =>
      if waitHolds cond 32 v z.cmp.toNat then wakeLane w lane v true z t
      else modWarp w.block w.warp (fun wp => { wp with sleeps := wp.sleeps.map (fun x =>
        if x.lanes == z.lanes && x.pc == z.pc then { x with last := BitVec.ofNat 64 v } else x) }) t
  | _, _ => s

def execWaitaCheck (w : WarpId) (lane : Nat) (s : State) :=
  event (fun t => match waitaSleep (warpD t w.block w.warp) lane with
    | some z => if (blockD t w.block).resident && !(warpD t w.block w.warp).stopped then checkLane w lane z t else t
    | none => t) s

def execWaitaTimeout (w : WarpId) (lane : Nat) (s : State) :=
  event (fun t => match waitaSleep (warpD t w.block w.warp) lane with
    | some z => match z.deadline with
      | some d => if t.clock < d || !(blockD t w.block).resident || (warpD t w.block w.warp).stopped then t else wakeLane w lane z.last.toNat false z t
      | none => t
    | none => t) s

end Sys2Proof.Machine
end

