-- ==== Sys2Proof/Machine/Talus.lean ====
section
/-!
DEFINITION. Machine/Talus.lean: cleaning by the Talus engines and the retiring of segments (R334 to R338, R439).
-/
namespace Sys2Proof.Machine

/-- R335: the engines of the stack that a segment's pseudo-channel belongs to: four of the 32 to a stack. -/
def engineServes (engine seg : Nat) : Bool := decide (engine < 32) && seg % 512 / 64 == engine / 4

/-- R335: `a` has a lower live fraction than `b`. -/
def lessLive (s : State) (a b : Nat × Segment) : Bool := decide (liveSlots s a.1 a.2 < liveSlots s b.1 b.2)

/-- R439: an uncorrectable sector in the header or the summaries of a segment. -/
def headerBad (s : State) (seg : Nat) : Bool :=
  s.bad.any (fun k => decide (seg * 4096 + 119808 / 32 ≤ k) && decide (k < seg * 4096 + 4096))

/-- R320, R336: the open KIND 1 segment of an engine and key slot for a version of epoch `e`. -/
def talusSeg (engine ks e : Nat) (s : State) : Option (Nat × State) :=
  let mine := s.talusOpen.filter (fun x => x.1 == engine && x.2.1 == ks)
  let fits := mine.filterMap (fun x => (aget s.segs x.2.2).bind (fun g =>
    if g.base ≤ e && e ≤ g.base + 65535 then some (x.2.2, g.seq) else none))
  let use (n : Nat) (t : State) : State :=
    { t with talusOpen := t.talusOpen.filter (fun x => x.2.2 != n) ++ [(engine, ks, n)] }
  match fits.foldl (fun o x => match o with
      | none => some x
      | some y => if y.2 < x.2 then some x else some y) none with
  | some (n, _) => some (n, use n s)
  | none =>
    let s1 := if 4 ≤ mine.length then match mine with | x :: _ => closeSeg x.2.2 s | [] => s else s
    (openSegment 1 engine ks e s1).map (fun r => (r.1, use r.1 r.2))

/-- R336: copies one version after the copy of the next older one; its new position. -/
def copyVersion (engine : Nat) (p back : BitVec 32) (s : State) : Option (BitVec 32 × State) :=
  match aget s.segs (entrySeg p) with
  | none => none
  | some g =>
    match aget g.sums (entrySlot p) with
    | none => none
    | some v =>
      let e := g.base + v.eoff
      (talusSeg engine g.ks e s).map (fun r =>
        let base := ((aget r.2.segs r.1).map (·.base)).getD 0
        let poison := sget g.poison (entrySlot p) ||| badSectors s (segAddr (entrySeg p) (entrySlot p))
        appendTo r.1 v.line (sget g.data (entrySlot p)) (if v.z then 0 else poison) back (e - base) v.z v.tx true r.2)

/-- R336: the chain, oldest first; the copies, newest first. -/
def copyChain (engine : Nat) (chain : List (BitVec 32)) (s : State) : Option (List (BitVec 32) × State) :=
  chain.reverse.foldl (fun o p => o.bind (fun x =>
    (copyVersion engine p (x.1.headD 0) x.2).map (fun y => (y.1 :: x.1, y.2)))) (some ([], s))

/-- R336: the index, or Kept(n), goes from the old head to the new one; the swing is no change for R215. -/
def swing (n : Nat) (old new : BitVec 32) (s : State) : State :=
  let s1 := match aget s.homes n with
    | some _ => { s with homes := amod s.homes n (fun h => { h with kept := new }) }
    | none => setIxEntry n new s
  let seen (t : Tx) : Tx :=
    { t with seen := t.seen.map (fun x => if x.1 % 2 ^ 45 = n && x.2 = old then (x.1, new) else x) }
  { s1 with
    blocks := s1.blocks.map (fun (b : Block) => { b with warps := b.warps.map (fun wp => { wp with tx := wp.tx.map seen }) })
    clusters := s1.clusters.map (fun c => (c.1, { c.2 with pend := c.2.pend.map (fun p => match p.appended with
      | some (slot, base) => if p.line = n && base = old then { p with appended := some (slot, new) } else p
      | none => p) })) }

def setClean (seg : Nat) (c : Option Clean) (s : State) : State :=
  { s with cleans := s.cleans.filter (fun x => x.seg != seg) ++ c.toList }

def setPhaseSeg (seg : Nat) (p : SegPhase) (s : State) : State :=
  { s with segs := amod s.segs seg (fun g => { g with phase := p }) }

/-- R336: the lines that an engine has to treat in a segment. -/
def segTodo (s : State) (seg : Nat) : List Nat :=
  ((aget s.segs seg).elim [] (liveLines s seg)).foldl insertNat []

/-- R336, R337: with every line swung, the retire of the segment is broadcast. -/
def broadcastRetire (seg : Nat) (s : State) : State :=
  let t := setClean seg none (setPhaseSeg seg .retiring s)
  { t with clusters := t.clusters.map (fun c => (c.1, { c.2 with pend := c.2.pend.map (fun p => match p.appended with
      | some (slot, _) => if entrySeg slot = seg then { p with appended := none } else p
      | none => p) })) }

/-- R336 steps 1 to 3: the live chain of the next line is read and copied. -/
def cleanCopy (c : Clean) (n : Nat) (rest : List Nat) (s : State) : State :=
  let p := headOf s n
  if entryBad s n || !entryOk s n p then fatalError 1 s else
  let chain := liveChain s n
  if !chain.any (fun q => entrySeg q == c.seg) then setClean c.seg (some { c with todo := rest, fails := 0 }) s else
  match copyChain c.engine chain s with
  | none => noteLogFull s
  | some (copies, t) => setClean c.seg (some { c with old := p, copies := copies }) t

/-- R336 steps 4 and 5: compare-and-set; after four failures the segment is a candidate again. -/
def cleanSwing (c : Clean) (n : Nat) (rest : List Nat) (s : State) : State :=
  if headOf s n = c.old then
    setClean c.seg (some { c with todo := rest, copies := [], fails := 0 }) (swing n c.old (c.copies.headD 0) s)
  else if 3 ≤ c.fails then setClean c.seg none (setPhaseSeg c.seg .closed s)
  else setClean c.seg (some { c with copies := [], fails := c.fails + 1 }) s

/-- R336: the next step of an engine that reclaims a segment. -/
def cleanStep (c : Clean) (s : State) : State :=
  match c.todo with
  | n :: rest => if c.copies.isEmpty then cleanCopy c n rest s else cleanSwing c n rest s
  | [] => match segTodo s c.seg with
    | [] => broadcastRetire c.seg s
    | l => setClean c.seg (some { c with todo := l }) s

/-- R338: an engine takes a segment; one without live versions retires at once. -/
def takeSeg (engine seg : Nat) (s : State) : State :=
  match segTodo s seg with
  | [] => broadcastRetire seg s
  | l => setClean seg (some { seg := seg, engine := engine, todo := l, old := 0, copies := [], fails := 0 })
      (setPhaseSeg seg .cleaning s)

/-- R335: whether an engine may take a segment now: cleaning runs, and no candidate of its stack is emptier. -/
def mayClean (engine seg : Nat) (g : Segment) (s : State) : Bool :=
  s.csr.cleanctl.getLsbD 10 && engineServes engine seg && isCandidate s seg g
    && s.segs.all (fun x => !(engineServes engine x.1 && isCandidate s x.1 x.2 && lessLive s x (seg, g)))

/-- R336, R338: an engine takes a candidate, or goes on with the one it has. -/
def execTalusCleanStart (engine seg : Nat) (s : State) :=
  event (fun t => match t.cleans.find? (fun c => c.seg == seg), aget t.segs seg with
    | some c, _ => if c.engine = engine then cleanStep c t else t
    | none, none => t
    | none, some g =>
      if !mayClean engine seg g t then t
      else if headerBad t seg then { t with segs := amod t.segs seg (fun x => { x with barred := true }) }
      else takeSeg engine seg t) s

/-! ### Retiring a segment (R178, R337) -/

/-- R178, R337: drops the index-cache entries that name a segment, and its lines. -/
def dropSegEntries (seg : Nat) (s : State) : State :=
  { s with
    clusters := s.clusters.map (fun c => (c.1, { c.2 with
      ix := c.2.ix.filter (fun e => entrySeg e.2 != seg)
      logs := c.2.logs.filter (fun e => e.1 / 2 ^ 24 != seg) }))
    cores := s.cores.map (fun c => (c.1, { c.2 with ix := c.2.ix.filter (fun e => entrySeg e.2 != seg) })) }

/-- Segments of the log partition on a pseudo-channel. -/
def channelSegs (ch : Nat) : Nat := (logLast + 512 - ch) / 512 - (logFirst + 511 - ch) / 512

/-- R334: the smallest count of free segments on any pseudo-channel. -/
def fewestFree (s : State) : Nat :=
  (List.range 512).foldl (fun m ch =>
    if channelRetired s ch then m else
      min m (channelSegs ch - (s.segs.filter (fun g => g.1 % 512 == ch)).length)) (channelSegs 0 + 1)

/-- R334: FREE is sampled when a segment becomes free (log entry 79, DESIGN CHOICE: the spec does not say when). -/
def sampleFree (s : State) : State := { s with minFree := fewestFree s }

/-- R334, R335: cleaning is urgent on some pseudo-channel. -/
def cleanUrgent (s : State) : Bool := decide (fewestFree s < bitsOf s.csr.cleanctl.toNat 31 16)

/-- A retiring segment is acknowledged everywhere and becomes free. -/
def retireSeg (seg : Nat) (s : State) : State :=
  sampleFree { dropSegEntries seg s with segs := adel s.segs seg, reclaimed := s.reclaimed + 1, logFull := false }

def execSegmentRetireComplete (seg : Nat) (s : State) :=
  event (fun t => match aget t.segs seg with
    | some g => if g.phase == .retiring then retireSeg seg t else t
    | none => t) s

end Sys2Proof.Machine
end

