-- ==== Sys2Proof/Machine/Engine.lean ====
section
/-!
DEFINITION. Machine/Engine.lean: what the engines share: the accesses of an engine agent, its acquire and release, faults
in flight and the engine trap, and waits of warps on engines (R185, R210, R245 to R248, R255, R287, R410, R439).
-/
namespace Sys2Proof.Machine

/-! ### Words that give an engine a command -/

/-- R236, R273: the ordering fields of a command. -/
def engOrd (sem : Sem) (msc : Msc) : EngOrd :=
  { rel := sem == .rel || sem == .ar, acq := sem == .acq || sem == .ar, msc := msc }

/-- A G-word that gives a command once, for its issue group or after its rendezvous (R237, R274): `f` answers the ticket,
or none while the word stalls at issue. -/
def commandWord (i : Instr) (h : Hdr) (d : Name) (f : Cur → Env → State → Option (BitVec 64) × State) (s : State) :
    Host.Outcome State Fault Refusal :=
  runWord i h (fun c t => match leadOf h t c with
    | none => endWord h c t
    | some e =>
      if acqCommand i && c.single.isNone && e.wp.unacked ≠ 0 then t else
      match f c e t with
      | (some v, u) => endWord h c (setMembersS h d v c u)
      | (none, u) => u) s

/-- R274: the valid count operand. -/
def vcOf (e : Env) (vc : Vc) (rows : Nat) : Nat :=
  match vc with
  | .all => rows
  | .reg n => min ((uniVal e n 0).toNat % 2 ^ 32) rows

/-- A descriptor of `n` bytes in the scratchpad at a multiple of `n` within it, or none. -/
def readDesc (s : State) (id : BlockId) (off n : Nat) : Option Nat :=
  if off % 64 ≠ 0 || (launchD s id.lid).scratch < off + n then none else some (leNat (scratchRead s id off n))

/-! ### The engine agent (R185, R245, R287) -/

/-- R185: the acquire of an engine agent, a thread of the block. -/
def agentAcquire (id : BlockId) (m : Msc) (s : State) : State :=
  let core := (blockD s id).core
  let s1 := modCore core (fun k => { k with l1 := [] }) s
  let s2 := if 1 ≤ mscRank m then dropCopies core s1 else s1
  if 2 ≤ mscRank m then scrub core s2 else s2

/-- R185: the release of an engine agent whose stores are acknowledged; false while it cannot be performed. -/
def agentRelease (id : BlockId) (m : Msc) (homes : List Nat) (s : State) : State × Bool :=
  if mscRank m = 0 then (s, true)
  else if s.phase ≠ 2 && decide (2 ≤ mscRank m) then (s, false)
  else match writeBackCopies id s with
    | none => (stallOnTable id s, false)
    | some t =>
      if mscRank m < 2 then (t, true) else
      let c := (blockD t id).cluster
      let (v, ok) := publishDone c t
      if !ok then (v, false) else
      (if mscRank m = 3 then { v with out := v.out ++ homes.map (fun d => .homePublish d c) } else v, true)

/-- How far the release of a command has come. -/
inductive CmdRelease where
  | wait (s : State)
  | sent (s : State)
  | done (s : State)

/-- R185, R243: the release of a command of warp `w`; at system scope it then waits for the publishes that it has asked the
home devices of its stores for. -/
def commandRelease (id : BlockId) (w : Nat) (o : EngOrd) (homes : List Nat) (stage : CmdStage) (s : State) : CmdRelease :=
  let m := if o.rel then o.msc else .b
  if stage == .remote then
    if (warpD s id w).remoteUnack.any (fun x => x.1 == 33) then .wait s else .done s
  else match agentRelease id m homes s with
    | (t, false) => .wait t
    | (t, true) =>
      if m = .sy && !homes.isEmpty then
        .sent (modWarp id w (fun wp => { wp with remoteUnack := wp.remoteUnack ++ homes.map (fun _ => (33, 0, 0)) }) t)
      else .done t

/-- R410, R411: whether a command's release must wait for a checkpoint of a rollback-capable block, and the stage it is in
after asking. -/
def releaseGate (id : BlockId) (o : EngOrd) (stage : CmdStage) (s : State) : Bool × CmdStage :=
  if stage == .remote then (true, stage)
  else if (launchD s id.lid).rb && o.rel && decide (1 ≤ mscRank o.msc) then
    if stage == .finished && (blockD s id).rb.capture.isNone then (true, stage)
    else (false, if stage == .finished then stage else .release)
  else (true, stage)

/-- A run of bytes of a command: virtual address, scratchpad offset, length. -/
structure Piece where
  va : Nat
  so : Nat
  n : Nat
  deriving DecidableEq, Repr

/-- Splits a run at 128-byte lines of its virtual address; addresses are mod 2^64 (R239). -/
def linePieces (va so n : Nat) : List Piece :=
  if n = 0 then [] else
    (List.range ((va % 128 + n + 127) / 128)).map (fun i =>
      let lo := if i = 0 then 0 else i * 128 - va % 128
      let hi := min n ((i + 1) * 128 - va % 128)
      { va := (va + lo) % 2 ^ 64, so := so + lo, n := hi - lo })

/-- Translates every piece before any is accessed; the first fault with its address. -/
def placePieces (id : BlockId) (acc : Access) (ps : List Piece) (s : State) :
    Except (Nat × Nat) (List (Piece × Place) × State) :=
  let core := (blockD s id).core
  let ctx := blockCtx s id
  ps.foldl (fun o p => match o with
    | .error x => .error x
    | .ok (l, t) => match translate t core ctx p.va p.n 1 acc with
      | .error c => .error (c, p.va)
      | .ok (q, leaf) => .ok (l ++ [(p, q)], fillTlb core leaf t)) (.ok ([], s))

/-- A weak load of an engine agent: no L1, the pending line where there is one (R245). -/
def agentLoad (id : BlockId) (p : Place) (n : Nat) (s : State) : List (BitVec 8) × Option Nat × State :=
  let off := p.addr % 128
  let r := lineBeyondL1 id p false s
  let bad := r.poison &&& sectorsHit off n
  let first := if bad.getLsbD 0 then 0 else if bad.getLsbD 1 then 1 else if bad.getLsbD 2 then 2 else 3
  (lineBytes r.data off n, if bad = 0 then none else some (r.pa / 128 * 128 + 32 * first), r.st)

/-- R251, R293: a line that a read-only copy may stage: of kind log, not home-held, not pending in the cluster. -/
def stageable (s : State) (id : BlockId) (p : Place) : Bool :=
  match p with
  | .log la _ =>
    (aget s.homes (la / 128)).isNone && !(clusterD s (blockD s id).cluster).pend.any (fun x => x.line == la / 128)
  | _ => false

/-- R251, R293: a read as of a snapshot epoch. -/
def snapLoad (p : Place) (n e : Nat) (s : State) : List (BitVec 8) × Option Nat × State :=
  match p with
  | .log la ks =>
    match versionAsOf s (la / 128) e with
    | none => ([], none, fatalError 1 s)
    | some v =>
      let r := decryptLine s v ks
      let bad := r.poison &&& sectorsHit (la % 128) n
      (lineBytes r.data (la % 128) n, if bad = 0 then none else some (r.pa / 128 * 128), s)
  | _ => ([], none, s)

/-- R447: the first read of a line by a command counts; `before` are the pieces it read earlier. -/
def injectPieces (id : BlockId) (before : List Piece) (ps : List (Piece × Place)) (s : State) : Bool × State :=
  if s.csr.errinj.getLsbD 45 then
    let fresh := ps.filter (fun x => !before.any (fun b => b.va / 128 == x.1.va / 128))
    injectRead (ctxNumber s id) (fresh.flatMap (fun x => x.2.line?)) s
  else (false, s)

/-! ### Faults in flight (R247, R248, R292, R439) -/

/-- R248: the warp that takes an engine trap. -/
def trapWarp (b : Block) (w : Nat) : Nat :=
  let alive (k : Nat) : Bool := match b.warps[k]? with
    | some wp => !wp.ended && !wp.allExited
    | none => false
  if alive w then w else ((List.range b.warps.length).find? alive).getD w

/-- R248, R390: the engine trap is due in the issuing warp. Which words its record names is left open (log entry 9, DESIGN CHOICE). -/
def engineTrap (id : BlockId) (w kind queue sub seq off : Nat) (s : State) : State :=
  let b := blockD s id
  modWarp id (trapWarp b w) (fun wp => { wp with due := wp.due ++
    [{ lanes := 0, pc := none, out := none, cause := 0x08, sub := sub, aux := kind + queue % 256 * 16, addr := seq + off * 2 ^ 32,
       iw := (Config.free64 s.draws).setWidth 32, ew := (Config.free64 (s.draws + 1)).setWidth 32, rollback := false }] })
    { s with draws := s.draws + 2 }

/-- R414, R439: an uncorrectable error reached an engine of a rollback-capable block. -/
def engineRollback (id : BlockId) (w pa : Nat) (s : State) : State :=
  dueData id (trapWarp (blockD s id) w) 0 none none 0 0 pa s

/-- A fault that the fault queue serves, at level T (R397). -/
def servedFault (s : State) (id : BlockId) (cls : Nat) : Bool := (cls == 5 || cls == 6) && !(launchD s id.lid).super

/-- Posts the fault of an engine; its token. -/
def engineFault (id : BlockId) (va cls src : Nat) (store : Bool) (s : State) : Option Nat × State :=
  match blockCtx s id with
  | none => (none, s)
  | some ctx =>
    let r := postFault ctx va cls src store id s
    (some r.1, r.2)

/-! ### Waits of warps on engines (R210, R255, R288) -/

/-- R255, R288, R332: the deadline of a wait's TMO field. -/
def tmoDeadline (s : State) (tmo : Nat) : Option Nat :=
  if tmo = 0 then none else some (s.clock + 2 ^ (12 + 4 * tmo))

/-- The members of the word in hand fall asleep in it; after a rendezvous every lane of every member warp does (R255). -/
def sleepWord (c : Cur) (e : Env) (z : Sleep) (s : State) : State :=
  let down (m : Lanes) (wp : Warp) : Warp := wp.setLanes m (fun x => { x with st := .asleep })
  let calm (w : Nat) (t : State) : State :=
    if (warpD t c.block w).lanes.any (fun x => x.st == .running) then t else switchPoint c.block w t
  match c.single with
  | none =>
    calm c.warp (modWarp c.block c.warp (fun wp => down c.group { wp with sleeps := wp.sleeps ++ [z] }) s)
  | some r =>
    let s1 := r.parts.foldl (fun t a =>
      calm a.1 (modWarp c.block a.1 (fun wp => down (a.2 &&& wp.live) wp) t)) s
    let s2 := modBlock c.block (fun b => { b with rdvs := b.rdvs.filter (fun x => !x.same r) }) s1
    modWarp c.block e.w (fun wp => { wp with sleeps := wp.sleeps ++ [{ z with members := r.arrived.map (·.1) }] }) s2

/-- The lanes of member `m` that sleep in the word of `z`. -/
def sleepLanes (s : State) (w : WarpId) (z : Sleep) (m : Nat) : Lanes :=
  if z.members.isEmpty then z.lanes
  else (warpD s w.block m).mask (fun x => x.st == .asleep && x.pc == z.pc)

/-- Wakes every member of a sleep: the guard-true ones take `v` in `d` and, where asked, acquire; each retires the word
once (R230, R255). -/
def wakeWord (w : WarpId) (z : Sleep) (h : Hdr) (d : Name) (v : BitVec 64) (acq : Option Msc) (s : State) : State :=
  let ms := if z.members.isEmpty then [w.warp] else z.members
  let s1 := modWarp w.block w.warp (fun wp => { wp with sleeps := wp.sleeps.filter (fun x =>
    !(x.pc == z.pc && x.lanes == z.lanes && x.members == z.members)) }) s
  ms.foldl (fun t m =>
    let lanes := sleepLanes t w z m
    let g := guardG h (warpD t w.block m)
    let t1 := modWarp w.block m (fun wp =>
      (if g then wp.setS d v else wp).retire h lanes (z.pc + wordLen h)) t
    match acq with
    | some k => if g then acquireNow w.block m k t1 else t1
    | none => t1) s1

/-- Notes the value last read by a sleep. -/
def noteLast (w : WarpId) (z : Sleep) (v : BitVec 64) (s : State) : State :=
  modWarp w.block w.warp (fun wp => { wp with sleeps := wp.sleeps.map (fun x =>
    if x.pc == z.pc && x.lanes == z.lanes && x.members == z.members then { x with last := v } else x) }) s

def pastDeadline (s : State) (z : Sleep) : Bool :=
  match z.deadline with
  | some d => decide (d ≤ s.clock)
  | none => false

/-- R416: a debugger stop of a warp that sleeps in the word. -/
def sleepStopped (w : WarpId) (s : State) (z : Sleep) : Bool :=
  (w.warp :: z.members).any (fun m => (warpD s w.block m).stopped)

/-- Does `f` for each sleep of a warp that `p` picks, while its block is resident and not stopped. -/
def eachSleep (w : WarpId) (p : Sleep → Bool) (f : Sleep → State → State) (s : State) : State :=
  if !(blockD s w.block).resident then s else
  ((warpD s w.block w.warp).sleeps.filter (fun z => p z && !sleepStopped w s z)).foldl (fun t z => f z t) s

end Sys2Proof.Machine
end

