-- ==== Sys2Proof/Machine/Tiles.lean ====
section
/-!
DEFINITION. Machine/Tiles.lean: the tile copy engine: TCOPY, TSTORE, TFILL, RING, TWAIT, TSTAT and the events of the
engine (R233 to R260).
-/
namespace Sys2Proof.Machine

/-! ### Queues and descriptors -/

def copyQ (b : Block) (q : Nat) : CopyQueue := (aget b.copyQ q).getD CopyQueue.blank

def modCopyQ (id : BlockId) (q : Nat) (f : CopyQueue → CopyQueue) (s : State) : State :=
  modBlock id (fun b => { b with copyQ := aset b.copyQ q (f (copyQ b q)) }) s

def cdGaddr (d : Nat) : Nat := bitsOf d 63 0
def cdRO (d : Nat) : Bool := bitsOf d 165 165 = 1
def cdZF (d : Nat) : Bool := bitsOf d 166 166 = 1

/-- R259: the receiving region of a RING. -/
def cdDoff (d : Nat) : Nat := bitsOf d 31 0

/-- The end of the last element, from the first element's offset (R239). -/
def cdSpan (d : Nat) : Nat :=
  cdRowLen d + (cdE d 1 - 1) * cdP d 1 + (cdE d 2 - 1) * cdP d 2 + (cdE d 3 - 1) * cdP d 3

/-- R240, status 0x04: whether the arrival word lies in a byte that the command writes. -/
def writesArrival (k : CopyKind) (d v : Nat) : Bool :=
  match k with
  | .copy => rowsTouch d v (cdSoff d) (cdAoff d) 4
  | .store => false
  | .fill => rowsTouch d (cdRows d) (cdSoff d) (cdAoff d) 4
  | .ring => rowsTouch d (cdRows d) (cdDoff d) (cdAoff d) 4

/-- R240, status 0x01: reserved fields, and dimensions beyond DIMS + 1. -/
def cdReserved (d : Nat) : Bool :=
  bitsOf d 191 167 ≠ 0 || bitsOf d 511 448 ≠ 0 ||
    [1, 2, 3].any (fun k => decide (bitsOf d 161 160 + 1 < k) && (cdE d k ≠ 1 || cdG d k ≠ 0 || cdP d k ≠ 0))

/-- R240: the status of a command by its descriptor, without the checks of a band. -/
def copyStatus (k : CopyKind) (scratch : Nat) (vc : Bool) (v : Nat) (q : CopyQueue) (d : Nat) : Nat :=
  let es := cdEs d
  let g := cdG d 1 ≠ 0 || cdG d 2 ≠ 0 || cdG d 3 ≠ 0
  if cdReserved d then 0x01
  else if (k ≠ .copy && (cdRO d || cdZF d)) || (cdZF d && !vc) || (k = .ring && (g || 2 ^ 32 ≤ cdGaddr d))
      || (k = .fill && 2 ^ (8 * es) ≤ cdGaddr d) then 0x06
  else if cdE d 0 = 0 || cdE d 1 = 0 || cdE d 2 = 0 || cdE d 3 = 0 || 262144 < cdLen d then 0x02
  else if (k ≠ .fill && cdGaddr d % es ≠ 0) || cdG d 1 % es ≠ 0 || cdG d 2 % es ≠ 0 || cdG d 3 % es ≠ 0
      || cdSoff d % es ≠ 0 || cdP d 1 % es ≠ 0 || cdP d 2 % es ≠ 0 || cdP d 3 % es ≠ 0 then 0x05
  else if scratch < cdSoff d + cdSpan d || (k = .ring && scratch < cdDoff d + cdLen d) then 0x03
  else if cdAoff d % 4 ≠ 0 || scratch < cdAoff d + 4 || writesArrival k d v then 0x04
  else if k = .ring && 65536 < cdLen d then 0x0D
  else if q.state = .error then 0x07
  else 0

/-- R241. -/
def copyTicket (seq : BitVec 32) (status q : Nat) : BitVec 64 :=
  BitVec.ofNat 64 (seq.toNat + status * 2 ^ 32 + q * 2 ^ 40)

/-- R250: a command enters its queue. -/
def CopyQueue.accept (c : CopyCmd) (q : CopyQueue) : CopyQueue :=
  { q with issued := q.issued + 1, cmds := q.cmds ++ [{ c with seq := (q.issued + 1).toNat }]
           state := if q.state = .idle then .running else q.state }

def newCopy (k : CopyKind) (d v : Nat) (o : EngOrd) (w : Nat) : CopyCmd :=
  { kind := k, desc := BitVec.ofNat 512 d, v := v, ord := o, warp := w, seq := 0, pos := 0, stage := .start, snap := none,
    homes := [] }

/-- R236 to R241: issues a command of one block. -/
def issueCopy (k : CopyKind) (sem : Sem) (msc : Msc) (vc : Vc) (a : Name) (q : Nat) (c : Cur) (e : Env) (s : State) :
    Option (BitVec 64) × State :=
  let cq := copyQ (blockD s c.block) q
  match readDesc s c.block ((uniVal e a 0).toNat % 2 ^ 32) 64 with
  | none => (some (copyTicket cq.issued 0x08 q), s)
  | some d =>
    let v := vcOf e vc (cdRows d)
    let st := copyStatus k (launchD s c.block.lid).scratch (vc != .all) v cq d
    if st ≠ 0 then (some (copyTicket cq.issued st q), s)
    else if 16 ≤ cq.cmds.length then (none, s)
    else (some (copyTicket (cq.issued + 1) 0 q), modCopyQ c.block q (·.accept (newCopy k d v (engOrd sem msc) e.w)) s)

def execTcopy (h : Hdr) (sem : Sem) (msc : Msc) (vc : Vc) (d a : Name) (q : BitVec 4) (s : State) :=
  commandWord (.tcopy h sem msc vc d a q) h d (issueCopy .copy sem msc vc a q.toNat) s

def execTstore (h : Hdr) (sem : Sem) (msc : Msc) (vc : Vc) (d a : Name) (q : BitVec 4) (s : State) :=
  commandWord (.tstore h sem msc vc d a q) h d (issueCopy .store sem msc vc a q.toNat) s

def execTfill (h : Hdr) (sem : Sem) (msc : Msc) (d a : Name) (q : BitVec 4) (s : State) :=
  commandWord (.tfill h sem msc d a q) h d (issueCopy .fill sem msc .all a q.toNat) s

/-! ### The ring (R258 to R260) -/

/-- What a live block brings to a RING: the word as its single execution, its lead member, its descriptor and status. -/
structure RingPart where
  cur : Cur
  lead : Env
  desc : Nat
  status : Nat

def ringPart (h : Hdr) (a : Name) (s : State) (c : Cur) : Option RingPart :=
  (leadOf h s c).map (fun e =>
    match readDesc s c.block ((uniVal e a 0).toNat % 2 ^ 32) 64 with
    | none => { cur := c, lead := e, desc := 0, status := 0x08 }
    | some d => { cur := c, lead := e, desc := d,
                  status := copyStatus .ring (launchD s c.block.lid).scratch false (cdRows d) (copyQ (blockD s c.block) 16) d })

/-- The N bytes of a region in row-major order. -/
def gatherRows (s : State) (id : BlockId) (d base : Nat) : List (BitVec 8) :=
  (List.range (cdRows d)).flatMap (fun r => scratchRead s id (base + cdRowP d r) (cdRowLen d))

/-- Writes bytes into a region in row-major order, within the scratchpad. -/
def scatterRows (id : BlockId) (d base : Nat) (bs : List (BitVec 8)) (s : State) : State :=
  let len := (launchD s id.lid).scratch
  (List.range (cdRows d)).foldl (fun t r =>
    let o := base + cdRowP d r
    scratchWrite id o (((bs.drop (r * cdRowLen d)).take (cdRowLen d)).take (len - o)) t) s

/-- The undo granules that a RING needs in one block. -/
def ringRuns (p : RingPart) : List (Nat × Nat) :=
  (List.range (cdRows p.desc)).map (fun r => (cdDoff p.desc + cdRowP p.desc r, cdRowLen p.desc))

/-- R259, R260: acquires, reads every source, writes every destination; the release and the arrival words follow
(COPY_COMMAND_COMPLETE). -/
def ringMove (o : EngOrd) (ps : List RingPart) (s : State) : State :=
  let s1 := if o.acq then ps.foldl (fun t p => agentAcquire p.cur.block o.msc t) s else s
  let data := ps.map (fun p => gatherRows s1 p.cur.block p.desc (cdSoff p.desc))
  let m := ps.length
  ps.zipIdx.foldl (fun t x =>
    let bs := (data[(x.2 + m - 1) % m]?).getD []
    let id := x.1.cur.block
    let cmd : CopyCmd :=
      { newCopy .ring x.1.desc (cdRows x.1.desc) o x.1.lead.w with pos := cdLen x.1.desc, stage := .data }
    modCopyQ id 16 (·.accept cmd) (scatterRows id x.1.desc (cdDoff x.1.desc) bs t)) s1

/-- The tickets of a RING, and the end of the word in every block of the band. -/
def ringEnd (h : Hdr) (d : Name) (cs : List Cur) (ps : List RingPart) (status : RingPart → Nat) (s : State) : State :=
  let s1 := ps.foldl (fun t p =>
    setMembersS h d (copyTicket (copyQ (blockD t p.cur.block) 16).issued (status p) 16) p.cur t) s
  cs.foldl (fun t x => endWord h x t) s1

def execRing (h : Hdr) (sem : Sem) (msc : Msc) (d a : Name) (s : State) :=
  runWord (.ring h sem msc d a) h (fun c t =>
    match c.single with
    | none => t
    | some r =>
      let cs := bandCurs t c r
      let ps := cs.filterMap (ringPart h a t)
      let n0 := (ps.head?.map (fun p => cdLen p.desc)).getD 0
      let bad := ps.any (fun p => p.status ≠ 0) || ps.any (fun p => cdLen p.desc ≠ n0)
      if bad then ringEnd h d cs ps (fun p => if p.status = 0 then 0x0C else p.status) t
      else if ps.any (fun p => decide (16 ≤ (copyQ (blockD t p.cur.block) 16).cmds.length)) then t
      else
        let full := ps.filter (fun p => needsCheckpoint t p.cur.block (ringRuns p))
        if full.isEmpty then ringEnd h d cs ps (fun _ => 0) (ringMove (engOrd sem msc) ps t)
        else full.foldl (fun u p => askCheckpoint p.cur.block u) t) s

/-! ### Granules (R235, R242 to R245, R247, R251) -/

/-- A run of one row in a granule: its row, virtual address, scratchpad offset and length. -/
structure CopyRun where
  row : Nat
  va : Nat
  so : Nat
  n : Nat

/-- The runs of the payload bytes from `pos` to `fin`, in row-major order. -/
def copyRuns (d pos fin : Nat) : List CopyRun :=
  let len := cdRowLen d
  if len = 0 || fin ≤ pos then [] else
    (List.range ((fin - 1) / len - pos / len + 1)).map (fun i =>
      let r := pos / len + i
      let lo := max pos (r * len) - r * len
      let hi := min fin ((r + 1) * len) - r * len
      { row := r, va := (cdGaddr d + cdRow d r (cdG d) + lo) % 2 ^ 64, so := cdSoff d + cdRowP d r + lo, n := hi - lo })

def runPieces (rs : List CopyRun) : List Piece := rs.flatMap (fun r => linePieces r.va r.so r.n)

/-- R244: the pattern over a run that starts at an element. -/
def patternBytes (d n : Nat) : List (BitVec 8) :=
  (List.range n).map (fun i => BitVec.ofNat 8 (cdGaddr d / 2 ^ (8 * (i % cdEs d))))

/-- One piece of a TCOPY: read, then written to the scratchpad; an uncorrectable sector is noted. -/
def copyPiece (id : BlockId) (snap : Option Nat) (x : Piece × Place) (acc : Option Nat × State) : Option Nat × State :=
  let (bs, err, t) := match snap with
    | some e => snapLoad x.2 x.1.n e acc.2
    | none => agentLoad id x.2 x.1.n acc.2
  match err with
  | some pa => (some (acc.1.getD pa), t)
  | none => (acc.1, scratchWrite id x.1.so bs t)

/-- What moving a granule comes to. -/
inductive MoveEnd where
  | moved (snap : Option Nat) (homes : List Nat) (s : State)
  | fault (cls va : Nat) (s : State)
  | error (pa : Nat) (s : State)
  | stall (s : State)

/-- R239, R242: the runs of a granule in row-major order: live rows from the places of their pieces, dead rows as zeros. -/
def copyRows (id : BlockId) (snap : Option Nat) (v : Nat) (zf : Bool) :
    List CopyRun → List (Piece × Place) → Option Nat × State → Option Nat × State
  | [], _, acc => acc
  | r :: rs, ps, acc =>
    if r.row < v then
      let k := (linePieces r.va r.so r.n).length
      copyRows id snap v zf rs (ps.drop k) ((ps.take k).foldl (fun a x => copyPiece id snap x a) acc)
    else
      copyRows id snap v zf rs ps (acc.1, if zf then scratchWrite id r.so (List.replicate r.n 0) acc.2 else acc.2)

/-- R242: a granule of a TCOPY. -/
def moveCopy (id : BlockId) (c : CopyCmd) (fin : Nat) (s : State) : MoveEnd :=
  let d := c.desc.toNat
  let rs := copyRuns d c.pos fin
  let live := rs.filter (fun r => decide (r.row < c.v))
  match placePieces id .load (runPieces live) s with
  | .error (cls, va) => .fault cls va s
  | .ok (ps, t) =>
    let before := runPieces ((copyRuns d 0 c.pos).filter (fun r => decide (r.row < c.v)))
    let (inj, t0) := injectPieces id before ps t
    if inj then .error 0 t0 else
    let snap := if ps.all (fun x => stageable t0 id x.2) then c.snap else none
    match copyRows id snap c.v (cdZF d) rs ps (none, t0) with
    | (some pa, u) => .error pa u
    | (none, u) => .moved snap [] u

/-- R243: a granule of a TSTORE. -/
def moveStore (id : BlockId) (c : CopyCmd) (fin : Nat) (s : State) : MoveEnd :=
  let live := (copyRuns c.desc.toNat c.pos fin).filter (fun r => decide (r.row < c.v))
  match placePieces id .store (runPieces live) s with
  | .error (cls, va) => .fault cls va s
  | .ok (ps, t) =>
    ps.foldl (fun o x => match o with
      | .moved snap homes u =>
        match storePlace id x.2 (scratchRead u id x.1.so x.1.n) u with
        | .made v => .moved snap (match x.2 with | .remote dev _ => insertNat homes dev | _ => homes) v
        | .error pa v => .error pa v
        | .stall v => .stall v
      | r => r) (.moved none c.homes t)

/-- A granule of a command (R235). -/
def moveGranule (id : BlockId) (c : CopyCmd) (fin : Nat) (s : State) : MoveEnd :=
  match c.kind with
  | .copy => moveCopy id c fin s
  | .store => moveStore id c fin s
  | .fill =>
    .moved none [] ((copyRuns c.desc.toNat c.pos fin).foldl (fun t r =>
      scratchWrite id r.so (patternBytes c.desc.toNat r.n) t) s)
  | .ring => .moved none [] s

/-- The scratchpad bytes a granule writes, for R413. -/
def granuleWrites (c : CopyCmd) (fin : Nat) : List (Nat × Nat) :=
  let d := c.desc.toNat
  match c.kind with
  | .copy => ((copyRuns d c.pos fin).filter (fun r => decide (r.row < c.v) || cdZF d)).map (fun r => (r.so, r.n))
  | .fill => (copyRuns d c.pos fin).map (fun r => (r.so, r.n))
  | _ => []

def setHead (id : BlockId) (q : Nat) (c : CopyCmd) (s : State) : State :=
  modCopyQ id q (fun x => { x with cmds := c :: x.cmds.drop 1 }) s

/-- R242, R251: what precedes the first granule: the acquire, and the snapshot epoch of a read-only copy. -/
def beginCopy (id : BlockId) (c : CopyCmd) (s : State) : CopyCmd × State :=
  if c.stage = .start then
    let t := if c.ord.acq then agentAcquire id c.ord.msc s else s
    ({ c with stage := .data, snap := if c.kind = .copy && cdRO c.desc.toNat then some t.epoch else none }, t)
  else (c, s)

/-- R247, R248: a fault at the granule that starts at the head's offset. -/
def copyFault (id : BlockId) (q : Nat) (c : CopyCmd) (cls va : Nat) (s : State) : State :=
  if cls = heldClass then s
  else if servedFault s id cls then
    let (tok, t) := engineFault id va cls 1 (c.kind == .store) s
    modCopyQ id q (fun x => { x with state := .stalled, cls := cls, offset := c.pos, token := tok, since := t.clock }) t
  else
    modCopyQ id q (fun x => { x with state := .error, cls := cls, offset := c.pos })
      (engineTrap id c.warp 0 q cls c.seq c.pos s)

/-- R439: an uncorrectable sector under a copy command. -/
def copyDataError (id : BlockId) (q : Nat) (c : CopyCmd) (pa : Nat) (s : State) : State :=
  if (launchD s id.lid).rb then
    modCopyQ id q (fun x => { x with state := .stalled, cls := 0xF, offset := c.pos }) (engineRollback id c.warp pa s)
  else
    modCopyQ id q (fun x => { x with state := .error, cls := 0xF, offset := c.pos })
      (engineTrap id c.warp 0 q 0xF c.seq c.pos s)

/-- Moves the next granule of a queue's head. -/
def stepCopy (id : BlockId) (q : Nat) (c0 : CopyCmd) (s : State) : State :=
  let (c, s1) := beginCopy id c0 s
  let fin := min (c.pos + 512) (cdLen c.desc.toNat)
  if needsCheckpoint s id (granuleWrites c fin) then askCheckpoint id s else
  match moveGranule id c fin s1 with
  | .moved snap homes t => setHead id q { c with pos := fin, snap := snap, homes := homes } t
  | .fault cls va t => copyFault id q c cls va (setHead id q c t)
  | .error pa t => copyDataError id q c pa (setHead id q c t)
  | .stall _ => stallOnTable id (setHead id q c s1)

/-- The round-robin key of a queue on its core. -/
def copyKey (id : BlockId) (q : Nat) : Nat := (id.lid.toNat * 2 ^ 32 + id.blk) * 32 + q

/-- R235: the queues of a core with a granule to move. -/
def copyReady (s : State) (core : Nat) : List (Nat × BlockId × Nat × CopyCmd) :=
  (s.blocks.filter (fun (b : Block) => b.core == core && b.resident && !enginesHeld b)).flatMap (fun b =>
    b.copyQ.filterMap (fun q => match q.2.cmds with
      | c :: _ =>
        if q.2.state == .running && decide (c.pos < cdLen c.desc.toNat) then some (copyKey b.id q.1, b.id, q.1, c) else none
      | [] => none))

/-- The entry of least key above `last`, or of least key. -/
def nextRound {α : Type} (last : Nat) (l : List (Nat × α)) : Option (Nat × α) :=
  let least (m : List (Nat × α)) : Option (Nat × α) := m.foldl (fun o x => match o with
    | none => some x
    | some y => if x.1 < y.1 then some x else some y) none
  match least (l.filter (fun x => decide (last < x.1))) with
  | some x => some x
  | none => least l

def execCopyGranuleTransfer (core : Nat) (s : State) :=
  event (fun t =>
    let cl := core / 8
    match nextRound ((aget (clusterD t cl).lastCopy core).getD 0) (copyReady t core) with
    | none => t
    | some (key, id, q, c) =>
      stepCopy id q c (modCluster cl (fun k => { k with lastCopy := aset k.lastCopy core key }) t)) s

/-! ### Completion (R242 to R246, R250, R251) -/

/-- R246: the arrival word's new value. -/
def arrivalValue (d old : Nat) : Nat := if bitsOf d 164 164 = 1 then bitsOf d 159 128 else (old + cdLen d) % 2 ^ 32

/-- R251: the numbers of the staging records in use on a core. -/
def stagingUsed (s : State) (core : Nat) : List Nat :=
  (s.blocks.filter (fun (b : Block) => b.core == core && b.resident)).flatMap (fun b => b.staging.map (·.num))

/-- R251: the lowest free number, where fewer than 32 records of the core are in use. A restored block's records keep their
numbers (R407), so two blocks may use one number (log entry 90, DEDUCED). -/
def freeStaging (s : State) (core : Nat) : Option Nat :=
  let used := stagingUsed s core
  if 32 ≤ used.length then none else (List.range 32).find? (fun k => !used.contains k)

/-- R251: a read-only copy leaves a staging record, if one is free when it completes (log entry 75, DESIGN CHOICE: the spec
does not say when it is made). -/
def keepStaging (id : BlockId) (c : CopyCmd) (s : State) : State :=
  match c.snap, freeStaging s (blockD s id).core with
  | some e, some n =>
    modBlock id (fun b => { b with staging := b.staging ++ [{ num := n, desc := c.desc, v := c.v, epoch := e }] }) s
  | _, _ => s

/-- The arrival update and the queue's step after the release. -/
def retireCopy (id : BlockId) (q : Nat) (c : CopyCmd) (s : State) : State :=
  let d := c.desc.toNat
  let old := leNat (scratchRead s id (cdAoff d) 4)
  let s1 := keepStaging id c (scratchWrite id (cdAoff d) (leBytes 4 (arrivalValue d old)) s)
  modCopyQ id q (fun x =>
    let rest := x.cmds.drop 1
    { x with cmds := rest, completed := x.completed + 1, state := if rest.isEmpty then .idle else .running }) s1

/-- R242 to R246: the head has moved all its data: its release, then its arrival update. -/
def finishCopy (id : BlockId) (q : Nat) (c : CopyCmd) (s : State) : State :=
  if needsCheckpoint s id [(cdAoff c.desc.toNat, 4)] then askCheckpoint id s else
  match releaseGate id c.ord c.stage s with
  | (false, st) =>
    let s1 := setHead id q { c with stage := st } s
    if st = .release then askCheckpoint id s1 else s1
  | (true, _) =>
    match commandRelease id c.warp c.ord c.homes c.stage s with
    | .done t => retireCopy id q c t
    | .sent t => setHead id q { c with stage := .remote } t
    | .wait t => t

def execCopyCommandComplete (b : BlockId) (q : Nat) (s : State) :=
  event (fun t =>
    let x := copyQ (blockD t b) q
    match x.cmds with
    | c :: _ =>
      if (blockD t b).resident && x.state == .running && decide (cdLen c.desc.toNat ≤ c.pos) then finishCopy b q c t else t
    | [] => t) s

/-! ### TWAIT and TSTAT (R255 to R257) -/

def execTwait (h : Hdr) (cond : WaitCond) (acq : Bool) (msc : Msc) (tmo : BitVec 2) (d a b : Name) (off : BitVec 20)
    (s : State) :=
  let i := Instr.twait h cond acq msc tmo d a b off
  runWord i h (fun c t => match leadOf h t c with
    | none => endWord h c t
    | some e =>
      let o := uniAddr e true a off
      match uniPlace c true o 4 .load t with
      | .error cls => uniFault h c cls o false t
      | .ok (p, u) =>
        let x := leNat (scratchRead u c.block o 4)
        let cmp := (uniVal e b 0).toNat % 2 ^ 32
        if waitHolds cond 32 x cmp then
          let u1 := putMembersS h d (BitVec.ofNat 64 x) c u
          endWord h c (if acq then acquireMembers h msc c u1 else u1)
        else
          sleepWord c e { instr := i, pc := c.pc, lanes := c.group, place := p, va := o, cmp := BitVec.ofNat 64 cmp,
                          deadline := tmoDeadline u tmo.toNat, since := u.clock, last := BitVec.ofNat 64 x, members := [], word := 0 } u) s

def isTwait (z : Sleep) : Bool := match z.instr with | .twait .. => true | _ => false

/-- R255: one check of a TWAIT. -/
def checkTwait (w : WarpId) (z : Sleep) (s : State) : State :=
  match z.instr with
  | .twait h cond acq msc _ d _ _ _ =>
    let x := leNat (scratchRead s w.block z.va 4)
    if waitHolds cond 32 x z.cmp.toNat then
      wakeWord w z h d (BitVec.ofNat 64 x) (if acq then some msc else none) s
    else noteLast w z (BitVec.ofNat 64 x) s
  | _ => s

/-- R255: at a time-out sD holds the last value read and no acquire is made. -/
def timeoutTwait (w : WarpId) (z : Sleep) (s : State) : State :=
  match z.instr with
  | .twait h _ _ _ _ d _ _ _ => wakeWord w z h d z.last none s
  | _ => s

def execTwaitWake (w : WarpId) (s : State) := event (eachSleep w isTwait (checkTwait w)) s

def execTwaitTimeout (w : WarpId) (s : State) :=
  event (fun t => eachSleep w (fun z => isTwait z && pastDeadline t z) (timeoutTwait w) t) s

def qstateCode : QState → Nat
  | .idle => 0 | .running => 1 | .stalled => 2 | .error => 3

/-- R257. -/
def copyState (q : CopyQueue) : Nat :=
  let off := match q.state with
    | .stalled | .error => q.offset
    | .running => (q.cmds.head?.map (·.pos)).getD 0
    | .idle => 0
  let cls := if q.state = .stalled || q.state = .error then q.cls else 0
  qstateCode q.state + cls * 2 ^ 2 + q.cmds.length * 2 ^ 8 + off * 2 ^ 32

/-- R256. -/
def tstatVal (s : State) (c : Cur) (k : TstatQ) (n : Nat) : BitVec 64 :=
  let b := blockD s c.block
  let q := copyQ b n
  match k with
  | .seq => q.issued ++ q.completed
  | .state => BitVec.ofNat 64 (copyState q)
  | .stage => BitVec.ofNat 64 (b.staging.foldl (fun v x => v ||| 2 ^ x.num) 0)

def execTstat (h : Hdr) (k : TstatQ) (d : Name) (n : BitVec 5) (s : State) :=
  coreWord (.tstat h k d n) h (fun c _ t => endWord h c (setMembersS h d (tstatVal t c k n.toNat) c t)) s

/-- R250, R256: a queue in Error is emptied. -/
def execTstatClr (h : Hdr) (d : Name) (n : BitVec 5) (s : State) :=
  coreWord (.tstatClr h d n) h (fun c _ t =>
    let q := copyQ (blockD t c.block) n.toNat
    if q.state = .error then
      endWord h c (setMembersS h d (BitVec.ofNat 64 q.cmds.length) c
        (modCopyQ c.block n.toNat (fun x => { x with cmds := [], state := .idle, cls := 0, offset := 0 }) t))
    else endWord h c (setMembersS h d 0 c t)) s

end Sys2Proof.Machine
end

