-- ==== Sys2Proof/Machine/Massif.lean ====
section
/-!
DEFINITION. Machine/Massif.lean: the Massif: formats, slots and accumulators, claims and queues, the queued commands,
their arithmetic and their transfers, MWAIT and MSTAT (R262 to R296).
-/
namespace Sys2Proof.Machine

/-! ### Formats and rows (R263, R264) -/

def isTag (e1 : Bool) (t : Nat) : Bool :=
  [0x02, 0x11, 0x12, 0x13, 0x14, 0x15, 0x16, 0x17, 0x1A, 0x1C, 0x1D].contains t || (!e1 && (t == 0x18 || t == 0x19))

def tagTy (t : Nat) : Option Ty := if t = 0x1C then some .int4 else Ty.ofCode? t

/-- 0: 8-bit, 1: 16-bit, 2: 4-bit, 3: metadata. -/
def tagClass (t : Nat) : Nat := match t with | 0x11 | 0x12 => 1 | 0x17 | 0x1C => 2 | 0x1D => 3 | _ => 0

def classE (k : Nat) : Nat := match k with | 1 => 32 | 2 => 128 | _ => 64

def classBits (k : Nat) : Nat := match k with | 1 => 16 | 2 => 4 | _ => 8

/-- Scales of a row; 0 for a format without scales. -/
def tagScales (t : Nat) : Nat :=
  match t with | 0x13 | 0x14 | 0x15 | 0x16 | 0x1A => 2 | 0x17 => 4 | _ => 0

/-- Bytes of a row in memory. -/
def tagRow (t : Nat) : Nat := match t with | 0x15 | 0x16 | 0x19 => 48 | _ => 64

/-- R264: the code of element k of a row; a 6-bit container with a high bit set reads 0. -/
def rowCode (t row k : Nat) : Nat :=
  let w := classBits (tagClass t)
  let c := row / 2 ^ (w * k) % 2 ^ w
  if tagRow t = 48 && decide (64 ≤ c) then 0 else c

def codeVal (t c : Nat) : FV := (tagTy t).elim FV.zero (fun ty => decTy ty c)

/-- Byte `k` of a packed number. -/
def byteAt (v k : Nat) : Nat := v / 2 ^ (8 * k) % 256

/-- The elements of a row with their scales. -/
def rowVals (t : Nat) (sref : Bool) (row scales : Nat) : List FV :=
  (List.range (classE (tagClass t))).map (fun k =>
    scaledDec (codeVal t (rowCode t row k)) (if sref then some (byteAt scales (k / 32)) else none))

/-- R79: 48 packed bytes as 64 containers, and back. -/
def unpackRow (v : Nat) : Nat := (List.range 64).foldl (fun a k => a + v / 2 ^ (6 * k) % 64 * 2 ^ (8 * k)) 0
def packRow (v : Nat) : Nat := (List.range 64).foldl (fun a k => a + v / 2 ^ (8 * k) % 64 * 2 ^ (6 * k)) 0

variable {n : Nat}

/-- The entries of `len` keys from `lo`. -/
def swin (m : Sparse n) (lo len : Nat) : Sparse n := m.filter (fun c => decide (lo ≤ c.1) && decide (c.1 < lo + len))

/-- Puts a row of values at `lo`, in canonical form. -/
def sputRow (m : Sparse n) (lo : Nat) (vs : List (BitVec n)) : Sparse n :=
  m.filter (fun c => decide (c.1 < lo))
    ++ vs.zipIdx.filterMap (fun x => if x.1 = 0 then none else some (lo + x.2, x.1))
    ++ m.filter (fun c => decide (lo + vs.length ≤ c.1))

def rowNat (m : Sparse 8) (lo len : Nat) : Nat := leNat (sbytes (swin m lo len) lo len)

/-! ### Slots, accumulators and queues -/

def MSlot.blank : MSlot :=
  { owner := { lid := 0, blk := 0 }, tag := 0, sref := false, data := [], side := [], stage := none }

def slotD (s : State) (cl k : Nat) : MSlot := (aget (clusterD s cl).slots k).getD MSlot.blank

def modSlot (cl k : Nat) (f : MSlot → MSlot) (s : State) : State :=
  modCluster cl (fun c => { c with slots := amod c.slots k f }) s

def accD (s : State) (cl a : Nat) : Sparse 32 := ((aget (clusterD s cl).accs a).map (·.data)).getD []

def setAcc (cl a : Nat) (d : Sparse 32) (s : State) : State :=
  modCluster cl (fun c => { c with accs := amod c.accs a (fun x => { x with data := d }) }) s

/-- R413: runs that MREL released in an interval whose checkpoint is not complete are neither owned nor free. -/
def releasedSlots (b : Block) : List Nat := b.rb.undo.relSlots ++ b.rb.undoPrev.relSlots
def releasedAccs (b : Block) : List Nat := b.rb.undo.relAccs ++ b.rb.undoPrev.relAccs

def ownsSlot (s : State) (id : BlockId) (k : Nat) : Bool :=
  let b := blockD s id
  ((aget (clusterD s b.cluster).slots k).elim false (fun x => x.owner == id)) && !(releasedSlots b).contains k

def ownsAcc (s : State) (id : BlockId) (k : Nat) : Bool :=
  let b := blockD s id
  ((aget (clusterD s b.cluster).accs k).elim false (fun x => x.owner == id)) && !(releasedAccs b).contains k

def queueOf (s : State) (id : BlockId) (q : Nat) : Option MQueue :=
  match aget (clusterD s (blockD s id).cluster).queues q with
  | some x => if x.owner == id then some x else none
  | none => none

def modQueue (cl q : Nat) (f : MQueue → MQueue) (s : State) : State :=
  modCluster cl (fun c => { c with queues := amod c.queues q f }) s

def slotImage (k : Nat) (x : MSlot) : SlotImage :=
  { num := k, tag := x.tag, sref := x.sref, data := x.data, side := x.side, stage := x.stage }

/-- R413: saves a slot or an accumulator (128 + number) before the interval's first write to it. -/
def saveUndo (id : BlockId) (s : State) (r : Nat) : State :=
  if !(launchD s id.lid).rb then s else
  let cl := (blockD s id).cluster
  modBlock id (fun b =>
    let u := b.rb.undo
    let u1 :=
      if r < 128 then
        if u.slots.any (fun x => x.num == r) then u else { u with slots := u.slots ++ [slotImage r (slotD s cl r)] }
      else if r < 144 then
        if (aget u.accs (r - 128)).isSome then u else { u with accs := aset u.accs (r - 128) (accD s cl (r - 128)) }
      else u
    { b with rb := { b.rb with undo := u1 } }) s

/-! ### What commands read and write (R271) -/

/-- R278: the fields of a task word. -/
def twA (d : Nat) : Nat := bitsOf d 6 0
def twB (d : Nat) : Nat := bitsOf d 14 8
def twAcc (d : Nat) : Nat := bitsOf d 19 16
def twNk (d : Nat) : Nat := bitsOf d 27 24
def twMeta (d : Nat) : Nat := bitsOf d 38 32
def twApos (d : Nat) : Nat := bitsOf d 41 40
def twMpos (d : Nat) : Nat := bitsOf d 43 42
def twHandle (d : Nat) : Nat := bitsOf d 55 44

/-- R276: the fields of an MLOAD descriptor. -/
def mdGaddr (d : Nat) : Nat := bitsOf d 63 0
def mdScaddr (d : Nat) : Nat := bitsOf d 127 64
def mdRs (d : Nat) : Nat := bitsOf d 159 128
def mdSs (d : Nat) : Nat := bitsOf d 175 160
def mlSlot (d : Nat) : Nat := bitsOf d 182 176
def mlRows (d : Nat) : Nat := if d.testBit 183 then 256 else 128
def mlFmt (d : Nat) : Nat := bitsOf d 188 184
def mlSc (d : Nat) : Bool := d.testBit 189
def mlRo (d : Nat) : Bool := d.testBit 190

/-- R284: the fields of an MCVT task word. -/
def mcAcc (d : Nat) : Nat := bitsOf d 3 0
def mcSlot (d : Nat) : Nat := bitsOf d 14 8
def mcFmt (d : Nat) : Nat := bitsOf d 20 16
def mcRm (d : Nat) : Nat := bitsOf d 23 21
def mcSc (d : Nat) : Bool := d.testBit 24
def mcStep (d : Nat) : Nat := bitsOf d 27 25
def mcNs (d : Nat) : Nat := bitsOf d 30 28

/-- R285: the fields of an MSTORE descriptor. -/
def msAcc (d : Nat) : Nat := bitsOf d 179 176
def msFmt (d : Nat) : Nat := bitsOf d 184 180
def msRm (d : Nat) : Nat := bitsOf d 187 185
def msSc (d : Nat) : Bool := d.testBit 188
def msC0 (d : Nat) : Nat := bitsOf d 194 192
def msNc (d : Nat) : Nat := bitsOf d 203 200

/-- Bits of an output element. -/
def fmtBits (t : Nat) : Nat := ((tagTy t).map Ty.width).getD 8

/-- R285: bytes of an output row. -/
def msRow (d : Nat) : Nat := 4 * msNc d * fmtBits (msFmt d)

def patP (p : SpPat) : Nat := match p with | .p4 => 4 | .p2 => 2 | .p1 => 1

/-- R281: mb of a class. -/
def metaBytes (k : Nat) : Nat := match k with | 1 => 16 | 2 => 64 | _ => 32

def runFrom (k len : Nat) : List Nat := (List.range len).map (fun i => k + i)

/-- R281: the A slots and the metadata slots of an MMASP whose A tag has class `k`. -/
def spA (p : SpPat) (d : Nat) : List Nat :=
  runFrom (twA d) ((16 * twApos d + 16 * patP p * (twNk d + 1) + 63) / 64)
def spMeta (k d : Nat) : List Nat :=
  runFrom (twMeta d) ((metaBytes k * (twMpos d + twNk d + 1) + 63) / 64)
def spB (d : Nat) : List Nat := runFrom (twB d) (4 * (twNk d + 1))
def mmaA (d : Nat) : List Nat := runFrom (twA d) (twNk d + 1)
def mmaB (d : Nat) : List Nat := runFrom (twB d) (2 * (twNk d + 1))

/-- The key of a level's handle: level S counts as context 0xFFF (R299). -/
def ctxKey (s : State) (id : BlockId) : Nat := match blockCtx s id with | some c => c.toNat | none => 0xFFF

/-- The resources of R271 and R307 by number: slots, 128 + accumulator, 256 + handle of a context. -/
def handleRes (s : State) (id : BlockId) (h : Nat) : Nat := 256 + ctxKey s id * 4096 + h

def MCmd.cls (c : MCmd) : Nat :=
  tagClass (((c.tags.find? (fun x => x.1 == twA c.desc.toNat)).map (fun x => x.2.1.toNat)).getD 0)

def MCmd.reads (c : MCmd) : List Nat :=
  let d := c.desc.toNat
  match c.kind with
  | .load | .zero => []
  | .mma | .mmad => mmaA d ++ mmaB d ++ [128 + twAcc d]
  | .mmasp => spA c.pat d ++ spMeta c.cls d ++ spB d ++ [128 + twAcc d]
  | .cvt => [128 + mcAcc d]
  | .store => [128 + msAcc d]

def loadSlots (d : Nat) : List Nat := runFrom (mlSlot d) (mlRows d / 128)
def cvtSlots (d : Nat) : List Nat := runFrom (mcSlot d) (mcNs d + 1)
def zeroAccs (d : Nat) : List Nat := (List.range 16).filter (fun i => d.testBit i)

def MCmd.writes (s : State) (c : MCmd) : List Nat :=
  let d := c.desc.toNat
  match c.kind with
  | .load => loadSlots d
  | .zero => (zeroAccs d).map (128 + ·)
  | .mma | .mmasp => [128 + twAcc d]
  | .mmad => [128 + twAcc d, handleRes s c.block (twHandle d)]
  | .cvt => cvtSlots d
  | .store => []

def meets (a b : List Nat) : Bool := a.any (fun x => b.contains x)

def conflict (s : State) (a b : MCmd) : Bool :=
  meets (a.writes s) (b.reads ++ b.writes s) || meets (b.writes s) a.reads

/-- Every command in the queues of a cluster that is not complete. -/
def clusterCmds (c : Cluster) : List MCmd := (c.queues.flatMap (fun q => q.2.cmds)).filter (fun x => !x.done)

/-- R271, R307: no earlier-accepted command, LBIND or LREF stands in the way. -/
def readyCmd (s : State) (cl : Nat) (c : MCmd) : Bool :=
  (clusterCmds (clusterD s cl)).all (fun x => !(decide (x.order < c.order) && conflict s x c))
    && (clusterD s cl).binds.all (fun x =>
      !(decide (x.order < c.order) && (c.writes s).contains (handleRes s x.block x.handle)))

/-! ### Claims and queues (R267 to R269) -/

def allOnes : BitVec 64 := BitVec.allOnes 64

/-- The lowest run of `n` numbers below `total` that are not taken. -/
def freeRun (taken : List Nat) (total n : Nat) : Option Nat :=
  if total < n then none else
    (List.range (total - n + 1)).find? (fun k => (runFrom k n).all (fun x => !taken.contains x))

def claimSlots (id : BlockId) (cl k n : Nat) (s : State) : State :=
  modCluster cl (fun c => { c with slots := (runFrom k n).foldl (fun l x =>
    aset l x { MSlot.blank with owner := id }) c.slots }) s

def claimAccs (id : BlockId) (cl k n : Nat) (s : State) : State :=
  modCluster cl (fun c => { c with accs := (runFrom k n).foldl (fun l x =>
    aset l x { owner := id, data := [] }) c.accs }) s

def execMclaim (h : Hdr) (acc : Bool) (d : Name) (n : BitVec 8) (s : State) :=
  coreWord (.mclaim h acc d n) h (fun c _ t =>
    let cl := (blockD t c.block).cluster
    let taken := if acc then (clusterD t cl).accs.map (·.1) else (clusterD t cl).slots.map (·.1)
    match freeRun taken (if acc then 16 else 128) n.toNat with
    | none => endWord h c (setMembersS h d allOnes c t)
    | some k =>
      let u := if acc then claimAccs c.block cl k n.toNat t else claimSlots c.block cl k n.toNat t
      endWord h c (setMembersS h d (BitVec.ofNat 64 k) c u)) s

/-- The resource numbers of a run. -/
def runRes (acc : Bool) (k n : Nat) : List Nat := runFrom (if acc then 128 + k else k) n

def namesRun (s : State) (rs : List Nat) (c : MCmd) : Bool := meets rs (c.reads ++ c.writes s)

/-- R268: what stops an MREL, or 0. -/
def mrelStatus (s : State) (id : BlockId) (acc : Bool) (k n : Nat) : Nat :=
  let rs := runRes acc k n
  if (runFrom k n).any (fun x => !(if acc then ownsAcc s id x else ownsSlot s id x)) then 1
  else if (clusterD s (blockD s id).cluster).queues.any (fun q =>
      q.2.state == .error && q.2.cmds.any (fun x => !x.done && namesRun s rs x)) then 2
  else 0

/-- R268: commands that name a resource of the run are not complete. -/
def mrelBusy (s : State) (cl : Nat) (rs : List Nat) : Bool := (clusterCmds (clusterD s cl)).any (namesRun s rs)

/-- R268, R413: frees a run, or leaves it to the next checkpoint of a rollback-capable block. -/
def freeTheRun (id : BlockId) (acc : Bool) (k n : Nat) (s : State) : State :=
  let cl := (blockD s id).cluster
  let run := runFrom k n
  if (launchD s id.lid).rb then
    let s1 := (runRes acc k n).foldl (saveUndo id) s
    let s2 := if acc then s1 else run.foldl (fun t x => modSlot cl x (fun m => { m with stage := none }) t) s1
    modBlock id (fun b => { b with rb := { b.rb with undo :=
      if acc then { b.rb.undo with relAccs := run.foldl insertNat b.rb.undo.relAccs }
      else { b.rb.undo with relSlots := run.foldl insertNat b.rb.undo.relSlots } } }) s2
  else
    modCluster cl (fun c =>
      if acc then { c with accs := c.accs.filter (fun x => !run.contains x.1) }
      else { c with slots := c.slots.filter (fun x => !run.contains x.1) }) s

def execMrel (h : Hdr) (acc : Bool) (d a : Name) (n : BitVec 8) (s : State) :=
  let i := Instr.mrel h acc d a n
  coreWord i h (fun c e t =>
    if c.single.isNone && outsFull e.wp then t else
    let k := (uniVal e a 0).toNat % 256
    let st := mrelStatus t c.block acc k n.toNat
    if st ≠ 0 then endWord h c (setMembersS h d (BitVec.ofNat 64 st) c t)
    else if mrelBusy t (blockD t c.block).cluster (runRes acc k n.toNat) then
      let ws := (gMembers h t c).map (·.w)
      let u := endWord h c (mirrorOut i c e.w e.wp.nextOut ws (addOut c.block e.w (fun x =>
        { blankOut i c x with ops := [(k, 0, 0)], members := ws }) t))
      if c.single.isSome then holdWarps c.block ws i c.pc e.wp.nextOut u else u
    else endWord h c (setMembersS h d 0 c (freeTheRun c.block acc k n.toNat t))) s

/-- R268: the commands that an MREL of the warp waited for have completed. Whether the block still owns the run is not asked
again (log entry 78, DEDUCED). -/
def mrelDone (w : WarpId) (o : Outst) (s : State) : State :=
  match o.instr with
  | .mrel _ acc d _ n =>
    let k := (o.ops.head?.map (·.1)).getD 0
    if o.lead.isSome || mrelBusy s (blockD s w.block).cluster (runRes acc k n.toNat) then s
    else
      closeOut w o (o.members.foldl (fun t m => modWarp w.block m (fun wp => wp.setS d 0) t)
        (freeTheRun w.block acc k n.toNat s))
  | _ => s

def execMrelWaitComplete (w : WarpId) (s : State) :=
  event (fun t =>
    if !(blockD t w.block).resident then t else (warpD t w.block w.warp).outs.foldl (fun u o => mrelDone w o u) t) s

def MQueue.fresh (id : BlockId) : MQueue :=
  { owner := id, issued := 0, completed := 0, cmds := [], state := .idle, cls := 0, estat := 0, offset := 0, token := none, held := 0 }

def execMqcfgAlloc (h : Hdr) (d : Name) (s : State) :=
  coreWord (.mqcfgAlloc h d) h (fun c _ t =>
    let cl := (blockD t c.block).cluster
    match freeRun ((clusterD t cl).queues.map (·.1)) 64 1 with
    | none => endWord h c (setMembersS h d allOnes c t)
    | some q => endWord h c (setMembersS h d (BitVec.ofNat 64 q) c
        (modCluster cl (fun k => { k with queues := aset k.queues q (MQueue.fresh c.block) }) t))) s

def execMqcfgFree (h : Hdr) (d a : Name) (s : State) :=
  coreWord (.mqcfgFree h d a) h (fun c e t =>
    let q := (uniVal e a 0).toNat % 64
    match queueOf t c.block q with
    | none => endWord h c (setMembersS h d 1 c t)
    | some x =>
      match x.state with
      | .error => endWord h c (setMembersS h d 2 c t)
      | .idle => endWord h c (setMembersS h d 0 c
          (modCluster (blockD t c.block).cluster (fun k => { k with queues := adel k.queues q }) t))
      | _ => t) s

def execMqcfgClr (h : Hdr) (d a : Name) (s : State) :=
  coreWord (.mqcfgClr h d a) h (fun c e t =>
    let q := (uniVal e a 0).toNat % 64
    match queueOf t c.block q with
    | some x =>
      if x.state = .error then
        endWord h c (setMembersS h d (BitVec.ofNat 64 x.cmds.length) c
          (modQueue (blockD t c.block).cluster q (fun y =>
            { y with cmds := [], state := .idle, cls := 0, estat := 0, offset := 0 }) t))
      else endWord h c (setMembersS h d 0 c t)
    | none => endWord h c (setMembersS h d 0 c t)) s

/-! ### Acceptance (R270, R273 to R275) -/

/-- R274. -/
def matrixTicket (seq : BitVec 32) (status q : Nat) : BitVec 64 :=
  BitVec.ofNat 64 (seq.toNat + status * 2 ^ 32 + q * 2 ^ 40)

/-- The status of the first check that fails, or 0. -/
def firstBad (l : List (Bool × Nat)) : Nat := ((l.find? (fun x => x.1)).map (fun x => x.2)).getD 0

def newMCmd (k : MKind) (d v : Nat) (o : EngOrd) (id : BlockId) (w : Nat) (seed : BitVec 64) : MCmd :=
  { kind := k, order := 0, done := false, desc := BitVec.ofNat 512 d, v := v, sp := false, z := false, pat := .p4, ord := o, block := id,
    warp := w, seq := 0, seed := seed, pos := 0, stage := .start, snap := none, homes := [], gen := 0, all := false,
    tags := [] }

def noOrd : EngOrd := { rel := false, acq := false, msc := .b }

/-- The tags of slots as they stand now. -/
def tagsNow (s : State) (cl : Nat) (ks : List Nat) : List (Nat × BitVec 5 × Bool) :=
  ks.map (fun k => (k, (slotD s cl k).tag, (slotD s cl k).sref))

/-- R270: a command takes its place; `dst` are the slots whose tag and SREF it sets. R413: with their contents, for the tag
is part of what a rollback restores. -/
def acceptM (q : Nat) (c0 : MCmd) (dst : List Nat) (tag : Nat) (sref : Bool) (s : State) : State :=
  let cl := (blockD s c0.block).cluster
  let tags := tagsNow s cl (c0.reads.filter (fun k => k < 128))
  let s1 := (c0.writes s).foldl (saveUndo c0.block) s
  let s2 := dst.foldl (fun t k => modSlot cl k (fun x =>
    { x with tag := BitVec.ofNat 5 tag, sref := sref, stage := none }) t) s1
  modCluster cl (fun k => { k with
    nextOrder := k.nextOrder + 1
    queues := amod k.queues q (fun x =>
      let c := { c0 with order := k.nextOrder, seq := (x.issued + 1).toNat, tags := tags }
      { x with issued := x.issued + 1, cmds := x.cmds ++ [c]
               state := if x.state = .idle then .running else x.state }) }) s2

/-- R275: checks a command and accepts it; `checks` follow 0x05, 0x08 and 0x07. -/
def issueM (q : Nat) (bad5 : Bool) (checks : List (Bool × Nat)) (c : MCmd) (dst : List Nat) (tag : Nat) (sref : Bool)
    (s : State) : Option (BitVec 64) × State :=
  let mq := aget (clusterD s (blockD s c.block).cluster).queues q
  let issued := (mq.map (·.issued)).getD 0
  let own := queueOf s c.block q
  let st := firstBad ([(bad5, 5), (own.isNone, 8), (own.elim false (fun x => x.state == .error), 7)] ++ checks)
  if st ≠ 0 then (some (matrixTicket issued st q), s)
  else if 32 ≤ (own.map (fun x => x.cmds.length)).getD 0 then (none, s)
  else (some (matrixTicket (issued + 1) 0 q), acceptM q c dst tag sref s)

def isE1 (s : State) (id : BlockId) : Bool := (launchD s id.lid).e1

def seedNow (s : State) (id : BlockId) : BitVec 64 := (launchD s id.lid).seed

/-- R275 status 0x05 under `.SP`: some row below V, or its scales, is not inside the scratchpad. -/
def spBeyond (scratch d v len : Nat) (sc : Bool) (cs : Nat) : Bool :=
  (List.range v).any (fun i => decide (scratch < mdGaddr d % 2 ^ 32 + i * mdRs d + len) ||
    (sc && decide (scratch < mdScaddr d + i * mdSs d + cs)))

/-! ### MLOAD at issue (R276, R277) -/

def mloadChecks (s : State) (id : BlockId) (sp : Bool) (d : Nat) : List (Bool × Nat) :=
  let slots := loadSlots d
  [ (bitsOf d 511 191 ≠ 0 || (!mlSc d && mdScaddr d ≠ 0) || (sp && 2 ^ 32 ≤ mdGaddr d), 1),
    (slots.any (fun k => decide (127 < k)), 2),
    (slots.any (fun k => !ownsSlot s id k), 3),
    (!isTag (isE1 s id) (mlFmt d) || (mlSc d && tagScales (mlFmt d) == 0), 4),
    (mdGaddr d % 16 ≠ 0 || mdRs d % 16 ≠ 0, 6) ]

def issueLoad (sem : Sem) (msc : Msc) (vc : Vc) (sp : Bool) (a : Name) (q : Nat) (c : Cur) (e : Env) (s : State) :
    Option (BitVec 64) × State :=
  let bad := newMCmd .load 0 0 noOrd c.block e.w 0
  match readDesc s c.block ((uniVal e a 0).toNat % 2 ^ 32) 64 with
  | none => issueM q true [] bad [] 0 false s
  | some d =>
    let v := vcOf e vc (mlRows d)
    let beyond := sp &&
      spBeyond (launchD s c.block.lid).scratch d v (tagRow (mlFmt d)) (mlSc d) (tagScales (mlFmt d))
    issueM q beyond (mloadChecks s c.block sp d)
      { newMCmd .load d v (engOrd sem msc) c.block e.w 0 with sp := sp } (loadSlots d) (mlFmt d) (mlSc d) s

def execMload (h : Hdr) (sem : Sem) (msc : Msc) (vc : Vc) (sp : Bool) (d a : Name) (q : BitVec 6) (s : State) :=
  commandWord (.mload h sem msc vc sp d a q) h d (issueLoad sem msc vc sp a q.toNat) s

/-! ### MMA, MMASP, MZERO and MCVT at issue (R278 to R284) -/

/-- The tag of a slot now. -/
def tagNow (s : State) (id : BlockId) (k : Nat) : Nat := (slotD s (blockD s id).cluster k).tag.toNat

/-- R275 status 0x04: slots that are empty, metadata, or of another class than the first A slot. -/
def tagsBad (s : State) (id : BlockId) (cls : Nat) (ks : List Nat) : Bool :=
  ks.any (fun k => tagNow s id k == 0 || tagNow s id k == 0x1D || tagClass (tagNow s id k) != cls)

/-- R275, R278, R279: the checks of MMA; `mask` are the bits that must be zero. -/
def mmaChecks (s : State) (id : BlockId) (mask d : Nat) : List (Bool × Nat) :=
  let slots := mmaA d ++ mmaB d
  [ (d &&& mask != 0, 1),
    (slots.any (fun k => decide (127 < k)), 2),
    (slots.any (fun k => !ownsSlot s id k) || !ownsAcc s id (twAcc d), 3),
    (tagsBad s id (tagClass (tagNow s id (twA d))) slots, 4) ]

def mmaMask : Nat := 0xFFFFFFFFF0F08080

def issueMma (vc : Vc) (z : Bool) (a : Name) (q : Nat) (c : Cur) (e : Env) (s : State) : Option (BitVec 64) × State :=
  let d := (uniVal e a 0).toNat
  issueM q false (mmaChecks s c.block mmaMask d)
    { newMCmd .mma d (vcOf e vc 128) noOrd c.block e.w 0 with z := z } [] 0 false s

def execMma (h : Hdr) (vc : Vc) (z : Bool) (d a : Name) (q : BitVec 6) (s : State) :=
  commandWord (.mma h vc z d a q) h d (issueMma vc z a q.toNat) s

def mmaspMask : Nat := 0xFFFFF080F0F08080

/-- R275, R281: the checks of MMASP. -/
def mmaspChecks (s : State) (id : BlockId) (p : SpPat) (d : Nat) : List (Bool × Nat) :=
  let cls := tagClass (tagNow s id (twA d))
  let dense := spA p d ++ spB d
  let all := dense ++ spMeta cls d
  [ (d &&& mmaspMask != 0, 1),
    (all.any (fun k => decide (127 < k)), 2),
    (all.any (fun k => !ownsSlot s id k) || !ownsAcc s id (twAcc d), 3),
    (tagsBad s id cls dense || (spMeta cls d).any (fun k => tagNow s id k != 0x1D), 4),
    (twApos d % patP p ≠ 0 || 64 / metaBytes cls ≤ twMpos d, 9) ]

def issueMmasp (p : SpPat) (vc : Vc) (z : Bool) (a : Name) (q : Nat) (c : Cur) (e : Env) (s : State) :
    Option (BitVec 64) × State :=
  let d := (uniVal e a 0).toNat
  issueM q false (mmaspChecks s c.block p d)
    { newMCmd .mmasp d (vcOf e vc 128) noOrd c.block e.w 0 with z := z, pat := p } [] 0 false s

def execMmasp (h : Hdr) (pat : SpPat) (vc : Vc) (z : Bool) (d a : Name) (q : BitVec 6) (s : State) :=
  commandWord (.mmasp h pat vc z d a q) h d (issueMmasp pat vc z a q.toNat) s

def issueMzero (a : Name) (q : Nat) (c : Cur) (e : Env) (s : State) : Option (BitVec 64) × State :=
  let d := (uniVal e a 0).toNat
  issueM q false [(2 ^ 16 ≤ d, 1), ((zeroAccs d).any (fun k => !ownsAcc s c.block k), 3)]
    (newMCmd .zero d 128 noOrd c.block e.w 0) [] 0 false s

def execMzero (h : Hdr) (d a : Name) (q : BitVec 6) (s : State) :=
  commandWord (.mzero h d a q) h d (issueMzero a q.toNat) s

def mcvtChecks (s : State) (id : BlockId) (d : Nat) : List (Bool × Nat) :=
  [ (bitsOf d 7 4 ≠ 0 || d.testBit 15 || 2 ^ 31 ≤ d || 4 < mcRm d, 1),
    ((cvtSlots d).any (fun k => decide (127 < k)) ||
      decide (256 < (mcStep d + mcNs d + 1) * classE (tagClass (mcFmt d))), 2),
    ((cvtSlots d).any (fun k => !ownsSlot s id k) || !ownsAcc s id (mcAcc d), 3),
    (!isTag (isE1 s id) (mcFmt d) || mcFmt d == 0x1D || (mcSc d && tagScales (mcFmt d) == 0), 4) ]

def issueMcvt (vc : Vc) (a : Name) (q : Nat) (c : Cur) (e : Env) (s : State) : Option (BitVec 64) × State :=
  let d := (uniVal e a 0).toNat
  issueM q false (mcvtChecks s c.block d) (newMCmd .cvt d (vcOf e vc 128) noOrd c.block e.w (seedNow s c.block))
    (cvtSlots d) (mcFmt d) (mcSc d) s

def execMcvt (h : Hdr) (vc : Vc) (d a : Name) (q : BitVec 6) (s : State) :=
  commandWord (.mcvt h vc d a q) h d (issueMcvt vc a q.toNat) s

/-! ### MSTORE at issue (R285) -/

/-- R285: the output types. -/
def storeFmt (e1 : Bool) (t : Nat) : Bool := t == 0x10 || (isTag e1 t && decide (t ≤ 0x1A))

def mstoreChecks (s : State) (id : BlockId) (sp : Bool) (d : Nat) : List (Bool × Nat) :=
  [ (bitsOf d 191 190 ≠ 0 || bitsOf d 199 195 ≠ 0 || bitsOf d 255 204 ≠ 0 || bitsOf d 511 320 ≠ 0 ||
      (!msSc d && mdScaddr d ≠ 0) || (sp && 2 ^ 32 ≤ mdGaddr d) || 4 < msRm d, 1),
    (msNc d == 0 || decide (8 < msC0 d + msNc d), 2),
    (!ownsAcc s id (msAcc d), 3),
    (!storeFmt (isE1 s id) (msFmt d) || (msSc d && tagScales (msFmt d) == 0), 4),
    (mdGaddr d % 16 ≠ 0 || mdRs d % 16 ≠ 0, 6) ]

def issueStore (sem : Sem) (msc : Msc) (vc : Vc) (sp : Bool) (a : Name) (q : Nat) (c : Cur) (e : Env) (s : State) :
    Option (BitVec 64) × State :=
  let bad := newMCmd .store 0 0 noOrd c.block e.w 0
  match readDesc s c.block ((uniVal e a 0).toNat % 2 ^ 32) 64 with
  | none => issueM q true [] bad [] 0 false s
  | some d =>
    let v := vcOf e vc 128
    let seed := if d.testBit 189 then BitVec.ofNat 64 (bitsOf d 319 256) else seedNow s c.block
    let beyond := sp && spBeyond (launchD s c.block.lid).scratch d v (msRow d) (msSc d) (msNc d)
    issueM q beyond (mstoreChecks s c.block sp d)
      { newMCmd .store d v (engOrd sem msc) c.block e.w seed with sp := sp } [] 0 false s

def execMstore (h : Hdr) (sem : Sem) (msc : Msc) (vc : Vc) (sp : Bool) (d a : Name) (q : BitVec 6) (s : State) :=
  commandWord (.mstore h sem msc vc sp d a q) h d (issueStore sem msc vc sp a q.toNat) s

/-! ### Arithmetic of tile tasks (R279, R281, R282) -/

def MCmd.tag (c : MCmd) (k : Nat) : Nat × Bool :=
  ((c.tags.find? (fun x => x.1 == k)).map (fun x => (x.2.1.toNat, x.2.2))).getD (0, false)

/-- Row `m` of slot `k` as the command reads it. -/
def slotRow (s : State) (cl : Nat) (c : MCmd) (k m : Nat) : List FV :=
  let x := slotD s cl k
  let t := c.tag k
  rowVals t.1 t.2 (rowNat x.data (64 * m) 64) (rowNat x.side (4 * m) 4)

/-- R264: the 256 columns of a B tile. -/
def bCols (s : State) (cl : Nat) (c : MCmd) (k : Nat) : List (List FV) :=
  (List.range 256).map (fun n => slotRow s cl c (k + n / 128) (n % 128))

def accRow (a : Sparse 32) (m : Nat) : List (BitVec 32) :=
  let w := swin a (256 * m) 256
  (List.range 256).map (fun n => sget w (256 * m + n))

/-- One K-step of R91 of a row over every column. -/
def rowStep (a : List FV) (b : List (List FV)) (acc : List (BitVec 32)) : List (BitVec 32) :=
  List.zipWith (fun c col => accStep c (List.zipWith prodZ a col)) acc b

/-- Applies `f` to each row of an accumulator below V. -/
def accRows (v : Nat) (f : Nat → List (BitVec 32) → List (BitVec 32)) (a : Sparse 32) : Sparse 32 :=
  (List.range v).foldl (fun x m => sputRow x (256 * m) (f m (accRow x m))) a

/-- The row a task starts from. -/
def startRow (c : MCmd) (t : Nat) (r : List (BitVec 32)) : List (BitVec 32) :=
  if c.z && t == 0 then List.replicate 256 0#32 else r

/-- R279: task t of an MMA. -/
def mmaTask (s : State) (cl : Nat) (c : MCmd) (t : Nat) (a : Sparse 32) : Sparse 32 :=
  let d := c.desc.toNat
  let b := bCols s cl c (twB d + 2 * t)
  accRows c.v (fun m r => rowStep (slotRow s cl c (twA d + t) m) b (startRow c t r)) a

/-- The bytes of row `m` of the slots from `k` on, as one stream (R281). -/
def streamBytes (s : State) (cl k m pos len : Nat) : List Nat :=
  (List.range len).map (fun i => (sget (slotD s cl (k + (pos + i) / 64)).data (64 * m + (pos + i) % 64)).toNat)

def popcount (x len : Nat) : Nat := ((List.range len).filter (fun i => x.testBit i)).length

/-- R281: the masks and scales of task t in row m. -/
def spMasks (s : State) (cl : Nat) (c : MCmd) (t m : Nat) : List Nat × List Nat :=
  let d := c.desc.toNat
  let mb := metaBytes c.cls
  let e2 := 2 * classE c.cls
  let bs := streamBytes s cl (twMeta d) m (mb * (twMpos d + t)) mb
  (bs.take (e2 / 8), (bs.drop (e2 / 8)).take (e2 / 32))

/-- R282: a mask of the task, in the rows below V, keeps another count than P (log entry 77, DEDUCED). -/
def spBad (s : State) (cl : Nat) (c : MCmd) (t : Nat) : Bool :=
  (List.range c.v).any (fun m => (spMasks s cl c t m).1.any (fun x => popcount x 8 != patP c.pat))

/-- R281: kept element `i` of task t in row m, without its scale; its slot's tag. -/
def spKept (s : State) (cl : Nat) (c : MCmd) (t m i : Nat) : FV × Nat :=
  let d := c.desc.toNat
  let e := classE c.cls
  let g := (16 * twApos d + 16 * patP c.pat * t) * 8 / classBits c.cls + i
  let k := twA d + g / e
  let tag := (c.tag k).1
  (codeVal tag (rowCode tag (rowNat (slotD s cl k).data (64 * m) 64) (g % e)), tag)

/-- R77, R92, R282: the dense row of task t; a skipped element is a zero of its block, NaN under scale 0xFF. -/
def spRow (s : State) (cl : Nat) (c : MCmd) (t m : Nat) : List FV :=
  let (masks, scales) := spMasks s cl c t m
  (List.range (2 * classE c.cls)).map (fun k =>
    let mask := (masks[k / 8]?).getD 0
    if mask.testBit (k % 8) then
      let x := spKept s cl c t m (k / 8 * patP c.pat + popcount mask (k % 8))
      scaledDec x.1 (if tagScales x.2 = 0 then none else scales[k / 32]?)
    else scaledDec FV.zero (if tagScales (spKept s cl c t m (k / 8 * patP c.pat)).2 = 0 then none else scales[k / 32]?))

/-- R282: task t of an MMASP: two K-steps. -/
def mmaspTask (s : State) (cl : Nat) (c : MCmd) (t : Nat) (a : Sparse 32) : Sparse 32 :=
  let d := c.desc.toNat
  let e := classE c.cls
  let b0 := bCols s cl c (twB d + 4 * t)
  let b1 := bCols s cl c (twB d + 4 * t + 2)
  accRows c.v (fun m r =>
    let x := spRow s cl c t m
    rowStep (x.drop e) b1 (rowStep (x.take e) b0 (startRow c t r))) a

/-! ### Conversion out of an accumulator (R78, R284, R286) -/

/-- R78: the scale of a block of values. -/
def blockScale (t : Ty) (vs : List FV) : Nat :=
  vs.foldl (fun x v => max x (scaleCode t v)) 0

/-- The code of a value without a scale (R82, R83). -/
def plainCode (t : Nat) (rm : Rm) (dr : Draw) (v : BitVec 32) : Nat :=
  match tagTy t with
  | none => 0
  | some .f32 => v.toNat
  | some ty =>
    if ty.isInt || ty == .int4 then
      ((f32 v).toInt rm (some dr) (intLo ty.width (isSigned ty)) (intHi ty.width (isSigned ty)) % (2 ^ ty.width : Nat)).toNat
    else encTy ty rm (some dr) (f32 v)

/-- R78: scale and codes of a block of 32 columns; `idx` is the element index of the first. -/
def scaledBlock (t : Nat) (rm : Rm) (seed : BitVec 64) (idx : Nat) (vs : List (BitVec 32)) : Nat × List Nat :=
  let ty := (tagTy t).getD .e4m3
  let fs := vs.map f32
  let x := blockScale ty fs
  if x = 0xFF || fs.all FV.isZero then (x, vs.map (fun _ => 0))
  else (x, fs.zipIdx.map (fun f => scaledEnc ty rm (some { seed := seed, idx := BitVec.ofNat 64 (idx + f.2) }) f.1 x))

/-- The codes and scales of the columns from `c0` of a row (R284, R286). -/
def convertCols (t : Nat) (rm : Rm) (sc : Bool) (seed : BitVec 64) (m c0 : Nat) (vs : List (BitVec 32)) :
    List Nat × List Nat :=
  if sc then
    let blocks := (List.range (vs.length / 32)).map (fun j =>
      scaledBlock t rm seed (m * 256 + c0 + 32 * j) ((vs.drop (32 * j)).take 32))
    (blocks.flatMap (·.2), blocks.map (·.1))
  else
    (vs.zipIdx.map (fun v => plainCode t rm { seed := seed, idx := BitVec.ofNat 64 (m * 256 + c0 + v.2) } v.1), [])

/-- Codes of `w` bits, element 0 lowest. -/
def packCodes (w : Nat) (l : List Nat) : Nat := l.zipIdx.foldl (fun a x => a + x.1 * 2 ^ (w * x.2)) 0

/-- R284: row m of destination slot number `i` of an MCVT: 64 bytes and the scale bytes. -/
def cvtRow (a : Sparse 32) (c : MCmd) (i m : Nat) : List (BitVec 8) × List (BitVec 8) :=
  let d := c.desc.toNat
  let t := mcFmt d
  let e := classE (tagClass t)
  let c0 := (mcStep d + i) * e
  if c.v ≤ m then (List.replicate 64 0, List.replicate (tagScales t) 0)
  else
    let r := convertCols t (Rm.ofCode (mcRm d)) (mcSc d) c.seed m c0 (((accRow a m).drop c0).take e)
    (leBytes 64 (packCodes (classBits (tagClass t)) r.1), r.2.map (BitVec.ofNat 8))

/-- R284: one slot's rows from `m` on, eight of them. -/
def cvtGranule (cl : Nat) (c : MCmd) (s : State) : State :=
  let d := c.desc.toNat
  let i := c.pos / 8192
  let k := mcSlot d + i
  let a := accD s cl (mcAcc d)
  (List.range 8).foldl (fun t j =>
    let m := c.pos % 8192 / 64 + j
    let r := cvtRow a c i m
    modSlot cl k (fun x => { x with
      data := sputRow x.data (64 * m) r.1
      side := if mcSc d then sputRow x.side (4 * m) r.2 else x.side }) t) s

/-- R286: the data bytes and scale bytes of output row m. -/
def storeRow (a : Sparse 32) (c : MCmd) (m : Nat) : List (BitVec 8) × List (BitVec 8) :=
  let d := c.desc.toNat
  let r := convertCols (msFmt d) (Rm.ofCode (msRm d)) (msSc d) c.seed m (32 * msC0 d)
    (((accRow a m).drop (32 * msC0 d)).take (32 * msNc d))
  (leBytes (msRow d) (packCodes (fmtBits (msFmt d)) r.1), r.2.map (BitVec.ofNat 8))

/-! ### Granules of MLOAD and MSTORE (R277, R286, R292) -/

/-- Rows in the payload, bytes of a row, and scale bytes of a row. -/
def MCmd.shape (c : MCmd) : Nat × Nat × Nat :=
  let d := c.desc.toNat
  match c.kind with
  | .load => (mlRows d, tagRow (mlFmt d), if mlSc d then tagScales (mlFmt d) else 0)
  | .store => (c.v, msRow d, if msSc d then msNc d else 0)
  | .cvt => ((mcNs d + 1) * 128, 64, 0)
  | _ => (0, 0, 0)

/-- How far a command has to come: bytes, or tasks. -/
def MCmd.total (c : MCmd) : Nat :=
  match c.kind with
  | .mma | .mmasp | .mmad => twNk c.desc.toNat + 1
  | _ => let x := c.shape; x.1 * (x.2.1 + x.2.2)

/-- A run of one row in a granule: whether of scales, its row, place in the row, length, and offset in the payload. -/
structure MRun where
  scale : Bool
  row : Nat
  lo : Nat
  n : Nat
  off : Nat

/-- The runs of rows of `len` bytes that start at `base` of the payload, from `pos` to `fin`. -/
def rowRuns (scale : Bool) (base len pos fin : Nat) : List MRun :=
  let p := pos - base
  let f := fin - base
  if len = 0 || f ≤ p then [] else
    (List.range ((f - 1) / len - p / len + 1)).map (fun i =>
      let r := p / len + i
      let lo := max p (r * len) - r * len
      { scale := scale, row := r, lo := lo, n := min f ((r + 1) * len) - r * len - lo, off := base + r * len + lo })

/-- R292: the data rows, then the scale bytes, from `pos` to `fin`. -/
def MCmd.runs (c : MCmd) (pos fin : Nat) : List MRun :=
  let x := c.shape
  let data := x.1 * x.2.1
  rowRuns false 0 x.2.1 pos (min fin data) ++ rowRuns true data x.2.2 pos fin

/-- The memory address of a run. -/
def MCmd.addr (c : MCmd) (r : MRun) : Nat :=
  let d := c.desc.toNat
  if r.scale then mdScaddr d + r.row * mdSs d + r.lo else mdGaddr d + r.row * mdRs d + r.lo

/-- The pieces of runs; `so` is the offset in the payload. -/
def MCmd.pieces (c : MCmd) (rs : List MRun) : List Piece := rs.flatMap (fun r => linePieces (c.addr r % 2 ^ 64) r.off r.n)

/-- R79, R264: `bs` at byte `lo` of the `len` bytes that row r has in memory. -/
def putRowBytes (len r lo : Nat) (bs : List (BitVec 8)) (m : Sparse 8) : Sparse 8 :=
  if len = 48 then
    let old := leBytes 48 (packRow (rowNat m (64 * r) 64))
    sputRow m (64 * r) (leBytes 64 (unpackRow (leNat (old.take lo ++ bs ++ old.drop (lo + bs.length)))))
  else sputRow m (64 * r + lo) bs

/-- Puts payload bytes of an MLOAD into its slots (R79, R264). -/
def putPayload (cl : Nat) (c : MCmd) (off : Nat) (bs : List (BitVec 8)) (s : State) : State :=
  let d := c.desc.toNat
  let x := c.shape
  let data := x.1 * x.2.1
  if off < data then
    let i := off / x.2.1
    let lo := off % x.2.1
    let r := i % 128
    modSlot cl (mlSlot d + i / 128) (fun m => { m with data := putRowBytes x.2.1 r lo bs m.data }) s
  else
    let i := (off - data) / x.2.2
    modSlot cl (mlSlot d + i / 128) (fun m => { m with
      side := sputRow m.side (4 * (i % 128) + (off - data) % x.2.2) bs }) s

/-- R277: what rows at or above V take. -/
def putDead (cl : Nat) (c : MCmd) (rs : List MRun) (s : State) : State :=
  rs.foldl (fun t r => putPayload cl c r.off (List.replicate r.n (if r.scale then 0x7F else 0)) t) s

/-- One piece of an MLOAD: read, then put into its slot. -/
def loadPiece (cl : Nat) (c : MCmd) (snap : Option Nat) (x : Piece × Place) (acc : Option Nat × State) :
    Option Nat × State :=
  let (bs, err, t) := match snap with
    | some e => snapLoad x.2 x.1.n e acc.2
    | none => agentLoad c.block x.2 x.1.n acc.2
  match err with
  | some pa => (some (acc.1.getD pa), t)
  | none => (acc.1, putPayload cl c x.1.so bs t)

/-- R277: a granule of an MLOAD. -/
def moveLoadM (cl : Nat) (c : MCmd) (fin : Nat) (s : State) : MoveEnd :=
  let (live, dead) := (c.runs c.pos fin).partition (fun r => decide (r.row < c.v))
  if c.sp then
    .moved none [] (putDead cl c dead (live.foldl (fun t r =>
      putPayload cl c r.off (scratchRead t c.block (c.addr r) r.n) t) s))
  else
    match placePieces c.block .load (c.pieces live) s with
    | .error (cls, va) => .fault cls va s
    | .ok (ps, t) =>
      let before := c.pieces ((c.runs 0 c.pos).filter (fun r => decide (r.row < c.v)))
      let (inj, t0) := injectPieces c.block before ps t
      if inj then .error 0 t0 else
      let snap := if ps.all (fun x => stageable t0 c.block x.2) then c.snap else none
      match ps.foldl (fun acc x => loadPiece cl c snap x acc) (none, putDead cl c dead t0) with
      | (some pa, u) => .error pa u
      | (none, u) => .moved snap [] u

/-- The payload bytes of an MSTORE from `off`. -/
def storeBytes (a : Sparse 32) (c : MCmd) (off len : Nat) : List (BitVec 8) :=
  let x := c.shape
  let data := x.1 * x.2.1
  if off < data then (((storeRow a c (off / x.2.1)).1).drop (off % x.2.1)).take len
  else (((storeRow a c ((off - data) / x.2.2)).2).drop ((off - data) % x.2.2)).take len

/-- R286: a granule of an MSTORE. -/
def moveStoreM (cl : Nat) (c : MCmd) (fin : Nat) (s : State) : MoveEnd :=
  let rs := c.runs c.pos fin
  let a := accD s cl (msAcc c.desc.toNat)
  if c.sp then
    .moved none [] (rs.foldl (fun t r => scratchWrite c.block (c.addr r) (storeBytes a c r.off r.n) t) s)
  else
    match placePieces c.block .store (c.pieces rs) s with
    | .error (cls, va) => .fault cls va s
    | .ok (ps, t) =>
      ps.foldl (fun o x => match o with
        | .moved snap homes u =>
          match storePlace c.block x.2 (storeBytes a c x.1.so x.1.n) u with
          | .made v => .moved snap (match x.2 with | .remote dev _ => insertNat homes dev | _ => homes) v
          | .error pa v => .error pa v
          | .stall v => .stall v
        | r => r) (.moved none c.homes t)

/-- A command takes the place of its older self. -/
def setCmd (cl q : Nat) (c : MCmd) (s : State) : State :=
  modQueue cl q (fun x => { x with cmds := x.cmds.map (fun y => if y.order = c.order then c else y) }) s

/-- R277, R286, R293: the acquire, and the snapshot epoch of a read-only load from global memory; RO says nothing of a load
from the scratchpad (log entry 76, DEDUCED). -/
def beginM (c : MCmd) (s : State) : MCmd × State :=
  if c.stage = .start then
    let t := if c.ord.acq then agentAcquire c.block c.ord.msc s else s
    ({ c with stage := .data
              snap := if c.kind = .load && !c.sp && mlRo c.desc.toNat then some t.epoch else none }, t)
  else (c, s)

/-- R292: the queue enters Error and the engine trap is due. -/
def matrixError (cl q : Nat) (c : MCmd) (cls estat off : Nat) (s : State) : State :=
  modQueue cl q (fun x => { x with state := .error, cls := cls, estat := estat, offset := off, held := c.order })
    (engineTrap c.block c.warp 1 q (if estat = 0 then cls else estat) c.seq off s)

/-- The state of a queue; a queue that nobody has is Idle. -/
def queueState (s : State) (cl q : Nat) : QState := ((aget (clusterD s cl).queues q).map (·.state)).getD .idle

/-- R292: a fault at the granule that starts at the command's offset. In a queue that stands still already the command waits
before that granule until the queue runs again. -/
def matrixFault (cl q : Nat) (c : MCmd) (cls va : Nat) (s : State) : State :=
  if cls = heldClass || queueState s cl q != .running then s
  else if servedFault s c.block cls then
    let (tok, t) := engineFault c.block va cls 2 (c.kind == .store) s
    modQueue cl q (fun x => { x with state := .stalled, cls := cls, offset := c.pos, token := tok, held := c.order }) t
  else matrixError cl q c cls 0 c.pos s

/-- R439: an uncorrectable sector under a matrix command. -/
def matrixDataError (cl q : Nat) (c : MCmd) (pa : Nat) (s : State) : State :=
  if queueState s cl q != .running then s
  else if (launchD s c.block.lid).rb then
    modQueue cl q (fun x => { x with state := .stalled, cls := 0xF, offset := c.pos, held := c.order }) (engineRollback c.block c.warp pa s)
  else matrixError cl q c 0xF 0 c.pos s

/-- The scratchpad bytes a granule writes, for R413. -/
def matrixWrites (c : MCmd) (fin : Nat) : List (Nat × Nat) :=
  if c.kind = .store && c.sp then (c.runs c.pos fin).map (fun r => (c.addr r, r.n)) else []

/-- R413: the slots that a granule writes, and the accumulators of an MZERO. -/
def matrixTouches (c : MCmd) (fin : Nat) : List Nat :=
  let d := c.desc.toNat
  match c.kind with
  | .load => ((c.runs c.pos fin).map (fun r => mlSlot d + r.row / 128)).foldl insertNat []
  | .cvt => [mcSlot d + c.pos / 8192]
  | .zero => (zeroAccs d).map (128 + ·)
  | .mma | .mmasp | .mmad => [128 + twAcc d]
  | .store => []

/-- Where the next granule of a command ends. -/
def MCmd.fin (c : MCmd) : Nat := min (c.pos + 512) c.total

/-- Moves the next granule of a command. -/
def stepMatrix (cl q : Nat) (c0 : MCmd) (s : State) : State :=
  let (c, s1) := beginM c0 s
  if needsCheckpoint s c.block (matrixWrites c c.fin) then askCheckpoint c.block s else
  let s2 := (matrixTouches c c.fin).foldl (saveUndo c.block) s1
  let r : MoveEnd := match c.kind with
    | .cvt => .moved none [] (cvtGranule cl c s2)
    | .store => moveStoreM cl c c.fin s2
    | _ => moveLoadM cl c c.fin s2
  match r with
  | .moved snap homes t => setCmd cl q { c with pos := c.fin, snap := snap, homes := homes } t
  | .fault cls va t => matrixFault cl q c cls va (setCmd cl q c t)
  | .error pa t => matrixDataError cl q c pa (setCmd cl q c t)
  | .stall _ => stallOnTable c.block (setCmd cl q c s1)

/-- R271, R291, R292: a command may act: its queue runs, or stands still at another command that it does not have to wait
for, in Error only before the one that failed; its block is resident, its engines are not held (R294, R312). -/
def runnable (s : State) (cl : Nat) (x : MQueue) (c : MCmd) : Bool :=
  let b := blockD s c.block
  let turn := match x.state with
    | .running => true
    | .stalled => c.order != x.held
    | .error => decide (c.order < x.held)
    | .idle => false
  turn && !c.done && b.resident && (!enginesHeld b || (c.kind == .mmad && c.stage != .start)) && readyCmd s cl c

/-- R411: only a release is left of the command. -/
def CmdStage.waits (x : CmdStage) : Bool := x == .release || x == .finished

/-- R411 step 2: a command pauses before a write that needs a checkpoint, or before a release that does. -/
def MCmd.pauses (s : State) (c : MCmd) : Bool := c.stage.waits || needsCheckpoint s c.block (matrixWrites c c.fin)

/-- The command of a queue that acts next: the first that may, one that pauses after the others. -/
def activeHead (s : State) (cl q : Nat) : Option MCmd :=
  match aget (clusterD s cl).queues q with
  | some x => (x.cmds.find? (fun c => runnable s cl x c && !c.pauses s)).or (x.cmds.find? (runnable s cl x))
  | none => none

def MKind.moves (k : MKind) : Bool := k == .load || k == .store || k == .cvt

def execMassifGranuleTransfer (cl q : Nat) (s : State) :=
  event (fun t => match activeHead t cl q with
    | some c => if c.kind.moves && decide (c.pos < c.total) then stepMatrix cl q c t else t
    | none => t) s

/-! ### MWAIT and MSTAT (R288 to R290) -/

/-- R288: the value of MWAIT, and whether its condition holds. -/
def mwaitVal (x : MQueue) : BitVec 64 := BitVec.ofNat 64 (x.completed.toNat + qstateCode x.state * 2 ^ 32)

def mwaitDone (x : MQueue) (target : BitVec 32) : Bool := decide ((x.completed - target).toNat < 2 ^ 31)

def execMwait (h : Hdr) (acq : Bool) (msc : Msc) (tmo : BitVec 2) (d : Name) (q : BitVec 6) (b : Name) (s : State) :=
  let i := Instr.mwait h acq msc tmo d q b
  coreWord i h (fun c e t =>
    let target := (uniVal e b 0).setWidth 32
    match queueOf t c.block q.toNat with
    | none => endWord h c (putMembersS h d allOnes c t)
    | some x =>
      let done := mwaitDone x target
      if done || x.state == .error then
        let u := putMembersS h d (mwaitVal x) c t
        endWord h c (if done && acq then acquireMembers h msc c u else u)
      else
        sleepWord c e { instr := i, pc := c.pc, lanes := c.group, place := .scratch 0, va := q.toNat,
                        cmp := target.setWidth 64, deadline := tmoDeadline t tmo.toNat, since := t.clock,
                        last := mwaitVal x, members := [], word := 0 } t) s

def isMwait (z : Sleep) : Bool := match z.instr with | .mwait .. => true | _ => false

/-- R288: wakes the members of an MWAIT when its queue says so. -/
def checkMwait (w : WarpId) (z : Sleep) (s : State) : State :=
  match z.instr with
  | .mwait h acq msc _ d q _ =>
    match queueOf s w.block q.toNat with
    | none => wakeWord w z h d allOnes none s
    | some x =>
      let done := mwaitDone x (z.cmp.setWidth 32)
      if done || x.state == .error then wakeWord w z h d (mwaitVal x) (if done && acq then some msc else none) s else s
  | _ => s

def timeoutMwait (w : WarpId) (z : Sleep) (s : State) : State :=
  match z.instr with
  | .mwait h acq msc _ d q _ =>
    match queueOf s w.block q.toNat with
    | none => wakeWord w z h d allOnes none s
    | some x => wakeWord w z h d (mwaitVal x) (if mwaitDone x (z.cmp.setWidth 32) && acq then some msc else none) s
  | _ => s

def execMwaitWake (w : WarpId) (s : State) := event (eachSleep w isMwait (checkMwait w)) s

def execMwaitTimeout (w : WarpId) (s : State) :=
  event (fun t => eachSleep w (fun z => isMwait z && pastDeadline t z) (timeoutMwait w) t) s

/-- R290; `free` stands for the progress of an array command, which the spec leaves open. -/
def matrixState (x : MQueue) (free : Nat) : Nat :=
  let held := x.state == .stalled || x.state == .error
  let off := match x.state with
    | .stalled | .error => x.offset
    | .running => match x.cmds.head? with
      | some c => if c.kind.moves then c.pos else free
      | none => 0
    | .idle => 0
  qstateCode x.state + (if held then x.cls else 0) * 2 ^ 2 + x.cmds.length * 2 ^ 8 + x.estat * 2 ^ 16 + off % 2 ^ 32 * 2 ^ 32

/-- R262, R289: the state of a slot. -/
def slotState (s : State) (id : BlockId) (k : Nat) : Nat :=
  let x := slotD s (blockD s id).cluster k
  x.tag.toNat + (if x.sref then 2 ^ 5 else 0) + (if x.stage.isSome then 2 ^ 6 else 0) + (if ownsSlot s id k then 2 ^ 7 else 0)

def mstatVal (s : State) (c : Cur) (k : MstatQ) (a : Nat) : BitVec 64 :=
  let cl := clusterD s (blockD s c.block).cluster
  match k with
  | .queue => match queueOf s c.block (a % 64) with
    | none => allOnes
    | some x => BitVec.ofNat 64 (matrixState x (Config.free64 s.draws).toNat)
  | .slot => BitVec.ofNat 64 (slotState s c.block (a % 128))
  | .own => BitVec.ofNat 64 ((List.range 16).foldl (fun v k => if ownsAcc s c.block k then v + 2 ^ k else v) 0)
  | .free => BitVec.ofNat 64 (128 - cl.slots.length + (16 - cl.accs.length) * 2 ^ 8 + (64 - cl.queues.length) * 2 ^ 16)

def execMstat (h : Hdr) (k : MstatQ) (d a : Name) (s : State) :=
  coreWord (.mstat h k d a) h (fun c e t =>
    endWord h c { setMembersS h d (mstatVal t c k (uniVal e a 0).toNat) c t with draws := t.draws + 1 }) s

end Sys2Proof.Machine
end

