-- ==== Sys2Proof/Machine/Delta.lean ====
section
/-!
DEFINITION. Machine/Delta.lean: delta-mode execution: the watch table, handle records and Cornice buffers, LWATCH, LBIND,
LREF, and MMAD (R299 to R315).
-/
namespace Sys2Proof.Machine

/-! ### The watch table (R299 to R301) -/

def Watch.blank : Watch := { first := 0, count := 0, gen := 0, ctx := 0, v := false }

def watchD (s : State) (k : Nat) : Watch := (aget s.watch k).getD Watch.blank

/-- The entry is valid and owned by the level or context of a block. -/
def watchOwned (s : State) (id : BlockId) (k : Nat) : Bool :=
  (watchD s k).v && (watchD s k).ctx.toNat == ctxKey s id

/-- One contiguous run of logical lines, from its first address. -/
def logRun : List (Place × Nat) → Option Nat
  | [(.log la _, _)] => some la
  | (.log la _, n) :: t => match logRun t with
    | some x => if x = la + n then some la else none
    | none => none
  | _ => none

/-- R301: LWATCH.ADD: the entry taken, or its status; none while phase 1 holds the word (R429). -/
def watchAdd (c : Cur) (a b : Nat) (s : State) : Option (BitVec 64 × State) :=
  let fail (st : Nat) : Option (BitVec 64 × State) := some (BitVec.ofNat 64 (0xFFFFFFFF00000000 + st), s)
  if a % 128 ≠ 0 || b % 128 ≠ 0 || b = 0 || 2 ^ 30 < b then fail 0x21
  else match rangePieces c a b s with
    | .error (cls, _) => if cls = heldClass then none else fail 0x22
    | .ok ps => match logRun ps with
      | none => fail 0x23
      | some la => match (List.range 1024).find? (fun k => !(watchD s k).v) with
        | none => fail 0x24
        | some k =>
          let e : Watch :=
            { first := la / 128, count := b / 128, gen := (watchD s k).gen + 1, v := true,
              ctx := BitVec.ofNat 12 (ctxKey s c.block) }
          some (BitVec.ofNat 64 k, { s with watch := aset s.watch k e })

def execLwatchAdd (h : Hdr) (d a b : Name) (s : State) :=
  coreWord (.lwatchAdd h d a b) h (fun c e t =>
    match watchAdd c (uniVal e a 0).toNat (uniVal e b 0).toNat t with
    | none => t
    | some (v, u) => endWord h c (setMembersS h d v c u)) s

def execLwatchDel (h : Hdr) (d a : Name) (s : State) :=
  coreWord (.lwatchDel h d a) h (fun c e t =>
    let k := (uniVal e a 0).toNat % 1024
    if watchOwned t c.block k then
      endWord h c (setMembersS h d 0 c { t with watch := amod t.watch k (fun x => { x with v := false }) })
    else endWord h c (setMembersS h d 1 c t)) s

def execLwatchGen (h : Hdr) (d a : Name) (s : State) :=
  coreWord (.lwatchGen h d a) h (fun c e t =>
    let k := (uniVal e a 0).toNat % 1024
    endWord h c (setMembersS h d
      (if watchOwned t c.block k then BitVec.ofNat 64 (watchD t k).gen else allOnes) c t)) s

/-! ### Handle records (R302) -/

/-- The physical address of the handle table of a block's level, if it has one. -/
def handleTable (s : State) (id : BlockId) : Option Nat :=
  let pa := match blockCtx s id with
    | some c => ctxField s c.toNat 218 192 * 8192
    | none => s.csr.shtb.toNat
  if pa = 0 then none else some pa

/-- The mask of the bytes of sectors. -/
def sectorBytes (v : BitVec 4) : Mask :=
  (List.range 4).foldl (fun a i => if v.getLsbD i then a ||| maskOf (32 * i) 32 else a) 0

/-! ### The Cornice cache (R311, R312; log entry 20) -/

def CLine.same (x y : CLine) : Bool := x.ctx == y.ctx && x.line == y.line

def CLine.blank (ctx line : Nat) : CLine := { ctx := ctx, line := line, data := 0, valid := 0, dirty := 0, ks := 0 }

def corniceLine (s : State) (cl ctx line : Nat) : Option CLine :=
  (clusterD s cl).cornice.find? (fun x => x.ctx == ctx && x.line == line)

/-- R311: a line enters the cache in place of its older self; of 16,384 lines the oldest leaves (log entry 86, DESIGN
CHOICE). -/
def cornicePush (cl : Nat) (x : CLine) (s : State) : State :=
  let rest := (clusterD s cl).cornice.filter (fun y => !y.same x)
  let s1 := modCluster cl (fun c => { c with cornice := rest ++ [x] }) s
  if 16384 ≤ rest.length then corniceFlush cl (fun y => rest.head?.any y.same) s1 else s1

/-- Puts bytes of one line, whole sectors, into the cache. -/
def cornicePut (cl ctx ks pa : Nat) (bs : List (BitVec 8)) (s : State) : State :=
  let m := maskOf (pa % 128) bs.length
  let old := (corniceLine s cl ctx (pa / 128)).getD (CLine.blank ctx (pa / 128))
  cornicePush cl { old with
    data := mergeLine old.data (bytesLine (pa % 128) bs) m
    valid := old.valid ||| touchedSectors m
    dirty := old.dirty ||| touchedSectors m
    ks := ks } s

/-- Puts bytes line by line from a line's start. -/
def corniceWrite (cl ctx ks pa : Nat) (bs : List (BitVec 8)) (s : State) : State :=
  (List.range ((bs.length + 127) / 128)).foldl (fun t i =>
    cornicePut cl ctx ks (pa + 128 * i) ((bs.drop (128 * i)).take 128) t) s

/-- R311: whole lines from a line's start, through the cache, which takes what it reads from HBM: the bytes, and the
addresses of the lines that cannot be read. -/
def corniceFetch (cl ctx ks pa n : Nat) (s : State) : List (BitVec 8) × List Nat × State :=
  (List.range (n / 128)).foldl (fun (acc : List (BitVec 8) × List Nat × State) i =>
    let line := pa / 128 + i
    let old := (corniceLine acc.2.2 cl ctx line).getD (CLine.blank ctx line)
    if old.valid = 15 then (acc.1 ++ leBytes 128 old.data.toNat, acc.2.1, acc.2.2) else
    let r := fixedFromHbm acc.2.2 (128 * line) ks
    let d := mergeLine r.1 old.data (sectorBytes old.valid)
    if r.2 &&& ~~~old.valid = 0 then
      (acc.1 ++ leBytes 128 d.toNat, acc.2.1, cornicePush cl { old with data := d, valid := 15, ks := ks } acc.2.2)
    else (acc.1 ++ leBytes 128 d.toNat, acc.2.1 ++ [128 * line], acc.2.2)) ([], [], s)

/-- A record as it stands, in a Cornice cache or in HBM; 0, unbound, where there is no table. -/
def handleRec (s : State) (id : BlockId) (h : Nat) : Nat :=
  (handleTable s id).elim 0 (fun pa =>
    let a := pa + 64 * h
    let secs := touchedSectors (maskOf (a % 128) 64)
    match s.clusters.findSome? (fun c => c.2.cornice.find? (fun x =>
        x.ctx == ctxKey s id && x.line == a / 128 && x.valid &&& secs == secs)) with
    | some x => x.data.toNat / 2 ^ (8 * (a % 128)) % 2 ^ 512
    | none => readNat s a 64)

def hrBound (r : Nat) : Bool := r.testBit 0
def hrForce (r : Nat) : Bool := r.testBit 1
def hrDfmt (r : Nat) : Nat := bitsOf r 2 2
def hrWcls (r : Nat) : Nat := bitsOf r 4 3
def hrNk (r : Nat) : Nat := bitsOf r 8 5
def hrWidx (r : Nat) : Nat := bitsOf r 18 9
def hrN (r : Nat) : Nat := bitsOf r 26 19
def hrCnt (r : Nat) : Nat := bitsOf r 34 27
def hrKsel (r : Nat) : Nat := bitsOf r 36 35
def hrHcl (r : Nat) : Nat := bitsOf r 41 37
def hrRecgen (r : Nat) : Nat := bitsOf r 127 64
def hrBuf (r : Nat) : Nat := bitsOf r 154 128 * 8192
def hrRowv (r : Nat) : Nat := bitsOf r 319 192
def hrNfull (r : Nat) : Nat := bitsOf r 351 320
def hrNdelta (r : Nat) : Nat := bitsOf r 383 352

/-- R311: a record is written in the cache of the cluster that its HCL names. -/
def setHandle (id : BlockId) (h v : Nat) (s : State) : State :=
  (handleTable s id).elim s (fun pa =>
    cornicePut (hrHcl (if hrBound v then v else handleRec s id h)) (ctxKey s id) 64 (pa + 64 * h) (leBytes 64 v) s)

/-- A number with bits [hi:lo] replaced. -/
def setBits (v hi lo x : Nat) : Nat := v - bitsOf v hi lo * 2 ^ lo + x % 2 ^ (hi + 1 - lo) * 2 ^ lo

/-- R303: KE. -/
def hrKe (r : Nat) : Nat := (hrNk r + 1) * classE (hrWcls r)

/-- R303: the bytes of a buffer. -/
def corniceBytes (ke : Nat) : Nat := 512 * ke + 131072

/-- R305, R308, R311: the cached lines of a handle's record and buffer are written back and dropped. -/
def dropLines (id : BlockId) (h : Nat) (s : State) : State :=
  let r := handleRec s id h
  if !hrBound r then s else
  let record := ((handleTable s id).getD 0 + 64 * h) / 128
  let key := ctxKey s id
  corniceFlush (hrHcl r) (fun x => x.ctx == key && (x.line == record
    || (decide (hrBuf r / 128 ≤ x.line) && decide (x.line < (hrBuf r + corniceBytes (hrKe r)) / 128)))) s

/-- Incomplete MMADs of a handle in queues. -/
def handleCmds (s : State) (res : Nat) (qs : List (Nat × MQueue)) : List (MQueue × MCmd) :=
  qs.flatMap (fun q => (q.2.cmds.filter (fun x => !x.done && (x.writes s).contains res)).map (fun x => (q.2, x)))

/-- R304, R308: the status of a word that names a handle: an incomplete MMAD of it on another cluster, or in a queue in
Error. -/
def handleStatus (s : State) (id : BlockId) (h : Nat) : Nat :=
  let cl := (blockD s id).cluster
  let res := handleRes s id h
  if s.clusters.any (fun c => c.1 != cl && !(handleCmds s res c.2.queues).isEmpty) then 0x0D
  else if (handleCmds s res (clusterD s cl).queues).any (fun x => x.1.state == .error) then 0x07
  else 0

/-! ### The turn of LBIND and LREF (R304, R307, R308) -/

/-- What an LBIND or an LREF makes of the record. -/
def BindOp.record (r : Nat) : BindOp → Nat
  | .bind v => v
  | .force => setBits r 1 1 1
  | .drop => 0
  | .query => r

/-- R305, R308: the record as it stands after every LBIND and LREF accepted so far. -/
def handleSeen (s : State) (id : BlockId) (h : Nat) : Nat :=
  ((s.clusters.flatMap (fun c => c.2.binds)).filter (fun x => handleRes s x.block x.handle == handleRes s id h)).foldl
    (fun r x => x.op.record r) (handleRec s id h)

/-- R304, R307: every earlier-accepted MMAD, LBIND and LREF of the handle has taken effect; an MMAD of a saved block, which
another cluster may have accepted, has not (R305). -/
def bindReady (s : State) (cl : Nat) (x : Bind) : Bool :=
  let c := clusterD s cl
  let res := handleRes s x.block x.handle
  (handleCmds s res c.queues).all (fun y => decide (x.order < y.2.order))
    && c.binds.all (fun y => !(decide (y.order < x.order) && handleRes s y.block y.handle == res))
    && s.blocks.all (fun b => !b.saved ||
      (handleCmds s res b.mqueues).all (fun y => b.cluster == cl && decide (x.order < y.2.order)))

/-- R309. -/
def handleState (s : State) (id : BlockId) (h : Nat) : Nat :=
  let r := handleRec s id h
  let valid := hrRecgen r == (watchD s (hrWidx r)).gen && !hrForce r
  (if hrBound r then 1 else 0) + (if valid then 2 else 0) + (if hrForce r then 4 else 0) + hrCnt r * 2 ^ 3 + hrN r * 2 ^ 11
    + hrDfmt r * 2 ^ 19 + hrWidx r * 2 ^ 20 + (if watchOwned s id (hrWidx r) then 0 else 2 ^ 30) + hrNdelta r * 2 ^ 32

/-- The effect of an LBIND or an LREF at its turn, and its result. -/
def bindEffect (x : Bind) (s : State) : Nat × State :=
  match x.op with
  | .query => (handleState s x.block x.handle, s)
  | .force => (0, setHandle x.block x.handle (x.op.record (handleRec s x.block x.handle)) s)
  | _ => (0, setHandle x.block x.handle (x.op.record 0) (dropLines x.block x.handle s))

def bindDst : Instr → Name
  | .lbind _ d _ _ | .lrefForce _ d _ | .lrefDrop _ d _ | .lrefQuery _ d _ => d
  | _ => 0

/-- An LBIND or an LREF whose turn has come takes effect, and its result is there. -/
def runBind (cl : Nat) (s : State) (x : Bind) : State :=
  if !bindReady s cl x then s else
  let r := bindEffect x s
  modWarp x.block x.warp (fun wp => { wp with outs := wp.outs.map (fun o =>
      if o.id = x.out then { o with vals := [.uni (bindDst o.instr) (BitVec.ofNat 64 r.1)] } else o) })
    (modCluster cl (fun c => { c with binds := c.binds.filter (· != x) }) r.2)

def runBinds (cl : Nat) (s : State) : State := (clusterD s cl).binds.foldl (runBind cl) s

/-- R304, R308: an LBIND or an LREF takes its place; its result comes when it has taken effect. -/
def acceptBind (i : Instr) (h : Hdr) (n : Nat) (op : BindOp) (c : Cur) (e : Env) (s : State) : State :=
  let cl := (blockD s c.block).cluster
  let ws := (gMembers h s c).map (·.w)
  let s1 := modCluster cl (fun k => { k with
    nextOrder := k.nextOrder + 1
    binds := k.binds ++ [{ order := k.nextOrder, handle := n, block := c.block, warp := e.w, out := e.wp.nextOut, op := op }] }) s
  let s2 := endWord h c (mirrorOut i c e.w e.wp.nextOut ws (addOut c.block e.w (fun k =>
    { blankOut i c k with members := ws }) s1))
  runBinds cl (if c.single.isSome then holdWarps c.block ws i c.pc e.wp.nextOut s2 else s2)

/-- The word of LBIND or LREF with status `st`: it takes its place, or its status is the result. -/
def bindWord (i : Instr) (h : Hdr) (d : Name) (n st : Nat) (op : BindOp) (c : Cur) (e : Env) (s : State) : State :=
  if st = 0 then acceptBind i h n op c e s else endWord h c (setMembersS h d (BitVec.ofNat 64 st) c s)

/-! ### LBIND (R304) -/

/-- R304 status 0x0F: the leaves of the buffer's pages in turn; the physical address and KSEL of the first. -/
def bufferPages (s : State) (core : Nat) (ctx : Option (BitVec 12)) (va : Nat) : List Nat → Option (Nat × Nat) →
    Except Nat (Nat × Nat)
  | [], some x => .ok x
  | [], none => .error 0
  | i :: t, first =>
    match translate s core ctx (va + 8192 * i) 8192 1 .store with
    | .error k => .error k
    | .ok (.fixed pa false _, leaf) =>
      if !pteBit leaf.pte 9 then .error 0
      else match first with
        | none => bufferPages s core ctx va t (some (pa, pteKsel leaf.pte))
        | some x =>
          if pa = x.1 + 8192 * i && pteKsel leaf.pte = x.2 then bufferPages s core ctx va t (some x) else .error 0
    | .ok _ => .error 0

/-- The record that LBIND writes. -/
def boundRecord (b ksel hcl buf : Nat) : Nat :=
  1 + bitsOf b 30 30 * 2 ^ 2 + bitsOf b 32 31 * 2 ^ 3 + bitsOf b 36 33 * 2 ^ 5 + bitsOf b 21 12 * 2 ^ 9
    + bitsOf b 29 22 * 2 ^ 19 + ksel * 2 ^ 35 + hcl * 2 ^ 37 + buf / 8192 * 2 ^ 128

/-- R304: the status of an LBIND and the record that it writes; none while phase 1 holds the word (R429). -/
def bindHandle (c : Cur) (a b : Nat) (s : State) : Option (Nat × Nat) :=
  let id := c.block
  let bl := blockD s id
  let cls := bitsOf b 32 31
  let ke := (bitsOf b 36 33 + 1) * classE cls
  if b / 2 ^ 37 ≠ 0 then some (0x01, 0)
  else if bitsOf b 29 22 = 0 || cls = 3 then some (0x02, 0)
  else if (handleTable s id).isNone then some (0x10, 0)
  else if !watchOwned s id (bitsOf b 21 12) then some (0x0E, 0)
  else if a % 8192 ≠ 0 then some (0x0F, 0)
  else match bufferPages s bl.core (blockCtx s id) a (List.range ((corniceBytes ke + 8191) / 8192)) none with
    | .error k => if k = heldClass then none else some (0x0F, 0)
    | .ok (pa, ksel) => some (handleStatus s id (bitsOf b 11 0), boundRecord b ksel bl.cluster pa)

def execLbind (h : Hdr) (d a b : Name) (s : State) :=
  let i := Instr.lbind h d a b
  coreWord i h (fun c e t =>
    let v := (uniVal e b 0).toNat
    match bindHandle c (uniVal e a 0).toNat v t with
    | none => t
    | some (st, r) => bindWord i h d (bitsOf v 11 0) st (.bind r) c e t) s

/-! ### LREF (R308, R309) -/

/-- R308: the status of FORCE and DROP. -/
def lrefStatus (s : State) (id : BlockId) (a : Nat) : Nat :=
  if 4096 ≤ a then 0x01
  else if !hrBound (handleSeen s id a) then 0x0B
  else handleStatus s id a

def lrefWord (i : Instr) (h : Hdr) (d a : Name) (op : BindOp) (s : State) : Host.Outcome State Fault Refusal :=
  coreWord i h (fun c e t =>
    let n := (uniVal e a 0).toNat
    bindWord i h d n (lrefStatus t c.block n) op c e t) s

def execLrefForce (h : Hdr) (d a : Name) (s : State) := lrefWord (.lrefForce h d a) h d a .force s

def execLrefDrop (h : Hdr) (d a : Name) (s : State) := lrefWord (.lrefDrop h d a) h d a .drop s

/-- R302, R308: QUERY answers all ones, or takes its place. -/
def queryOnes (s : State) (id : BlockId) (n : Nat) : Bool :=
  let st := lrefStatus s id n
  (handleTable s id).isNone || (st != 0 && st != 0x0B)

def execLrefQuery (h : Hdr) (d a : Name) (s : State) :=
  let i := Instr.lrefQuery h d a
  coreWord i h (fun c e t =>
    let n := (uniVal e a 0).toNat
    if queryOnes t c.block n then endWord h c (setMembersS h d allOnes c t) else acceptBind i h n .query c e t) s

/-! ### MMAD at issue (R305) -/

def mmadMask : Nat := 0xFF000FFFF0F08080

/-- R305: the handle is checked as it stands after every LBIND and LREF accepted before. -/
def mmadChecks (s : State) (id : BlockId) (d : Nat) : List (Bool × Nat) :=
  let h := twHandle d
  let r := handleSeen s id h
  mmaChecks s id mmadMask d ++
    [ (!hrBound r, 0x0B),
      (twNk d != hrNk r || tagClass (tagNow s id (twA d)) != hrWcls r, 0x0C),
      (!watchOwned s id (hrWidx r), 0x0E),
      (hrHcl r != (blockD s id).cluster
        && !(handleCmds s (handleRes s id h) (clusterD s (hrHcl r)).queues).isEmpty, 0x0D) ]

/-- R305, R311: a handle that another cluster has used moves to this one; `r` is its record. -/
def migrate (id : BlockId) (h r : Nat) (s : State) : State :=
  let cl := (blockD s id).cluster
  if !hrBound r || hrHcl r = cl then s
  else setHandle id h (setBits (handleRec s id h) 41 37 cl) (dropLines id h s)

/-- R310, R313: a rollback will force the next invocation of the handle. -/
def noteHandle (id : BlockId) (h : Nat) (s : State) : State :=
  modBlock id (fun b =>
    { b with rb := { b.rb with undo := { b.rb.undo with handles := insertNat b.rb.undo.handles h } } }) s

def issueMmad (vc : Vc) (f : Bool) (a : Name) (q : Nat) (c : Cur) (e : Env) (s : State) : Option (BitVec 64) × State :=
  let d := (uniVal e a 0).toNat
  let h := twHandle d
  match issueM q false (mmadChecks s c.block d)
      { newMCmd .mmad d (vcOf e vc 128) noOrd c.block e.w 0 with z := f } [] 0 false s with
  | (some v, t) => (some v,
      if bitsOf v.toNat 39 32 = 0 then noteHandle c.block h (migrate c.block h (handleSeen s c.block h) t) else t)
  | r => r

def execMmad (h : Hdr) (vc : Vc) (f : Bool) (d a : Name) (q : BitVec 6) (s : State) :=
  commandWord (.mmad h vc f d a q) h d (issueMmad vc f a q.toNat) s

/-! ### MMAD at execution (R306) -/

/-- The FP32 values of a buffer row. -/
def bufWords (bs : List (BitVec 8)) : List (BitVec 32) :=
  (List.range (bs.length / 4)).map (fun k => BitVec.ofNat 32 (leNat ((bs.drop (4 * k)).take 4)))

def rowBytes (r : List (BitVec 32)) : List (BitVec 8) := r.flatMap (fun v => leBytes 4 v.toNat)

/-- R78 step 1, R306: what saturates a rounded element: a magnitude beyond the format's largest. -/
def saturates (mx : Bool) (v : FV) (scale : Nat) : Bool :=
  match v with
  | .fin _ m e =>
    let x : Int := e - ((scale : Int) - 127)
    if mx then decide (127 < roundMag .rne false m x false (-6))
    else
      let q := fmtE4m3.unit m x
      magLt 448 0 (roundMag .rne false m x false q) q
  | _ => true

/-- R306: Quant of a block: scale, codes and the saturation flag. -/
def quant (mx : Bool) (ds : List FV) : Nat × List Nat × Bool :=
  let ty := if mx then Ty.mxi8 else Ty.e4m3
  let s := blockScale ty ds
  if s = 0xFF || ds.all FV.isZero then (s, ds.map (fun _ => 0), s == 0xFF)
  else (s, ds.map (fun v => scaledEnc ty .rne none v s), ds.any (fun v => saturates mx v s))

/-- Quant over the blocks of 32 of a row: each element's value with its scale, and whether any block saturates. -/
def quantRow (mx : Bool) : Nat → List FV → List FV × Bool
  | 0, _ => ([], false)
  | n + 1, ds =>
    let ty := if mx then Ty.mxi8 else Ty.e4m3
    let (s, q, sat) := quant mx (ds.take 32)
    let r := quantRow mx n (ds.drop 32)
    (q.map (fun c => scaledDec (decTy ty c) (some s)) ++ r.1, sat || r.2)

/-- The NK + 1 tasks of a row from `c0` (R279). -/
def rowTasks (e : Nat) (bs : List (List (List FV))) (a : List FV) (c0 : List (BitVec 32)) : List (BitVec 32) :=
  (bs.zipIdx).foldl (fun acc b => rowStep ((a.drop (e * b.2)).take e) b.1 acc) c0

/-- The result of one row: the new X_prev and Y_prev. -/
def mmadRow (e : Nat) (mx full : Bool) (bs : List (List (List FV))) (a : List FV) (xp yp : List (BitVec 32)) :
    List (BitVec 32) × List (BitVec 32) :=
  let x := a.map (encF32 .rne)
  let d := List.zipWith (fun v p => f32Add .rne v (negBits true p)) x xp
  let (q, sat) := quantRow mx (d.length / 32) (d.map f32)
  if full || sat then (x, rowTasks e bs a (List.replicate 256 0))
  else (List.zipWith (fun p v => encF32 .rne (FV.add false (f32 p) v)) xp q, rowTasks e bs q yp)

/-- One row of an MMAD: buffer, accumulator and ROWV. A row that is computed in full is not read; a line of a row that
cannot be read is counted, and the row does not count as trusted. -/
def mmadStep (cl : Nat) (c : MCmd) (r : Nat) (bs : List (List (List FV))) (s : State) (m : Nat) : State :=
  let d := c.desc.toNat
  let e := classE (hrWcls r)
  let ke := hrKe r
  let ks := keySlot s (blockCtx s c.block) (hrKsel r)
  let key := ctxKey s c.block
  let xpa := hrBuf r + 4 * ke * m
  let ypa := hrBuf r + 512 * ke + 1024 * m
  let reads := !c.all && (hrRowv r).testBit m
  let x := corniceFetch cl key ks xpa (if reads then 4 * ke else 0) s
  let y := corniceFetch cl key ks ypa (if reads then 1024 else 0) x.2.2
  let bad := x.2.1 ++ y.2.1
  let s1 := bad.foldl (fun t pa => countEvent .hbmUncorrectable (.channel (channelOf pa)) t) y.2.2
  let a := (List.range (twNk d + 1)).flatMap (fun t => slotRow s cl c (twA d + t) m)
  let v := mmadRow e (hrDfmt r == 0) (!reads || !bad.isEmpty) bs a (bufWords x.1) (bufWords y.1)
  let s2 := corniceWrite cl key ks ypa (rowBytes v.2) (corniceWrite cl key ks xpa (rowBytes v.1) s1)
  setAcc cl (twAcc d) (sputRow (accD s2 cl (twAcc d)) (256 * m) v.2) s2

/-- R306: the record after an invocation. -/
def mmadRecord (c : MCmd) (r : Nat) : Nat :=
  let low := 2 ^ c.v - 1
  if c.all then
    let r1 := setBits (setBits (setBits r 127 64 c.gen) 1 1 0) 34 27 0
    setBits (setBits r1 319 192 low) 351 320 (hrNfull r + 1)
  else
    setBits (setBits (setBits r 34 27 (hrCnt r + 1)) 319 192 (hrRowv r ||| low)) 383 352 (hrNdelta r + 1)

/-- R306: the whole invocation. -/
def runMmad (cl : Nat) (c : MCmd) (s : State) : State :=
  let d := c.desc.toNat
  let r := handleRec s c.block (twHandle d)
  let bs := (List.range (twNk d + 1)).map (fun t => bCols s cl c (twB d + 2 * t))
  setHandle c.block (twHandle d) (mmadRecord c r) ((List.range c.v).foldl (mmadStep cl c r bs) s)

/-- R306: what an MMAD reads when it starts: the generation, and whether every row is computed in full. -/
def startMmad (c : MCmd) (s : State) : MCmd :=
  let r := handleRec s c.block (twHandle c.desc.toNat)
  let g := (watchD s (hrWidx r)).gen
  { c with
    stage := .data
    gen := g
    all := hrRecgen r != g || hrForce r || c.z || decide (hrN r ≤ hrCnt r + 1) || !watchOwned s c.block (hrWidx r) }

/-- R302, R310, R312: an MMAD that starts takes its handle to its cluster, and a rollback will force the next. -/
def beginMmad (c : MCmd) (s : State) : State :=
  let h := twHandle c.desc.toNat
  noteHandle c.block h (migrate c.block h (handleRec s c.block h) s)

end Sys2Proof.Machine
end

