-- ==== Sys2Proof/Machine/MatrixRun.lean ====
section
/-!
DEFINITION. Machine/MatrixRun.lean: the compute array and the completion of matrix commands (R270 to R272, R282, R283,
R286, R287, R291 to R293).
-/
namespace Sys2Proof.Machine

def MKind.isTask (k : MKind) : Bool := k == .mma || k == .mmasp || k == .mmad

/-- R272: the queues of a cluster whose next tile task is ready, by queue number + 1. -/
def taskReady (s : State) (cl : Nat) : List (Nat × Nat × MCmd) :=
  (clusterD s cl).queues.filterMap (fun q => match activeHead s cl q.1 with
    | some c => if c.kind.isTask && decide (c.pos < c.total) then some (q.1 + 1, q.1, c) else none
    | none => none)

/-- One tile task of a command. -/
def stepTask (cl q : Nat) (c : MCmd) (s0 : State) : State :=
  let d := c.desc.toNat
  let s := (matrixTouches c c.fin).foldl (saveUndo c.block) s0
  let next (c : MCmd) : State → State := setCmd cl q { c with pos := c.pos + 1 }
  match c.kind with
  | .mma => next c (setAcc cl (twAcc d) (mmaTask s cl c c.pos (accD s cl (twAcc d))) s)
  | .mmasp =>
    if spBad s cl c c.pos then
      if queueState s cl q != .running then s0 else
      matrixError cl q c 0 0x0A (Config.free64 s.draws).toNat { s with draws := s.draws + 1 }
    else next c (setAcc cl (twAcc d) (mmaspTask s cl c c.pos (accD s cl (twAcc d))) s)
  | .mmad =>
    let s1 := if c.pos = 0 then beginMmad c s else s
    let c1 := if c.pos = 0 then startMmad c s1 else c
    next c1 (if c1.pos + 1 = c1.total then runMmad cl c1 s1 else s1)
  | _ => s

def execTileTask (cl : Nat) (s : State) :=
  event (fun t => match nextRound (clusterD t cl).lastTile (taskReady t cl) with
    | none => t
    | some (key, q, c) => stepTask cl q c (modCluster cl (fun k => { k with lastTile := key }) t)) s

/-- R293: the staging records that a read-only load leaves, but on slots that a later-accepted command names. -/
def stageSlots (cl : Nat) (c : MCmd) (s : State) : State :=
  match c.snap with
  | none => s
  | some e =>
    let later := (clusterCmds (clusterD s cl)).filter (fun x =>
      decide (c.order < x.order) && (x.kind == .load || x.kind == .cvt))
    ((loadSlots c.desc.toNat).filter (fun k => !later.any (fun x => (x.writes s).contains k))).foldl (fun t k =>
      modSlot cl k (fun m => { m with stage := some (c.desc, c.v, e) }) t) s

/-- R270: the command is complete; the completed prefix leaves the queue and is counted. -/
def MQueue.complete (c : MCmd) (x : MQueue) : MQueue :=
  let cmds := x.cmds.map (fun y => if y.order = c.order then { y with done := true } else y)
  let rest := cmds.dropWhile (fun y => y.done)
  { x with
    cmds := rest
    completed := x.completed + BitVec.ofNat 32 (cmds.length - rest.length)
    state := if x.state = .running && rest.isEmpty then .idle else x.state }

def retireMatrix (cl q : Nat) (c : MCmd) (s : State) : State := modQueue cl q (MQueue.complete c) (stageSlots cl c s)

/-- R277, R283, R286: what is left of a command that has moved all its data or run all its tasks. -/
def finishMatrix (cl q : Nat) (c0 : MCmd) (s : State) : State :=
  let (c, s1) := beginM c0 s
  match c.kind with
  | .zero => retireMatrix cl q c ((zeroAccs c.desc.toNat).foldl (fun t a => setAcc cl a [] t)
      ((matrixTouches c c.fin).foldl (saveUndo c.block) s1))
  | .load | .store =>
    match releaseGate c.block c.ord c.stage s1 with
    | (false, st) =>
      let s2 := setCmd cl q { c with stage := st } s1
      if st = .release then askCheckpoint c.block s2 else s2
    | (true, _) =>
      match commandRelease c.block c.warp c.ord c.homes c.stage s1 with
      | .wait t => t
      | .sent t => setCmd cl q { c with stage := .remote } t
      | .done t => retireMatrix cl q c t
  | _ => retireMatrix cl q c s1

def execMatrixCommandComplete (cl q : Nat) (s : State) :=
  event (fun t => match activeHead t cl q with
    | some c => if c.total ≤ c.pos then finishMatrix cl q c t else t
    | none => t) s

end Sys2Proof.Machine
end

