-- ==== Sys2Proof/Machine/Log.lean ====
section
/-!
DEFINITION. Machine/Log.lean: cairns, rollback of ranges, PUBL, replicas, and their events (R324 to R332, R339 to R345).
-/
namespace Sys2Proof.Machine

/-- R325: what a failure writes. -/
def failVal (st : Nat) : BitVec 64 := BitVec.ofNat 64 (0xFFFFFFFF00000000 + st)

/-! ### Cairns (R324 to R328) -/

def cairnCtx (c : Nat) : Nat := bitsOf c 67 56
def cairnRb (c : Nat) : Bool := c.testBit 49

/-- R324: level T acts only on cairns of its context. -/
def mayCairn (s : State) (id : BlockId) (c : Nat) : Bool :=
  match blockCtx s id with
  | none => true
  | some x => cairnCtx c == x.toNat

def setCairn (k v : Nat) (s : State) : State := { s with cairns := sset s.cairns k (BitVec.ofNat 1024 v) }

/-- R342: started replica slots learn of a cairn taken or dropped after their start. -/
def shipCairn (k e : Nat) (record : BitVec 1024) (s : State) : State :=
  (streamingSlots s).foldl (fun t r => match aget t.replicas r with
    | some x =>
      if e ≤ x.start then t else
      let n := if x.marks.1 = t.epoch then x.marks.2 else 0
      sendTo r (.cairn r t.epoch n k record)
        { t with replicas := amod t.replicas r (fun y => { y with marks := (t.epoch, n + 1) }) }
    | none => t) s

/-- R326: the entries of a range list: address and length. -/
def rangeList (s : State) (id : BlockId) (off n : Nat) : List (Nat × Nat) :=
  (List.range n).map (fun i =>
    (leNat (scratchRead s id (off + 16 * i) 8), leNat (scratchRead s id (off + 16 * i + 8) 8)))

/-- R326: the ranges of a list as runs of lines: a status, or first line and count of each. -/
def takeRanges (c : Cur) (l : List (Nat × Nat)) (s : State) : Except Nat (List (Nat × Nat)) :=
  if l.any (fun x => x.1 % 128 != 0 || x.2 % 128 != 0 || x.2 == 0 || decide (2 ^ 30 < x.2)) then .error 0x21
  else
    let ps := l.map (fun x => rangePieces c x.1 x.2 s)
    if ps.any (fun p => match p with | .error (cls, _) => cls == heldClass | .ok _ => false) then .error heldClass
    else if ps.any (fun p => match p with | .error _ => true | .ok _ => false) then .error 0x22
    else
      let runs := ps.map (fun p => match p with | .ok q => logRun q | .error _ => none)
      if runs.any (·.isNone) then .error 0x23
      else .ok (List.zipWith (fun la x => (la.getD 0 / 128, x.2 / 128)) runs l)

/-- R176, R326: home-held lines of the ranges return to the log, one publish a slice. -/
def unhomeRanges (rs : List (Nat × Nat)) (s : State) : State :=
  let held := (s.homes.map (·.1)).filter (inRanges rs)
  ((held.map homeSliceOf).foldl insertNat []).foldl (fun t sl =>
    unhomeLines sl (held.filter (fun n => homeSliceOf n == sl)) t) s

def cairnBits (epoch ctx : Nat) (rs : List (Nat × Nat)) : Nat :=
  epoch + 2 ^ 48 + rs.length * 2 ^ 52 + ctx * 2 ^ 56
    + rs.zipIdx.foldl (fun a r => a + (r.1.1 + r.1.2 * 2 ^ 45) * 2 ^ (128 + 96 * r.2)) 0

/-- R326: SNAP.TAKE: the result and the state, or none while it must wait. -/
def snapTake (c : Cur) (a b : Nat) (s : State) : Option (BitVec 64 × State) :=
  let off := a % 2 ^ 32
  if off % 16 ≠ 0 || b = 0 || 8 < b || (launchD s c.block.lid).scratch < off + 16 * b then some (failVal 0x25, s)
  else match takeRanges c (rangeList s c.block off b) s with
    | .error st => if st = heldClass then none else some (failVal st, s)
    | .ok rs =>
      match (List.range 64).find? (fun k => !cairnValid (cairnRec s k)) with
      | none => some (failVal 0x24, s)
      | some k =>
        let t := unhomeRanges rs s
        if t.homes.any (fun x => inRanges rs x.1) then none
        else
          let v := cairnBits t.epoch (ctxKey t c.block) rs
          some (BitVec.ofNat 64 (t.epoch * 2 ^ 16 + k), shipCairn k t.epoch (BitVec.ofNat 1024 v) (setCairn k v t))

def execSnapTake (h : Hdr) (d a b : Name) (s : State) :=
  coreWord (.snapTake h d a b) h (fun c e t =>
    match snapTake c (uniVal e a 0).toNat (uniVal e b 0).toNat t with
    | none => t
    | some (v, u) => endWord h c (setMembersS h d v c u)) s

/-- R327: the eight bytes as of a cairn; none where the cairn does not give them. -/
def snapBytes (c : Cur) (p : Place) (k : Nat) (s : State) : Option (List (BitVec 8) × Option Nat × State) :=
  let r := cairnRec s k
  match p with
  | .log la _ =>
    if cairnValid r && mayCairn s c.block r && inRanges (cairnRanges r) (la / 128) then
      some (snapLoad p 8 (bitsOf r 47 0) s)
    else none
  | _ => none

/-- R325, R327: gP is written at issue; of sD's result, which is variable-latency, it is one of the values that R39 admits (log
entry 13, DEDUCED). -/
def execSnapRd (h : Hdr) (d : Name) (g : BitVec 3) (a b : Name) (s : State) :=
  coreWord (.snapRd h d g a b) h (fun c e t =>
    let va := (uniVal e a 0).toNat
    let put (v : BitVec 64) (ok : Bool) (u : State) : State :=
      endWord h c (onMembers h (fun e wp =>
        (if c.single.isSome then wp.setS d v else wp.addLate c e.lanes [.uni d v]).setG g ok) c u)
    match uniPlace c false va 8 .load t with
    | .error cls => uniFault h c cls va false t
    | .ok (p, u) =>
      match snapBytes c p ((uniVal e b 0).toNat % 64) u with
      | none => put 0 false u
      | some (_, some pa, v) => endWord h c (dueData c.block e.w (errorLanes e) (errorPc c) none c.iw c.ew pa v)
      | some (bs, none, v) => put (BitVec.ofNat 64 (leNat bs)) true v) s

def execSnapQuery (h : Hdr) (d a : Name) (s : State) :=
  coreWord (.snapQuery h d a) h (fun c e t =>
    let r := cairnRec t ((uniVal e a 0).toNat % 64)
    endWord h c (setMembersS h d (if mayCairn t c.block r then BitVec.ofNat 64 r else allOnes) c t)) s

/-- R328. -/
def snDrop (id : BlockId) (k : Nat) (s : State) : BitVec 64 × State :=
  let r := cairnRec s k
  if !cairnValid r || !mayCairn s id r then (failVal 0x02, s)
  else if cairnRb r then (failVal 0x04, s)
  else (0, shipCairn k (bitsOf r 47 0) 0 (setCairn k 0 s))

def execSndrop (h : Hdr) (d a : Name) (s : State) :=
  coreWord (.sndrop h d a) h (fun c e t =>
    let r := snDrop c.block ((uniVal e a 0).toNat % 64) t
    endWord h c (setMembersS h d r.1 c r.2)) s

/-! ### ROLLB (R329 to R331) -/

/-- The selected ranges of a cairn. -/
def selRanges (c mask : Nat) : List (Nat × Nat) :=
  ((cairnRanges c).zipIdx.filter (fun x => mask.testBit x.2)).map (·.1)

def overlaps (xs ys : List (Nat × Nat)) : Bool :=
  xs.any (fun x => ys.any (fun y => decide (x.1 < y.1 + y.2) && decide (y.1 < x.1 + x.2)))

def rollMask (c b : Nat) : Nat := if b % 256 = 0 then 2 ^ (bitsOf c 55 52) - 1 else b % 256

/-- R329: the status of a ROLLB, or 0. -/
def rollbStatus (s : State) (id : BlockId) (a b : Nat) : Nat :=
  let c := cairnRec s (a % 64)
  let later := s.cairns.filter (fun x => cairnValid x.2.toNat && decide (bitsOf c 47 0 < bitsOf x.2.toNat 47 0))
  firstBad [
    (64 ≤ a || 256 ≤ b, 0x01),
    (!cairnValid c || !mayCairn s id c, 0x02),
    (2 ^ (bitsOf c 55 52) ≤ rollMask c b, 0x05),
    (cairnRb c, 0x04),
    (later.any (fun x => overlaps (cairnRanges x.2.toNat) (selRanges c (rollMask c b))), 0x03),
    (s.replica.isSome, 0x06) ]

def execRollb (h : Hdr) (d a b : Name) (s : State) :=
  let i := Instr.rollb h d a b
  coreWord i h (fun c e t =>
    let x := (uniVal e a 0).toNat
    let y := (uniVal e b 0).toNat
    let st := rollbStatus t c.block x y
    if st ≠ 0 then endWord h c (setMembersS h d (failVal st) c t)
    else
      let k := x % 64
      let r : Rollb :=
        { cairn := k, mask := rollMask (cairnRec t k) y, since := t.clock, epoch := t.epoch,
          waiter := { block := c.block, warp := e.w }, members := (gMembers h t c).map (·.w), dst := d }
      sleepWord c e { instr := i, pc := c.pc, lanes := c.group, place := .scratch 0, va := k, cmp := 0, deadline := none,
                      since := t.clock, last := 0, members := [], word := 0 }
        (setCairn k (cairnRec t k + 2 ^ 49) { t with rollbs := t.rollbs ++ [r] })) s

/-- R330: the lines to visit: named by a summary entry after `c`, or home-held. -/
def visitLines (s : State) (rs : List (Nat × Nat)) (c : Nat) : List Nat :=
  let named := (s.segs.filter (fun g => decide (c < g.2.base + g.2.span))).flatMap (fun g =>
    (g.2.sums.filter (fun v => decide (v.1 < g.2.used) && decide (c < g.2.base + v.2.eoff))).map (·.2.line))
  ((named ++ s.homes.map (·.1)).filter (inRanges rs)).foldl insertNat []

/-- R330: the rollback publish of ranges to epoch `c`; its walks start from entries that may be taken (R19). -/
def rollbackPublish (rs : List (Nat × Nat)) (c : Nat) (s : State) : State :=
  let lines := visitLines s rs c
  if s.epoch + 1 > 0xFFFFFFFFFFFF then fatalError 2 s
  else if lines.any (fun n => !startOk s n || (headOf s n != 0 && !entryOk s n (headOf s n))) then fatalError 1 s
  else breakReplicas <| installStep lines (fun t => lines.foldl (fun u n =>
    let p := versionWalk s n c (walkFuel s) (headOf s n)
    setIxEntry n p { u with homes := adel u.homes n }) t) s

/-- R330: the ROLLB's waiters wake with R and acquire. -/
def wakeRollb (r : Rollb) (s : State) : State :=
  (warpD s r.waiter.block r.waiter.warp).sleeps.foldl (fun t z => match z.instr with
    | .rollb h d _ _ => if z.va = r.cairn then wakeWord r.waiter z h d (BitVec.ofNat 64 t.epoch) (some .dv) t else t
    | _ => t) s

/-- R337: no reclaim is in progress. -/
def noCleaning (s : State) : Bool := s.segs.all (fun g => g.2.phase != .cleaning && g.2.phase != .retiring)

/-- R330, R339, R342: the rollback publish, and a rollback record to the replica slots in place of its publish record. A
device that has entered replica mode since forms no publish: the ROLLB returns its Epoch(). -/
def finishRollb (r : Rollb) (s : State) : State :=
  let c := cairnRec s r.cairn
  if s.replica.isSome then
    wakeRollb r { s with rollbs := s.rollbs.filter (fun x => x.cairn != r.cairn) }
  else
  let s1 := rollbackPublish (selRanges c r.mask) (bitsOf c 47 0) s
  if s1.fatal ≠ 0 then s1 else
  let s2 := { setCairn r.cairn (setBits c 49 49 0) s1 with rollbs := s1.rollbs.filter (fun x => x.cairn != r.cairn) }
  wakeRollb r ((streamingSlots s2).foldl (fun t x =>
    sendTo x (.rollback x t.epoch r.cairn r.mask (bitsOf c 47 0) (selRanges c r.mask)) t) s2)

def execRollbComplete (cairn : Nat) (s : State) :=
  event (fun t => match t.rollbs.find? (fun r => r.cairn == cairn) with
    | none => t
    | some r => if noCleaning t then finishRollb r t else t) s

/-! ### PUBL (R332) -/

def isPubl (i : Instr) : Bool := match i with | .publ .. => true | _ => false

/-- R332, R470: the release of a PUBL at sub-warp scope begins; its result is written when it is performed. -/
def beginPubl (i : Instr) (h : Hdr) (c : Cur) (s : State) : State :=
  let r : Release :=
    { msc := .dv, phase := .acks, pc := c.pc, iw := c.iw, ew := c.ew, holds := true, carried := false, stores := [], out := none,
      acq := none, epoch := 0 }
  let s1 := addOut c.block c.warp (fun k => { blankOut i c k with members := [c.warp] }) s
  endWord h c (relAdvance c.block c.warp (setRel c.block c.warp (some r) s1))

def execPubl (h : Hdr) (d : Name) (s : State) :=
  let i := Instr.publ h d
  coreWord i h (fun c e t =>
    match c.single with
    | some r => endWord h c (setMembersS h d (BitVec.ofNat 64 r.epoch) c t)
    | none =>
      if outsFull e.wp || e.wp.outs.any (fun o => isPubl o.instr) then t else
      match e.wp.rel with
      | some r => if r.phase = .ready then beginPubl i h c t else t
      | none =>
        if (launchD t c.block.lid).rb then startRelease c.block c.warp .dv c.pc true true [] t else beginPubl i h c t) s

/-- R332: a performed release gives its PUBL the epoch of its publish. -/
def settlePubl (w : WarpId) (s : State) : State :=
  let wp := warpD s w.block w.warp
  match wp.outs.find? (fun o => isPubl o.instr), wp.rel with
  | some o, some r =>
    if r.phase = .done then
      match o.instr with
      | .publ _ d =>
        modWarp w.block w.warp (fun x => { x.setS d (BitVec.ofNat 64 r.epoch) with rel := none }) (closeOut w o s)
      | _ => s
    else s
  | _, _ => s

def execPublWait (h : Hdr) (acq : Bool) (d a : Name) (s : State) :=
  let i := Instr.publWait h acq d a
  coreWord i h (fun c e t =>
    let target := (uniVal e a 0).toNat % 2 ^ 48
    if target ≤ t.epoch then
      let u := setMembersS h d (BitVec.ofNat 64 t.epoch) c t
      endWord h c (if acq then acquireMembers h .dv c u else u)
    else
      sleepWord c e { instr := i, pc := c.pc, lanes := c.group, place := .scratch 0, va := target,
                      cmp := BitVec.ofNat 64 target, deadline := none, since := t.clock, last := 0, members := [], word := 0 } t) s

/-- R332: Epoch() reaching a target wakes the PUBL.WAITs of a warp. -/
def wakePublWait (w : WarpId) (s : State) : State :=
  eachSleep w (fun z => match z.instr with | .publWait .. => decide (z.cmp.toNat ≤ s.epoch) | _ => false)
    (fun z t => match z.instr with
      | .publWait h acq d _ => wakeWord w z h d (BitVec.ofNat 64 t.epoch) (if acq then some .dv else none) t
      | _ => t) s

def execPublSeal (h : Hdr) (d : Name) (s : State) :=
  coreWord (.publSeal h d) h (fun c _ t =>
    let cl := (blockD t c.block).cluster
    endWord h c (setMembersS h d (BitVec.ofNat 64 (clusterD t cl).openSegs.length) c (sealCluster cl t))) s

/-! ### Replicas: the source (R340 to R344) -/

/-- R341: the descriptor at a scratchpad offset, or none for status 0x34. -/
def replicaDesc (s : State) (id : BlockId) (off : Nat) : Option (BitVec 256) :=
  if off % 32 ≠ 0 || (launchD s id.lid).scratch < off + 32 then none else
  let d := leNat (scratchRead s id off 32)
  if bitsOf d 15 8 ≠ 0 || bitsOf d 255 46 ≠ 0 || bitsOf d 7 0 = s.blob.device then none else some (BitVec.ofNat 256 d)

def streamingSlot (s : State) (r : Nat) : Bool := (aget s.replicas r).elim false (fun x => x.state == .streaming)

def shipCfg (id : BlockId) (a r : Nat) (s : State) : BitVec 64 × State :=
  if streamingSlot s r then (failVal 0x31, s)
  else match replicaDesc s id (a % 2 ^ 32) with
    | none => (failVal 0x34, s)
    | some d =>
      let x : Replica :=
        { desc := d, state := .configured, base := false, start := 0, applied := 0, since := s.clock, held := [],
          marks := (0, 0) }
      (0, { s with replicas := aset s.replicas r x })

/-- A system word of the device: its result and its state. -/
def shipWord (i : Instr) (h : Hdr) (d : Name) (f : Cur → Env → State → BitVec 64 × State) (s : State) :
    Host.Outcome State Fault Refusal :=
  coreWord i h (fun c e t =>
    let r := f c e t
    endWord h c (setMembersS h d r.1 c r.2)) s

def execShipCfg (h : Hdr) (d a : Name) (r : BitVec 2) (s : State) :=
  shipWord (.shipCfg h d a r) h d (fun c e t => shipCfg c.block (uniVal e a 0).toNat r.toNat t) s

/-- R340: whether the peer answers is the world's affair: a free bit (log entry 9, DESIGN CHOICE). -/
def shipStart (r : Nat) (s : State) : BitVec 64 × State :=
  match aget s.replicas r with
  | some x =>
    let t := { s with draws := s.draws + 1 }
    if x.state = .configured && (Config.free64 s.draws).getLsbD 0 then
      let y := { x with state := ReplicaState.streaming, base := true, start := s.epoch, since := s.clock, held := [] }
      (BitVec.ofNat 64 s.epoch, { t with replicas := aset t.replicas r y })
    else (failVal 0x32, t)
  | none => (failVal 0x32, s)

def execShipStart (h : Hdr) (d : Name) (r : BitVec 2) (s : State) :=
  shipWord (.shipStart h d r) h d (fun _ _ t => shipStart r.toNat t) s

def shipStop (r : Nat) (s : State) : BitVec 64 × State :=
  match aget s.replicas r with
  | some x =>
    (BitVec.ofNat 64 x.applied, { s with replicas := amod s.replicas r (fun y =>
      if y.state = .streaming then { y with state := .configured, base := false, held := [] } else y) })
  | none => (0, s)

def execShipStop (h : Hdr) (d : Name) (r : BitVec 2) (s : State) :=
  shipWord (.shipStop h d r) h d (fun _ _ t => shipStop r.toNat t) s

/-- R343. -/
def replicaStatus (x : Replica) : Nat :=
  x.applied % 2 ^ 48 + (match x.state with | .configured => 1 | .streaming => 2 | .broken => 3) * 2 ^ 48
    + (if x.base then 2 ^ 50 else 0)

def execShipStat (h : Hdr) (d : Name) (r : BitVec 2) (s : State) :=
  shipWord (.shipStat h d r) h d (fun _ _ t =>
    (BitVec.ofNat 64 ((aget t.replicas r.toNat).elim 0 replicaStatus), t)) s

/-- R342: a closed segment is shipped to every started slot; a Talus copy sends nothing. -/
def shipSegment (seg : Nat) (g : Segment) (s : State) : State :=
  let slots := (streamingSlots s).filter (fun r => !g.shipped.contains r)
  let s1 := { s with segs := amod s.segs seg (fun x => { x with shipped := slots.foldl insertNat x.shipped }) }
  if g.kind = 1 then s1 else slots.foldl (fun t r => sendTo r (.ship r seg) t) s1

def execSegmentShip (seg : Nat) (s : State) :=
  event (fun t => match aget t.segs seg with
    | some g => if g.phase = .closed then shipSegment seg g t else t
    | none => t) s

/-- The lines that any version in the log or a home slice is of. -/
def namedLines (s : State) : List Nat :=
  (s.segs.flatMap (fun g => (g.2.sums.filter (fun v => decide (v.1 < g.2.used))).map (·.2.line)) ++ s.homes.map (·.1)).foldl
    insertNat []

/-- R342: the base copy of epoch `e`: each line whose version as of `e` is not zeros, in clear, with its key slot. -/
def baseLines (e : Nat) (s : State) : List (Nat × BitVec 1024 × Nat) :=
  (namedLines s).filterMap (fun n => (versionAsOf s n e).bind (fun v =>
    if v.zero then none else some (n, (decryptLine s v v.ks).data, v.ks)))

/-- R342: the base copy is sent, and what has waited for it follows. -/
def sendBase (slot : Nat) (x : Replica) (s : State) : State :=
  { s with
    replicas := amod s.replicas slot (fun y => { y with base := false, held := [] })
    out := s.out ++ [.baseCopy slot x.start (baseLines x.start s)] ++ x.held }

def execReplicaBaseCopyComplete (slot : Nat) (s : State) :=
  event (fun t => match aget t.replicas slot with
    | some x => if x.state = .streaming && x.base then sendBase slot x t else t
    | none => t) s

/-- R344. -/
def execReplicaPeerTimeout (slot : Nat) (s : State) :=
  event (fun t => match aget t.replicas slot with
    | some x =>
      if x.state = .streaming && decide (x.since + 2 ^ 30 ≤ t.clock) then
        let y := { x with state := ReplicaState.broken, base := false, held := [] }
        postRecord 0x84 (leBytes 8 slot ++ leBytes 8 (replicaStatus y)) { t with replicas := aset t.replicas slot y }
      else t
    | none => t) s

def execAppliedEpochReport (slot epoch : Nat) (s : State) :=
  event (fun t => { t with replicas := amod t.replicas slot (fun x =>
    if x.state = .streaming then { x with applied := epoch % 2 ^ 48, since := t.clock } else x) }) s

/-! ### Replicas: the peer (R339, R340, R342, R345) -/

/-- R340: every index entry becomes 0, every segment free, every cairn record 0; stale cached entries hit the filters. -/
def enterReplica (d : BitVec 256) (s : State) : State :=
  let lo := s.blob.ixbase
  let hi := s.blob.ixbase + 4 * s.blob.ixlines
  { s with
    mem := s.mem.filter (fun c => !(decide (lo ≤ c.1) && decide (c.1 < hi)))
    segs := [], homes := [], cairns := [], talusOpen := [], cleans := [], segSeq := [], lastSeg := []
    clusters := s.clusters.map (fun c => (c.1, { c.2 with openSegs := [], ix := [], logs := [], acc := BitVec.allOnes 4096 }))
    cores := s.cores.map (fun c => (c.1, { c.2 with ix := [], acc := BitVec.allOnes 4096 }))
    replica := some { desc := d, started := false, cairns := 0, queue := [] } }

def shipAccept (id : BlockId) (a : Nat) (s : State) : BitVec 64 × State :=
  match replicaDesc s id (a % 2 ^ 32) with
  | none => (failVal 0x34, s)
  | some d => if s.clusters.any (fun c => !c.2.pend.isEmpty) then (failVal 0x33, s) else (0, enterReplica d s)

def execShipAccept (h : Hdr) (d a : Name) (s : State) :=
  shipWord (.shipAccept h d a) h d (fun c e t => shipAccept c.block (uniVal e a 0).toNat t) s

/-- The open KIND 2 segment of a key slot that admits epoch `e`, opened if there is none (log entry 21, DESIGN CHOICE). -/
def replicaSeg (ks e : Nat) (s : State) : Option (Nat × State) :=
  match s.segs.find? (fun g => g.2.kind == 2 && g.2.ks == ks && g.2.phase == .opened && decide (g.2.base ≤ e) &&
      decide (e - g.2.base ≤ 65535)) with
  | some g => some (g.1, s)
  | none => openSegment 2 0 ks e s

/-- Appends the lines of a publish record; none without a free segment. -/
def replicaAppend (e : Nat) : List (Nat × BitVec 1024 × Bool × BitVec 14) → State →
    Option (List (Nat × BitVec 32) × State)
  | [], s => some ([], s)
  | (n, d, z, ks) :: t, s =>
    match replicaSeg ks.toNat e s with
    | none => none
    | some (g, s1) =>
      let (pos, s2) := appendTo g n d 0 0 0 z false false s1
      (replicaAppend e t s2).map (fun r => ((n, pos) :: r.1, r.2))

/-- R342: the epoch's lines are installed by one publish; Epoch() is the record's epoch, that of a base copy too. -/
def applyPublish (e : Nat) (lines : List (Nat × BitVec 1024 × Bool × BitVec 14)) (s : State) : Option State :=
  (replicaAppend e lines { s with epoch := e - 1 }).map (fun r =>
    { installStep (r.1.map (·.1)) (fun t => r.1.foldl (fun u x =>
        setIxEntry x.1 x.2 (completeSum x.2 (ixEntry u x.1) e u)) t) r.2 with epoch := e })

/-- R342, R343: what a record comes to now; none while it must wait. A rollback takes the ranges and the epoch of its record:
a cairn from before the base copy is not mirrored. -/
def applyRecord (m : ReplicaMode) (r : ReplicaRec) (s : State) : Option State :=
  let report (t : State) : State := { t with
    replica := some { m with started := true, cairns := 0 }
    out := t.out ++ [.applied (m.desc.toNat % 256) t.epoch] }
  match r with
  | .publish e lines missing =>
    if missing || (m.started && e != s.epoch + 1) then none else (applyPublish e lines s).map report
  | .cairn e n k record =>
    if !m.started || e != s.epoch || n != m.cairns then none
    else some { setCairn k (if record = 0 then 0 else setBits record.toNat 50 50 1) s with
      replica := some { m with cairns := n + 1 } }
  | .rollback e _ _ c ranges =>
    if !m.started || e != s.epoch + 1 then none else some (report (rollbackPublish ranges c s))

def recordEpoch : ReplicaRec → Nat
  | .publish e _ _ | .cairn e _ _ _ | .rollback e _ _ _ _ => e

/-- Applies records that wait, as far as they go. -/
def applyQueue : Nat → State → State
  | 0, s => s
  | n + 1, s =>
    match s.replica with
    | none => s
    | some m =>
      match m.queue.findSome? (fun r => (applyRecord m r s).map (fun t => (r, t))) with
      | none => s
      | some (r, t) =>
        applyQueue n { t with replica := t.replica.map (fun x => { x with queue := m.queue.filter (· != r) }) }

/-- R342, R345: a record arrives at a device in replica mode: one already applied is discarded; a publish record that
arrives again, its segments with it, takes the place of the one that waits. -/
def receiveRecord (r : ReplicaRec) (s : State) : State :=
  match s.replica with
  | none => s
  | some m =>
    let old := m.started && match r with
      | .cairn e n _ _ => decide (e < s.epoch) || (e == s.epoch && decide (n < m.cairns))
      | _ => decide (recordEpoch r ≤ s.epoch)
    if old then s else
    let same (x : ReplicaRec) : Bool := match x, r with
      | .publish e _ _, .publish f _ _ => e == f
      | x, y => x == y
    let q := m.queue.filter (fun x => !same x) ++ [r]
    applyQueue q.length { s with replica := some { m with queue := q } }

def execReplicaRecordApply (r : ReplicaRec) (s : State) := event (receiveRecord r) s

/-- R345. -/
def shipPromote (s : State) : BitVec 64 × State :=
  match s.replica with
  | none => (BitVec.ofNat 64 s.epoch, s)
  | some m =>
    let t := applyQueue m.queue.length s
    (BitVec.ofNat 64 t.epoch, { t with
      replica := none
      cairns := (t.cairns.map (fun c => (c.1, c.2 &&& ~~~(1#1024 <<< 50)))).filter (fun c => c.2 != 0) })

def execShipPromote (h : Hdr) (d : Name) (s : State) := shipWord (.shipPromote h d) h d (fun _ _ t => shipPromote t) s

end Sys2Proof.Machine
end

