-- ==== Sys2Proof/Machine/NearMem.lean ====
section
/-!
DEFINITION. Machine/NearMem.lean: compute extents, mailbox rows, Spur commands and Arete walks (R347 to R373).
-/
namespace Sys2Proof.Machine

/-! ### Arming (R348 to R351) -/

def rowBase : Nat := 0x8000000000

/-- The first pseudo-channel of an extent, and its channel group. -/
def extentChannel (base : Nat) : Nat := base / 131072 % 512
def extentGroup (base : Nat) : Nat := extentChannel base / 16

/-- The level-1 table that maps a virtual address, as a walk of a cluster finds it. -/
def leafTable (s : State) (c va : Nat) : Nat → Nat → Option Nat
  | 0, _ => none
  | level + 1, table =>
    if level = 0 then some table else
    match readPte s c table (levelIndex va (level + 1)) with
    | none => none
    | some e => if pteBit e 0 && !pteBit e 1 then leafTable s c va level (pteAddr e) else none

/-- Sets or clears SEAL in the 256 entries of the extent at a virtual address, by a walk of cluster `c`; walks read them anew. -/
def sealEntries (c : Nat) (ctx : Option (BitVec 12)) (va : Nat) (on : Bool) (s0 : State) : State :=
  match leafTable s0 c va 4 (rootOf s0 ctx) with
  | none => s0
  | some table =>
    let first := levelIndex va 1 / 256 * 256
    let mine (k : Nat) : Bool := decide ((table + 8 * first) / 128 ≤ k) && decide (k < (table + 8 * first) / 128 + 16)
    let s := { s0 with clusters := s0.clusters.map (fun c => (c.1, { c.2 with
      tables := c.2.tables.filter (fun x => !mine x.1) })) }
    (List.range 256).foldl (fun t i =>
      let pa := table + 8 * (first + i)
      let e := BitVec.ofNat 64 (readNat t pa 8)
      let e1 := if on then e ||| 0x100#64 else e &&& ~~~0x100#64
      { t with mem := sputBytes t.mem pa (leBytes 8 e1.toNat) }) s

/-- Drops the TLB entries that `p` picks, in every TLB of the device. -/
def dropTlb (p : TlbEntry → Bool) (s : State) : State :=
  { s with
    clusters := s.clusters.map (fun c => (c.1, { c.2 with tlb := c.2.tlb.filter (fun t => !p t) }))
    cores := s.cores.map (fun c => (c.1, { c.2 with tlb := c.2.tlb.filter (fun t => !p t) })) }

/-- A TLB entry whose physical range meets an extent. -/
def meetsExtent (base : Nat) (t : TlbEntry) : Bool :=
  pteBit t.pte 2 && decide (pteAddr t.pte < base + 0x200000) && decide (base < pteAddr t.pte + t.size)

/-- R354: the rows of a group become zero and Adopted. -/
def zeroRows (g : Nat) (s : State) : State :=
  let lo := rowBase + g * 0x100000
  let hi := lo + 0x100000
  let out (k : Nat) : Bool := k < lo || hi ≤ k
  { s with
    mem := s.mem.filter (fun c => out c.1)
    keyOf := s.keyOf.filter (fun c => out (32 * c.1))
    bad := s.bad.filter (fun k => out (32 * k))
    rows := s.rows.filter (fun r => decide (r.1 < g * 1024) || decide (g * 1024 + 1024 ≤ r.1)) }

/-- A page of 8 KiB as a load finds it: its place and leaf. -/
def pageAt (s : State) (core : Nat) (ctx : Option (BitVec 12)) (va : Nat) : Except Nat (Place × TlbEntry) :=
  translate s core ctx va 8192 1 .load

/-- R349 status 0x42: the extent's physical base and key slot; errors: the class that holds the word, or 0. -/
def extentOf (s : State) (core : Nat) (ctx : Option (BitVec 12)) (va : Nat) : Except Nat (Nat × Nat) :=
  match pageAt s core ctx va with
  | .error k => .error k
  | .ok (.fixed pa _ ks, leaf) =>
    let overlap := decide (pa < s.blob.mbxbase + 0x400000) && decide (s.blob.mbxbase < pa + 0x200000)
    if leaf.size = 0x200000 && pteBit leaf.pte 6 && pteBit leaf.pte 9 && pteBit leaf.pte 7 && !overlap && pa < rowBase
    then .ok (pa, ks) else .error 0
  | .ok _ => .error 0

/-- R349 status 0x43: page i of the window maps the group's rows. -/
def windowPage (s : State) (core : Nat) (ctx : Option (BitVec 12)) (va base ks i : Nat) : Bool :=
  match pageAt s core ctx (va + 8192 * i) with
  | .ok (.fixed pa true k, _) => pa == rowBase + extentChannel base * 65536 + 8192 * i && k == ks
  | _ => false

/-- R349 step 4, R351: a store or an atomic that translated into the range has not been performed: an atomic's access, or
what a release writes when it is performed. -/
def extentBusy (s : State) (base : Nat) : Bool :=
  let into (p : Place) : Bool := match p with
    | .fixed pa _ _ => decide (base ≤ pa) && decide (pa < base + 0x200000)
    | _ => false
  s.blocks.any (fun b => b.warps.any (fun w =>
    w.outs.any (fun o => (atomSpecOf o.instr).isSome && o.parts.any (fun x => into x.2.2))
    || w.rel.any (fun r => r.stores.any (fun x => into x.2.1))))

/-- Copies of the range's lines at core atomic units are written to the controller (R198, R349 step 4). -/
def flushCopies (base : Nat) (s : State) : State :=
  s.cores.foldl (fun t k => k.2.atoms.foldl (fun u a =>
    if a.fixed && decide (base ≤ a.key * 128) && decide (a.key * 128 < base + 0x200000) then
      modCore k.1 (fun x => { x with atoms := x.atoms.filter (· != a) }) ((writeBackCopy k.1 false a u).getD u)
    else u) t) s

/-- R349: the checks of NBARM: its status, or the extent's physical base and key slot. -/
def armChecks (id : BlockId) (a b : Nat) (s : State) : Except Nat (Nat × Nat) :=
  let core := (blockD s id).core
  let ctx := blockCtx s id
  if a % 0x200000 ≠ 0 || b % 0x100000 ≠ 0 then .error 0x41
  else match extentOf s core ctx a with
    | .error k => .error (if k = heldClass then 0 else 0x42)
    | .ok (pa, ks) =>
      if !(List.range 128).all (windowPage s core ctx b pa ks) then .error 0x43
      else if s.arms.any (fun x => x.base == pa) then .error 0x44
      else if (aget s.groups (extentGroup pa)).elim false (fun c => c != BitVec.ofNat 12 (ctxKey s id)) then .error 0x45
      else if 256 ≤ s.arms.length then .error 0x46
      else .ok (pa, ks)

/-- R349 steps 1 to 3. -/
def armExtent (id : BlockId) (a b pa ks : Nat) (s : State) : State :=
  let g := extentGroup pa
  let me := BitVec.ofNat 12 (ctxKey s id)
  let first := !s.arms.any (fun x => extentGroup x.base == g && x.ctx == me)
  let s1 := if first then zeroRows g { s with groups := aset s.groups g me } else s
  let s2 := { s1 with arms := s1.arms ++ [{ base := pa, vbase := a, ctx := me, ks := ks, window := b }] }
  dropTlb (meetsExtent pa) (sealEntries (blockD s id).cluster (blockCtx s id) a true (flushCopies pa s2))

/-- R349 steps 4 and 5: an NBARM whose earlier stores and atomics are performed has its result; one that waits for its
turn keeps its extent's base. -/
def armDone (w : WarpId) (s : State) (o : Outst) : State :=
  match o.instr, o.ops.head? with
  | .nbarm _ d _ _, some (pa, _) =>
    if extentBusy s pa then s else
    modWarp w.block w.warp (fun wp => { wp with outs := wp.outs.map (fun x =>
      if x.id = o.id then { x with ops := [], vals := [.uni d 0] } else x) }) (flushCopies pa s)
  | _, _ => s

def settleArms (w : WarpId) (s : State) : State := (warpD s w.block w.warp).outs.foldl (armDone w) s

def execNbarm (h : Hdr) (d a b : Name) (s : State) :=
  let i := Instr.nbarm h d a b
  coreWord i h (fun c e t =>
    let va := (uniVal e a 0).toNat
    let vb := (uniVal e b 0).toNat
    match armChecks c.block va vb t with
    | .error 0 => t
    | .error st => endWord h c (setMembersS h d (failVal st) c t)
    | .ok (pa, ks) =>
      settleArms { block := c.block, warp := e.w } (endWord h c (addOut c.block e.w (fun k =>
        { blankOut i c k with ops := [(pa, 0, 0)], members := [e.w] }) (armExtent c.block va vb pa ks t)))) s

/-- The armed extent of a context at a virtual address. -/
def armAt (s : State) (ctx va : Nat) : Option Arm := s.arms.find? (fun x => x.vbase == va && x.ctx.toNat == ctx)

/-- The near-memory commands of a context that name the extent at `va`, with their queue's state. -/
def extentCmds (s : State) (ctx va : Nat) : List QState :=
  (s.blocks.filter (fun b => ctxKey s b.id == ctx)).flatMap (fun b =>
    (b.nm.cmds.filter (fun c => c.kind != .drain && bitsOf c.desc.toNat 63 0 == va)).map (fun _ => b.nm.state))

/-- R350 step 2: the extent is disarmed; a group without an entry of the context is unbound. -/
def disarm (c : Nat) (ctx : Option (BitVec 12)) (x : Arm) (s : State) : State :=
  let g := extentGroup x.base
  let s1 := { sealEntries c ctx x.vbase false s with arms := s.arms.filter (· != x) }
  let s2 := if s1.arms.any (fun y => extentGroup y.base == g && y.ctx == x.ctx) then s1
    else zeroRows g { s1 with groups := adel s1.groups g }
  dropTlb (meetsExtent x.base) s2

def execNbdisarm (h : Hdr) (d a : Name) (s : State) :=
  let i := Instr.nbdisarm h d a
  coreWord i h (fun c e t =>
    if outsFull e.wp then t else
    let va := (uniVal e a 0).toNat
    let ctx := ctxKey t c.block
    match armAt t ctx va with
    | none => endWord h c (setMembersS h d (failVal 0x48) c t)
    | some x =>
      let cs := extentCmds t ctx va
      if cs.any (· == .error) then endWord h c (setMembersS h d (failVal 0x49) c t)
      else if cs.isEmpty then endWord h c (setMembersS h d 0 c (disarm (blockD t c.block).cluster (blockCtx t c.block) x t))
      else endWord h c (addOut c.block e.w (fun k => { blankOut i c k with ops := [(va, 0, 0)], members := [e.w] }) t)) s

/-- R350: a waiting NBDISARM of the warp whose commands have completed. -/
def disarmDone (w : WarpId) (o : Outst) (s : State) : State :=
  match o.instr with
  | .nbdisarm _ d _ =>
    let va := (o.ops.head?.map (·.1)).getD 0
    if (extentCmds s (ctxKey s w.block) va).isEmpty then
      let s1 := match armAt s (ctxKey s w.block) va with
        | some x => disarm (blockD s w.block).cluster (blockCtx s w.block) x s
        | none => s
      closeOut w o (modWarp w.block w.warp (fun wp => wp.setS d 0) s1)
    else s
  | _ => s

def execNbdisarmWaitComplete (w : WarpId) (s : State) :=
  event (fun t => (warpD t w.block w.warp).outs.foldl (fun u o => disarmDone w o u) t) s

/-! ### Spur commands at issue (R355 to R359) -/

def nmXaddr (d : Nat) : Nat := bitsOf d 63 0
def nmSoff (d : Nat) : Nat := bitsOf d 95 64
def nmAoff (d : Nat) : Nat := bitsOf d 127 96
def nmAval (d : Nat) : Nat := bitsOf d 159 128
def nmMode (d : Nat) : Bool := d.testBit 160
def nmWoff (d : Nat) : Nat := bitsOf d 192 176
def nmK (d : Nat) : Nat := bitsOf d 219 208
def nmN (d : Nat) : Nat := bitsOf d 235 224
def nmBv (d : Nat) : Nat := bitsOf d 243 240
def nmIrow (d : Nat) : Nat := bitsOf d 249 244
def nmOrow (d : Nat) : Nat := bitsOf d 255 250
def nmK0 (d : Nat) : Nat := bitsOf d 267 256
def nmKc (d : Nat) : Nat := bitsOf d 283 272
def nmJ0 (d : Nat) : Nat := bitsOf d 295 288
def nmJc (d : Nat) : Nat := bitsOf d 304 296

/-- Slices, and slices of the fullest chunk. -/
def nmSlices (d : Nat) : Nat := nmN d / 8
def nmDepth (d : Nat) : Nat := (nmSlices d + 15) / 16

/-- R356: the fields a command uses, as a mask of the descriptor. -/
def nmUses (k : NmKind) : List (Nat × Nat) :=
  let common := [(63, 0), (219, 208), (243, 240), (249, 244)]
  let weights := [(192, 176), (235, 224), (255, 250)]
  match k with
  | .load => common ++ [(95, 64)]
  | .strm _ => common ++ weights ++ [(267, 256), (283, 272), (295, 288), (304, 296)]
  | .op => common ++ weights ++ [(127, 64), (160, 160)]
  | .drain => []

/-- The descriptor without the fields the command uses. -/
def nmRest (k : NmKind) (d : Nat) : Nat :=
  let used := (nmUses k).foldl (fun v x => setBits v x.1 x.2 0) d
  if k = .op && nmMode d then setBits used 159 128 0 else used

def dim8 (x : Nat) : Bool := 8 ≤ x && x ≤ 2048 && x % 8 == 0

def xBytes (d : Nat) : Nat := nmBv d * nmK d * 2

/-- Input rows and output rows a command spans (R357). -/
def inRows (d : Nat) : Nat := (xBytes d + 1023) / 1024
def outRows (d : Nat) : Nat := (nmDepth d * nmBv d * 32 + 1023) / 1024

def isStrm (k : NmKind) : Bool := match k with | .strm _ => true | _ => false

/-- An arrival word of R358 status 0x56. -/
def arrivalBad (scratch off : Nat) : Bool := off % 4 ≠ 0 || scratch < off + 4

/-- R358: the checks after 0x50, in order. -/
def nmChecks (s : State) (id : BlockId) (k : NmKind) (d : Nat) : List (Bool × Nat) :=
  let scratch := (launchD s id.lid).scratch
  let w := k != .load
  let x := !isStrm k
  [ (nmRest k d ≠ 0, 0x51),
    ((armAt s (ctxKey s id) (nmXaddr d)).isNone, 0x52),
    (!dim8 (nmK d) || (w && !dim8 (nmN d)) || nmBv d == 0 || decide (8 < nmBv d) ||
      (isStrm k && (decide (nmK d < nmK0 d + nmKc d) || decide (nmSlices d < nmJ0 d + nmJc d) || nmK0 d % 8 ≠ 0 ||
        nmKc d % 8 ≠ 0 || nmKc d == 0 || nmJc d == 0)), 0x53),
    (w && (nmWoff d % 16 ≠ 0 || decide (131072 < nmWoff d + nmDepth d * nmK d * 16)), 0x54),
    (decide (64 < nmIrow d + inRows d) ||
      (w && (decide (64 < nmOrow d + outRows d) ||
        (decide (nmIrow d < nmOrow d + outRows d) && decide (nmOrow d < nmIrow d + inRows d)))), 0x55),
    ((x && (nmSoff d % 2 ≠ 0 || decide (scratch < nmSoff d + xBytes d))) ||
      (k == .op && (arrivalBad scratch (nmAoff d) ||
        (decide (nmSoff d < nmAoff d + 4) && decide (nmAoff d < nmSoff d + xBytes d)))), 0x56),
    ((blockD s id).nm.state == .error, 0x57) ]

/-- R358. -/
def nmTicket (seq : BitVec 32) (status : Nat) : BitVec 64 := BitVec.ofNat 64 (seq.toNat + status * 2 ^ 32)

/-- R359: accepts a command, or stalls the word on a full queue. -/
def acceptNm (id : BlockId) (st : Nat) (c : NmCmd) (s : State) : Option (BitVec 64) × State :=
  let q := (blockD s id).nm
  if st ≠ 0 then (some (nmTicket q.issued st), s)
  else if 16 ≤ q.cmds.length then (none, s)
  else (some (nmTicket (q.issued + 1) 0), modBlock id (fun b => { b with nm :=
    { b.nm with issued := b.nm.issued + 1, cmds := b.nm.cmds ++ [{ c with seq := (b.nm.issued + 1).toNat }]
                state := if b.nm.state = .idle then .running else b.nm.state } }) s)

/-- X as read at issue, 16 bits an element (R358). -/
def readX (s : State) (id : BlockId) (off n : Nat) : List (BitVec 16) :=
  (List.range n).map (fun i => BitVec.ofNat 16 (leNat (scratchRead s id (off + 2 * i) 2)))

def newNm (k : NmKind) (d v : Nat) (o : EngOrd) (w : Nat) : NmCmd :=
  { kind := k, desc := BitVec.ofNat 512 d, v := v, x := [], aoff := 0, ord := o, warp := w, seq := 0, stage := .start }

def issueNm (k : NmKind) (o : EngOrd) (vc : Vc) (a : Name) (c : Cur) (e : Env) (s : State) :
    Option (BitVec 64) × State :=
  match readDesc s c.block ((uniVal e a 0).toNat % 2 ^ 32) 64 with
  | none => acceptNm c.block 0x50 (newNm k 0 0 o e.w) s
  | some d =>
    let x := if isStrm k then [] else readX s c.block (nmSoff d) (nmBv d * nmK d)
    acceptNm c.block (firstBad (nmChecks s c.block k d))
      { newNm k d (vcOf e vc (nmBv d)) o e.w with x := x, aoff := nmAoff d } s

def execNbload (h : Hdr) (vc : Vc) (d a : Name) (s : State) :=
  commandWord (.nbload h vc d a) h d (issueNm .load noOrd vc a) s

def execNbstrm (h : Hdr) (vc : Vc) (acc : Bool) (d a : Name) (s : State) :=
  commandWord (.nbstrm h vc acc d a) h d (issueNm (.strm acc) noOrd vc a) s

def execNbop (h : Hdr) (sem : Sem) (msc : Msc) (vc : Vc) (d a : Name) (s : State) :=
  commandWord (.nbop h sem msc vc d a) h d (issueNm .op (engOrd sem msc) vc a) s

/-- R360: NBDRAIN is checked for its arrival word and for Error. -/
def issueDrain (rel : Bool) (msc : Msc) (a : Name) (c : Cur) (e : Env) (s : State) : Option (BitVec 64) × State :=
  let off := (uniVal e a 0).toNat % 2 ^ 32
  let st := firstBad [(arrivalBad (launchD s c.block.lid).scratch off, 0x56), ((blockD s c.block).nm.state == .error, 0x57)]
  acceptNm c.block st { newNm .drain 0 0 { rel := rel, acq := false, msc := msc } e.w with aoff := off } s

def execNbdrain (h : Hdr) (rel : Bool) (msc : Msc) (d a : Name) (s : State) :=
  commandWord (.nbdrain h rel msc d a) h d (issueDrain rel msc a) s

/-- R360, R362: the sum starts afresh only when the queue is cleared in Error. -/
def execNbdrainClr (h : Hdr) (d : Name) (s : State) :=
  coreWord (.nbdrainClr h d) h (fun c _ t =>
    let q := (blockD t c.block).nm
    if q.state = .error then
      endWord h c (setMembersS h d (BitVec.ofNat 64 q.cmds.length) c
        (modBlock c.block (fun b => { b with nm := { b.nm with cmds := [], state := .idle, sum := 0 } }) t))
    else endWord h c (setMembersS h d 0 c t)) s

/-! ### Spur commands at execution (R353, R354, R357, R360, R362) -/

/-- A mailbox row of a channel: its bytes as read under a key slot. -/
def rowContent (s : State) (ch row ks : Nat) : List (BitVec 8) :=
  (List.range 8).flatMap (fun i => lineBytes (fixedFromHbm s (rowBase + ch * 65536 + row * 1024 + 128 * i) ks).1 0 128)

/-- R354: a Spur read of a row; false: the row is, or becomes, Poisoned. -/
def spurRead (ch row : Nat) (s : State) : Bool × State :=
  let k := ch * 64 + row
  match aget s.rows k with
  | none => (true, s)
  | some .poisoned => (false, s)
  | some (.unadopted crc) =>
    if rowCrc s k = crc then (true, s) else (false, { s with rows := aset s.rows k .poisoned })

/-- R353, R359: rewrites bytes of one row, which is read first unless all of it is rewritten. -/
def spurWrite (ch ks row off : Nat) (bs : List (BitVec 8)) (s : State) : Bool × State :=
  let (ok, s1) := if bs.length = 1024 then (true, s) else spurRead ch row s
  if !ok then (false, s1) else
  let old := rowContent s1 ch row ks
  let s2 := writeBytes s1 (rowBase + ch * 65536 + row * 1024) (old.take off ++ bs ++ old.drop (off + bs.length)) ks
  let k := ch * 64 + row
  (true, { s2 with rows := aset s2.rows k (.unadopted (rowCrc s2 k)) })

/-- Bytes from offset `off` of the rows from `row` on, split at rows. -/
def spurPut (ch ks row off : Nat) : Nat → List (BitVec 8) → State → Bool × State
  | 0, _, s => (true, s)
  | fuel + 1, bs, s =>
    if bs.isEmpty then (true, s) else
    let n := 1024 - off % 1024
    let (ok, s1) := spurWrite ch ks (row + off / 1024) (off % 1024) (bs.take n) s
    if !ok then (false, s1) else spurPut ch ks row (off + n) fuel (bs.drop n) s1

/-- Reads `n` bytes from offset `off` of the rows from `row` on; none after a row that fails R354. -/
def spurGet (ch ks row off n : Nat) (s : State) : Option (List (BitVec 8)) × State :=
  let rows := (List.range ((off + n + 1023) / 1024 - off / 1024)).map (fun i => row + off / 1024 + i)
  let (ok, s1) := rows.foldl (fun (acc : Bool × State) r => if acc.1 then spurRead ch r acc.2 else acc) (true, s)
  if !ok then (none, s1)
  else (some (((rows.flatMap (fun r => rowContent s1 ch r ks)).drop (off % 1024)).take n), s1)

def halves : List (BitVec 8) → List Nat
  | a :: b :: t => (a.toNat + 256 * b.toNat) :: halves t
  | _ => []

/-- NBLOAD's effect on one channel: X of the vectors below V. -/
def nmLoad (c : NmCmd) (x : Arm) (ch : Nat) (s : State) : Bool × State :=
  let d := c.desc.toNat
  let bs := (c.x.take (c.v * nmK d)).flatMap (fun v => leBytes 2 v.toNat)
  spurPut ch x.ks (nmIrow d) 0 65 bs s

/-- R347: element W[k][n] of slice j. -/
def nmWeight (s : State) (x : Arm) (d j k n : Nat) : Nat :=
  let pa := x.base + j % 16 * 131072 + nmWoff d + j / 16 * nmK d * 16 + k * 16 + n * 2
  leNat (lineBytes (fixedFromHbm s pa x.ks).1 (pa % 128) 2)

/-- R360: one output element: the K-steps of 8 rows from K0 to K0 + KC − 1. -/
def nmDot (xs : List FV) (ws : List FV) : Nat → BitVec 32 → BitVec 32
  | 0, c => c
  | n + 1, c => nmDot (xs.drop 8) (ws.drop 8) n (accStep c (List.zipWith prodZ (xs.take 8) (ws.take 8)))

/-- R360: the 32 bytes of Y of one vector and slice, from its X and, under .ACC, the bytes that stood there. -/
def nmOut (s : State) (x : Arm) (d k0 kc j : Nat) (xb : List (BitVec 8)) (old : List (BitVec 8)) : List (BitVec 8) :=
  let xs := (halves xb).map (fmtBf16.dec ·)
  (List.range 8).flatMap (fun n =>
    let ws := (List.range kc).map (fun k => fmtBf16.dec (nmWeight s x d j (k0 + k) n))
    leBytes 4 (nmDot xs ws (kc / 8) (BitVec.ofNat 32 (leNat ((old.drop (4 * n)).take 4)))).toNat)

/-- What a streaming command takes: rows of W, slices, and whether it adds to Y. -/
structure NmSpan where
  k0 : Nat
  kc : Nat
  j0 : Nat
  jc : Nat
  acc : Bool

/-- R357: the slice and the vector of the 32 bytes number `u` of the output rows of the channel of slice `j`. -/
def nmUnit (d j u : Nat) : Nat × Nat := (u / nmBv d * 16 + j % 16, u % nmBv d)

/-- R359: the command produces all 1,024 bytes of an output row of the channel of slice `j`, without reading it. -/
def nmWhole (c : NmCmd) (p : NmSpan) (j row : Nat) : Bool :=
  !p.acc && (List.range 32).all (fun i =>
    let x := nmUnit c.desc.toNat j (32 * row + i)
    decide (p.j0 ≤ x.1) && decide (x.1 < p.j0 + p.jc) && decide (x.2 < c.v))

/-- X of vector b from the input rows of the channel of slice j. -/
def nmInput (c : NmCmd) (x : Arm) (p : NmSpan) (j b : Nat) (s : State) : Option (List (BitVec 8)) × State :=
  let d := c.desc.toNat
  spurGet (extentChannel x.base + j % 16) x.ks (nmIrow d) ((b * nmK d + p.k0) * 2) (p.kc * 2) s

/-- NBSTRM's effect on vector b of slice j. A row that the command produces whole is written once, with its last bytes
(R359); any other is read and rewritten. -/
def nmVector (c : NmCmd) (x : Arm) (p : NmSpan) (jb : Nat × Nat) (s : State) : Bool × State :=
  let d := c.desc.toNat
  let (j, b) := jb
  let ch := extentChannel x.base + j % 16
  let u := j / 16 * nmBv d + b
  match nmInput c x p j b s with
  | (none, s1) => (false, s1)
  | (some xb, s1) =>
    if nmWhole c p j (u / 32) then
      if u % 32 ≠ 31 then (true, s1) else
      let bs := (List.range 32).flatMap (fun i =>
        let v := nmUnit d j (u / 32 * 32 + i)
        nmOut s1 x d p.k0 p.kc v.1 ((nmInput c x p v.1 v.2 s1).1.getD []) [])
      spurPut ch x.ks (nmOrow d) (u / 32 * 1024) 2 bs s1
    else match spurGet ch x.ks (nmOrow d) (32 * u) 32 s1 with
      | (none, s2) => (false, s2)
      | (some yb, s2) => spurPut ch x.ks (nmOrow d) (32 * u) 2 (nmOut s2 x d p.k0 p.kc j xb (if p.acc then yb else [])) s2

/-- Does `f` for each item until one fails. -/
def untilFail {α : Type} (f : α → State → Bool × State) : List α → State → Bool × State
  | [], s => (true, s)
  | a :: t, s => let r := f a s; if r.1 then untilFail f t r.2 else r

/-- The vectors of a streaming command, slice by slice. -/
def nmItems (c : NmCmd) (p : NmSpan) : List (Nat × Nat) :=
  (runFrom p.j0 p.jc).flatMap (fun j => (List.range c.v).map (fun b => (j, b)))

/-- What the command streams, if it does. -/
def nmSpan (c : NmCmd) : Option NmSpan :=
  let d := c.desc.toNat
  match c.kind with
  | .strm acc => some { k0 := nmK0 d, kc := nmKc d, j0 := nmJ0 d, jc := nmJc d, acc := acc }
  | .op => some { k0 := 0, kc := nmK d, j0 := 0, jc := nmSlices d, acc := false }
  | _ => none

/-- R360: the writes of a command to its input rows. -/
def nmInputs (c : NmCmd) (x : Arm) (s : State) : Bool × State :=
  match c.kind with
  | .load | .op => untilFail (nmLoad c x) (runFrom (extentChannel x.base) 16) s
  | _ => (true, s)

/-- R360: the reads and row writes of a command, those of the first `n` vectors that it streams. -/
def nmData (c : NmCmd) (x : Arm) (n : Nat) (s : State) : Bool × State :=
  let r := nmInputs c x s
  match r.1, nmSpan c with
  | true, some p => untilFail (nmVector c x p) ((nmItems c p).take n) r.2
  | _, _ => r

/-- The vectors that a command streams. -/
def nmCount (c : NmCmd) : Nat := ((nmSpan c).map (fun p => (nmItems c p).length)).getD 0

def modNm (id : BlockId) (f : NmQueue → NmQueue) (s : State) : State := modBlock id (fun b => { b with nm := f b.nm }) s

/-- R362: the queue enters Error. -/
def nmError (id : BlockId) (c : NmCmd) (st : Nat) (s : State) : State :=
  modNm id (fun q => { q with state := .error }) (engineTrap id c.warp 2 0 st c.seq 0 s)

/-- R360: what the command adds to, or sets, its arrival word. -/
def nmArrival (c : NmCmd) (q : NmQueue) (old : Nat) : Nat :=
  let d := c.desc.toNat
  match c.kind with
  | .drain => (old + q.sum) % 2 ^ 32
  | _ => if nmMode d then nmAval d else (old + 4 * nmBv d * nmN d) % 2 ^ 32

/-- The head completes (R360, R363). -/
def nmRetire (id : BlockId) (c : NmCmd) (s : State) : State :=
  let signals := c.kind == .op || c.kind == .drain
  let old := leNat (scratchRead s id c.aoff 4)
  let s1 := if signals then scratchWrite id c.aoff (leBytes 4 (nmArrival c (blockD s id).nm old)) s else s
  let d := c.desc.toNat
  modNm id (fun q =>
    let rest := q.cmds.drop 1
    { q with
      cmds := rest, completed := q.completed + 1, state := if rest.isEmpty then .idle else .running
      sum := match c.kind with
        | .strm _ => q.sum + 32 * nmBv d * nmJc d
        | .drain => 0
        | _ => q.sum }) s1

/-- R360: release, arrival update, completion; the data is done. -/
def nmFinish (id : BlockId) (c : NmCmd) (s : State) : State :=
  let signals := c.kind == .op || c.kind == .drain
  if signals && needsCheckpoint s id [(c.aoff, 4)] then askCheckpoint id s else
  match releaseGate id c.ord c.stage s with
  | (false, st) =>
    let s1 := modNm id (fun q => { q with cmds := { c with stage := st } :: q.cmds.drop 1 }) s
    if st = .release then askCheckpoint id s1 else s1
  | (true, _) =>
    match commandRelease id c.warp c.ord [] c.stage s with
    | .done t => nmRetire id c t
    | .wait t | .sent t => t

/-- R360, R362, R439: the head of a block's queue runs. Which extent read an uncorrected error meets is open: a free number
of vectors comes before it (log entry 9, DESIGN CHOICE). -/
def nmRun (id : BlockId) (c : NmCmd) (ecc : Ecc) (s : State) : State :=
  if c.stage ≠ .start then nmFinish id c s else
  let s0 := if c.ord.acq then agentAcquire id c.ord.msc s else s
  let begun := { c with stage := CmdStage.data }
  let keep (t : State) : State := modNm id (fun q => { q with cmds := begun :: q.cmds.drop 1 }) t
  if c.kind = .drain then nmFinish id begun (keep s0) else
  match armAt s0 (ctxKey s0 id) (nmXaddr c.desc.toNat) with
  | none => nmFinish id begun (keep s0)
  | some x =>
    if ecc = .uncorrectable && nmCount c ≠ 0 then
      let r := nmData c x ((Config.free64 s0.draws).toNat % nmCount c) { s0 with draws := s0.draws + 1 }
      if !r.1 then nmError id c 0x58 r.2 else
      let s1 := countEvent .hbmUncorrectable (.channel (extentChannel x.base)) r.2
      if (launchD s id.lid).rb then
        engineRollback id c.warp x.base (modNm id (fun q => { q with state := .stalled }) s1)
      else nmError id c 0x59 s1
    else
      let r := nmData c x (nmCount c) s0
      if r.1 then nmFinish id begun (keep r.2) else nmError id c 0x58 r.2

def execNearMemoryCommandComplete (b : BlockId) (ecc : Ecc) (s : State) :=
  event (fun t =>
    let q := (blockD t b).nm
    match q.cmds with
    | c :: _ =>
      if q.state == .running && (blockD t b).resident && (!enginesHeld (blockD t b) || c.stage != .start)
      then nmRun b c ecc t else t
    | [] => t) s

/-! ### Walks (R366 to R373) -/

def wkRoot (d : Nat) : Nat := bitsOf d 63 0
def wkKey (d : Nat) : Nat := bitsOf d 127 64
def wkRoff (d : Nat) : Nat := bitsOf d 159 128
def wkAoff (d : Nat) : Nat := bitsOf d 191 160
def wkAval (d : Nat) : Nat := bitsOf d 223 192
def wkMode (d : Nat) : Bool := d.testBit 224
def wkFpol (d : Nat) : Bool := d.testBit 225
def wkRlen (d : Nat) : Nat := bitsOf d 239 232
def wkNr (d : Nat) : Nat := bitsOf d 243 240
def wkSlim (d : Nat) : Nat := bitsOf d 268 256

def rlOp (r : Nat) : Nat := bitsOf r 3 0
def rlT (r : Nat) : Nat := bitsOf r 7 4
def rlF (r : Nat) : Nat := bitsOf r 11 8
def rlOff (r : Nat) : Nat := bitsOf r 18 12
def rlW (r : Nat) : Nat := 2 ^ bitsOf r 20 19
def rlCc (r : Nat) : Nat := bitsOf r 23 21
def rlKs (r : Nat) : Bool := r.testBit 24
def rlImm (r : Nat) : Nat := bitsOf r 63 32

/-- R370 status 0x61 of a rule: reserved bits, and an IMM that must be zero. -/
def ruleReserved (r : Nat) : Bool :=
  bitsOf r 31 25 ≠ 0 || (rlImm r ≠ 0 && !(rlOp r == 0 || (rlOp r == 1 && rlKs r)))

/-- R370 status 0x62. -/
def ruleInvalid (nr r : Nat) : Bool :=
  let op := rlOp r
  decide (4 < op) || (decide (op ≤ 2) && decide (nr < rlT r)) || ((op == 1 || op == 2) && decide (nr < rlF r)) ||
    decide (5 < rlCc r) || (op != 1 && bitsOf r 20 19 != 0) ||
    (op == 1 && decide (128 < rlOff r + rlW r)) || (op == 2 && decide (128 < rlOff r + 8)) ||
    (op == 0 && (decide (rlImm r < 8) || decide (128 < rlImm r) || rlImm r % 8 != 0))

/-- R370: the checks of a walk after 0x60. -/
def walkChecks (scratch d : Nat) (rules : List (BitVec 64)) : List (Bool × Nat) :=
  let res := 16 + wkRlen d
  [ (bitsOf d 231 226 ≠ 0 || bitsOf d 255 244 ≠ 0 || bitsOf d 511 269 ≠ 0 || (!wkMode d && wkAval d ≠ 0) ||
      rules.any (fun r => ruleReserved r.toNat), 0x61),
    (rules.any (fun r => ruleInvalid (wkNr d) r.toNat), 0x62),
    (wkSlim d == 0 || decide (4096 < wkSlim d) || decide (128 < wkRlen d) || wkRlen d % 8 != 0, 0x63),
    (wkRoff d % 16 ≠ 0 || decide (scratch < wkRoff d + res) || arrivalBad scratch (wkAoff d) ||
      (decide (wkRoff d < wkAoff d + 4) && decide (wkAoff d < wkRoff d + res)), 0x64) ]

/-- R370: walks in flight on a die. -/
def dieWalks (s : State) (die : Nat) : Nat :=
  ((s.blocks.filter (fun b => b.cluster / 10 == die && b.resident)).map (fun b => b.walks.length)).sum

/-- R366, R370: starts a walk. -/
def issueWalk (o : EngOrd) (a : Name) (c : Cur) (e : Env) (s : State) : Option (BitVec 64) × State :=
  let b := blockD s c.block
  let scratch := (launchD s c.block.lid).scratch
  let off := (uniVal e a 0).toNat % 2 ^ 32
  let ticket (st : Nat) : BitVec 64 := BitVec.ofNat 64 (b.nextWid % 2 ^ 32 + st * 2 ^ 32)
  match readDesc s c.block off 64 with
  | none => (some (ticket 0x60), s)
  | some d =>
    if scratch < off + 64 + 8 * (wkNr d + 1) then (some (ticket 0x60), s) else
    let rules := (List.range (wkNr d + 1)).map (fun i => BitVec.ofNat 64 (leNat (scratchRead s c.block (off + 64 + 8 * i) 8)))
    let st := firstBad (walkChecks scratch d rules)
    if st ≠ 0 then (some (ticket st), s)
    else if 512 ≤ dieWalks s (b.cluster / 10) then (none, s)
    else
      let w : Walk :=
        { wid := b.nextWid % 2 ^ 32, desc := BitVec.ofNat 512 d, rules := rules, ord := o, warp := e.w,
          ptr := BitVec.ofNat 64 (wkRoot d), buf := [], rule := 0, steps := 0, run := 0, epoch := 0, phase := .starting,
          cancel := false }
      (some (ticket 0), modBlock c.block (fun x => { x with walks := x.walks ++ [w], nextWid := x.nextWid + 1 }) s)

def execTrav (h : Hdr) (sem : Sem) (msc : Msc) (d a : Name) (s : State) :=
  commandWord (.trav h sem msc d a) h d (issueWalk (engOrd sem msc) a) s

def execTravqCount (h : Hdr) (d : Name) (s : State) :=
  coreWord (.travqCount h d) h (fun c _ t =>
    endWord h c (setMembersS h d (BitVec.ofNat 64 (blockD t c.block).walks.length) c t)) s

def modWalk (id : BlockId) (wid : Nat) (f : Walk → Walk) (s : State) : State :=
  modBlock id (fun b => { b with walks := b.walks.map (fun w => if w.wid = wid then f w else w) }) s

def findWalk (s : State) (id : BlockId) (wid : Nat) : Option Walk := (blockD s id).walks.find? (fun w => w.wid == wid)

def execTravqCancel (h : Hdr) (d a : Name) (s : State) :=
  coreWord (.travqCancel h d a) h (fun c e t =>
    let wid := (uniVal e a 0).toNat % 2 ^ 32
    if (findWalk t c.block wid).isSome then
      endWord h c (setMembersS h d 0 c (modWalk c.block wid (fun w => { w with cancel := true }) t))
    else endWord h c (setMembersS h d 1 c t)) s

/-- R373: a walk is gone; its pin ends. -/
def dropWalk (id : BlockId) (wid : Nat) (s : State) : State :=
  modBlock id (fun b => { b with walks := b.walks.filter (fun w => w.wid != wid) }) s

/-- R371: header and record of a result. -/
def walkResult (w : Walk) (st cls : Nat) : List (BitVec 8) :=
  let rlen := wkRlen w.desc.toNat
  let rec0 := if st = 0 then w.buf.take rlen else []
  leBytes 8 (st + cls * 2 ^ 8 + w.steps * 2 ^ 16) ++ leBytes 8 w.ptr.toNat
    ++ rec0 ++ List.replicate (rlen - rec0.length) 0

/-- R371: what is left after the result: release, arrival word. -/
def walkFinish (id : BlockId) (w : Walk) (st cls : Nat) (stage : CmdStage) (s : State) : State :=
  let d := w.desc.toNat
  if needsCheckpoint s id [(wkAoff d, 4)] then askCheckpoint id s else
  match releaseGate id w.ord stage s with
  | (false, g) =>
    let s1 := modWalk id w.wid (fun x => { x with phase := .ending st cls g }) s
    if g = .release then askCheckpoint id s1 else s1
  | (true, _) =>
    match commandRelease id w.warp w.ord [] stage s with
    | .wait t | .sent t => t
    | .done s1 =>
    let old := leNat (scratchRead s1 id (wkAoff d) 4)
    let v := if wkMode d then wkAval d else (old + 16 + wkRlen d) % 2 ^ 32
    dropWalk id w.wid (scratchWrite id (wkAoff d) (leBytes 4 v) s1)

/-- R371: the result is written, then the rest follows. -/
def walkWrite (id : BlockId) (w : Walk) (st cls : Nat) (s : State) : State :=
  let bs := walkResult w st cls
  if needsCheckpoint s id [(wkRoff w.desc.toNat, bs.length)] then askCheckpoint id s else
  walkFinish id w st cls .data
    (modWalk id w.wid (fun x => { x with phase := .ending st cls .data }) (scratchWrite id (wkRoff w.desc.toNat) bs s))

/-- R371, R373: a walk ends with a status and a class. -/
def walkEnd (id : BlockId) (w : Walk) (st cls : Nat) (s : State) : State :=
  if wkFpol w.desc.toNat && decide (2 ≤ st) && decide (st ≤ 7) then
    dropWalk id w.wid (engineTrap id w.warp 3 0 st w.wid 0 s)
  else walkWrite id w st cls (modWalk id w.wid (fun x => { x with phase := .ending st cls .start }) s)

/-- R369: a walk starts: its acquire, then its epoch. -/
def execWalkStart (b : BlockId) (wid : Nat) (s : State) :=
  event (fun t => match findWalk t b wid with
    | none => t
    | some w =>
      if w.phase != .starting then t else
      let u := if w.ord.acq then agentAcquire b w.ord.msc t else t
      modWalk b wid (fun x => { x with phase := .running, epoch := u.epoch }) u) s

/-- R368: the comparison of a CMP. -/
def ruleHolds (cc w f k : Nat) : Bool :=
  let sf := intVal f (8 * w) true
  let sk := intVal k (8 * w) true
  match cc with
  | 0 => f == k
  | 1 => f != k
  | 2 => decide (f < k)
  | 3 => decide (k ≤ f)
  | 4 => decide (sf < sk)
  | _ => decide (sk ≤ sf)

/-- R368: 64 rules since the last LOAD end the walk. -/
def walkNext (id : BlockId) (w : Walk) (s : State) : State :=
  if w.run + 1 = 64 then walkEnd id { w with run := 64 } 0x06 0 (modWalk id w.wid (fun _ => w) s)
  else modWalk id w.wid (fun _ => { w with run := w.run + 1 }) s

/-- R368: one rule of a running walk. -/
def walkRule (id : BlockId) (w : Walk) (s : State) : State :=
  let d := w.desc.toNat
  let r := ((w.rules[w.rule]?).getD 0).toNat
  match rlOp r with
  | 0 =>
    if w.steps = wkSlim d then walkEnd id w 0x02 0 s
    else if w.ptr = 0 then walkEnd id w 0x03 0 s
    else modWalk id w.wid (fun x => { x with steps := x.steps + 1, phase := .reading }) s
  | 1 =>
    if w.buf.length < rlOff r + rlW r then walkEnd id w 0x05 0 s
    else
      let f := leNat ((w.buf.drop (rlOff r)).take (rlW r))
      let k := (if rlKs r then rlImm r else wkKey d) % 2 ^ (8 * rlW r)
      walkNext id { w with rule := if ruleHolds (rlCc r) (rlW r) f k then rlT r else rlF r } s
  | 2 =>
    if w.buf.length < rlOff r + 8 then walkEnd id w 0x05 0 s
    else
      let p := leNat ((w.buf.drop (rlOff r)).take 8)
      walkNext id { w with ptr := BitVec.ofNat 64 p, rule := if p ≠ 0 then rlT r else rlF r } s
  | 3 => walkEnd id w 0x00 0 s
  | _ => walkEnd id w 0x01 0 s

def execWalkRule (b : BlockId) (wid : Nat) (s : State) :=
  event (fun t => match findWalk t b wid with
    | none => t
    | some w =>
      match w.phase with
      | .running => if w.cancel then walkEnd b w 0x08 0 t else walkRule b w t
      | .ending st cls .start => walkWrite b w st cls t
      | .ending st cls stage => walkFinish b w st cls stage t
      | _ => t) s

/-- What a LOAD of a walk finds: bytes, a fault's class, or an uncorrectable sector. -/
inductive WalkRead where
  | bytes (bs : List (BitVec 8))
  | fault (cls : Nat)
  | error (pa : Nat)
  | held

/-- R368, R369: one piece of a LOAD; a remote or NC page faults with a class the spec does not give (log entry 9, DESIGN CHOICE). -/
def walkPiece (e : Nat) (x : Piece × Place) (acc : WalkRead × State) : WalkRead × State :=
  match acc.1 with
  | .bytes bs =>
    match x.2 with
    | .log .. =>
      let (b, err, t) := snapLoad x.2 x.1.n e acc.2
      match err with
      | some pa => (.error pa, t)
      | none => (.bytes (bs ++ b), t)
    | .fixed pa false ks =>
      let r := fixedFromHbm acc.2 pa ks
      if r.2 &&& sectorsHit (pa % 128) x.1.n = 0 then (.bytes (bs ++ lineBytes r.1 (pa % 128) x.1.n), acc.2)
      else (.error pa, acc.2)
    | _ => (.fault ((Config.free64 acc.2.draws).toNat % 256), { acc.2 with draws := acc.2.draws + 1 })
  | _ => acc

/-- R368, R438: where in HBM a piece of a LOAD is read: the version as of the walk's epoch, or the fixed sector. -/
def walkHbm (s : State) (e : Nat) (x : Piece × Place) : Option Nat :=
  match x.2 with
  | .log la _ => (versionAsOf s (la / 128) e).bind (fun v => if v.zero || v.pa = 0 then none else some (v.pa / 128 * 128 + la % 128))
  | .fixed pa false _ => some pa
  | _ => none

/-- R368: the data of a LOAD. -/
def walkLoad (id : BlockId) (w : Walk) (n : Nat) (ecc : Ecc) (s : State) : WalkRead × State :=
  if w.ptr.toNat % 8 ≠ 0 then (.fault 2, s)
  else match placePieces id .load (linePieces w.ptr.toNat 0 n) s with
    | .error (cls, _) => if cls = heldClass then (.held, s) else (.fault cls, s)
    | .ok (ps, t) =>
      let (inj, t1) := injectRead (ctxNumber s id) (ps.flatMap (fun x => x.2.line?)) t
      if inj then (.error 0, t1) else
      let t2 := ps.foldl (fun u x => match walkHbm t1 w.epoch x with
        | some pa => hbmRead ecc pa u
        | none => u) t1
      ps.foldl (fun acc x => walkPiece w.epoch x acc) (.bytes [], t2)

/-- R368, R373, R439: a LOAD's data returns, or the walk ends. -/
def walkReturn (id : BlockId) (w : Walk) (ecc : Ecc) (s : State) : State :=
  let r := ((w.rules[w.rule]?).getD 0).toNat
  match walkLoad id w (rlImm r) ecc s with
  | (.bytes bs, t) => modWalk id w.wid (fun x => { x with buf := bs, rule := rlT r, run := 0, phase := .running }) t
  | (.fault cls, t) => walkEnd id w 0x04 cls t
  | (.error pa, t) =>
    if (launchD t id.lid).rb then dropWalk id w.wid (engineRollback id w.warp pa t) else walkEnd id w 0x07 0 t
  | (.held, _) => s

def execWalkLoadReturn (b : BlockId) (wid : Nat) (ecc : Ecc) (s : State) :=
  event (fun t => match findWalk t b wid with
    | some w => if w.phase = .reading then walkReturn b w ecc t else t
    | none => t) s

end Sys2Proof.Machine
end

