-- ==== Sys2Proof/Machine/System.lean ====
section
/-!
DEFINITION. Machine/System.lean: control registers, mailboxes, LAUNCH, contexts, TLBI and key slots (R375 to R384, R403,
R408, R409, R435, R444, R446).
-/
namespace Sys2Proof.Machine

/-! ### Control registers (R376, R444) -/

def b64 (v : Nat) : BitVec 64 := BitVec.ofNat 64 v

/-- R376: TPEND. -/
def tpendVal (t : Tpend) : BitVec 64 :=
  b64 ((if t.v then 1 else 0) + (if t.ovf then 2 else 0)
    + (if t.v then bitsOf t.record.toNat 135 128 * 4 + bitsOf t.record.toNat 143 136 * 1024 else 0))

/-- R444: DEVSTAT. -/
def devstat (s : State) : Nat :=
  s.phase + (if s.lasting then 4 else 0) + s.failed.cls.toNat * 2 ^ 8 + s.failed.num.toNat * 2 ^ 16 + s.fatal * 2 ^ 24

/-- R444: RETMAP; units without a spare count as withheld cores. -/
def retmap (s : State) : Nat :=
  let pipes := (s.retired.filter (fun u => match u with | .laneGroup _ | .engine _ => true | _ => false)).length
  let chans := (s.retired.filter (fun u => match u with | .channel _ => true | _ => false)).length
  min pipes s.blob.spares + s.withheld.length * 2 ^ 32 + min chans 255 * 2 ^ 48

/-- R444: TDISTAT. -/
def tdistat (s : State) : Nat := s.tdisp.foldl (fun a t => if t.2 = .error then a + 2 ^ t.1 else a) 0

/-- R444: EVCNT k. -/
def evcnt (s : State) (k : Nat) : Nat :=
  (s.counts.filter (fun c => evIndex c.1 == k)).foldl (fun m c => max m c.2.2) 0

/-- R444: PWRSTAT. -/
def pwrstat (s : State) : Nat := s.power % 2 ^ 16 + s.slow.length % 2 ^ 8 * 2 ^ 16 + s.hottest % 2 ^ 8 * 2 ^ 24

/-- R434: a port as it stands after reset, down. -/
def Port.blank : Port :=
  { state := 0, width := 0, lanes := 0, dropped := 0, replays := 0, e2e := 0, unacked := [], sent := 0 }

def portD (s : State) (p : Nat) : Port := (aget s.ports p).getD Port.blank

/-- R434: PORTSTAT. -/
def portstat (p : Port) : Nat :=
  p.state % 4 + p.width % 4 * 4 + p.lanes.toNat * 2 ^ 8 + p.replays.toNat * 2 ^ 16 + p.e2e.toNat * 2 ^ 48

/-- R444: COLSTAT. -/
def colstat (s : State) : Nat := (if s.coll.isSome then 1 else 0) + s.collStatus.toNat * 2 ^ 8

/-- R334: CLEANSTAT. -/
def cleanstat (s : State) : Nat := s.reclaimed.toNat + s.minFree % 2 ^ 20 * 2 ^ 32 + (if cleanUrgent s then 2 ^ 52 else 0)

/-- What CSRR reads for a warp. -/
def csrValue (s : State) (wp : Warp) (n : Nat) : BitVec 64 :=
  match n with
  | 0x000 => wp.trec.extractLsb' 0 64
  | 0x001 => wp.trec.extractLsb' 64 64
  | 0x002 => wp.trec.extractLsb' 128 64
  | 0x003 => wp.trec.extractLsb' 192 64
  | 0x004 => tpendVal wp.tpend
  | 0x005 => if wp.tmask then 1 else 0
  | 0x100 => s.csr.ctxbase
  | 0x101 => s.csr.sroot
  | 0x102 => s.csr.stvec
  | 0x103 => b64 s.blob.mbxbase
  | 0x104 => s.csr.swaptmo
  | 0x105 => b64 (s.rollbacks.toNat + s.kills.toNat * 2 ^ 32)
  | 0x106 => b64 s.mbxdrop
  | 0x107 => b64 s.blob.ixbase
  | 0x108 => b64 s.blob.ixlines
  | 0x109 => s.csr.shtb
  | 0x110 => s.csr.cleanctl
  | 0x111 => b64 (cleanstat s)
  | 0x120 => s.csr.errinj
  | 0x200 => b64 (devstat s)
  | 0x202 => b64 (retmap s)
  | 0x203 => b64 (tdistat s)
  | 0x220 => s.csr.pwrlim
  | 0x221 => b64 (pwrstat s)
  | 0x251 => b64 (colstat s)
  | k => if 0x210 ≤ k && k ≤ 0x214 then b64 (evcnt s (k - 0x210))
         else if 0x230 ≤ k && k ≤ 0x241 then b64 (portstat (portD s (k - 0x230)))
         else 0

def execCsrr (h : Hdr) (d : Name) (n : BitVec 12) (s : State) :=
  uniWord (.csrr h d n) h (fun e wp => wp.setS d (csrValue e.s e.wp n.toNat)) s

/-- R4, R333: the fields of CLEANCTL that exist. -/
def cleanMask : BitVec 64 := 0xFFFFFF07FF#64

/-- A write of a control register of the device; reserved fields keep their zeros (R4), and PWRLIM its range (R444). -/
def csrPut (n : Nat) (v : BitVec 64) (s : State) : State :=
  match n with
  | 0x100 => { s with csr := { s.csr with ctxbase := v } }
  | 0x101 => { s with csr := { s.csr with sroot := v } }
  | 0x102 => { s with csr := { s.csr with stvec := v } }
  | 0x104 => { s with csr := { s.csr with swaptmo := v } }
  | 0x109 => { s with csr := { s.csr with shtb := v } }
  | 0x110 => { s with csr := { s.csr with cleanctl := v &&& cleanMask } }
  | 0x220 =>
    let w := v &&& 0xFFFF#64
    if 600 ≤ w.toNat && w.toNat ≤ 2200 then { s with csr := { s.csr with pwrlim := w } } else s
  | _ => s

/-- R376: a CSRW of TREC0 changes the resume PC of the record. -/
def Warp.putTrec0 (v : BitVec 64) (wp : Warp) : Warp :=
  { wp with trec := (wp.trec >>> 64 <<< 64) ||| (v.setWidth 53).setWidth 256 }

def execCsrw (h : Hdr) (n : BitVec 12) (a : Name) (s : State) :=
  coreWord (.csrw h n a) h (fun c e t =>
    let v := uniVal e a 0
    endWord h c (if n = 0 then modWarp c.block e.w (Warp.putTrec0 v) t else csrPut n.toNat v t)) s

/-- R376, R394: unmasking delivers a pending record at once. -/
def execTmaskWrite (h : Hdr) (a : Name) (s : State) :=
  coreWord (.tmaskWrite h a) h (fun c e t =>
    let on := (uniVal e a 0).getLsbD 0
    deliverPending c.block e.w (modWarp c.block e.w (fun wp => { wp with tmask := on }) (endWord h c t))) s

def execTpendWrite (h : Hdr) (a : Name) (s : State) :=
  coreWord (.tpendWrite h a) h (fun c e t =>
    let keep := (uniVal e a 0).getLsbD 0
    let t1 := if keep || !e.wp.tpend.v then t else dropFrozen c.block e.w e.wp.tpend.record t
    endWord h c (modWarp c.block e.w (fun wp =>
      { wp with tpend := if keep then { wp.tpend with ovf := false } else Tpend.none }) t1)) s

/-- R424: extends a measurement register by a digest of 64 bytes. -/
def extendMeas (k : Nat) (digest : List (BitVec 8)) (s : State) : State :=
  { s with meas := sset s.meas k (Config.shake512 (leBytes 64 (sget s.meas k).toNat ++ digest)) }

/-- R444: MEXT. -/
def execMextWrite (h : Hdr) (a : Name) (s : State) :=
  coreWord (.mextWrite h a) h (fun c e t =>
    let v := (uniVal e a 0).toNat
    let pa := bitsOf v 39 6 * 64
    if bitsOf v 3 0 < 8 then wordTrap c h c.group 0x01 0x08 0 0 t
    else if !physOk pa 64 then badAccess t
    else endWord h c (extendMeas (bitsOf v 3 0) (readBytes t pa 64) t)) s

/-- R435, R444: a value that COLCMD ignores. -/
def colcmdBad (v : Nat) : Bool := bitsOf v 6 0 ≠ 0 || bitsOf v 63 40 ≠ 0

/-- R435: a collective starts after the warp's system-scope release. -/
def execColcmdWrite (h : Hdr) (a : Name) (s : State) :=
  coreWord (.colcmdWrite h a) h (fun c e t =>
    let v := (uniVal e a 0).toNat
    if t.coll.isSome then endWord h c t
    else if colcmdBad v then endWord h c { t with collStatus := 0xC1 }
    else match heldRelease c.block e.w .sy c.pc t with
      | .wait u => u
      | .ready u _ =>
        if !physOk v 128 then badAccess u
        else endWord h c { u with coll := some { desc := BitVec.ofNat 1024 (readNat u v 128), block := c.block, since := u.clock } }) s

/-- R446, R447. -/
def execErrinjWrite (h : Hdr) (a : Name) (s : State) :=
  coreWord (.errinjWrite h a) h (fun c e t =>
    endWord h c { t with csr := { t.csr with errinj := uniVal e a 0 } }) s

/-! ### Scratchpad operands of the system words (R377) -/

/-- A system word with a scratchpad operand of `n` bytes at `off`: one that is misaligned or out of range is a memory
fault of the scratchpad (R169). -/
def scratchOperand (h : Hdr) (c : Cur) (off n align : Nat) (store : Bool) (f : State → State) (s : State) : State :=
  match scratchAccess (launchD s c.block.lid) off n align with
  | .error cls => uniFault h c cls off store s
  | .ok _ => f s

/-- The word's result, and its end. -/
def sysEnd (h : Hdr) (c : Cur) (d : Name) (v : BitVec 64) (s : State) : State := endWord h c (setMembersS h d v c s)

/-! ### Mailboxes (R378 to R382) -/

/-- Log entry 5: a mailbox that no CFG has bound. -/
def Mbox.blank : Mbox := { ctx := 0xFFF, slot := 0, vector := 0, seq := none }

def mboxD (s : State) (m : Nat) : Mbox := (aget s.mboxes m).getD Mbox.blank

def mboxAddr (s : State) (m : Nat) : Nat := s.blob.mbxbase + m * 65536

/-- R382: MBOX.CFG. -/
def execMboxCfg (h : Hdr) (d a b : Name) (s : State) :=
  coreWord (.mboxCfg h d a b) h (fun c e t =>
    let m := (uniVal e a 0).toNat % 64
    let v := (uniVal e b 0).toNat
    if m = 0 || bitsOf v 23 18 ≠ 0 || bitsOf v 63 35 ≠ 0 then sysEnd h c d (failVal 0x81) t
    else
      let x : Mbox := { ctx := BitVec.ofNat 12 v, slot := bitsOf v 17 12, vector := bitsOf v 34 24, seq := (mboxD t m).seq }
      sysEnd h c d 0 { t with mboxes := aset t.mboxes m x }) s

def mhLen (x : Nat) : Nat := bitsOf x 23 16
def mhSealed (x : Nat) : Bool := x.testBit 10
def mhSeq (x : Nat) : Nat := bitsOf x 63 32

/-- R380, R382: a malformed header. -/
def badHeader (x : Nat) : Bool :=
  bitsOf x 9 8 == 3 || bitsOf x 15 11 ≠ 0 || bitsOf x 31 24 ≠ 0 || bitsOf x 127 76 ≠ 0 || decide (224 < mhLen x)
    || (!mhSealed x && bitsOf x 255 128 ≠ 0)

/-- R380: the IV of a sealed message. -/
def mboxIv (m dir sq : Nat) : BitVec 96 := BitVec.ofNat 96 (m + dir * 2 ^ 8 + sq * 2 ^ 64)

/-- R378: the outbound ring's index modulus. -/
def outModulus : Nat := 3758096384

/-- R382: the message in a scratchpad, sealed where it asks for it; none without a session key. -/
def sealMessage (s : State) (m : Nat) (bs : List (BitVec 8)) : Option (List (BitVec 8)) :=
  let x := leNat (bs.take 32)
  if mhSealed x then
    (aget s.keys (mboxD s m).slot).map (fun key =>
      let r := Config.gcmSeal key (mboxIv m 1 (mhSeq x)) (bs.take 16) ((bs.drop 32).take (mhLen x))
      bs.take 16 ++ leBytes 16 r.2.toNat ++ r.1 ++ bs.drop (32 + mhLen x))
  else some bs

/-- R382: MBOX.POST. -/
def postMessage (id : BlockId) (off m : Nat) (s : State) : BitVec 64 × State :=
  let base := mboxAddr s m
  let prod := readNat s (base + 0x40) 4
  let cons := readNat s (base + 0x44) 4
  let bs := scratchRead s id off 256
  if off % 32 ≠ 0 || (launchD s id.lid).scratch < off + 256 then (failVal 0x81, s)
  else if (prod + outModulus - cons % outModulus) % outModulus = 112 then (failVal 0x82, s)
  else if badHeader (leNat (bs.take 32)) then (failVal 0x83, s)
  else match sealMessage s m bs with
    | none => (failVal 0x84, s)
    | some out =>
      let s1 := writeBytes s (base + 0x9000 + 256 * (prod % 112)) out 0
      (b64 prod, { writeNat s1 (base + 0x40) 4 ((prod + 1) % outModulus) 0 with
        out := s.out ++ [.msix m (mboxD s m).vector (sget s.msix (m * 2048 + (mboxD s m).vector))] })

def execMboxPost (h : Hdr) (d a b : Name) (s : State) :=
  coreWord (.mboxPost h d a b) h (fun c e t =>
    let r := postMessage c.block ((uniVal e a 0).toNat % 2 ^ 32) ((uniVal e b 0).toNat % 64) t
    sysEnd h c d r.1 r.2) s

/-- R382: MBOX.OPEN. -/
def openMessage (id : BlockId) (m i off : Nat) (s : State) : BitVec 64 × State :=
  let bs := readBytes s (mboxAddr s m + 0x1000 + 256 * i) 256
  let x := leNat (bs.take 32)
  let payload := (bs.drop 32).take (mhLen x)
  let scratch := (launchD s id.lid).scratch
  let mb := mboxD s m
  let plain : Option (List (BitVec 8)) :=
    if mhSealed x then
      (aget s.keys mb.slot).bind (fun key =>
        Config.gcmOpen key (mboxIv m 0 (mhSeq x)) (bs.take 16) payload (BitVec.ofNat 128 (bitsOf x 255 128)))
    else some payload
  if off % 32 ≠ 0 || scratch < off + 32 then (failVal 0x81, s)
  else if badHeader x then (failVal 0x83, s)
  else if scratch < off + 32 + mhLen x then (failVal 0x81, s)
  else match plain with
    | none => (failVal 0x84, s)
    | some p =>
      if mb.seq.any (fun q => decide (mhSeq x ≤ q)) then (failVal 0x85, s)
      else (b64 (mhLen x), scratchWrite id off (bs.take 32 ++ p)
        { s with mboxes := aset s.mboxes m { mb with seq := some (mhSeq x) } })

def execMboxOpen (h : Hdr) (d a b : Name) (s : State) :=
  coreWord (.mboxOpen h d a b) h (fun c e t =>
    let v := (uniVal e b 0).toNat
    let r := openMessage c.block ((uniVal e a 0).toNat % 64) (bitsOf v 38 32) (v % 2 ^ 32) t
    sysEnd h c d r.1 r.2) s

/-! ### Contexts (R375, R403, R409) -/

/-- The table's record in memory follows the device's (R375). -/
def setCtx (k : Nat) (v : BitVec 512) (s : State) : State :=
  writeNat { s with ctxs := aset s.ctxs k v } (s.csr.ctxbase.toNat + 64 * k) 64 v.toNat 64

def ctxValid (s : State) (k : Nat) : Bool := (ctxRec s k).getLsbD 0
def ctxHold (s : State) (k : Nat) : Bool := (ctxRec s k).getLsbD 1

/-- Sets or clears a bit of a context's record. -/
def ctxBit (k i : Nat) (on : Bool) (s : State) : State :=
  let m : BitVec 512 := 1#512 <<< i
  setCtx k (if on then ctxRec s k ||| m else ctxRec s k &&& ~~~m) s

/-- R403, R409: the context has launches in flight or saved blocks. -/
def ctxBusy (s : State) (k : Nat) : Bool := s.launches.any (fun l => !l.super && l.ctx.toNat == k)

/-- R375: the reserved fields of a record. -/
def ctxReserved (v : Nat) : Bool :=
  bitsOf v 7 3 ≠ 0 || bitsOf v 63 35 ≠ 0 || bitsOf v 127 120 ≠ 0 || bitsOf v 191 160 ≠ 0 || bitsOf v 223 219 ≠ 0
    || bitsOf v 255 251 ≠ 0 || bitsOf v 511 352 ≠ 0

/-- The bits of ROOT, FQB, FQN, HTB, FRB and FRN. -/
def ctxFixed : List (Nat × Nat) := [(34, 8), (154, 128), (159, 155), (218, 192), (250, 224), (271, 256)]

/-- R403: CTXSV.WRITE; KS0 to KS3 are kept. -/
def ctxWrite (k : Nat) (v : Nat) (s : State) : BitVec 64 × State :=
  let old := (ctxRec s k).toNat
  let moved := ctxFixed.any (fun f => bitsOf v f.1 f.2 != bitsOf old f.1 f.2) || (old.testBit 0 && !v.testBit 0)
  if ctxBusy s k && moved then (failVal 0x93, s)
  else if ctxReserved v then (failVal 0x94, s)
  else
    let ks : BitVec 512 := BitVec.ofNat 512 ((2 ^ 56 - 1) * 2 ^ 64)
    (0, setCtx k ((BitVec.ofNat 512 v &&& ~~~ks) ||| (BitVec.ofNat 512 old &&& ks)) s)

def execCtxsvWrite (h : Hdr) (d a b : Name) (s : State) :=
  coreWord (.ctxsvWrite h d a b) h (fun c e t =>
    let off := (uniVal e a 0).toNat % 2 ^ 32
    scratchOperand h c off 64 64 false (fun u =>
      let r := ctxWrite ((uniVal e b 0).toNat % 4096) (leNat (scratchRead u c.block off 64)) u
      sysEnd h c d r.1 r.2) t) s

/-- R439: a context record whose sectors are uncorrectable is an index-integrity machine check. -/
def ctxCheck (k : Nat) (s : State) : State :=
  let pa := s.csr.ctxbase.toNat + 64 * k
  if s.bad.contains (pa / 32) || s.bad.contains (pa / 32 + 1) then fatalError 1 s else s

def execCtxsvRead (h : Hdr) (d a b : Name) (s : State) :=
  coreWord (.ctxsvRead h d a b) h (fun c e t =>
    let off := (uniVal e a 0).toNat % 2 ^ 32
    let k := (uniVal e b 0).toNat % 4096
    scratchOperand h c off 64 64 true (fun u =>
      sysEnd h c d 0 (scratchWrite c.block off (leBytes 64 (ctxRec u k).toNat) (ctxCheck k u))) t) s

/-- Requeues the saved blocks that `p` picks (R400, R403); one whose save is not over comes back as a swapped block does. -/
def requeue (p : Block → Bool) (s : State) : State :=
  { s with blocks := s.blocks.map (fun b =>
      if !p b then b
      else if b.saved then { b with requeued := true }
      else { b with saving := b.saving.map (fun x => { x with why := .swap }) }) }

/-- Why a block was saved or is being saved. -/
def savedFor (b : Block) (w : SaveWhy) : Bool :=
  match b.saving with
  | some x => x.why == w
  | none => false

def blockOfCtx (s : State) (k : Nat) (b : Block) : Bool :=
  match blockCtx s b.id with
  | some c => c.toNat == k
  | none => false

def execCtxsvResume (h : Hdr) (d a : Name) (s : State) :=
  coreWord (.ctxsvResume h d a) h (fun c e t =>
    let k := (uniVal e a 0).toNat % 4096
    sysEnd h c d 0 (requeue (fun b => blockOfCtx t k b && savedFor b .preempt) (ctxBit k 1 false t))) s

/-- R403 steps 1, 2 and 6: every block of the context is killed, and its launches end. Its Cornice lines are invalidated
first, so that the end of its last block writes none of them back (R312; log entry 87, DEDUCED). -/
def killContext (k : Nat) (s0 : State) : Nat × State :=
  let s := { s0 with clusters := s0.clusters.map (fun c => (c.1, { c.2 with
    cornice := c.2.cornice.filter (fun x => x.ctx != k) })) }
  let s1 := ctxBit k 1 true s
  let ids := (s1.blocks.filter (blockOfCtx s1 k)).map (·.id)
  let s2 := ids.foldl (fun t id => killBlock id 0 t) s1
  let ls := s2.launches.filter (fun l => !l.super && l.ctx.toNat == k)
  (ids.length, ls.foldl (fun t l =>
    postRecord 0x80 (leBytes 8 l.lid.toNat ++ leBytes 8 l.ltag.toNat ++ leBytes 8 l.ended ++ leBytes 8 l.killed)
      { t with launches := t.launches.filter (fun x => x.lid != l.lid) }) s2)

/-- R403 steps 3 to 5, 7 and 8. -/
def clearContext (k : Nat) (s : State) : State :=
  let s1 := (s.arms.filter (fun x => x.ctx.toNat == k)).foldl (fun t x => disarm 0 (some (BitVec.ofNat 12 k)) x t) s
  let mine := ((s1.cairns.filter (fun c => cairnValid c.2.toNat && cairnCtx c.2.toNat == k)).map (·.1))
  let s2 := mine.foldl (fun t n => shipCairn n (bitsOf (cairnRec t n) 47 0) 0 (setCairn n 0 t)) s1
  let s3 := { s2 with
    watch := s2.watch.map (fun w => if w.2.v && w.2.ctx.toNat == k then (w.1, { w.2 with v := false }) else w)
    mboxes := s2.mboxes.map (fun m => if m.2.ctx.toNat == k then (m.1, { m.2 with ctx := 0xFFF }) else m)
    faults := s2.faults.filter (fun f => f.ctx.toNat != k)
    fullFq := s2.fullFq.filter (· != k) }
  ctxBit k 0 false s3

/-- R403 step 4: a ROLLB in progress on a cairn of the context. -/
def ctxRolling (s : State) (k : Nat) : Bool := s.rollbs.any (fun r => cairnCtx (cairnRec s r.cairn) == k)

def execCtxsvKill (h : Hdr) (d a : Name) (s : State) :=
  coreWord (.ctxsvKill h d a) h (fun c e t =>
    let k := (uniVal e a 0).toNat % 4096
    if ctxRolling t k then t else
    let r := killContext k t
    sysEnd h c d (b64 r.1) (clearContext k r.2)) s

/-! ### LAUNCH (R383, R384) -/

def lhField (x hi lo : Nat) : Nat := bitsOf x hi lo
def lhRole (x i : Nat) : Nat := bitsOf x (512 + 128 * i + 127) (512 + 128 * i)
def rlEntry (r : Nat) : Nat := bitsOf r 52 0
def rlRegs (r : Nat) : Nat := bitsOf r 70 64
def rlWarps (r : Nat) : Nat := bitsOf r 77 72

def lhRoles (x : Nat) : List Nat := (List.range 4).map (lhRole x)

/-- R4, R384, 0x71: reserved fields, those of unused roles too. -/
def lhReserved (x : Nat) : Bool :=
  x.testBit 63 || bitsOf x 83 81 ≠ 0 || bitsOf x 127 96 ≠ 0 || bitsOf x 2047 1024 ≠ 0
    || (lhRoles x).any (fun r => bitsOf r 63 53 ≠ 0 || r.testBit 71 || bitsOf r 127 78 ≠ 0)

def lhDims (x : Nat) : List Nat := [bitsOf x 20 0, bitsOf x 41 21, bitsOf x 62 42]

def lhWarps (x : Nat) : Nat := ((lhRoles x).map rlWarps).sum

/-- The used roles: those before the first unused one. -/
def lhUsed (x : Nat) : List Nat := (lhRoles x).takeWhile (fun r => rlWarps r ≠ 0)

/-- R384, 0x73. -/
def lhRolesBad (x : Nat) : Bool :=
  let used := lhUsed x
  used.isEmpty || ((lhRoles x).drop used.length).any (· ≠ 0) || decide (32 < lhWarps x)
    || used.any (fun r => rlRegs r < 8 || 112 < rlRegs r || rlRegs r % 8 ≠ 0 || rlEntry r % 4 ≠ 0)
    || bitsOf x 255 192 % 4 ≠ 0

/-- R142: the group table's entries. -/
def gtEntries (g : Nat) : List (Nat × Nat) := (List.range 256).map (fun i => (i, bitsOf g (64 * i + 63) (64 * i)))

def gtSets (g : Nat) : List (Nat × BitVec 32) :=
  ((gtEntries g).filter (fun e => e.2.testBit 32)).map (fun e => (e.1, BitVec.ofNat 32 e.2))

/-- R143, 0x74. -/
def gtBad (g warps : Nat) : Bool :=
  (gtEntries g).any (fun e => bitsOf e.2 63 33 ≠ 0)
    || (gtSets g).any (fun e => e.2 == 0 || decide (2 ^ warps ≤ e.2.toNat))
    || (List.range 32).any (fun w => 4 < ((gtSets g).filter (fun e => e.2.getLsbD w)).length)

/-- R144, 0x75. -/
def lhFootprint (x g : Nat) : Nat :=
  ((lhUsed x).map (fun r => rlRegs r * rlWarps r)).sum + 16 * (gtSets g).length

/-- R384: the first check of the header and the group table that fails, from 0x71 on; 0: none. -/
def launchStatus (s : State) (x g : Nat) : Nat :=
  firstBad [(lhReserved x, 0x71), ((lhDims x).any (· == 0), 0x72), (lhRolesBad x, 0x73), (gtBad g (lhWarps x), 0x74),
    (decide (3584 < lhFootprint x g), 0x75), (decide (256 < bitsOf x 80 72), 0x76),
    (!ctxValid s (bitsOf x 95 84) || ctxHold s (bitsOf x 95 84), 0x77),
    (bitsOf x 69 68 == 0 || bitsOf x 69 68 == 3, 0x78), (decide (256 ≤ s.launches.length), 0x79)]

/-- The launch that a header describes. -/
def newLaunch (lid : BitVec 32) (x g : Nat) : Launch :=
  { Launch.blank with
    lid := lid, gdim := BitVec.ofNat 63 x, band := x.testBit 64, det := x.testBit 65, rb := x.testBit 66,
    e1 := bitsOf x 69 68 == 1, prio := bitsOf x 71 70, scratch := 1024 * bitsOf x 80 72,
    ctx := BitVec.ofNat 12 (bitsOf x 95 84), seed := BitVec.ofNat 64 (bitsOf x 191 128),
    handler := BitVec.ofNat 64 (bitsOf x 255 192), data := BitVec.ofNat 64 (bitsOf x 319 256),
    const := BitVec.ofNat 64 (bitsOf x 383 320), args := BitVec.ofNat 64 (bitsOf x 447 384),
    ltag := BitVec.ofNat 64 (bitsOf x 511 448),
    roles := (lhUsed x).map (fun r => { entry := BitVec.ofNat 53 (rlEntry r), regs := rlRegs r, warps := rlWarps r }),
    groups := gtSets g, total := (lhDims x).foldl (· * ·) 1 }

/-- Reads memory at level S in 128-byte lines: bytes, and whether an uncorrectable sector was met; none when a line
does not translate. -/
def readVirtual (id : BlockId) (va n : Nat) (s : State) : Option (List (BitVec 8) × Bool × State) :=
  match placePieces id .load (linePieces va 0 n) s with
  | .error _ => none
  | .ok (ps, t) =>
    some (ps.foldl (fun (acc : List (BitVec 8) × Bool × State) x =>
      let r := agentLoad id x.2 x.1.n acc.2.2
      (acc.1 ++ r.1, acc.2.1 || r.2.1.isSome, r.2.2)) ([], false, t))

/-- R384: launch IDs rise by 1 and wrap to 1. -/
def lidAfter (l : BitVec 32) : BitVec 32 := if l = 0xFFFFFFFF then 1 else l + 1

/-- R178: the instruction-fetch cache is invalidated. -/
def dropCode (s : State) : State := { s with launches := s.launches.map (fun l => { l with code := [] }) }

/-- R384: LAUNCH after its release; none: an uncorrectable sector was met. -/
def launchNow (id : BlockId) (w va : Nat) (s : State) : Option (BitVec 64) × State :=
  if va % 256 ≠ 0 then (some (failVal 0x70), s) else
  match readVirtual id va 256 s with
  | none => (some (failVal 0x70), s)
  | some (hb, bad, s1) =>
    let x := leNat hb
    let table := if x.testBit 67 then readVirtual id (va + 256) 2048 s1 else some ([], false, s1)
    match table with
    | none => (some (failVal 0x70), s)
    | some (gb, bad2, s2) =>
      if bad || bad2 then (none, dueData id w 0 none none (curWords s2).1 (curWords s2).2 0 s2) else
      let g := leNat gb
      let s3 := dropCode (ctxCheck (bitsOf x 95 84) s2)
      match launchStatus s3 x g with
      | 0 =>
        let lid := s3.nextLid
        (some ((lid.setWidth 64 : BitVec 64)), { s3 with launches := s3.launches ++ [newLaunch lid x g], nextLid := lidAfter lid })
      | st => (some (failVal st), s3)

def execLaunch (h : Hdr) (d a : Name) (s : State) :=
  coreWord (.launch h d a) h (fun c e t =>
    match heldRelease c.block e.w .dv c.pc t with
    | .wait u => u
    | .ready u _ =>
      match launchNow c.block e.w (uniVal e a 0).toNat u with
      | (some v, v') => sysEnd h c d v v'
      | (none, v') => endWord h c v') s

/-! ### TLBI (R408) -/

/-- What a TLBI waits on: an outstanding result, or (number 2^64 - 1) a warp's stores: block, warp and number. -/
def waitKey (b : Block) (w n : Nat) : Nat × BitVec 64 × BitVec 64 := (b.id.lid.toNat * 2 ^ 64 + b.id.blk, b64 w, b64 n)

/-- A warp's stores that have translated and are not acknowledged, or not made. -/
def Warp.storesOpen (wp : Warp) : Bool :=
  !wp.unack.isEmpty || !wp.remoteUnack.isEmpty || wp.rel.any (fun r => !r.stores.isEmpty)

/-- R168, R408: the accesses that have translated and are not performed: those of results that `p` picks by context and
address, and the stores of every warp of a context that `k` picks. An engine translates what it accesses in the same step. -/
def pendingAccesses (s : State) (k : Option (BitVec 12) → Bool) (p : Option (BitVec 12) → Nat → Bool) :
    List (Nat × BitVec 64 × BitVec 64) :=
  s.blocks.flatMap (fun b => b.warps.zipIdx.flatMap (fun (wp, w) =>
    (wp.outs.filter (fun o => !wp.buffered o &&
        o.parts.any (fun x => !x.2.2.isScratch && p (blockCtx s b.id) x.2.1))).map (fun o => waitKey b w o.id)
    ++ (if k (blockCtx s b.id) && wp.storesOpen then [waitKey b w (2 ^ 64 - 1)] else [])))

/-- An access of `pendingAccesses` that has not been performed. -/
def stillPending (s : State) (x : Nat × BitVec 64 × BitVec 64) : Bool :=
  let wp := warpD s { lid := BitVec.ofNat 32 (x.1 / 2 ^ 64), blk := x.1 % 2 ^ 64 } x.2.1.toNat
  if x.2.2 = BitVec.allOnes 64 then wp.storesOpen
  else wp.outs.any (fun o => b64 o.id == x.2.2 && !o.parts.isEmpty)

/-- R168, R408: the entries of a TLBI leave every TLB, and the walks' table lines every cluster cache. -/
def dropEntries (p : TlbEntry → Bool) (s : State) : State :=
  dropTlb p { s with clusters := s.clusters.map (fun c => (c.1, { c.2 with tables := [] })) }

/-- The entries of every TLB that a TLBI drops. -/
def droppedEntries (s : State) (p : TlbEntry → Bool) : List TlbEntry :=
  s.clusters.flatMap (fun c => c.2.tlb.filter p) ++ s.cores.flatMap (fun c => c.2.tlb.filter p)

/-- R408: drops entries of every TLB; the result comes when the accesses through them have been performed. -/
def tlbiWord (i : Instr) (h : Hdr) (d : Name) (status : Env → Nat) (p : Env → TlbEntry → Bool)
    (k : Env → Option (BitVec 12) → Bool) (s : State) : Host.Outcome State Fault Refusal :=
  coreWord i h (fun c e t =>
    if outsFull e.wp then t
    else if status e ≠ 0 then sysEnd h c d (failVal (status e)) t
    else
      -- an access is made through an entry that its page now has, or would have (log entry 50, DEDUCED)
      let gone := droppedEntries t (p e)
      let through (x : Option (BitVec 12)) (va : Nat) : Bool :=
        p e { ctx := x, base := va, size := 1, pte := 0 } || gone.any (fun y => y.covers x va)
      let wait := pendingAccesses t (k e) through
      let t1 := dropEntries (p e) t
      if wait.isEmpty then sysEnd h c d 0 t1
      else endWord h c (addOut c.block e.w (fun k => { blankOut i c k with ops := wait, members := [e.w] }) t1)) s

def execTlbiAll (h : Hdr) (d : Name) (s : State) :=
  tlbiWord (.tlbiAll h d) h d (fun _ => 0) (fun _ _ => true) (fun _ _ => true) s

/-- R408: the context that a TLBI names; level S for 0xFFF. -/
def tlbiCtx (e : Env) (a : Name) : Option (BitVec 12) :=
  let k := (uniVal e a 0).setWidth 12
  if k = 0xFFF then none else some k

def execTlbiCtx (h : Hdr) (d a : Name) (s : State) :=
  tlbiWord (.tlbiCtx h d a) h d (fun _ => 0) (fun e t => t.ctx == tlbiCtx e a) (fun e k => k == tlbiCtx e a) s

def execTlbiRange (h : Hdr) (d a b : Name) (s : State) :=
  let lo (e : Env) : Nat := (uniVal e a 0).toNat
  let hi (e : Env) : Nat := lo e + bitsOf (uniVal e b 0).toNat 63 12 * 8192
  tlbiWord (.tlbiRange h d a b) h d
    (fun e => if lo e % 8192 ≠ 0 || hi e = lo e then 0xA0 else 0)
    (fun e t => t.ctx == tlbiCtx e b && decide (t.base < hi e) && decide (lo e < t.base + t.size))
    (fun e k => k == tlbiCtx e b) s

/-! ### Key slots (R409) -/

/-- R409: a slot that a context, an armed extent or a replica uses. -/
def slotBound (s : State) (k : Nat) : Bool :=
  s.ctxs.any (fun c => c.2.getLsbD 0 && (List.range 4).any (fun i => bitsOf c.2.toNat (77 + 14 * i) (64 + 14 * i) == k) && k != 0)
    || s.arms.any (fun x => x.ks == k)
    || s.replicas.any (fun r => bitsOf r.2.desc.toNat 45 32 == k)
    || s.replica.any (fun r => bitsOf r.desc.toNat 45 32 == k)

/-- R409: KEYCTL.LOAD. -/
def keyLoad (id : BlockId) (off v : Nat) (s : State) : BitVec 64 × State :=
  let slot := bitsOf v 13 0
  let sess := bitsOf v 29 16
  if slot < 64 || 64 ≤ sess then (failVal 0xA8, s)
  else match aget s.keys sess with
    | none => (failVal 0xAB, s)
    | some key => match Config.keyUnwrap key (scratchRead s id off 72) with
      | none => (failVal 0xA9, s)
      | some pair => if (aget s.keys slot).isSome then (failVal 0xAA, s) else (0, { s with keys := aset s.keys slot pair })

def execKeyctlLoad (h : Hdr) (d a b : Name) (s : State) :=
  coreWord (.keyctlLoad h d a b) h (fun c e t =>
    let off := (uniVal e a 0).toNat % 2 ^ 32
    scratchOperand h c off 72 8 false (fun u =>
      let r := keyLoad c.block off (uniVal e b 0).toNat u
      sysEnd h c d r.1 r.2) t) s

/-- R409: KEYCTL.BIND. -/
def keyBind (a v : Nat) (s : State) : BitVec 64 × State :=
  let k := a % 4096
  let slot := bitsOf v 13 0
  if slot < 65 || (aget s.keys slot).isNone then (failVal 0xAC, s)
  else if !ctxValid s k then (failVal 0xAD, s)
  else if ctxBusy s k then (failVal 0xAE, s)
  else
    let lo := 64 + 14 * bitsOf a 13 12
    let m : BitVec 512 := BitVec.ofNat 512 (16383 * 2 ^ lo)
    (0, setCtx k ((ctxRec s k &&& ~~~m) ||| BitVec.ofNat 512 (slot * 2 ^ lo)) s)

def execKeyctlBind (h : Hdr) (d a b : Name) (s : State) :=
  coreWord (.keyctlBind h d a b) h (fun c e t =>
    let r := keyBind (uniVal e a 0).toNat (uniVal e b 0).toNat t
    sysEnd h c d r.1 r.2) s

/-- R409: the key pair is gone, and with it what was written under it: lines of HBM are uncorrectable, for a later key of the
slot too, and no cache keeps a copy. -/
def eraseKey (k : Nat) (s : State) : State :=
  let mine (sec : Nat) : Bool := sget s.keyOf sec == BitVec.ofNat 14 k
  let sectors := (s.keyOf.filter (fun x => x.2 == BitVec.ofNat 14 k)).map (·.1)
  let fixedMine (line : Nat) : Bool := (List.range 4).any (fun i => mine (4 * line + i))
  { s with
    keys := adel s.keys k
    bad := sectors.foldl insertNat s.bad
    segs := s.segs.map (fun g => if g.2.ks = k then
      (g.1, { g.2 with poison := (List.range g.2.used).foldl (fun m i => sset m i 0xF#4) g.2.poison }) else g)
    clusters := s.clusters.map (fun c => (c.1, { c.2 with
      fixed := c.2.fixed.filter (fun x => !fixedMine (x.1 / 128)), logs := [] }))
    cores := s.cores.map (fun c => (c.1, { c.2 with
      l1 := c.2.l1.filter (fun x => x.kind != 0 && !(x.kind == 1 && fixedMine x.key)) })) }

def execKeyctlErase (h : Hdr) (d a : Name) (s : State) :=
  coreWord (.keyctlErase h d a) h (fun c e t =>
    let k := (uniVal e a 0).toNat % 16384
    if k < 64 then sysEnd h c d (failVal 0xA8) t
    else if slotBound t k then sysEnd h c d (failVal 0xAF) t
    else sysEnd h c d 0 (eraseKey k t)) s

def execKeyctlQuery (h : Hdr) (d a : Name) (s : State) :=
  coreWord (.keyctlQuery h d a) h (fun c e t =>
    let k := (uniVal e a 0).toNat % 16384
    sysEnd h c d (b64 ((if (aget t.keys k).isSome then 1 else 0) + (if k < 64 then 2 else 0)
      + (if slotBound t k then 4 else 0))) t) s

/-! ### Leaving a trap handler (R395) -/

def execTret (h : Hdr) (s : State) :=
  coreWord (.tret h) h (fun c e t =>
    returnTrap c.block e.w c.group (modWarp c.block e.w (fun wp => { wp with retired := wp.retired + 1, marker := wp.marker || h.s }) t)) s

def execTretExit (h : Hdr) (s : State) :=
  coreWord (.tretExit h) h (fun c e t =>
    let t1 := exitLanes c.block e.w c.group (modWarp c.block e.w (fun wp =>
      { wp.txDrop c.group with retired := wp.retired + 1, marker := wp.marker || h.s }) t)
    if (warpD t1 c.block e.w).allExited then switchPoint c.block e.w t1 else t1) s

end Sys2Proof.Machine
end

