-- ==== Sys2Proof/Machine/Preempt.lean ====
section
/-!
DEFINITION. Machine/Preempt.lean: PREEMPT, FLTQ and DBG (R398, R400, R416 to R418).
-/
namespace Sys2Proof.Machine

/-! ### PREEMPT (R400) -/

/-- The number by which a PREEMPT in progress names a block. -/
def blockKey (id : BlockId) : Nat := id.lid.toNat * 2 ^ 64 + id.blk

def keyBlock (k : Nat) : BlockId := { lid := BitVec.ofNat 32 (k / 2 ^ 64), blk := k % 2 ^ 64 }

/-- Of two reasons for a save, the one that holds the block longer. -/
def SaveWhy.over (a b : SaveWhy) : SaveWhy :=
  if a = .hold || b = .hold then .hold else if a = .preempt || b = .preempt then .preempt else a

/-- R401: the blocks begin to be saved; a save that is in progress serves this reason too. -/
def beginSave (why : SaveWhy) (ids : List BlockId) (s : State) : State :=
  { s with blocks := s.blocks.map (fun b =>
      if !(b.resident && ids.contains b.id) then b
      else match b.saving with
        | some x => { b with saving := some { x with why := x.why.over why } }
        | none => { b with saving := some { why := why, since := s.clock, stage := 0, masked := false }
                           warps := b.warps.map (fun wp => wp.abortOpen (launchD s b.id.lid).det) }) }

/-- A PREEMPT of blocks: its result comes when each has been saved or has found no frame. -/
def preemptWord (i : Instr) (h : Hdr) (d : Name) (f : Env → State → Except Nat (SaveWhy × List BlockId × State)) (s : State) :
    Host.Outcome State Fault Refusal :=
  coreWord i h (fun c e t =>
    if outsFull e.wp then t else
    match f e t with
    | .error st => sysEnd h c d (failVal st) t
    | .ok (why, ids, u) =>
      if ids.isEmpty then sysEnd h c d 0 u
      else endWord h c (addOut c.block e.w (fun k => { blankOut i c k with
        ops := ids.map (fun x => (blockKey x, 0, 0)), members := [e.w], sites := [0] }) (beginSave why ids u)))
    s

def residentIds (s : State) (p : Block → Bool) : List BlockId :=
  (s.blocks.filter (fun b => b.resident && p b)).map (·.id)

def execPreemptCtx (h : Hdr) (d a : Name) (s : State) :=
  preemptWord (.preemptCtx h d a) h d (fun e t =>
    let k := (uniVal e a 0).toNat % 4096
    if !ctxValid t k then .error 0x90
    else .ok (.preempt, residentIds t (blockOfCtx t k), ctxBit k 1 true t)) s

/-- R400: no such launch, or the supervisor's; 0: neither. -/
def launchBad (s : State) (lid : BitVec 32) : Nat :=
  match s.launches.find? (fun l => l.lid == lid) with
  | none => 0x90
  | some l => if l.super then 0x92 else 0

def execPreemptLaunch (h : Hdr) (d a : Name) (s : State) :=
  preemptWord (.preemptLaunch h d a) h d (fun e t =>
    let lid := (uniVal e a 0).setWidth 32
    if launchBad t lid ≠ 0 then .error (launchBad t lid)
    else .ok (.hold, residentIds t (fun b => b.id.lid == lid), modLaunch lid (fun l => { l with held := true }) t)) s

/-- The resident blocks saved together with a block: its band's, or itself (R400, R162). -/
def unitOf (s : State) (id : BlockId) : List BlockId :=
  if (launchD s id.lid).band then residentIds s (fun b => b.id.lid == id.lid && b.id.blk / 8 == id.blk / 8) else [id]

def execPreemptBlock (h : Hdr) (d a b : Name) (s : State) :=
  preemptWord (.preemptBlock h d a b) h d (fun e t =>
    let lid := (uniVal e a 0).setWidth 32
    let id : BlockId := { lid := lid, blk := (uniVal e b 0).toNat }
    if launchBad t lid ≠ 0 then .error (launchBad t lid)
    else if !(getBlock t id).any (fun x => x.resident) then .error 0x91
    else .ok (.hold, unitOf t id, t)) s

def execPreemptResume (h : Hdr) (d a : Name) (s : State) :=
  coreWord (.preemptResume h d a) h (fun c e t =>
    let lid := (uniVal e a 0).setWidth 32
    if !t.launches.any (fun l => l.lid == lid) then sysEnd h c d (failVal 0x90) t
    else
      let mine (b : Block) : Bool := b.id.lid == lid && savedFor b .hold
      let n := (t.blocks.filter (fun b => b.saved && mine b && !b.requeued)).length
      sysEnd h c d (b64 n) (requeue mine (modLaunch lid (fun l => { l with held := false, heldBlks := [] }) t))) s

/-- One PREEMPT in progress: the blocks that are saved now are counted, those still being saved are waited for. -/
def preemptOut (s : State) (o : Outst) : Outst :=
  let look (x : Nat × BitVec 64 × BitVec 64) : Option Block := getBlock s (keyBlock x.1)
  let now := (o.ops.filter (fun x => (look x).any (fun b => b.saved))).length
  { o with sites := [o.sites.headD 0 + now]
           ops := o.ops.filter (fun x => (look x).any (fun b => !b.saved && b.saving.isSome)) }

def isPreempt : Instr → Bool
  | .preemptCtx .. | .preemptLaunch .. | .preemptBlock .. => true
  | _ => false

/-- The result register of a device word that waits: PREEMPT and TLBI. -/
def waitDst : Instr → Option Name
  | .preemptCtx _ d _ | .preemptLaunch _ d _ | .preemptBlock _ d _ _ => some d
  | .tlbiAll _ d | .tlbiCtx _ d _ | .tlbiRange _ d _ _ => some d
  | _ => none

/-- R400, R408: PREEMPTs and TLBIs of a warp whose wait is over give their results. -/
def settleWaits (w : WarpId) (s : State) : State :=
  let s1 := modWarp w.block w.warp (fun wp => { wp with outs := wp.outs.map (fun o =>
    match waitDst o.instr with
    | none => o
    | some _ => if isPreempt o.instr then preemptOut s o else { o with ops := o.ops.filter (stillPending s) }) }) s
  ((warpD s1 w.block w.warp).outs.filter (fun o => o.ops.isEmpty)).foldl (fun t o =>
    match waitDst o.instr with
    | some d => closeOut w o (modWarp w.block w.warp (fun wp => wp.setS d
        (if isPreempt o.instr then b64 (o.sites.headD 0) else 0)) t)
    | none => t) s1

/-! ### FLTQ (R398) -/

/-- The unserved faults that a block waits on: its lanes' and its engines' tokens. -/
def blockTokens (s : State) (b : Block) : List Nat :=
  b.warps.flatMap (fun wp => wp.parks.filterMap (·.token)) ++ b.copyQ.filterMap (fun q => q.2.token)
    ++ b.mqueues.filterMap (fun q => q.2.token)
    ++ (if b.saved then [] else (clusterD s b.cluster).queues.filterMap (fun q => if q.2.owner = b.id then q.2.token else none))

/-- R397: those among them that the device still holds unserved. -/
def unservedOf (s : State) (b : Block) : List Nat :=
  ((blockTokens s b).filter (fun k => s.faults.any (fun f => f.token == k))).foldl insertNat []

/-- R398: the number of waiters of a fault: lanes and commands of resident blocks, and swapped blocks. -/
def waiters (s : State) (tok : Nat) : Nat :=
  (s.blocks.map (fun b =>
    let n := ((blockTokens s b).filter (· == tok)).length
    if b.saved then min n 1 else n)).sum

/-- R139, R196: a warp's lanes that wait on a fault go on: parked lanes replay their word. -/
def Warp.unpark (tok : Nat) (wp : Warp) : Warp :=
  let mine := wp.parks.filter (fun p => p.token == some tok)
  ({ wp with parks := wp.parks.filter (fun p => p.token != some tok) } : Warp).setLanes
    (lanesOf (fun l => mine.any (fun p => p.lane == l))) (fun x => { x with st := .running }) |>.meetings

/-- R139: the single executions that a warp's fault suspended run again. -/
def resumeSingle (w : Nat) (b : Block) : Block :=
  { b with rdvs := b.rdvs.map (fun r => if r.phase == .suspended w then { r with phase := .executing } else r) }

def CopyQueue.serve (tok : Nat) (q : CopyQueue) : CopyQueue :=
  if q.token = some tok then { q with state := .running, token := none } else q

def MQueue.serve (tok : Nat) (q : MQueue) : MQueue :=
  if q.token = some tok then { q with state := .running, token := none } else q

def serveBlock (tok : Nat) (b : Block) : Block :=
  let b1 := (List.range b.warps.length).foldl (fun x w =>
    if (b.warps[w]?).any (fun wp => wp.parks.any (fun p => p.lane == 32 && p.token == some tok)) then resumeSingle w x else x) b
  { b1 with
    warps := b1.warps.map (Warp.unpark tok)
    copyQ := b1.copyQ.map (fun q => (q.1, q.2.serve tok))
    mqueues := b1.mqueues.map (fun q => (q.1, q.2.serve tok)) }

/-- R398: the fault is served. -/
def serveFault (tok : Nat) (s : State) : State :=
  { s with
    faults := s.faults.filter (fun f => f.token != tok)
    blocks := s.blocks.map (serveBlock tok)
    clusters := s.clusters.map (fun c => (c.1, { c.2 with queues := c.2.queues.map (fun q => (q.1, q.2.serve tok)) })) }

/-- The unserved fault with a 32-bit token. -/
def findFault (s : State) (a : Nat) : Option FaultRec := s.faults.find? (fun f => f.token % 2 ^ 32 == a % 2 ^ 32)

def execFltqDone (h : Hdr) (d a : Name) (s : State) :=
  coreWord (.fltqDone h d a) h (fun c e t =>
    match findFault t (uniVal e a 0).toNat with
    | none => sysEnd h c d (failVal 0x98) t
    | some f => sysEnd h c d (b64 (waiters t f.token)) (serveFault f.token t)) s

/-- Parked lanes of a warp that wait on a fault at one PC take the memory-fault trap (R390, R398). -/
def failLanes (id : BlockId) (w tok cls : Nat) (pc : BitVec 53) (s : State) : State :=
  let wp := warpD s id w
  let ps := wp.parks.filter (fun p => p.token == some tok && p.lane < 32 && (wp.lane p.lane).pc == pc)
  match (List.range 32).findSome? (fun l => ps.find? (fun p => p.lane == l)) with
  | none => s
  | some p =>
    let m := lanesOf (fun l => ps.any (fun x => x.lane == l))
    let (iw, ew) : Word × Option Word := match fetchPair id pc s with
      | .ok (x, y, _) => (x, y)
      | .error (_, _, x) => (x, none)
    let s1 := modWarp id w (fun x => ({ x with parks := x.parks.filter (fun q => !(ps.contains q)) } : Warp).setLanes m
      (fun y => { y with st := .running })) s
    raiseTrap id w
      { lanes := m, pc := pc, next := some (pc + (if iw.getLsbD 0 then 8 else 4)), iw := iw, ew := ew.getD 0, cause := 0x04,
        sub := cls, aux := if p.store then 1 else 0, addr := p.va } s1

/-- R139, R391: a failed fault of a single execution is delivered to the last arriver. -/
def failSingle (id : BlockId) (w tok cls : Nat) (s : State) : State :=
  let wp := warpD s id w
  match wp.parks.find? (fun p => p.lane == 32 && p.token == some tok),
        (blockD s id).rdvs.find? (fun r => r.phase == .suspended w && r.last == w) with
  | some p, some r =>
    let s1 := modWarp id w (fun x => { x with parks := x.parks.filter (fun q => !(q.lane == 32 && q.token == some tok)) }) s
    let t : TrapReq :=
      { lanes := wp.live, pc := r.pc, next := some (r.pc + (if r.iw.getLsbD 0 then 8 else 4)), iw := r.iw, ew := r.ew,
        cause := 0x04, sub := cls, aux := if p.store then 1 else 0, addr := p.va }
    let c : Cur := { block := id, warp := w, group := 0, pc := r.pc, iw := r.iw, ew := r.ew, single := some r }
    raiseTrap id w t (suspendRdv c r (trapRecord t) (trapFate wp t.lanes t.cause) s1)
  | _, _ => s

/-- R473: a failed fault of a drain is delivered, and the drain goes on. -/
def failDrain (id : BlockId) (w tok cls : Nat) (s : State) : State :=
  match (warpD s id w).parks.find? (fun p => p.lane == 33 && p.token == some tok), leastEntry s id [w] with
  | some p, some (_, d) =>
    let s1 := modWarp id w (fun x => { x with parks := x.parks.filter (fun q => !(q.lane == 33 && q.token == some tok)) }) s
    dropEntry id w d (drainError id w d 0x04 cls p.va s1)
  | _, _ => s

def failWarp (id : BlockId) (tok cls w : Nat) (s : State) : State :=
  let wp := warpD s id w
  let pcs := (wp.parks.filter (fun p => p.token == some tok && p.lane < 32)).map (fun p => (wp.lane p.lane).pc)
  failDrain id w tok cls (failSingle id w tok cls (pcs.foldl (fun t pc => failLanes id w tok cls pc t) s))

/-- R248, R398: a stalled copy command ends with the class. -/
def failCopy (id : BlockId) (tok cls q : Nat) (s : State) : State :=
  let x := copyQ (blockD s id) q
  match x.cmds with
  | c :: _ =>
    if x.token = some tok then
      modCopyQ id q (fun y => { y with state := .error, cls := cls, offset := c.pos, token := none })
        (engineTrap id c.warp 0 q cls c.seq c.pos s)
    else s
  | [] => s

/-- R292, R398: a stalled matrix command ends with the class. -/
def failMatrix (cl tok cls q : Nat) (s : State) : State :=
  match (aget (clusterD s cl).queues q).bind (fun x =>
      if x.token = some tok then x.cmds.find? (fun c => c.order == x.held) else none) with
  | some c => modQueue cl q (fun x => { x with token := none }) (matrixError cl q c cls 0 c.pos s)
  | none => s

/-- R294, R398: the same of a queue that is saved with its block. -/
def failSaved (id : BlockId) (tok cls : Nat) (s : State) : State :=
  (blockD s id).mqueues.foldl (fun t q =>
    match q.2.token == some tok, q.2.cmds.find? (fun c => c.order == q.2.held) with
    | true, some c =>
      modBlock id (fun b => { b with mqueues := amod b.mqueues q.1 (fun x =>
          { x with state := .error, cls := cls, offset := c.pos, token := none }) })
        (engineTrap id c.warp 1 q.1 cls c.seq c.pos t)
    | _, _ => t) s

/-- R398: every waiter fails with a class. -/
def failFault (tok cls : Nat) (s : State) : State :=
  let s1 := { s with faults := s.faults.filter (fun f => f.token != tok) }
  let s2 := s1.blocks.foldl (fun t (b : Block) =>
    let t1 := (List.range b.warps.length).foldl (fun u w => failWarp b.id tok cls w u) t
    failSaved b.id tok cls (b.copyQ.foldl (fun u q => failCopy b.id tok cls q.1 u) t1)) s1
  s2.clusters.foldl (fun t c => c.2.queues.foldl (fun u q => failMatrix c.1 tok cls q.1 u) t) s2

def execFltqFail (h : Hdr) (d a b : Name) (s : State) :=
  coreWord (.fltqFail h d a b) h (fun c e t =>
    let cls := (uniVal e b 0).toNat % 16
    match findFault t (uniVal e a 0).toNat with
    | none => sysEnd h c d (failVal 0x98) t
    | some f =>
      if !((1 ≤ cls && cls ≤ 4) || (7 ≤ cls && cls ≤ 10)) then sysEnd h c d (failVal 0x99) t
      else sysEnd h c d (b64 (waiters t f.token)) (failFault f.token cls t)) s

def execFltqStat (h : Hdr) (d a : Name) (s : State) :=
  coreWord (.fltqStat h d a) h (fun c e t =>
    let mine := t.faults.filter (fun f => f.ctx == (uniVal e a 0).setWidth 12)
    sysEnd h c d (b64 (mine.length + (mine.filter (fun f => !f.posted)).length * 2 ^ 32)) t) s

/-! ### The debugger (R416 to R418) -/

/-- R416: a warp that the debugger has stopped: it has no result to wait for; undrained atomics stay buffered, as over a
save (R228; log entry 85, DEDUCED). -/
def Warp.halted (wp : Warp) : Bool := wp.stopped && wp.awaited.isEmpty && wp.tx.isNone && !wp.ended

/-- R416: a stopped warp goes on; its cancelled loads replay. -/
def Warp.resume (wp : Warp) : Warp := if wp.stopped then { wp.cancelLoads with stopped := false } else wp

def execDbgAttach (h : Hdr) (d a : Name) (s : State) :=
  coreWord (.dbgAttach h d a) h (fun c e t =>
    let k := (uniVal e a 0).toNat % 4096
    if !ctxValid t k then sysEnd h c d (failVal 0xB0) t else sysEnd h c d 0 (ctxBit k 2 true t)) s

def execDbgDetach (h : Hdr) (d a : Name) (s : State) :=
  coreWord (.dbgDetach h d a) h (fun c e t =>
    let k := (uniVal e a 0).toNat % 4096
    if !ctxValid t k then sysEnd h c d (failVal 0xB0) t
    else
      let t1 := ctxBit k 2 false t
      sysEnd h c d 0 { t1 with blocks := t1.blocks.map (fun b =>
        if blockOfCtx t1 k b then { b with warps := b.warps.map Warp.resume } else b) }) s

/-- The block that a launch and a block number name. -/
def dbgBlock (e : Env) (a b : Name) : BlockId := { lid := (uniVal e a 0).setWidth 32, blk := (uniVal e b 0).toNat }

def execDbgStop (h : Hdr) (d a b : Name) (s : State) :=
  coreWord (.dbgStop h d a b) h (fun c e t =>
    let id := dbgBlock e a b
    if (getBlock t id).isNone then sysEnd h c d (failVal 0xB0) t else stopBlock id (sysEnd h c d 0 t)) s

def execDbgResume (h : Hdr) (d a b : Name) (s : State) :=
  coreWord (.dbgResume h d a b) h (fun c e t =>
    let id := dbgBlock e a b
    if (getBlock t id).isNone then sysEnd h c d (failVal 0xB0) t
    else sysEnd h c d 0 (modBlock id (fun x => { x with warps := x.warps.map Warp.resume }) t)) s

def execDbgStat (h : Hdr) (d a b : Name) (s : State) :=
  coreWord (.dbgStat h d a b) h (fun c e t =>
    match getBlock t (dbgBlock e a b) with
    | none => sysEnd h c d (failVal 0xB0) t
    | some x => sysEnd h c d (b64 ((if x.saved then 2 else 1) + (x.warps.filter Warp.halted).length * 2 ^ 32)) t) s

/-- R417: the locator. -/
structure Locator where
  block : BlockId
  warp : Nat
  lane : Nat
  name : Nat
  kind : Nat
  rest : Nat

def readLocator (v : Nat) : Locator :=
  { block := { lid := BitVec.ofNat 32 v, blk := bitsOf v 127 64 }, warp := bitsOf v 36 32, lane := bitsOf v 41 37,
    name := bitsOf v 48 42, kind := bitsOf v 51 49, rest := bitsOf v 63 52 }

/-- R417: whether a locator names a register of the warp. -/
def locatorOk (s : State) (x : Locator) : Bool :=
  x.rest == 0 && decide (x.warp < (blockD s x.block).warps.length) &&
  (match x.kind with
   | 0 => decide (x.name < 16 + (warpD s x.block x.warp).allot)
   | 1 => x.name < 64 || (x.name < 80 && (warpSets (launchD s x.block.lid) x.warp) ≠ []) || (80 ≤ x.name && x.name < 88)
   | 2 => x.name < 8
   | 3 | 4 => true
   | _ => false)

/-- R45: the first set of the warp, for a `w` name. -/
def locatorSet (s : State) (x : Locator) : Nat := (warpSets (launchD s x.block.lid) x.warp).headD 0

/-- R401, R404, R162: where a register of a saved block or of an evicted warp stands in its frame; none: on the core. -/
def locatorAddr (s : State) (x : Locator) : Option Nat :=
  let b := blockD s x.block
  let base := frameAddr s (launchD s x.block.lid).ctx.toNat (b.frame.getD 0)
  let laneReg := base + (if x.name < 16 then 0x20000 + 2048 * x.warp + 128 * x.name
    else 0x30000 + (112 * x.warp + (x.name - 16)) * 128) + 4 * x.lane
  if x.kind = 0 && (b.saved || (warpD s x.block x.warp).evicted) then some laneReg
  else if x.kind = 1 && 64 ≤ x.name && x.name < 80 && b.saved then
    some (base + 0xA0000 + 4 * wKey (locatorSet s x) (BitVec.ofNat 7 x.name) x.lane)
  else none

/-- R417: the value that a locator names. -/
def locatorGet (s : State) (x : Locator) : BitVec 64 :=
  let wp := warpD s x.block x.warp
  match locatorAddr s x with
  | some pa => b64 (readNat s pa 4)
  | none =>
  match x.kind with
  | 0 => (wp.reg (BitVec.ofNat 7 x.name) x.lane).setWidth 64
  | 1 =>
    if x.name < 64 then wp.sreg (BitVec.ofNat 7 x.name)
    else if x.name < 80 then
      (sget (blockD s x.block).wregs (wKey (locatorSet s x) (BitVec.ofNat 7 x.name) x.lane)).setWidth 64
    else if wp.gpred (BitVec.ofNat 3 x.name) then 1 else 0
  | 2 => if wp.pred (BitVec.ofNat 3 x.name) x.lane then 1 else 0
  | 3 => (wp.lane x.lane).pc.setWidth 64
  | _ => (wp.lane x.lane).mt.setWidth 64

/-- R417: the named value takes `v`. -/
def locatorPut (x : Locator) (v : BitVec 64) (s : State) : State :=
  let one : Lanes := 1#32 <<< x.lane
  let put (f : Warp → Warp) : State := modWarp x.block x.warp f s
  match locatorAddr s x with
  | some pa => writeNat (if x.kind = 0 then put (fun wp => wp.setReg (BitVec.ofNat 7 x.name) x.lane (v.setWidth 32)) else s)
      pa 4 (v.toNat % 2 ^ 32) 64
  | none =>
  match x.kind with
  | 0 => put (fun wp => wp.setReg (BitVec.ofNat 7 x.name) x.lane (v.setWidth 32))
  | 1 =>
    if x.name < 64 then put (fun wp => wp.setS (BitVec.ofNat 7 x.name) v)
    else if x.name < 80 then
      modBlock x.block (fun b => { b with
        wregs := sset b.wregs (wKey (locatorSet s x) (BitVec.ofNat 7 x.name) x.lane) (v.setWidth 32) }) s
    else put (fun wp => wp.setG (BitVec.ofNat 3 x.name) (v.getLsbD 0))
  | 2 => put (fun wp => wp.setPred (BitVec.ofNat 3 x.name) x.lane (v.getLsbD 0))
  | 3 => put (fun wp => (wp.setLanes one (fun y => { y with pc := v.setWidth 53 })).meetings)
  | _ => put (fun wp => (wp.setLanes one (fun y => { y with mt := v.setWidth 53 })).meetings)

/-- R417: the status of an access through a locator; 0: it may be made. -/
def locatorStatus (s : State) (x : Locator) (v : Option (BitVec 64)) : Nat :=
  if (getBlock s x.block).isNone then 0xB0
  else if !locatorOk s x || (3 ≤ x.kind && v.any (fun y => y.toNat % 4 ≠ 0)) then 0xB2
  else if !(warpD s x.block x.warp).halted then 0xB1
  else 0

/-- A word with a locator at scratchpad offset sA. -/
def locatorWord (i : Instr) (h : Hdr) (a : Name) (f : Cur → Env → Locator → State → State) (s : State) :
    Host.Outcome State Fault Refusal :=
  coreWord i h (fun c e t =>
    let off := (uniVal e a 0).toNat % 2 ^ 32
    scratchOperand h c off 16 16 false (fun u => f c e (readLocator (leNat (scratchRead u c.block off 16))) u) t) s

def execDbgRdreg (h : Hdr) (d a : Name) (s : State) :=
  locatorWord (.dbgRdreg h d a) h a (fun c _ x t =>
    match locatorStatus t x none with
    | 0 => sysEnd h c d (locatorGet t x) t
    | st => sysEnd h c d (failVal st) t) s

def execDbgWrreg (h : Hdr) (d a b : Name) (s : State) :=
  locatorWord (.dbgWrreg h d a b) h a (fun c e x t =>
    let v := uniVal e b 0
    match locatorStatus t x (some v) with
    | 0 => sysEnd h c d 0 (locatorPut x v t)
    | st => sysEnd h c d (failVal st) t) s

end Sys2Proof.Machine
end

