-- ==== Sys2Proof/Machine/Blocks.lean ====
section
/-!
DEFINITION. Machine/Blocks.lean: placing and starting blocks, the ends of warps and blocks, rendezvous that cannot
complete, GROW, deterministic flush points and stalls, errors taken at an issue boundary, fault and device records that
waited (R135, R141, R161, R162, R191, R223, R227, R228, R378, R381, R385 to R387, R397, R402).
-/
namespace Sys2Proof.Machine

/-! ### Where a block fits (R386, R387) -/

/-- Scratchpad bytes of a core that no resident block holds. -/
def freeScratch (s : State) (core : Nat) : Nat :=
  262144 - ((s.blocks.filter (fun b => b.core == core && b.resident)).map (fun b => (launchD s b.id.lid).scratch)).sum

/-- R375, R405: the lowest free frame of a context. -/
def freeFrameOf (s : State) (ctx : Nat) : Option Nat :=
  let used := (s.frames.filter (fun x => x.1 == ctx)).map (·.2.1)
  (List.range (ctxField s ctx 271 256)).find? (fun f => !used.contains f)

/-- R428: the cores on which a launch may be placed. -/
def coreUsable (s : State) (l : Launch) (core : Nat) : Bool :=
  core < 160 && !s.withheld.contains core && (s.phase == 2 || (s.phase == 1 && l.super && decide (core < 80)))

/-- R386: room on a core for warps, names and scratchpad. -/
def hasRoom (s : State) (l : Launch) (warps names core : Nat) : Bool :=
  coreUsable s l core && decide (warps ≤ (freeSlots s core).length) && decide (names ≤ poolNames s core)
    && decide (l.scratch ≤ freeScratch s core)

/-- R144: the footprint of a block that has not started. -/
def footprint (l : Launch) : Nat := (l.roles.map (fun r => r.regs * r.warps)).sum + 16 * l.groups.length

/-- R386: an unstarted block fits. -/
def fitsNew (s : State) (l : Launch) (core : Nat) : Bool := hasRoom s l (nwarps l) (footprint l) core

/-- R294, R386, R407: a saved block fits: its Massif numbers are free on the cluster too, and the core has staging records for
its own (log entry 90, DEDUCED). -/
def fitsSaved (s : State) (b : Block) (core : Nat) : Bool :=
  let l := launchD s b.id.lid
  let c := clusterD s (core / 8)
  hasRoom s l (b.warps.filter (fun wp => !wp.ended)).length (blockNames l b) core
    && b.massif.all (fun x => (aget c.slots x.num).isNone) && b.maccs.all (fun x => (aget c.accs x.1).isNone)
    && b.mqueues.all (fun x => (aget c.queues x.1).isNone)
    && decide ((stagingUsed s core).length + b.staging.length ≤ 32)

/-- R386: the core with the most free warp slots where it fits, the lowest on a tie. -/
def bestCore (s : State) (fits : Nat → Bool) : Option Nat :=
  ((List.range 160).filter fits).foldl (fun o c => match o with
    | none => some c
    | some x => if (freeSlots s x).length < (freeSlots s c).length then some c else some x) none

/-- R258: the blocks of the band of a block that the grid has. -/
def bandNumbers (l : Launch) (blk : Nat) : List Nat :=
  ((List.range 8).map (fun p => blk / 8 * 8 + p)).filter (fun n => decide (n < l.total))

/-- R387: the lowest cluster on which each block of a band fits on its core. -/
def bandCluster (fits : Nat → Nat → Bool) (blks : List Nat) : Option Nat :=
  (List.range 20).find? (fun c => blks.all (fun n => fits n (c * 8 + n % 8)))

/-- The slots and the accumulators that a block owns on a cluster. -/
def ownedRuns (s : State) (id : BlockId) (cl : Nat) : List Nat × List Nat :=
  ((((clusterD s cl).slots.filter (fun x => x.2.owner == id)).map (·.1)),
   (((clusterD s cl).accs.filter (fun x => x.2.owner == id)).map (·.1)))

/-- R411: the matrix queues of a block. -/
def blockQueues (s : State) (b : Block) : List (Nat × MQueue) :=
  (clusterD s b.cluster).queues.filter (fun q => q.2.owner == b.id)

/-- R405: the header of a block's frame; WMASK gives the warps that the frame holds: all, or the evicted ones. -/
def frameHeader (s : State) (l : Launch) (b : Block) (kind faults : Nat) : Nat :=
  let held (wp : Warp) : Bool := if b.saved || l.rb then !wp.ended else wp.evicted
  let wmask := (b.warps.zipIdx.filter (fun x => held x.1)).foldl (fun m x => m + 2 ^ x.2) 0
  let bits (ns : List Nat) : Nat := ns.foldl (fun m n => m + 2 ^ n) 0
  let own := if b.saved then (b.massif.map (·.num), b.maccs.map (·.1)) else ownedRuns s b.id b.cluster
  let queues := if b.saved then b.mqueues else blockQueues s b
  kind + (if l.det then 4 else 0) + (if l.rb then 8 else 0) + (if l.band then 16 else 0) + b.id.lid.toNat * 2 ^ 8
    + b.id.blk * 2 ^ 64 + wmask * 2 ^ 128 + faults * 2 ^ 160 + (if b.rb.secB then 2 ^ 192 else 0)
    + bits own.1 * 2 ^ 256 + bits own.2 * 2 ^ 384 + bits (queues.map (·.1)) * 2 ^ 400

/-- Marks a frame of a context with its KIND (R405). -/
def setFrame (ctx f kind : Nat) (s : State) : State :=
  { s with frames := s.frames.filter (fun x => !(x.1 == ctx && x.2.1 == f)) ++ [(ctx, f, kind)] }

/-- Writes the header of a block's frame. -/
def writeHeader (id : BlockId) (f kind : Nat) (s : State) : State :=
  let b := blockD s id
  let l := launchD s id.lid
  let v := frameHeader s l b kind (unservedOf s b).length
  modBlock id (fun x => { x with header := v })
    (writeNat (setFrame l.ctx.toNat f kind s) (frameAddr s l.ctx.toNat f) 64 v 64)

/-- What a rollback to a block's start restores (R411). -/
def startImage (b : Block) : Checkpoint :=
  { warps := b.warps, wregs := b.wregs, rdvs := [], copyQ := [], mqueues := [], binds := [], nm := NmQueue.blank, walks := [], draining := none,
    owned := ([], []) }

/-- R386, R410, R411: starts an unstarted block; a rollback-capable one takes a frame, and its start is a checkpoint. -/
def startNew (l : Launch) (blk core : Nat) (s : State) : State :=
  let id : BlockId := { lid := l.lid, blk := blk }
  let s1 := modLaunch l.lid (fun x => { x with nextBlk := max x.nextBlk (blk + 1) }) (startBlock l blk core s)
  match l.rb, freeFrameOf s l.ctx.toNat with
  | true, some f =>
    writeHeader id f 3 (modBlock id (fun b => { b with frame := some f, rb := { b.rb with newest := some (startImage b) } }) s1)
  | _, _ => s1

/-- R386, R387: starts the next block or band of a launch; none when it does not fit. -/
def startNext (l : Launch) (s : State) : Option State :=
  let blks := if l.band then bandNumbers l l.nextBlk else [l.nextBlk]
  let frames := !l.rb || decide (blks.length ≤ ctxField s l.ctx.toNat 271 256 - (s.frames.filter (fun x => x.1 == l.ctx.toNat)).length)
  if l.total ≤ l.nextBlk || l.held || (!l.super && ctxHold s l.ctx.toNat) || !frames then none
  else if l.band then
    (bandCluster (fun _ c => fitsNew s l c) blks).map (fun c => blks.foldl (fun t n => startNew l n (c * 8 + n % 8) t) s)
  else (bestCore s (fitsNew s l)).map (fun c => startNew l l.nextBlk c s)

/-- R386: the first launch in acceptance order whose next block fits. -/
def startAny (s : State) : Option State := s.launches.findSome? (fun l => startNext l s)

/-! ### Warps and blocks that end (R135, R191, R249, R295, R385) -/

/-- An error due in a warp that ends goes to the lowest warp of the block that has not ended (R473). -/
def passDue (id : BlockId) (w : Nat) (s : State) : State :=
  let b := blockD s id
  let wp := warpD s id w
  let rest := modWarp id w (fun x => { x with due := [] }) s
  match (List.range b.warps.length).find? (fun k => k != w && (b.warps[k]?).any (fun x => !x.ended && !x.allExited)) with
  | some k => modWarp id k (fun x => { x with due := x.due ++ wp.due }) rest
  | none => rest

def warpEnds (w : WarpId) (s : State) : Bool :=
  let wp := warpD s w.block w.warp
  (getBlock s w.block).any (fun b => b.resident) && wp.allExited && !wp.ended && wp.results.isEmpty
    && !((launchD s w.block.lid).rb && wp.due.any (·.rollback))

def execWarpEnd (w : WarpId) (s : State) :=
  event (fun t => if warpEnds w t then
    passDue w.block w.warp (modWarp w.block w.warp (fun wp => { wp with ended := true, trapping := none }) t) else t) s

/-- The address that marks the release of a block's end; no word stands there. -/
def endPc : BitVec 53 := 0x1FFFFFFFFFFFFF#53

/-- R191: the device-scope release of one warp at the end of its block: begun, or performed. -/
def endRelease (id : BlockId) (acc : Bool × State) (w : Nat) : Bool × State :=
  match (warpD acc.2 id w).rel with
  | none => (false, startRelease id w .dv endPc true false [] acc.2)
  | some r => (acc.1 && r.pc == endPc && r.phase == .done, acc.2)

/-- R249, R295, R364, R373: nothing of the block is left in an engine but what an Error queue holds. -/
def enginesDone (s : State) (b : Block) : Bool :=
  b.copyQ.all (fun q => q.2.cmds.isEmpty || q.2.state == .error) && (b.nm.cmds.isEmpty || b.nm.state == .error)
    && b.walks.isEmpty
    && (clusterD s b.cluster).queues.all (fun q => q.2.owner != b.id || q.2.cmds.isEmpty || q.2.state == .error)

/-- R135: every warp has ended, and the engines are done. -/
def blockEnds (s : State) (b : Block) : Bool :=
  b.resident && b.saving.isNone && b.warps.all (·.ended) && b.warps.all (fun wp => wp.outs.all (fun o => isRed o.instr))
    && enginesDone s b

/-- R191, R385: the release of every warp is performed, the block's resources are freed, and the launch may end. -/
def endBlock (id : BlockId) (s : State) : State :=
  let b := blockD s id
  let ws := List.range b.warps.length
  let (flushed, s1) := if (launchD s id.lid).det then
      let r := drainAll id ws s
      (r.2, r.1)
    else (true, s)
  if !flushed then s1 else
  let r := ws.foldl (endRelease id) (true, s1)
  if !r.1 then r.2 else
  launchEndCheck id.lid (modLaunch id.lid (fun l => { l with ended := l.ended + 1 }) (freeBlock id r.2))

def execBlockEnd (b : BlockId) (s : State) :=
  event (fun t => match getBlock t b with
    | some x => if blockEnds t x then endBlock b t else t
    | none => t) s

/-! ### Rendezvous and meetings that cannot complete (R141) -/

/-- A node: a pending rendezvous, a meeting of a warp, or its transaction's TXE words (R215); the lanes it needs and the
lanes that wait or are held there, by block and warp, and of these those whose word stands at `addr`. -/
structure WaitNode where
  addr : BitVec 53
  iw : Word
  ew : Word
  need : List (BlockId × Nat × Lanes)
  here : List (BlockId × Nat × Lanes)
  hit : List (BlockId × Nat × Lanes)

/-- The blocks that a word's rendezvous takes in: its own, or its band's. -/
def nodeBlocks (s : State) (id : BlockId) (r : Rdv) : List BlockId := if r.band then bandBlocks s id else [id]

/-- The nodes of a block's rendezvous; a band's stands in the band's first block. -/
def rdvNodes (s : State) (b : Block) : List WaitNode :=
  (b.rdvs.filter (fun r => !r.band || (bandBlocks s b.id).find? (fun x => (blockD s x).rdvs.any r.same) == some b.id)).map (fun r =>
    let ids := nodeBlocks s b.id r
    let here := ids.flatMap (fun id => ((blockD s id).rdvs.filter r.same).flatMap (fun x =>
      x.arrived.map (fun a => (id, a.1, a.2))))
    { addr := r.pc, iw := r.iw, ew := r.ew,
      need := ids.flatMap (fun id =>
        (if r.scope = .warp then [r.warp] else scopeWarps s id r.warp r.scope r.set).map (fun w =>
          (id, w, (warpD s id w).live))),
      here := here, hit := here })

/-- The nodes of a warp's meetings. -/
def meetNodes (id : BlockId) (w : Nat) (wp : Warp) : List WaitNode :=
  ((wp.lanes.filter (fun x => x.st == .held)).map (fun x => x.mt.toNat)).foldl insertNat [] |>.map (fun m =>
    let at' (p : Lane → Bool) : Lanes := wp.mask (fun x => x.mt.toNat == m && p x)
    let here := [(id, w, at' (fun x => x.st == .held))]
    { addr := BitVec.ofNat 53 m, iw := 0, ew := 0, need := [(id, w, at' (fun x => x.st != .exited))], here := here,
      hit := here })

/-- R215: the lanes of a transaction that are held at TXE. -/
def txHeld (wp : Warp) : Lanes := txLanes wp &&& wp.mask (fun x => x.txe && x.st == .waiting)

/-- R215: the nodes of the lanes that a warp's transaction holds at TXE, one for each word; each needs every lane of the
transaction. -/
def txNodes (id : BlockId) (w : Nat) (wp : Warp) : List WaitNode :=
  let held := txHeld wp
  ((laneNums held).map (fun l => (wp.lane l).pc.toNat)).foldl insertNat [] |>.map (fun p =>
    { addr := BitVec.ofNat 53 p, iw := 0, ew := 0, need := [(id, w, txLanes wp)], here := [(id, w, held)],
      hit := [(id, w, held &&& wp.mask (fun x => x.pc.toNat == p))] })

/-- The blocks whose nodes bear on a block's: those of its band. -/
def waitBlocks (s : State) (id : BlockId) : List BlockId := if (launchD s id.lid).band then bandBlocks s id else [id]

def waitNodes (s : State) (id : BlockId) : List WaitNode :=
  (waitBlocks s id).flatMap (fun x =>
    let b := blockD s x
    rdvNodes s b ++ b.warps.zipIdx.flatMap (fun (wp, w) => meetNodes x w wp ++ txNodes x w wp))

/-- R141, R393: the lanes that are live: a lane that the debugger has stopped, one that its warp's handler suspends, that
waits in GROW or that a TXB of a closed transaction stalls (R212) will go on. -/
def liveLanes' (wp : Warp) : Lanes :=
  if wp.grow.isSome || wp.stopped then wp.live
  else wp.mask (fun x => x.susp || !(x.st == .exited || x.st == .waiting || x.st == .held))
    ||| (wp.mask (fun x => x.txe && x.st != .exited) &&& ~~~txLanes wp)

/-- The lanes of a list for a warp. -/
def lanesAt (l : List (BlockId × Nat × Lanes)) (id : BlockId) (w : Nat) : Lanes :=
  l.foldl (fun m x => if x.1 = id && x.2.1 = w then m ||| x.2.2 else m) 0

/-- R141: one round of the least set of nodes that escape. -/
def escapeRound (s : State) (ns : List WaitNode) (esc : List Nat) : List Nat :=
  let go (n : WaitNode) : Bool :=
    n.need.all (fun x => x.2.2 &&& ~~~lanesAt n.here x.1 x.2.1 == 0)
    || n.need.any (fun x => x.2.2 &&& liveLanes' (warpD s x.1 x.2.1) != 0
        || esc.any (fun k => (ns[k]?).any (fun m => x.2.2 &&& lanesAt m.here x.1 x.2.1 != 0)))
  (List.range ns.length).filter (fun k => (ns[k]?).any go)

/-- R141: the nodes that are dead. -/
def deadNodes (s : State) (id : BlockId) : List WaitNode :=
  let ns := waitNodes s id
  let esc := (List.range (ns.length + 1)).foldl (fun e _ => escapeRound s ns e) []
  (ns.zipIdx.filter (fun x => !esc.contains x.2)).map (·.1)

/-- R141: the waiting or holding of lanes ends; those of a transaction issue their TXE again. -/
def Warp.waitEnds (m : Lanes) (wp : Warp) : Warp :=
  ({ wp with tx := wp.tx.map (fun t => { t with lanes := t.lanes.map (fun x =>
      if m.getLsbD x.lane then { x with committing := false } else x) }) } : Warp).setLanes m
    (fun x => { x with st := .running, txe := false })

/-- R141, R390: the trap of a warp's lanes at one dead node, the `k`-th; while a trap of the warp is being taken,
that of lanes outside its handler waits for its end (R393, R394). -/
def mismatchTrap (dead : List WaitNode) (id : BlockId) (w : Nat) (n : WaitNode) (k : Nat) (s : State) : State :=
  let m := lanesAt n.hit id w
  if m = 0 then s else
  let others := (dead.zipIdx.filter (fun x => x.2 != k)).map (fun x => x.1.addr.toNat)
  let (iw, ew) : Word × Word := if n.iw = 0 then
      (match fetchPair id n.addr s with | .ok (x, y, _) => (x, y.getD 0) | .error (_, _, x) => (x, 0))
    else (n.iw, n.ew)
  let s1 := modWarp id w (fun wp => wp.waitEnds m) (withdraw id w m s)
  let t : TrapReq :=
    { lanes := m, pc := n.addr, next := some (n.addr + (if iw.getLsbD 0 then 8 else 4)), iw := iw, ew := ew,
      cause := 0x05, sub := 0, aux := 0, addr := others.foldl min ((others.head?).getD n.addr.toNat) }
  raiseTrap id w t s1

def execScopeMismatchDetect (b : BlockId) (s : State) :=
  event (fun t =>
    if !(getBlock t b).any (fun x => x.resident) then t else
    let dead := deadNodes t b
    if dead.isEmpty then t else
    (waitBlocks t b).foldl (fun u id =>
      (List.range (blockD u id).warps.length).foldl (fun v w =>
        dead.zipIdx.foldl (fun y x => mismatchTrap dead id w x.1 x.2 y) v) u) t) s

/-! ### GROW (R161, R162) -/

/-- R162: the rank of a warp: its launch's acceptance order, then its logical wave index. -/
def warpRank (s : State) (w : WarpId) : Nat :=
  (s.launches.findIdx (fun l => l.lid == w.block.lid)) * 2 ^ 100 + w.block.blk * 32 + w.warp

/-- The resident warps of a core that have not ended. -/
def coreWarps (s : State) (core : Nat) : List WarpId :=
  (s.blocks.filter (fun b => b.core == core && b.resident)).flatMap (fun b =>
    (b.warps.zipIdx.filter (fun x => !x.1.ended)).map (fun x => { block := b.id, warp := x.2 }))

/-- Puts a warp behind those of its own rank or a lower one. -/
def insertRank (s : State) (w : WarpId) : List WarpId → List WarpId
  | [] => [w]
  | x :: xs => if warpRank s x ≤ warpRank s w then x :: insertRank s w xs else w :: x :: xs

/-- Warps by rising rank. -/
def byRank (s : State) (l : List WarpId) : List WarpId := l.foldl (fun acc w => insertRank s w acc) []

def wpOf (s : State) (w : WarpId) : Warp := warpD s w.block w.warp

def growWaiters (s : State) (core : Nat) : List WarpId :=
  byRank s ((coreWarps s core).filter (fun w => (wpOf s w).grow.isSome && !(wpOf s w).evicted))

/-- R161: the waiter that is granted next: the lowest rank that fits, in a deterministic launch only its lowest. -/
def nextGrant (s : State) (core : Nat) : Option WarpId :=
  let ws := growWaiters s core
  ws.find? (fun w =>
    (wpOf s w).grow.any (fun g => growReady s core (wpOf s w) g.n) && (blockD s w.block).saving.isNone &&
      !(wpOf s w).stopped &&
      (!(launchD s w.block.lid).det || ws.find? (fun x => x.block.lid == w.block.lid) == some w))

def grantWarp (w : WarpId) (s : State) : State :=
  match (wpOf s w).grow with
  | some g => modWarp w.block w.warp (Warp.grant g.n g.gd) s
  | none => s

def execGrowGrant (core : Nat) (s : State) :=
  event (fun t => match nextGrant t core with
    | some w => grantWarp w t
    | none => t) s

/-- R162: a warp that waits: in GROW, at rendezvous or at meetings, with nothing outstanding. -/
def growWaits (wp : Warp) : Bool :=
  (wp.grow.isSome || wp.waits) && wp.results.isEmpty && !wp.stopped && wp.hand == 0 && wp.trapping.isNone && wp.parks.isEmpty

/-- R404: the bytes of a warp's lane registers in a frame: `q` and `o`, and `v`, from section addresses. -/
def warpImage (qo v w : Nat) (wp : Warp) : List (Nat × List (BitVec 8)) :=
  let row (n : Nat) : List (BitVec 8) := (List.range 32).flatMap (fun l => leBytes 4 (wp.reg (BitVec.ofNat 7 n) l).toNat)
  (List.range 16).map (fun n => (qo + 2048 * w + 128 * n, row n))
    ++ (List.range wp.allot).map (fun n => (v + (112 * w + n) * 128, row (16 + n)))

/-- Writes pieces of a frame. -/
def writePieces (ps : List (Nat × List (BitVec 8))) (s : State) : State := ps.foldl (fun t p => writeBytes t p.1 p.2 64) s

/-- R404: sections of a frame, by address and length, whose contents the spec lays out no further, are written with bytes it
leaves open (log entry 56, DESIGN CHOICE). -/
def writeOpen (ps : List (Nat × Nat)) (s : State) : State :=
  ps.foldl (fun t p =>
    let k := (p.2 + 127) / 128
    let bs := (List.range k).flatMap (fun i => lineBytes (Config.freeLine (t.draws + i)) 0 128)
    writeBytes { t with draws := t.draws + k } p.1 (bs.take p.2) 64) s

/-- R404: the control of the warps of a list in a frame, 2 KiB each from `base`. -/
def controlPieces (base : Nat) (warps : List Warp) : List (Nat × Nat) :=
  (warps.zipIdx.filter (fun x => !x.1.ended)).map (fun x => (base + 2048 * x.2, 2048))

/-- A block's attached frame, taken if it has none (R162). -/
def attach (id : BlockId) (s : State) : Option (Nat × State) :=
  let ctx := (launchD s id.lid).ctx.toNat
  match (blockD s id).frame with
  | some f => some (f, s)
  | none => (freeFrameOf s ctx).map (fun f =>
      (f, writeHeader id f 3 (modBlock id (fun b => { b with frame := some f }) s)))

/-- R162: evicts a warp: its registers go to the attached frame and its names to the pool. -/
def evictWarp (w : WarpId) (s : State) : Option State :=
  (attach w.block s).map (fun r =>
    let base := frameAddr r.2 (launchD s w.block.lid).ctx.toNat r.1
    modWarp w.block w.warp (fun wp => { wp with evicted := true })
      (writePieces (warpImage (base + 0x20000) (base + 0x30000) w.warp (wpOf s w)) r.2))

/-- R162 step 2: evicts the waiting warps other than `l` in falling rank until it can be granted. -/
def evictFor (l : WarpId) (core : Nat) : List WarpId → State → State
  | [], s => s
  | w :: t, s =>
    if (wpOf s l).grow.any (fun g => growReady s core (wpOf s l) g.n) then s else
    match evictWarp w s with
    | some u => evictFor l core t u
    | none => s

/-- R162 step 3: the block of the core to be saved next: the one whose lowest rank is highest. -/
def evictBlock (l : WarpId) (core : Nat) (s : State) : State :=
  let ids := residentIds s (fun b => b.core == core && b.id != l.block && !(launchD s b.id.lid).super)
  match (byRank s (ids.map (fun id => { block := id, warp := 0 }))).getLast? with
  | some w => beginSave .evict (unitOf s w.block) s
  | none => s

/-- R162. -/
def resolveGrow (core : Nat) (s : State) : State :=
  let ws := coreWarps s core
  match growWaiters s core with
  | [] => s
  | l :: _ =>
    if !ws.all (fun w => growWaits (wpOf s w)) || (nextGrant s core).isSome
      || s.blocks.any (fun b => b.core == core && b.resident && b.saving.isSome) then s
    else
      let others := (byRank s (ws.filter (fun w => w != l && !(wpOf s w).evicted && !(launchD s w.block.lid).super))).reverse
      if others.isEmpty then evictBlock l core s else evictFor l core others s

def execGrowDeadlockResolve (core : Nat) (s : State) := event (resolveGrow core) s

/-- R404: reads a warp's lane registers back from a frame. -/
def readWarp (s : State) (qo v w : Nat) (wp : Warp) : Warp :=
  let put (x : Warp) (n addr : Nat) : Warp :=
    (List.range 32).foldl (fun y l => y.setReg (BitVec.ofNat 7 n) l (BitVec.ofNat 32 (readNat s (addr + 4 * l) 4))) x
  let w1 := (List.range 16).foldl (fun x n => put x n (qo + 2048 * w + 128 * n)) wp
  (List.range wp.allot).foldl (fun x n => put x (16 + n) (v + (112 * w + n) * 128)) w1

/-- R162: a warp comes back from its block's attached frame. -/
def restoreWarp (w : WarpId) (s : State) : State :=
  let ctx := (launchD s w.block.lid).ctx.toNat
  let base := frameAddr s ctx ((blockD s w.block).frame.getD 0)
  let s1 := modWarp w.block w.warp (fun wp =>
    { readWarp s (base + 0x20000) (base + 0x30000) w.warp wp with evicted := false }) s
  match (launchD s w.block.lid).rb || (blockD s1 w.block).warps.any (·.evicted), (blockD s w.block).frame with
  | false, some f => freeFrame ctx f (modBlock w.block (fun b => { b with frame := none }) s1)
  | _, _ => s1

def execEvictedWarpRestore (core : Nat) (s : State) :=
  event (fun t =>
    match byRank t ((coreWarps t core).filter (fun w => (wpOf t w).evicted)) with
    | w :: _ => if (wpOf t w).allot ≤ poolNames t core && (nextGrant t core).isNone && (blockD t w.block).saving.isNone
        then restoreWarp w t else t
    | [] => t) s

/-! ### Deterministic launches (R223, R227, R228) -/

/-- R223: every non-exited warp of a deterministic block waits, and something is buffered. -/
def flushDue (s : State) (b : Block) : Bool :=
  (launchD s b.id.lid).det && b.resident && b.warps.all notCandidate && b.warps.any (fun wp => !wp.det.isEmpty)

def execFlushPointAllWaiting (b : BlockId) (s : State) :=
  event (fun t => match getBlock t b with
    | some x =>
      match x.draining, x.resident with
      | some ws, true => (drainAll b ws t).1
      | _, _ => if flushDue t x then (drainAll b (List.range x.warps.length) t).1 else t
    | none => t) s

/-- The sleep that holds an asleep lane. -/
def laneSleep (s : State) (w : WarpId) (l : Nat) : Option Sleep :=
  let wp := wpOf s w
  let mine (z : Sleep) : Bool := z.members.isEmpty && z.lanes.getLsbD l
  match wp.sleeps.find? mine with
  | some z => some z
  | none => ((blockD s w.block).warps.flatMap (·.sleeps)).find? (fun z => z.members.contains w.warp && z.pc == (wp.lane l).pc)

/-- R390 cause 0x09: the kind of wait and its address. -/
def stallKind (z : Sleep) : Nat × Nat :=
  match z.instr with
  | .waita _ _ sp _ _ _ _ _ _ => if sp then (1, z.va) else (0, z.va)
  | .twait .. => (1, z.va)
  | .mwait _ _ _ _ _ q _ => (2, q.toNat)
  | .publWait .. => (3, z.cmp.toNat)
  | _ => (4, 0)

/-- R227: the deterministic-stall trap of a candidate whose lanes have been asleep for 2^24 cycles. -/
def detStall (w : WarpId) (s : State) : State :=
  let wp := wpOf s w
  let m := wp.mask (fun x => x.st == .asleep)
  let ls := laneNums m
  let long (l : Nat) : Bool := (laneSleep s w l).any (fun z => decide (z.since + 2 ^ 24 ≤ s.clock))
  if !(launchD s w.block.lid).det || m &&& ~~~wp.live ≠ 0 || wp.live &&& ~~~m ≠ 0 || !ls.all long || !(detTurn s w).1
    || !(blockD s w.block).resident then s
  else match ls with
    | [] => s
    | l :: _ => match laneSleep s w l with
      | none => s
      | some z =>
        let ws := encode z.instr
        let k := stallKind z
        let s1 := modWarp w.block w.warp (fun x => x.setLanes m (fun y => { y with st := .running })) (withdraw w.block w.warp m s)
        raiseTrap w.block w.warp
          { lanes := m, pc := z.pc, next := some (z.pc + (if (ws[0]?.getD 0).getLsbD 0 then 8 else 4)), iw := ws[0]?.getD 0,
            ew := ws[1]?.getD 0, cause := 0x09, sub := 0, aux := k.1, addr := k.2 } s1

def execDetStallTrap (w : WarpId) (s : State) := event (detStall w) s

/-- R228: since when a save waits for a warp's transaction; a debugger's stop waits for it likewise (log entry 85, DEDUCED). -/
def deferredSince (s : State) (w : WarpId) : Option Nat :=
  match (blockD s w.block).saving with
  | some x => some x.since
  | none => if (wpOf s w).stopped then some (wpOf s w).stopAt else none

/-- R228: the watchdog of a deferred save aborts the transaction lanes of a warp. -/
def execDetPreemptWatchdog (w : WarpId) (s : State) :=
  event (fun t =>
    match (launchD t w.block.lid).det, deferredSince t w with
    | true, some since =>
      if t.clock < since + 2 ^ 20 then t else
      modWarp w.block w.warp (fun wp =>
        ({ wp with det := wp.det.filter (fun d => !d.commit) } : Warp).txAbortAll 6 0 (txLanes wp)) t
    | _, _ => t) s

/-- R402: after 2^20 cycles a save no longer waits for warps whose traps are masked. -/
def execSaveTmaskTimeout (b : BlockId) (s : State) :=
  event (fun t => modBlock b (fun x => { x with saving := x.saving.map (fun y =>
    if t.clock < y.since + 2 ^ 20 then y else { y with masked := true }) }) t) s

/-! ### Errors taken at an issue boundary (R248, R439, R473) -/

/-- The first error that is due in a warp, when it can be taken as `p` says. -/
def takeFirst (w : WarpId) (p : DueError → Bool) (s : State) : State :=
  let wp := wpOf s w
  match wp.due with
  | d :: _ =>
    if p d && dueNow wp d && deviceRuns s w.block && warpFree (launchD s w.block.lid) (blockD s w.block) wp
    then takeDue w.block w.warp d s else s
  | [] => s

def execEngineTrapDelivery (w : WarpId) (s : State) := event (takeFirst w (fun d => d.cause == 0x08)) s

def execDrainErrorDelivery (w : WarpId) (s : State) :=
  event (fun t => takeFirst w (fun d => d.lanes != 0 && !(d.rollback && (launchD t w.block.lid).rb)) t) s

/-! ### Records that waited (R381, R397) -/

/-- R397: waiting faults of a context are posted in order while its ring has room. -/
def postWaiting (ctx : Nat) : Nat → State → State
  | 0, s => s
  | fuel + 1, s =>
    match s.faults.find? (fun f => f.ctx.toNat == ctx && !f.posted) with
    | none => { s with fullFq := s.fullFq.filter (· != ctx) }
    | some f =>
      let r := fqPost f s
      if r.1 then postWaiting ctx fuel { r.2 with faults := r.2.faults.map (fun x =>
        if x.token = f.token then { x with posted := true } else x) }
      else s

def execFaultPostDeferred (ctx : Nat) (s : State) := event (fun t => postWaiting ctx (t.faults.length + 1) t) s

/-- R381: the oldest waiting device record goes to the ring. -/
def execDeviceRecordPost (s : State) :=
  event (fun t => match t.records with
    | r :: rest => if ringFull t then t else writeRecord r { t with records := rest }
    | [] => t) s

end Sys2Proof.Machine
end

