-- ==== Sys2Proof/Machine/Checkpoint.lean ====
section
/-!
DEFINITION. Machine/Checkpoint.lean: the checkpoints of a rollback-capable block, their completion, and rollback
(R410 to R415, R439).
-/
namespace Sys2Proof.Machine

/-! ### Sleeps across a save or a checkpoint (R210, R404, R414) -/

/-- The time that remains at `now`. -/
def Sleep.freeze (now : Nat) (z : Sleep) : Sleep :=
  { z with deadline := z.deadline.map (fun d => d - now), since := now - z.since }

def Sleep.thaw (now : Nat) (z : Sleep) : Sleep :=
  { z with deadline := z.deadline.map (fun d => d + now), since := now - z.since }

def Warp.pauseSleeps (now : Nat) (wp : Warp) : Warp := { wp with sleeps := wp.sleeps.map (Sleep.freeze now) }
def Warp.thaw (now : Nat) (wp : Warp) : Warp := { wp with sleeps := wp.sleeps.map (Sleep.thaw now) }

/-! ### The instant (R411) -/

/-- A result that a checkpoint or a rollback keeps: one that waits for commands or accesses which the checkpoint may hold back
(R268, R304, R308, R349, R350), or an undrained atomic (log entry 89, DEDUCED). -/
def keptOut (wp : Warp) (o : Outst) : Bool :=
  match o.instr with
  | .mrel .. | .nbdisarm .. => true
  | .lbind .. | .lrefForce .. | .lrefDrop .. | .lrefQuery .. | .nbarm .. => o.vals.isEmpty
  | _ => wp.det.any (fun d => d.out.id == o.id)

/-- R411 step 1: the warp has no result to wait for. -/
def Warp.calm (wp : Warp) : Bool :=
  wp.trapping.isNone && wp.outs.all (keptOut wp) && !wp.due.any (·.rollback)

/-- R411 step 2, for a copy queue: empty, in Error, or its head paused; a head that a save found Stalled stays so. -/
def copyPaused (s : State) (id : BlockId) (q : CopyQueue) : Bool :=
  match q.cmds with
  | [] => true
  | c :: _ =>
    let len := cdLen c.desc.toNat
    q.state == .error || c.stage.waits || (q.state == .stalled && (blockD s id).saving.isSome)
      || needsCheckpoint s id (if c.pos < len then granuleWrites c (min (c.pos + 512) len) else [(cdAoff c.desc.toNat, 4)])

/-- R271: an earlier command of the same block that is not complete stands in the way of a matrix command. -/
def heldBack (s : State) (cl : Nat) (c : MCmd) : Bool :=
  (clusterCmds (clusterD s cl)).any (fun x => x.block == c.block && decide (x.order < c.order) && conflict s x c)

/-- R411 step 2, for a matrix queue: each command is complete, pauses, waits behind one that does, or stands at or behind an
error; one that a save found Stalled stays so. -/
def matrixPaused (s : State) (cl : Nat) (q : MQueue) : Bool :=
  q.cmds.all (fun c => c.done || c.pauses s || heldBack s cl c
    || (q.state == .error && decide (q.held ≤ c.order))
    || (q.state == .stalled && c.order == q.held && (blockD s c.block).saving.isSome))

def nmPaused (s : State) (id : BlockId) (q : NmQueue) : Bool :=
  match q.cmds with
  | [] => true
  | c :: _ =>
    q.state == .error || c.stage.waits || (c.stage == .data && needsCheckpoint s id [(c.aoff, 4)])

def walkPaused (s : State) (id : BlockId) (w : Walk) : Bool :=
  match w.phase with
  | .ending st cls stage =>
    stage.waits || needsCheckpoint s id
      (if stage = .start then [(wkRoff w.desc.toNat, (walkResult w st cls).length)] else [(wkAoff w.desc.toNat, 4)])
  | _ => false

/-- R410, R411: a checkpoint is asked for, the previous one is complete, warps and engines have come to rest. -/
def instantReady (s : State) (b : Block) : Bool :=
  b.resident && b.rb.want && b.rb.capture.isNone && (launchD s b.id.lid).rb
    && b.warps.all Warp.calm && b.copyQ.all (fun q => copyPaused s b.id q.2)
    && (blockQueues s b).all (fun q => matrixPaused s b.cluster q.2)
    && nmPaused s b.id b.nm && b.walks.all (walkPaused s b.id)

/-- A release that waited for the instant may act once the checkpoint is complete. -/
def CmdStage.pass (x : CmdStage) : CmdStage := if x = .release then .finished else x

def CopyQueue.pass (q : CopyQueue) : CopyQueue := { q with cmds := q.cmds.map (fun c => { c with stage := c.stage.pass }) }
def MQueue.pass (q : MQueue) : MQueue := { q with cmds := q.cmds.map (fun c => { c with stage := c.stage.pass }) }
def NmQueue.pass (q : NmQueue) : NmQueue := { q with cmds := q.cmds.map (fun c => { c with stage := c.stage.pass }) }

def Walk.pass (w : Walk) : Walk :=
  match w.phase with
  | .ending st cls stage => { w with phase := .ending st cls stage.pass }
  | _ => w

/-- R411: at the instant, loads blocked on faults are cancelled and replay, and a release that waited for it goes on. -/
def Warp.passInstant (wp : Warp) : Warp :=
  { wp.cancelLoads with rel := wp.rel.map (fun r => if r.phase = .ckpt then { r with phase := .capture } else r) }

/-- A release in the image of its warp: the checkpoint it waited for is the image's own, so that after a rollback it
acts without another (R411, R415; log entry 24, DEDUCED). -/
def Release.inImage (r : Release) : Release :=
  if !r.holds || r.phase = .done then r else { r with phase := if r.carried then .ready else .acks }

/-- The image of a warp. -/
def Warp.image (now : Nat) (wp : Warp) : Warp :=
  { wp.pauseSleeps now with rel := wp.rel.map Release.inImage }

/-- R198, R412: the changed bytes of one of the block's own copies join the tentative sectors of the interval. -/
def tentCopy (a : AtomCopy) (tent : List Tentative) : List Tentative :=
  if tent.any (fun t => t.line == a.key) then
    tent.map (fun t => if t.line = a.key then
      { t with data := mergeLine t.data a.data a.mask, mask := t.mask ||| a.mask,
               poison := t.poison &&& ~~~ wholeSectors a.mask } else t)
  else tent ++ [{ line := a.key, data := a.data, mask := a.mask, ks := a.ks, poison := 0 }]

/-- R412: at the instant the block's copies give up their changed bytes, those of fixed pages in place. -/
def closeCopies (id : BlockId) (s : State) : State :=
  let core := (blockD s id).core
  let mine (a : AtomCopy) : Bool := a.owner == some id && a.mask != 0
  let s1 := ((coreD s core).atoms.filter mine).foldl (fun t a =>
    if a.fixed then (writeBackCopy core true a t).getD t
    else modBlock id (fun b => { b with rb := { b.rb with tent := tentCopy a b.rb.tent } }) t) s
  modCore core (fun k => { k with atoms := k.atoms.map (fun a => if mine a then { a with mask := 0 } else a) }) s1

/-- R24: a stall's end that awaits a block's checkpoint sees its instant, or its completion. -/
def noteEnding (id : BlockId) (complete : Bool) (c : Cluster) : Cluster :=
  { c with ending := c.ending.map (fun l =>
      if complete then l.filter (· != (id, true)) else l.map (fun x => if x.1 = id then (id, true) else x)) }

/-- R411 step 3: the instant is taken and the copy begins. -/
def takeInstant (id : BlockId) (s0 : State) : State :=
  let s := closeCopies id s0
  let cl := (blockD s id).cluster
  let s1 := modCluster cl (fun c => { noteEnding id false c with queues := c.queues.map (fun q =>
    if q.2.owner = id then (q.1, q.2.pass) else q) }) s
  let queues := blockQueues s1 (blockD s1 id)
  modBlock id (fun b =>
    let rdvs := b.rdvs.map (fun r => if r.phase = .held then { r with phase := .executing } else r)
    let copyQ := b.copyQ.map (fun q => (q.1, q.2.pass))
    let walks := b.walks.map Walk.pass
    let img : Checkpoint :=
      { warps := b.warps.map (Warp.image s.clock), wregs := b.wregs, rdvs := rdvs, copyQ := copyQ, mqueues := queues,
        binds := (clusterD s1 b.cluster).binds.filter (fun x => x.block == id), nm := b.nm.pass, walks := walks, draining := b.draining, owned := ownedRuns s1 id b.cluster }
    { b with
      warps := b.warps.map Warp.passInstant
      rdvs := rdvs, copyQ := copyQ, nm := b.nm.pass, walks := walks
      saving := b.saving.map (fun x => if x.stage = 1 then { x with stage := 2 } else x)
      rb := { b.rb with undo := Undo.blank, undoPrev := b.rb.undo, tent := [], tentPrev := b.rb.tent, want := false,
                        capture := some (img, s.clock) } }) s1

/-! ### Completion (R411, R412, R413) -/

/-- The bytes of a block's `w` registers in a frame, set by set, from a section's address. -/
def wImage (l : Launch) (base : Nat) (wregs : Sparse 32) : List (Nat × List (BitVec 8)) :=
  l.groups.map (fun g => (base + 2048 * g.1, (List.range 512).flatMap (fun i => leBytes 4 (sget wregs (g.1 * 512 + i)).toNat)))

/-- R404: the registers of an image, from the addresses of the `q`, `v` and `w` sections. -/
def regImage (l : Launch) (qo v w : Nat) (warps : List Warp) (wregs : Sparse 32) : List (Nat × List (BitVec 8)) :=
  (warps.zipIdx.filter (fun x => !x.1.ended)).flatMap (fun x => warpImage qo v x.2 x.1) ++ wImage l w wregs

/-- R412: the tentative sectors of a closed interval merge into the cluster's pending line, in the place that their
reservation keeps. -/
def mergeTent (core : Nat) (s : State) (x : Tentative) : State :=
  let c := core / 8
  let drop (t : State) : State := modCore core (fun k => { k with l1 := k.l1.filter (fun y => !y.is 0 x.line) }) t
  if (clusterD s c).pend.any (fun q => q.line == x.line) then
    drop (modCluster c (fun k => { k with pend := k.pend.map (fun q =>
      if q.line = x.line then
        { q with data := mergeLine q.data x.data x.mask, mask := q.mask ||| x.mask, appended := none,
                 poison := q.poison &&& ~~~ wholeSectors x.mask }
      else q) }) s)
  else
    let r := indexedLine core x.line x.ks false s
    let fresh : Pending :=
      { line := x.line, data := mergeLine r.data x.data x.mask, mask := x.mask, ks := x.ks,
        poison := r.poison &&& ~~~ wholeSectors x.mask, appended := none, tx := false }
    drop (modCluster c (fun k => { k with pend := k.pend ++ [fresh] }) r.st)

/-- R413: runs that MREL released in the closed interval become free. -/
def freeReleased (id : BlockId) (u : Undo) (s : State) : State :=
  modCluster (blockD s id).cluster (fun c => { c with
    slots := c.slots.filter (fun x => !(x.2.owner == id && u.relSlots.contains x.1))
    accs := c.accs.filter (fun x => !(x.2.owner == id && u.relAccs.contains x.1)) }) s

/-- A release whose checkpoint is complete may act. -/
def Warp.passCapture (wp : Warp) : Warp :=
  { wp with rel := wp.rel.map (fun r => if r.phase = .capture then { r with phase := if r.carried then .ready else .acks } else r) }

/-- R411 step 5: the checkpoint is complete. -/
def completeCheckpoint (id : BlockId) (img : Checkpoint) (s : State) : State :=
  let b := blockD s id
  let l := launchD s id.lid
  let s1 := b.rb.tentPrev.foldl (mergeTent b.core) (freeReleased id b.rb.undoPrev
    (modBlock id (fun x => { x with rb := { x.rb with tentPrev := [] } }) s))
  let s2 := modBlock id (fun x => { x with
    warps := x.warps.map Warp.passCapture
    saving := x.saving.map (fun y => if y.stage = 2 then { y with stage := 3 } else y)
    rb := { x.rb with newest := some img, capture := none, undoPrev := Undo.blank, count := 0, secB := !x.rb.secB } }) s1
  let s3 := match b.frame with
    | some f =>
      let sec := frameAddr s2 l.ctx.toNat f + (if b.rb.secB then 0x180000 else 0x2A0000)
      writeHeader id f 3 (writeOpen (controlPieces sec img.warps)
        (writePieces (regImage l (sec + 0x10000) (sec + 0x20000) (sec + 0x90000) img.warps img.wregs) s2))
    | none => s2
  (List.range b.warps.length).foldl (fun t w => relAdvance id w t) (modCluster b.cluster (noteEnding id true) s3)

def execCheckpointComplete (b : BlockId) (s : State) :=
  event (fun t => match (blockD t b).rb.capture with
    | some (img, at') => if at' + 256 ≤ t.clock && (blockD t b).resident then completeCheckpoint b img t else t
    | none => t) s

/-! ### What an attached frame holds between checkpoints (R404, R405, R413) -/

/-- R413: interval n's undo records stand in the logs and areas of n mod 2: A's, or B's. -/
def undoB (b : Block) : Bool := b.rb.secB != b.rb.capture.isSome

/-- The undo records of the open interval as pieces of the frame: those that do not stand there yet. -/
def undoPieces (base : Nat) (b : Block) : List (Nat × List (BitVec 8)) :=
  let u := b.rb.undo
  let log := base + (if undoB b then 0x3D0000 else 0x3C0000)
  let area := base + (if undoB b then 0xC00000 else 0x800000)
  (if u.granules.length = u.filed.1 then [] else u.granules.zipIdx.map (fun x => (log + 1024 * x.2, x.1.2)))
    ++ (u.slots.drop u.filed.2.1).flatMap (fun x =>
      [(area + 8192 * x.num, sbytes x.data 0 8192), (area + 0x100000 + 512 * x.num, sbytes x.side 0 512)])
    ++ (if u.accs.length = u.filed.2.2 then [] else u.accs.map (fun a =>
      (area + 0x200000 + 131072 * a.1, (List.range 32768).flatMap (fun i => leBytes 4 (sget a.2 i).toNat))))

/-- R413: the records go to the frame, and their directory with them. -/
def fileUndo (id : BlockId) (f : Nat) (s : State) : State :=
  let b := blockD s id
  let u := b.rb.undo
  let n := (u.granules.length, u.slots.length, u.accs.length)
  if u.filed = n then s else
  let base := frameAddr s (launchD s id.lid).ctx.toNat f
  modBlock id (fun x => { x with rb := { x.rb with undo := { x.rb.undo with filed := n } } })
    (writeOpen [(base + 0x40, 0xFFC0)] (writePieces (undoPieces base b) s))

/-- R405: the header of a block's frame says what is so now. -/
def refreshHeader (id : BlockId) (f : Nat) (s : State) : State :=
  let b := blockD s id
  let l := launchD s id.lid
  match s.frames.find? (fun x => x.1 == l.ctx.toNat && x.2.1 == f) with
  | some x =>
    if b.header = frameHeader s l b x.2.2 (unservedOf s b).length then s else writeHeader id f x.2.2 s
  | none => s

/-- The frames of all blocks follow them. -/
def settleFrames (s : State) : State :=
  s.blocks.foldl (fun t (b : Block) => match b.frame with
    | some f => refreshHeader b.id f (if b.saved then t else fileUndo b.id f t)
    | none => t) s

/-! ### Rollback (R414, R415) -/

/-- R414: a parked access is discarded; its lane runs its word again. -/
def Warp.unparkAll (wp : Warp) : Warp :=
  let m := lanesOf (fun l => wp.parks.any (fun p => p.lane == l))
  ({ wp with parks := [] } : Warp).setLanes m (fun x => if x.st = .parked then { x with st := .running } else x)

/-- R414: a warp as it stood at the checkpoint. What is not the warp's own work since then stays: its slot, its
stores in flight, its debugger stop, its release that had begun before. -/
def Warp.rollTo (now : Nat) (img cur : Warp) : Warp :=
  let begun := match cur.rel with
    | some r => if r.holds then none else some r
    | none => none
  let rel := match img.rel with
    | some r => if r.holds then some r else begun
    | none => none
  let base : Warp :=
    { img.thaw now with
      slot := cur.slot, unack := cur.unack, remoteUnack := cur.remoteUnack, remoteHomes := cur.remoteHomes, rel := rel,
      stopped := cur.stopped, stopAt := cur.stopAt, bkpt := cur.bkpt, evicted := cur.evicted, due := [], trapping := none,
      outs := img.outs.filter (keptOut img), nextOut := max img.nextOut cur.nextOut }
  base.unparkAll.txAbortAll 6 0 (txLanes img) |>.meetings

/-- R139: a single execution that a parked fault suspended runs again. -/
def unsuspend (warps : List Warp) (r : Rdv) : Rdv :=
  match r.phase with
  | .suspended w =>
    if (warps[w]?).any (fun wp => wp.parks.any (fun p => p.lane == 32)) then { r with phase := .executing } else r
  | _ => r

/-- Puts back what one interval's undo records hold. -/
def applyUndo (id : BlockId) (u : Undo) (s : State) : State :=
  let cl := (blockD s id).cluster
  let s1 := modBlock id (fun b => u.granules.foldl (fun x g =>
    { x with scratch := sputBytes x.scratch (g.1 * 1024) g.2
             staging := x.staging.filter (fun y => !y.covers (g.1 * 1024) 1024) }) b) s
  let s2 := u.slots.foldl (fun t x => modSlot cl x.num (fun m =>
    if m.owner = id then { m with tag := x.tag, sref := x.sref, data := x.data, side := x.side, stage := none } else m) t) s1
  modCluster cl (fun c => { c with accs := c.accs.map (fun a =>
    match aget u.accs a.1 with
    | some d => if a.2.owner = id then (a.1, { a.2 with data := d }) else a
    | none => a) }) s2

/-- R414: the queues take their counts and commands back; what the block claimed or was allotted since then is free
again (log entry 25, DEDUCED). -/
def rollQueues (id : BlockId) (img : Checkpoint) (s : State) : State :=
  let cl := (blockD s id).cluster
  modCluster cl (fun c =>
    let others := c.queues.filter (fun q => q.2.owner != id)
    { c with
      queues := (img.mqueues.filter (fun q => (aget others q.1).isNone)).foldl (fun l q => aset l q.1 q.2) others
      binds := c.binds.filter (fun x => x.block != id) ++ img.binds
      slots := c.slots.filter (fun x => x.2.owner != id || img.owned.1.contains x.1)
      accs := c.accs.filter (fun x => x.2.owner != id || img.owned.2.contains x.1) }) s

/-- R313: the next invocation of each handle is forced. -/
def forceHandles (id : BlockId) (hs : List Nat) (s : State) : State :=
  hs.foldl (fun t h => setHandle id h (setBits (handleRec t id h) 1 1 1) t) s

/-- R162, R414: the frame of an evicted warp holds its registers as they were at the checkpoint. -/
def rewriteEvicted (id : BlockId) (s : State) : State :=
  let b := blockD s id
  match b.frame with
  | none => s
  | some f =>
    let base := frameAddr s (launchD s id.lid).ctx.toNat f
    (b.warps.zipIdx.filter (fun x => x.1.evicted)).foldl (fun t x =>
      writePieces (warpImage (base + 0x20000) (base + 0x30000) x.2 x.1) t) s

/-- R414: the block rolls back to its newest complete checkpoint. -/
def rollback (id : BlockId) (pa : Nat) (img : Checkpoint) (s : State) : State :=
  let b := blockD s id
  let s1 := applyUndo id b.rb.undoPrev (applyUndo id b.rb.undo s)
  let s2 := modCore b.core (fun k => { k with atoms := k.atoms.filter (fun a => a.owner != some id) }) (rollQueues id img s1)
  let s3 := forceHandles id ((b.rb.undo.handles ++ b.rb.undoPrev.handles).foldl insertNat []) s2
  let s4 := modBlock id (fun x => { x with
    warps := x.warps.zipIdx.map (fun c => match img.warps[c.2]? with
      | some i => i.rollTo s.clock c.1
      | none => c.1)
    wregs := img.wregs, rdvs := img.rdvs.map (unsuspend img.warps), copyQ := img.copyQ, nm := img.nm, walks := img.walks
    draining := img.draining
    saving := x.saving.map (fun y => { y with stage := 0 })
    rb := { x.rb with undo := Undo.blank, undoPrev := Undo.blank, tent := [], tentPrev := [], capture := none,
                      want := false, count := x.rb.count + 1 } }) s3
  let s5 := (List.range b.warps.length).foldl (fun t w => relAdvance id w t) s4
  postRecord 0x86 (leBytes 8 id.lid.toNat ++ leBytes 8 id.blk ++ leBytes 8 pa)
    (rewriteEvicted id { s5 with rollbacks := s5.rollbacks + 1 })

/-- R415: the record of a block that is killed instead of rolling back a fourth time. -/
def killRecord (w : Warp) (d : DueError) : BitVec 256 :=
  trapRecord { lanes := w.live, pc := (w.lowPc).getD 0, next := none, iw := d.iw, ew := d.ew, cause := 0x0A, sub := 0,
               aux := 0, addr := d.addr }

/-- R414, R415: an error is consumed in a rollback-capable block. -/
def consumeError (w : WarpId) (d : DueError) (s : State) : State :=
  let b := blockD s w.block
  match b.rb.newest with
  | some img =>
    if b.rb.count < 3 then rollback w.block d.addr img s
    else killBlock w.block (killRecord (warpD s w.block w.warp) d) { s with kills := s.kills + 1 }
  | none => killBlock w.block (killRecord (warpD s w.block w.warp) d) { s with kills := s.kills + 1 }

def execDataErrorConsumed (w : WarpId) (s : State) :=
  event (fun t =>
    if (launchD t w.block.lid).rb then
      match (warpD t w.block w.warp).due.find? (·.rollback) with
      | some d => if (getBlock t w.block).any (fun b => b.resident) then consumeError w d t else t
      | none => t
    else takeFirst w (fun d => d.cause == 0x0A) t) s

end Sys2Proof.Machine
end

