-- ==== Sys2Proof/Machine/Compare.lean ====
section
/-!
DEFINITION. Machine/Compare.lean: comparison, selection and predicate P-words (R121 to R124).
-/
namespace Sys2Proof.Machine

def execIcmp (h : Hdr) (cc : Cc) (t : IntTy) (p : BitVec 3) (a : ASrc) (b : BSrc) (s : State) :=
  laneWord (.icmp h cc t p a b) h (fun e l wp => wp.setPred p l (ccHolds cc (intA e t a l) (intB e t b l))) s

def execFcmp (h : Hdr) (cc : FCc) (p : BitVec 3) (a : ASrc) (b : BSrc) (s : State) :=
  laneWord (.fcmp h cc p a b) h (fun e l wp =>
    wp.setPred p l (fccHolds cc (f32 (srcA32 e a l)) (f32 (f32B e b l)))) s

def execSel (h : Hdr) (w64 : Bool) (p : BitVec 3) (neg : Bool) (d : Name) (a : ASrc) (b : Name) (s : State) :=
  laneWord (.sel h w64 p neg d a b) h (fun e l =>
    setRaw w64 d l (if e.wp.pred p l != neg then rawA e w64 a l else rawA e w64 (.lane b) l)) s

/-- R124: the predicates p7 to p0 of a lane. -/
def predByte (wp : Warp) (l : Nat) : Nat :=
  (List.range 8).foldl (fun v i => if wp.pred (BitVec.ofNat 3 i) l then v + 2 ^ i else v) 0

def bit1 (b : Bool) : Nat := if b then 1 else 0

def execPlop (h : Hdr) (f : Plop) (s : State) :=
  laneWord (.plop h f) h (fun e l wp =>
    match f with
    | .lut d a b c lut =>
      wp.setPred d l (lut.getLsbD (bit1 (e.wp.pred a l) * 4 + bit1 (e.wp.pred b l) * 2 + bit1 (e.wp.pred c l)))
    | .toReg d => wp.setReg d l (BitVec.ofNat 32 (predByte e.wp l))
    | .fromReg a mask =>
      (List.range 7).foldl (fun x i =>
        if mask.getLsbD i then x.setPred (BitVec.ofNat 3 i) l ((srcA32 e a l).getLsbD i) else x) wp) s

end Sys2Proof.Machine
end

