-- ==== Sys2Proof/Machine/Saves.lean ====
section
/-!
DEFINITION. Machine/Saves.lean: saving a block to its frame, bringing it back, swapping it out, and the block scheduler
(R252 to R254, R294, R386, R399, R401, R402, R404 to R407).
-/
namespace Sys2Proof.Machine

/-! ### The save (R401) -/

/-- R401 step 1: transactions of warps that have stopped abort; in a deterministic launch the save waits for them. -/
def stopOpen (id : BlockId) (s : State) : State :=
  let l := launchD s id.lid
  modBlock id (fun b => { b with warps := b.warps.map (fun wp => if mayRun l b wp then wp else wp.abortOpen l.det) }) s

/-- R401 steps 1 and 2, R402: the warp has stopped and has nothing to wait for. -/
def warpSaved (l : Launch) (b : Block) (wp : Warp) : Bool :=
  wp.ended || (!mayRun l b wp && wp.awaited.isEmpty && wp.unack.isEmpty && wp.trapping.isNone && wp.tx.isNone
    && wp.outs.all (fun o => !isRed o.instr || wp.det.any (fun d => d.out.id == o.id))
    && (match wp.rel with | none => true | some r => r.holds && r.phase != .acks && r.phase != .store && r.phase != .publish && r.phase != .remote))

/-- R364, R373: the Spur command in execution and every walk have completed. -/
def spurSaved (b : Block) : Bool :=
  b.walks.isEmpty && b.nm.cmds.all (fun c => c.stage == .start || b.nm.state == .error)

/-- R312: no MMAD of the block is in execution. -/
def mmadSaved (s : State) (b : Block) : Bool :=
  (blockQueues s b).all (fun q => q.2.cmds.all (fun c => c.kind != .mmad || c.stage == .start || q.2.state == .error))

/-- R254, R401: every RING whose single execution has begun has completed; they are the commands of copy queue 16. -/
def ringSaved (b : Block) : Bool := (copyQ b 16).cmds.isEmpty || (copyQ b 16).state == .error

/-- R401 steps 1 to 3. -/
def readyToSave (s : State) (b : Block) : Bool :=
  b.resident && b.saving.isSome && b.warps.all (warpSaved (launchD s b.id.lid) b) && ringSaved b && spurSaved b && mmadSaved s b
    && !b.warps.any (fun wp => wp.due.any (·.rollback) && (launchD s b.id.lid).rb)

/-- R401 step 4, R411: the checkpoint that the release of a rollback-capable block completes first: whether it is. -/
def saveCheckpoint (id : BlockId) (acc : Bool × State) : Bool × State :=
  let b := blockD acc.2 id
  if !(launchD acc.2 id.lid).rb then acc else
  match b.saving.map (·.stage) with
  | some 0 => (false, modBlock id (fun x => { x with
      saving := x.saving.map (fun y => { y with stage := 1 }), rb := { x.rb with want := true } }) acc.2)
  | some 3 => acc
  | _ => (false, acc.2)

/-- R401 step 4: the device-scope release of the block. -/
def saveRelease (acc : Bool × State) (id : BlockId) : Bool × State :=
  if !acc.1 then acc else
  let r := agentRelease id .dv [] acc.2
  (r.2, r.1)

/-- R375, R405: the frames that blocks take: the attached one, or the lowest free. -/
def framesFor (s : State) : List BlockId → Option (List (BlockId × Nat))
  | [] => some []
  | id :: t =>
    let ctx := (launchD s id.lid).ctx.toNat
    match (match (blockD s id).frame with | some f => some f | none => freeFrameOf s ctx) with
    | none => none
    | some f => (framesFor (setFrame ctx f 1 s) t).map (fun l => (id, f) :: l)

/-- R253: a live staging record covers a byte of the scratchpad. -/
def staged (b : Block) (off n : Nat) : Bool := b.staging.any (fun x => x.covers off n)

/-- R253: the scratchpad bytes that no live staging record covers. -/
def unstaged (b : Block) : Sparse 8 := b.scratch.filter (fun c => !staged b c.1 1)

/-- R253, R404: the scratchpad as pieces of a frame, 128 bytes each, but for the bytes that a live staging record covers. -/
def scratchPieces (base size : Nat) (b : Block) : List (Nat × List (BitVec 8)) :=
  (List.range ((size + 127) / 128)).flatMap (fun k =>
    let n := min 128 (size - 128 * k)
    if !staged b (128 * k) n then [(base + 128 * k, sbytes b.scratch (128 * k) n)]
    else ((List.range n).filter (fun i => !staged b (128 * k + i) 1)).map (fun i =>
      (base + 128 * k + i, sbytes b.scratch (128 * k + i) 1)))

/-- R294, R404: the Massif sections of a frame. -/
def massifPieces (base : Nat) (b : Block) : List (Nat × List (BitVec 8)) :=
  (b.massif.filter (fun x => x.stage.isNone)).flatMap (fun x =>
    [(base + 0x400000 + 8192 * x.num, sbytes x.data 0 8192), (base + 0x500000 + 512 * x.num, sbytes x.side 0 512)])
  ++ b.maccs.map (fun a => (base + 0x600000 + 131072 * a.1,
      (List.range 32768).flatMap (fun i => leBytes 4 (sget a.2 i).toNat)))

/-- The block takes its Massif state with it and gives up its core (R294, R401 step 6); the tenant switch writes back and
drops the Cornice lines of its context (R312, step 5). -/
def detach (id : BlockId) (s0 : State) : State :=
  let cl := (blockD s0 id).cluster
  let s := corniceFlush cl (fun x => x.ctx == launchKey (launchD s0 id.lid)) s0
  let b := blockD s id
  let c := clusterD s cl
  let current := ((coreD s b.core).current.filter (fun x => x.2.block == id)).map (fun x => x.2.warp)
  let s1 := modBlock id (fun x => { x with
    massif := (c.slots.filter (fun y => y.2.owner == id)).map (fun y => slotImage y.1 y.2)
    maccs := (c.accs.filter (fun y => y.2.owner == id)).map (fun y => (y.1, y.2.data))
    mqueues := c.queues.filter (fun y => y.2.owner == id)
    current := current, scratch := unstaged b
    warps := b.warps.map (fun wp => ({ wp.pauseSleeps s.clock with rel := none } : Warp)) }) s
  let s2 := modCluster cl (fun k => { k with
    slots := k.slots.filter (fun y => y.2.owner != id), accs := k.accs.filter (fun y => y.2.owner != id)
    queues := k.queues.filter (fun y => y.2.owner != id) }) s1
  modCore b.core (fun k => { k with
    atoms := k.atoms.filter (fun a => a.owner != some id)
    current := k.current.filter (fun x => x.2.block != id) }) s2

/-- What stands in the frame alone while the block is saved. -/
def Block.emptied (b : Block) : Block :=
  { b with
    warps := b.warps.map (fun wp => { wp with regs := [] }), wregs := [], scratch := []
    massif := b.massif.map (fun x => { x with data := [], side := [] })
    maccs := b.maccs.map (fun a => (a.1, [])) }

/-- R404: the sections of a saved block's frame that the spec lays out no further: queues and staging records, warp control,
and the entries of the deterministic buffer; only what the block uses. -/
def openSections (base : Nat) (b : Block) : List (Nat × Nat) :=
  (if b.copyQ.isEmpty && b.mqueues.isEmpty && b.staging.isEmpty && b.nm.issued == 0 then [] else [(base + 0x40, 0xFFC0)])
    ++ controlPieces (base + 0x10000) b.warps
    ++ (if b.warps.all (fun wp => wp.det.isEmpty) then [] else [(base + 0x160000, 0x20000)])

/-- R401 steps 5 and 6: the block's state goes to frame `f` and its resources are free; PREEMPT holds it (R400). -/
def writeBlock (s0 : State) (x : BlockId × Nat) : State :=
  let id := x.1
  let f := x.2
  let s := detach id s0
  let l := launchD s id.lid
  let why := (blockD s id).saving.map (·.why)
  let kind := if why = some .swap || why = some .evict then 2 else 1
  let s1 := modBlock id (fun b => { b with frame := some f, saved := true, requeued := why = some .evict })
    (if why = some .hold then modLaunch id.lid (fun x => { x with heldBlks := insertNat x.heldBlks id.blk }) s else s)
  let b := blockD s1 id
  let base := frameAddr s1 l.ctx.toNat f
  let s2 := writePieces (regImage l (base + 0x20000) (base + 0x30000) (base + 0xA0000) b.warps b.wregs
    ++ scratchPieces (base + 0x120000) l.scratch b ++ massifPieces base b) s1
  modBlock id Block.emptied (writeHeader id f kind (writeOpen (openSections base b) s2))

/-- R400, R401: without a frame a block stays resident; an eviction waits for one (R162). -/
def noFrame (ids : List BlockId) (s : State) : State :=
  { s with blocks := s.blocks.map (fun b =>
      if ids.contains b.id && !savedFor b .evict then { b with saving := none } else b) }

/-- R401: the save of a block, with its band. -/
def saveUnit (id : BlockId) (s0 : State) : State :=
  let ids := (unitOf s0 id).filter (fun x => (blockD s0 x).saving.isSome)
  let s := ids.foldl (fun t x => stopOpen x t) s0
  if !ids.all (fun x => readyToSave s (blockD s x)) then s else
  match framesFor s ids with
  | none => noFrame ids s
  | some l =>
  let c := ids.foldl (fun acc x => let r := saveCheckpoint x (true, acc.2); (acc.1 && r.1, r.2)) (true, s)
  if !c.1 then c.2 else
  let r := ids.foldl saveRelease (true, c.2)
  if !r.1 then r.2 else l.foldl writeBlock r.2

def execBlockSave (b : BlockId) (s : State) :=
  event (fun t => if (getBlock t b).any (fun x => x.resident && x.saving.isSome) then saveUnit b t else t) s

/-! ### The restore (R407) -/

/-- What a refetch of a piece as of an epoch reads; what a page that is not of kind log holds now. -/
def refetchPiece (id : BlockId) (e : Nat) (p : Piece × Place) (s : State) : List (BitVec 8) × State :=
  match p.2 with
  | .log .. => let r := snapLoad p.2 p.1.n e s; (r.1, r.2.2)
  | _ => let r := agentLoad id p.2 p.1.n s; (r.1, r.2.2)

/-- How a refetch ends. -/
inductive Refetch where
  | done (s : State)
  | fault (va cls : Nat)

def Refetch.bind (r : Refetch) (f : State → Refetch) : Refetch :=
  match r with | .done s => f s | .fault va cls => .fault va cls

/-- R253: pieces are read as of the epoch and put by `put`; a fault for the fault queue waits, another leaves the bytes
open (log entry 9, DESIGN CHOICE). -/
def refetchPieces (id : BlockId) (e : Nat) (ps : List Piece) (put : Nat → List (BitVec 8) → State → State) (s : State) : Refetch :=
  match placePieces id .load ps s with
  | .ok (l, t) => .done (l.foldl (fun u x => let r := refetchPiece id e x u; put x.1.so r.1 r.2) t)
  | .error (cls, va) =>
    if servedFault s id cls then .fault va cls
    else .done (ps.foldl (fun u p =>
      put p.so (lineBytes (Config.freeLine u.draws) 0 p.n) { u with draws := u.draws + 1 }) s)

def rawScratch (id : BlockId) (off : Nat) (bs : List (BitVec 8)) (s : State) : State :=
  modBlock id (fun b => { b with scratch := sputBytes b.scratch off bs }) s

/-- R253, R239: the region of a scratchpad staging record, row after row. -/
def refetchStaging (id : BlockId) (x : Staging) (s : State) : Refetch :=
  let d := x.desc.toNat
  (copyRuns d 0 (cdLen d)).foldl (fun (o : Refetch) r => o.bind (fun t =>
    if r.row < x.v then refetchPieces id x.epoch (runPieces [r]) (rawScratch id) t
    else .done (if cdZF d then rawScratch id r.so (List.replicate r.n 0) t else t))) (.done s)

/-- R294: the contents of a staged slot. -/
def refetchSlot (id : BlockId) (cl : Nat) (k : Nat) (x : BitVec 512 × Nat × Nat) (s : State) : Refetch :=
  let c := newMCmd .load x.1.toNat x.2.1 noOrd id 0 0
  let mine (r : MRun) : Bool := r.row / 128 + mlSlot x.1.toNat == k
  let (live, dead) := ((c.runs 0 c.total).filter mine).partition (fun r => decide (r.row < x.2.1))
  refetchPieces id x.2.2 (c.pieces live) (putPayload cl c) (putDead cl c dead s)

/-- R253, R294: every staged region of the block. -/
def refetchAll (id : BlockId) (s : State) : Refetch :=
  let b := blockD s id
  let r := b.staging.foldl (fun (o : Refetch) x => o.bind (refetchStaging id x)) (.done s)
  (clusterD s b.cluster).slots.foldl (fun (o : Refetch) x =>
    match x.2.stage with
    | some y => if x.2.owner = id then o.bind (refetchSlot id b.cluster x.1 y) else o
    | none => o) r

/-- R404: the registers, scratchpad and Massif contents that the frame holds. -/
def readBlock (s : State) (l : Launch) (base : Nat) (b : Block) : Block :=
  let bytes (pa n : Nat) : Sparse 8 := sputBytes [] 0 (readBytes s pa n)
  { b with
    warps := b.warps.zipIdx.map (fun x =>
      if x.1.ended then x.1 else readWarp s (base + 0x20000) (base + 0x30000) x.2 x.1)
    wregs := l.groups.foldl (fun m g => (List.range 512).foldl (fun m i =>
      sset m (g.1 * 512 + i) (BitVec.ofNat 32 (readNat s (base + 0xA0000 + 2048 * g.1 + 4 * i) 4))) m) []
    scratch := (bytes (base + 0x120000) l.scratch).filter (fun c => !staged b c.1 1)
    massif := b.massif.map (fun x => if x.stage.isSome then x else
      { x with data := bytes (base + 0x400000 + 8192 * x.num) 8192, side := bytes (base + 0x500000 + 512 * x.num) 512 })
    maccs := b.maccs.map (fun a => (a.1, (List.range 32768).foldl (fun m i =>
      sset m i (BitVec.ofNat 32 (readNat s (base + 0x600000 + 131072 * a.1 + 4 * i) 4))) [])) }

/-- R407 steps 1 and 2: the block is placed on a core with the state of its frame. -/
def placeBlock (id : BlockId) (core : Nat) (s : State) : State :=
  let l := launchD s id.lid
  let b0 := blockD s id
  let base := frameAddr s l.ctx.toNat (b0.frame.getD 0)
  let b := readBlock s l base b0
  let live := b.warps.zipIdx.filter (fun x => !x.1.ended)
  let free := freeSlots s core
  let slotOf (w : Nat) : Nat := (free[live.findIdx (fun x => x.2 == w)]?).getD 0
  let warps := b.warps.zipIdx.map (fun x =>
    let w1 := if x.1.ended then x.1 else { x.1 with slot := slotOf x.2, order := s.nextOrder + x.2 }
    (w1.thaw s.clock).unparkAll.meetings)
  let cl := core / 8
  let slots := b.massif.map (fun x =>
    (x.num, ({ owner := id, tag := x.tag, sref := x.sref, data := x.data, side := x.side, stage := x.stage } : MSlot)))
  let ordered (c : Cluster) : List (Nat × MQueue) :=
    b.mqueues.map (fun q => (q.1, { q.2 with
      held := q.2.held + c.nextOrder, cmds := q.2.cmds.map (fun y => { y with order := y.order + c.nextOrder }) }))
  let top := (b.mqueues.flatMap (fun q => q.2.cmds.map (·.order))).foldl max 0
  let s1 := modBlock id (fun _ => { b with
    core := core, warps := warps, rdvs := b.rdvs.map (unsuspend b.warps)
    saved := false, requeued := false, saving := none, massif := [], maccs := [], mqueues := [], current := [] })
    (nominalFor l core { s with nextOrder := s.nextOrder + b.warps.length })
  let s2 := modCluster cl (fun c => { c with
    slots := slots.foldl (fun m x => aset m x.1 x.2) c.slots
    accs := b.maccs.foldl (fun m x => aset m x.1 { owner := id, data := x.2 }) c.accs
    queues := (ordered c).foldl (fun m x => aset m x.1 x.2) c.queues
    nextOrder := c.nextOrder + top + 1 }) s1
  let s3 := modCore core (fun k => { k with l1 := [] }) s2
  b0.current.foldl (fun t w =>
    modCore core (fun k => { k with current := aset k.current (schedKey l.lid (slotOf w)) { block := id, warp := w } }) t) s3

/-- R407 step 4: every warp acquires at device scope before its first word. -/
def acquireAll (id : BlockId) (s : State) : State :=
  (List.range (blockD s id).warps.length).foldl (fun t w => acquireNow id w .dv t) s

/-- R405: the frame is free again, but for one that stays attached. -/
def leaveFrame (id : BlockId) (s : State) : State :=
  let l := launchD s id.lid
  let b := blockD s id
  match b.frame with
  | none => s
  | some f =>
    if l.rb || b.warps.any (·.evicted) then writeHeader id f 3 s
    else freeFrame l.ctx.toNat f (modBlock id (fun x => { x with frame := none }) s)

/-- R253, R397: the block waits for the fault of its refetch before it is restored. -/
def awaitRefetch (id : BlockId) (va cls : Nat) (s : State) : State :=
  let r := engineFault id va cls 3 false s
  modWarp id 0 (fun wp => { wp with parks := wp.parks ++
    [{ lane := 34, token := r.1, va := va, cls := cls, store := false, since := s.clock }] }) r.2

/-- R407: a restore on a core; the block of a refetch that must wait stays saved. -/
def restoreOn (id : BlockId) (core : Nat) (s : State) : Except (BlockId × Nat × Nat) State :=
  match refetchAll id (placeBlock id core s) with
  | .fault va cls => .error (id, va, cls)
  | .done t => .ok (leaveFrame id (acquireAll id t))

/-- A saved block may be restored: requeued, its launch and context not held, no refetch of it waiting. -/
def mayRestore (s : State) (b : Block) : Bool :=
  let l := launchD s b.id.lid
  b.saved && b.requeued && !l.held && !l.heldBlks.contains b.id.blk && (l.super || !ctxHold s l.ctx.toNat)
    && !b.warps.any (fun wp => wp.parks.any (fun p => p.lane == 34 && s.faults.any (fun f => some f.token == p.token)))

/-- The saved blocks that come back together with a block (R399): its band's, or itself. -/
def savedUnit (s : State) (id : BlockId) : List BlockId :=
  if (launchD s id.lid).band then
    (s.blocks.filter (fun b => b.saved && b.id.lid == id.lid && b.id.blk / 8 == id.blk / 8)).map (·.id)
  else [id]

/-- R386, R387: the cores for a saved block, or for its band. -/
def restorePlaces (s : State) (id : BlockId) : Option (List (BlockId × Nat)) :=
  let ids := savedUnit s id
  if !ids.all (fun x => mayRestore s (blockD s x)) then none
  else if (launchD s id.lid).band then
    ((List.range 20).find? (fun c => ids.all (fun x => fitsSaved s (blockD s x) (c * 8 + x.blk % 8)))).map (fun c =>
      ids.map (fun x => (x, c * 8 + x.blk % 8)))
  else (bestCore s (fitsSaved s (blockD s id))).map (fun c => [(id, c)])

/-- Restores a block with its band; none when it does not fit or may not come back. -/
def restoreUnit (id : BlockId) (s : State) : Option State :=
  (restorePlaces s id).map (fun l =>
    match l.foldl (fun (o : Except (BlockId × Nat × Nat) State) x => match o with
      | .ok t => restoreOn x.1 x.2 t
      | .error e => .error e) (.ok s) with
    | .ok t => t
    | .error (x, va, cls) => awaitRefetch x va cls s)

def execBlockRestore (b : BlockId) (s : State) :=
  event (fun t => if (getBlock t b).any (fun x => x.saved) then (restoreUnit b t).getD t else t) s

/-- R386: saved blocks that are requeued come ahead of unstarted ones. -/
def restoreAny (s : State) : Option State :=
  s.launches.findSome? (fun l => (s.blocks.filter (fun b => b.saved && b.id.lid == l.lid)).findSome? (fun b => restoreUnit b.id s))

def execBlockStart (s : State) :=
  event (fun t => match restoreAny t with
    | some u => u
    | none => (startAny t).getD t) s

/-! ### Swapping out (R399) -/

/-- Whether some word of the warp could issue now or once its results are in. -/
def warpCanIssue (l : Launch) (b : Block) (wp : Warp) : Bool :=
  !wp.ended && !wp.evicted && !wp.stopped && wp.frozenBy.isEmpty && wp.grow.isNone && (wp.group.isSome || wp.trapping.isSome)
    && mayRun l b wp

/-- R399: the two events. -/
def swapDue (s : State) (b : Block) : Bool :=
  let l := launchD s b.id.lid
  let stuck := !b.warps.any (warpCanIssue l b) && !(unservedOf s b).isEmpty
  let old (since : Nat) : Bool := decide (since + s.csr.swaptmo.toNat ≤ s.clock)
  let long := b.warps.any (fun wp => wp.parks.any (fun p => old p.since && s.faults.any (fun f => some f.token == p.token)))
  stuck || long

/-- R399: a free frame for each block that has none attached. -/
def framesThere (s : State) (ids : List BlockId) : Bool := (framesFor s ids).isSome

def execSwapOut (b : BlockId) (s : State) :=
  event (fun t => match getBlock t b with
    | some x =>
      if x.resident && x.saving.isNone && !(launchD t b.lid).super && swapDue t x && framesThere t (unitOf t b)
      then beginSave .swap (unitOf t b) t else t
    | none => t) s

/-- R399: swapped blocks are requeued once none of their faults is unserved, a band as a unit. -/
def requeueServed (s : State) : State :=
  { s with blocks := s.blocks.map (fun b =>
      if b.saved && savedFor b .swap && !b.requeued &&
          (savedUnit s b.id).all (fun x => (unservedOf s (blockD s x)).isEmpty)
      then { b with requeued := true } else b) }

end Sys2Proof.Machine
end

