-- ==== Sys2Proof/Machine/Device.lean ====
section
/-!
DEFINITION. Machine/Device.lean: reset and bring-up, the host link, SPDM, the fabric, collectives, reliability, power
(R420 to R444).
-/
namespace Sys2Proof.Machine

/-! ### Reset and bring-up (R424, R425, R428, R441) -/

/-- R425: an image's digest and whether its signature is good. -/
def imageDigest (x : FlashImage) : List (BitVec 8) := leBytes 64 (Config.shake512 x.data).toNat

def imageOk (x : FlashImage) : Bool := Config.mldsaVerify x.data x.sig

/-- R9, R424, R425: the signature of the configuration blob is good (log entry 91, DEDUCED: it is checked as an image's is). -/
def blobOk (b : Blob) : Bool := Config.mldsaVerify b.data b.sig

/-- R424, R425: the boot ROM measures itself, the configuration blob and each image, whether or not its check passes. -/
def measureImages (s : State) : State :=
  s.flash.images.foldl (fun t x => extendMeas x.reg (imageDigest x) t)
    (extendMeas 0 (leBytes 64 (Config.shake512 s.blob.data).toNat) (extendMeas 0 (leBytes 64 Config.romDigest.toNat) s))

/-- R441: an entry that authenticates; the device's own entries do. -/
def entryAuthentic (x : RetireEntry) : Bool := x.bytes.isEmpty || Config.kmacOk x.bytes

/-- The digest that extends register 5; that of an entry whose bytes the spec does not give is free (log entry 9, DESIGN CHOICE). -/
def entryDigest (s : State) (x : RetireEntry) : List (BitVec 8) :=
  if x.bytes.isEmpty then lineBytes (Config.freeLine s.draws) 0 64 else leBytes 64 (Config.shake512 x.bytes).toNat

/-- R441: the cores withheld for a lane group or an engine that no spare replaces. -/
def coresOf : EvUnit → List Nat
  | .laneGroup n => [n / 16]
  | .engine n => if n < 160 then [n] else (List.range 8).map (fun i => (n - 160) * 8 + i)
  | _ => []

def isPipe : EvUnit → Bool
  | .laneGroup _ | .engine _ => true
  | _ => false

/-- R431, R441: a lane is dropped. -/
def dropLane (p l : Nat) (s : State) : State :=
  { s with ports := aset s.ports p { portD s p with dropped := (portD s p).dropped ||| (1#8 <<< l) } }

/-- R441: one authenticated retirement entry is applied: the harvest map binds the next spare to a lane group or an engine, or,
with none left, its cores are withheld. -/
def applyEntry (s : State) (x : RetireEntry) : State :=
  let s1 := extendMeas 5 (entryDigest s x) { s with draws := s.draws + 1 }
  let known := s.retired.contains x.unit
  let pipes := (s.retired.filter isPipe).length
  let none' := decide (s.blob.spares ≤ pipes)
  let s2 := if known then s1 else { s1 with
    retired := s.retired ++ [x.unit]
    harvest := if isPipe x.unit && !none' then s.harvest ++ [(x.unit, pipes)] else s.harvest
    withheld := if isPipe x.unit && none' then (coresOf x.unit).foldl insertNat s.withheld else s.withheld }
  match x.unit with
  | .lane p l => dropLane p l s2
  | _ => s2

def applyRetirement (s : State) : State := (s.flash.retire.filter entryAuthentic).foldl applyEntry s

/-- R442: powered hours, 3,600 seconds of the reference count each. -/
def poweredHours (s : State) : Nat := s.hours + s.clock / (1850000000 * 3600)

/-- R320: a reset closes every open segment; one that was being cleaned or retired is closed again. -/
def closeAll (s : State) : State :=
  let s1 := s.segs.foldl (fun t g => closeSeg g.1 t) s
  { s1 with segs := s1.segs.map (fun g => (g.1, { g.2 with phase := .closed })) }

/-- What a reset leaves: fixed memory, the log's segments, package flash, and what the outside world has seen; mailbox
rows hold zero (R354, R440). -/
def afterReset (s0 : State) : State :=
  let s := closeAll s0
  { State.reset with
    mem := s.mem.filter (fun c => !isRow c.1), keyOf := s.keyOf.filter (fun c => !isRow (c.1 * 32)),
    bad := s.bad.filter (fun k => !isRow (k * 32)), segs := s.segs, segSeq := s.segSeq, lastSeg := s.lastSeg,
    blob := s.blob, harvest := s.blob.harvest, flash := s.flash, totals := s.totals, resets := s.resets + 1, hours := poweredHours s, out := s.out,
    inputs := s.inputs, draws := s.draws, badPhys := s.badPhys }

def execDeviceReset (s : State) := finish (applyRetirement (measureImages (afterReset s)))

/-- Memory from `lo` up is written to zero. -/
def zeroMem (lo n : Nat) (s : State) : State :=
  { s with mem := s.mem.filter (fun c => c.1 < lo || lo + n ≤ c.1) }

/-- R389: the launch that bring-up makes from the signed blob; its blocks are never rolled back, whatever its header's RB
says. -/
def superLaunch (lid : BitVec 32) (x : Nat) : Launch := { newLaunch lid x 0 with super := true, rb := false }

/-- R375, R389, R409, R428: phase 1: context records zero, key slot 64 loaded, the supervisor in flight. -/
def enterPhase1 (s : State) : State :=
  let s1 := zeroMem s.csr.ctxbase.toNat 262144 { s with phase := 1, ctxs := [], keys := aset s.keys 64 Config.bootKey }
  match s.blob.super with
  | some x => { s1 with launches := s1.launches ++ [superLaunch s1.nextLid x.toNat], nextLid := lidAfter s1.nextLid }
  | none => s1

def execPhase1Entry (s : State) :=
  event (fun t => if t.phase = 0 && blobOk t.blob && t.flash.images.all imageOk then enterPhase1 t else t) s

/-- R431: the lane groups of a port, widest first, with their WIDTH. -/
def laneGroups : List (BitVec 8 × Nat) :=
  [(0xFF#8, 0), (0x0F#8, 1), (0xF0#8, 1), (0x03#8, 2), (0x0C#8, 2), (0x30#8, 2), (0xC0#8, 2)]

/-- R431: a port trains to the widest group without a dropped lane, or goes down. -/
def Port.train (p : Port) : Port :=
  match laneGroups.find? (fun g => g.1 &&& p.dropped == 0) with
  | some g => { p with state := 2, width := g.2, lanes := g.1 }
  | none => { p with state := 0, width := 0, lanes := 0 }

/-- Every release in progress goes on (R429). -/
def advanceAll (s : State) : State :=
  s.blocks.foldl (fun t (b : Block) =>
    if b.resident then (List.range b.warps.length).foldl (fun u w => relAdvance b.id w u) t else t) s

/-- R170, R428, R429: phase 2: the index is zero, the ports are up, held accesses go on. -/
def enterPhase2 (s : State) : State :=
  let s1 := zeroMem s.blob.ixbase (4 * s.blob.ixlines) { s with phase := 2, failed := { cls := 0, num := 0 } }
  advanceAll { s1 with ports := (List.range 18).map (fun p => (p, (portD s p).train)) }

def execPhase2Entry (fail : Option FailUnit) (s : State) :=
  event (fun t =>
    if t.phase ≠ 1 then t else
    match fail with
    | some u => { t with failed := u }
    | none => enterPhase2 t) s

/-! ### The host (R420, R421) -/

/-- R420, R421: where an access through a function's BAR falls; none completes with Unsupported Request. -/
def barAddr (s : State) (fn off n : Nat) : Option Nat :=
  if s.phase = 0 || 63 < fn || aget s.tdisp fn = some .error then none
  else if fn = 0 then (if off + n ≤ 0x400000 then some (s.blob.mbxbase + off) else none)
  else if off + n ≤ 0x10000 then some (s.blob.mbxbase + fn * 0x10000 + off) else none

def execBarAccess (fn off n : Nat) (write : Option (List (BitVec 8))) (s : State) :=
  event (fun t =>
    let len := match write with | some bs => bs.length | none => n
    match barAddr t fn off len, write with
    | none, _ => { t with out := t.out ++ [.unsupported fn] }
    | some pa, some bs => writeBytes t pa bs 0
    | some pa, none => { t with out := t.out ++ [.hostData (readBytes t pa n)] }) s

def sessionOpen (s : State) (n : Nat) : Bool := (aget s.sessions n).any (fun x => x.slot.isSome)

/-- R421: keys of IDE, in a session that has finished: of a Selective stream, which is bound to a function, or of the port's
Link IDE, which no function has (`vf` = 0). -/
def execIdeKm (stream vf session : Nat) (s : State) :=
  finish (
    if !sessionOpen s session then s
    else if vf = 0 then { s with linkIde := true }
    else if decide (stream < 64) && decide (vf ≤ 63) then { s with ides := aset s.ides stream vf } else s)

/-- R421: the interface of a virtual function moves among its states (the TDISP specification's, log entry 8, PRESUMED). -/
def tdispNext (bound : Bool) (x : Tdisp) (r : TdispReq) : Tdisp :=
  match r, x with
  | .lock, .unlocked => .locked
  | .start, .locked => if bound then .run else .locked
  | .stop, _ => .unlocked
  | .error, _ => .error
  | _, y => y

def execTdispMessage (vf : Nat) (req : TdispReq) (s : State) :=
  finish (if vf = 0 || 63 < vf then s else
    { s with tdisp := aset s.tdisp vf (tdispNext (s.ides.any (fun x => x.2 == vf)) ((aget s.tdisp vf).getD .unlocked) req) })

/-! ### SPDM (R426, R427) -/

def answer (bs : List (BitVec 8)) (s : State) : State := { s with out := s.out ++ [.doe bs] }

/-- A request whose answer depends on nothing of the machine's. -/
def spdmPlain (req : List (BitVec 8)) (s : State) : Host.Outcome State Fault Refusal :=
  finish (answer (Config.spdmAnswer req) s)

def execGetVersion (req : List (BitVec 8)) (s : State) := spdmPlain req s
def execGetCapabilities (req : List (BitVec 8)) (s : State) := spdmPlain req s
def execNegotiateAlgorithms (req : List (BitVec 8)) (s : State) := spdmPlain req s
def execGetDigests (req : List (BitVec 8)) (s : State) := spdmPlain req s
def execGetCertificate (req : List (BitVec 8)) (s : State) := spdmPlain req s

/-- R426: blocks 1 to 16, the measurement registers. -/
def measBytes (s : State) : List (BitVec 8) := (List.range 16).flatMap (fun i => leBytes 64 (sget s.meas i).toNat)

/-- A retired unit in block 17: a class byte and three bytes of number (log entry 61, DESIGN CHOICE). -/
def unitBytes : EvUnit → List (BitVec 8)
  | .laneGroup n => 1 :: leBytes 3 n
  | .engine n => 2 :: leBytes 3 n
  | .channel n => 3 :: leBytes 3 n
  | .lane p l => 4 :: leBytes 3 (p * 8 + l)
  | .port n => 5 :: leBytes 3 n

/-- R423, R426: what the evidence says, signed with the alias key. -/
def evidence (req : List (BitVec 8)) (s : State) : List (BitVec 8) :=
  let body := Config.spdmAnswer req ++ measBytes s ++ s.retired.flatMap unitBytes
  body ++ Config.aliasSign body

def execChallenge (req : List (BitVec 8)) (s : State) :=
  finish (answer (Config.spdmAnswer req ++ Config.aliasSign (req ++ measBytes s)) s)

def execGetMeasurements (req : List (BitVec 8)) (s : State) := finish (answer (evidence req s) s)

/-- R426: up to 64 sessions; sessions from phase 1 on (R428). -/
def execKeyExchange (req : List (BitVec 8)) (s : State) :=
  finish (match (List.range 64).find? (fun k => (aget s.sessions k).isNone) with
    | some k =>
      if s.phase = 0 then answer (Config.spdmAnswer req) s
      else answer (Config.spdmAnswer req)
        { s with sessions := aset s.sessions k { slot := none, secret := s.draws }, draws := s.draws + 1 }
    | none => answer (Config.spdmAnswer req) s)

/-- R426: the session is gone and its slot is zeroed. -/
def closeSession (n : Nat) (s : State) : State :=
  match aget s.sessions n with
  | some x => { s with
      sessions := adel s.sessions n
      keys := match x.slot with | some k => adel s.keys k | none => s.keys }
  | none => s

/-- R426: the lowest free session slot. -/
def freeSessionSlot (s : State) : Option Nat :=
  (List.range 64).find? (fun k => !s.sessions.any (fun x => x.2.slot == some k))

def finishSession (n : Nat) (x : Session) (req : List (BitVec 8)) (s : State) : State :=
  if !Config.spdmAccept x.secret req then closeSession n s
  else match x.slot, freeSessionSlot s with
    | none, some k => answer (Config.spdmAnswer req)
        { s with sessions := aset s.sessions n { x with slot := some k }, keys := aset s.keys k (Config.sessionKey x.secret req) }
    | _, _ => closeSession n s

def execFinish (session : Nat) (req : List (BitVec 8)) (s : State) :=
  finish (match aget s.sessions session with
    | some x => finishSession session x req s
    | none => s)

/-- R427: the slot takes its new contents whole, between two words. -/
def execKeyUpdate (session : Nat) (req : List (BitVec 8)) (s : State) :=
  finish (match aget s.sessions session with
    | some x =>
      if !Config.spdmAccept x.secret req then closeSession session s
      else match x.slot with
        | some k => answer (Config.spdmAnswer req) { s with keys := aset s.keys k (Config.sessionKey x.secret req) }
        | none => closeSession session s
    | none => s)

def execHeartbeat (session : Nat) (s : State) :=
  finish (if (aget s.sessions session).isSome then answer (Config.spdmAnswer []) s else s)

def execEndSession (session : Nat) (s : State) := finish (closeSession session s)

def execHeartbeatLoss (session : Nat) (s : State) := finish (closeSession session s)

/-! ### Lifetime records (R442) -/

def unitNumber : EvUnit → Nat
  | .channel n | .laneGroup n | .engine n | .port n => n
  | .lane p l => p * 8 + l

/-- R442: the contents of a record; the temperature and power histograms are readings of sensors (log entry 9, DESIGN CHOICE). -/
def lifetimeRecord (s : State) : List Nat :=
  [poweredHours s, s.resets] ++ (List.range 32).map (fun i => (Config.free64 (s.draws + i)).toNat)
    ++ s.totals.flatMap (fun c => [evIndex c.1, unitNumber c.2.1, c.2.2])
    ++ (List.range 18).map (fun p => (portD s p).dropped.toNat)
    ++ [s.rollbacks.toNat, s.kills.toNat] ++ s.flash.retire.map (fun x => unitNumber x.unit)

def execLifetimeRecordRead (s : State) := finish { s with out := s.out ++ [.lifetime s.flash.lifetime] }

def execLifetimeRecordWrite (s : State) :=
  finish { s with flash := { s.flash with lifetime := s.flash.lifetime ++ [lifetimeRecord s] }, draws := s.draws + 32 }

/-! ### Ridgeline (R431) -/

def modPort (p : Nat) (f : Port → Port) (s : State) : State :=
  if p < 18 then { s with ports := aset s.ports p (f (portD s p)) } else s

/-- R431: the hop resends from the first unacknowledged flit. -/
def resend (port : Nat) (s : State) : State :=
  let p := portD s port
  if p.state ≠ 2 || p.unacked.isEmpty then s
  else modPort port (fun x => { x with replays := x.replays + BitVec.ofNat 32 x.unacked.length })
    { s with out := s.out ++ [.replay port p.unacked] }

def execNakReplay (port : Nat) (s : State) := event (resend port) s

def execAckTimeoutReplay (port : Nat) (s : State) := event (resend port) s

/-- R431: a lane marked lasting that is in use is dropped, and the port trains again. -/
def execLaneDrop (port lane : Nat) (s : State) :=
  event (fun t =>
    let p := portD t port
    if p.dropped.getLsbD lane && p.lanes.getLsbD lane && decide (lane < 8)
    then modPort port (fun x => { x with state := 1, lanes := 0 }) t else t) s

def execLaneDegradeRetrain (port : Nat) (s : State) :=
  event (fun t => if (portD t port).state = 1 then modPort port Port.train t else t) s

/-- R431: a flit arrives: acknowledged, or refused and counted against its lane; how many of the hop's own flits a good
one acknowledges is the peer's (log entry 9, DESIGN CHOICE). -/
def receiveFlit (port : Nat) (ok : Bool) (lane : Nat) (s : State) : State :=
  if (portD s port).state ≠ 2 then s
  else if ok then
    let n := (Config.free64 s.draws).toNat % ((portD s port).unacked.length + 1)
    modPort port (fun x => { x with unacked := x.unacked.drop n })
      { s with out := s.out ++ [.ack port], draws := s.draws + 1 }
  else countEvent .hopCrc (.lane port (lane % 8)) { s with out := s.out ++ [.nak port] }

def execFlitReceive (port : Nat) (crcOk : Bool) (lane : Nat) (s : State) := event (receiveFlit port crcOk lane) s

/-! ### Transactions of other devices (R193, R432, R433) -/

/-- R432: the plane of a line: H(n) mod 18, or the next above with its port up. -/
def planeOf (s : State) (n : Nat) : Nat :=
  let h := homeSliceOf n % 18
  (((List.range 18).map (fun i => (h + i) % 18)).find? (fun p => (portD s p).state == 2)).getD h

/-- R433: a transaction whose CRC fails is asked for again; the fourth failure is final. -/
def retryRemote (t : RemoteTx) (s : State) : State :=
  let key := t.src * 2 ^ 64 + t.seq
  let tries := (aget s.remoteTries key).getD 0 + 1
  let p := planeOf s (t.addr / 128)
  let s1 := countEvent .endToEnd (.port p) (modPort p (fun x => { x with e2e := x.e2e + 1 })
    { s with remoteTries := aset s.remoteTries key tries })
  if tries < 4 then { s1 with out := s1.out ++ [.retry t.src t.seq] }
  else { s1 with remoteSeen := s1.remoteSeen ++ [(t.src, t.seq)], out := s1.out ++ [.fabric t.src t.seq []] }

/-- The key slot of a line that a remote store or atomic meets: the one it stands under; one that nothing has written
takes a slot the spec does not give (log entry 9, DESIGN CHOICE). -/
def remoteKs (s : State) (c n : Nat) : Nat :=
  match (clusterD s c).pend.find? (fun p => p.line == n) with
  | some p => p.ks
  | none =>
    let v := installedLine s n
    if v.zero then (Config.free64 s.draws).toNat % 16384 else v.ks

/-- A remote place of fixed kind is its physical address above 2^60 (R195). -/
def remoteFixed (a : Nat) : Option Nat := if 2 ^ 60 ≤ a then some (a - 2 ^ 60) else none

def fixedKs (s : State) (pa : Nat) : Nat := (sget s.keyOf (pa / 32)).toNat

/-- How a transaction of another device ends: performed and answered; not performed for an uncorrectable error; or it waits,
unanswered, to be performed later. -/
inductive RemoteEnd where
  | answered (bs : List (BitVec 8)) (s : State)
  | failed (s : State)
  | waits (s : State)

/-- R193: a load is performed through the home device's index as a strong load; an uncorrectable sector answers with no
data. An entry that no reader may follow is fatal (R19). -/
def remoteLoad (a n : Nat) (s : State) : RemoteEnd :=
  match remoteFixed a with
  | some pa =>
    let (ok, s1) := adoptRow pa s
    let r := fixedFromHbm s1 pa (fixedKs s1 pa)
    .answered (if !ok || r.2 &&& sectorsHit (pa % 128) n ≠ 0 then [] else lineBytes r.1 (pa % 128) n) s1
  | none =>
    if !startOk s (a / 128) then .waits (fatalError 1 s) else
    let v := installedLine s (a / 128)
    let d := decryptLine s v v.ks
    if d.poison &&& sectorsHit (a % 128) n ≠ 0 then .answered [] s
    else .answered (lineBytes d.data (a % 128) n) (touchHome (a / 128) s)

/-- A store at the home device: made; in an uncorrectable sector; or stalled (R24). -/
def remoteMade (r : StoreEnd) : RemoteEnd :=
  match r with
  | .made t => .answered [] t
  | .error _ t => .failed t
  | .stall t => .waits t

/-- R193: a store becomes pending in the cluster of the issuing cluster's number. -/
def remoteStore (c a : Nat) (bs : List (BitVec 8)) (s : State) : RemoteEnd :=
  match remoteFixed a with
  | some pa => remoteMade (fixedStore (c * 8) pa true (fixedKs s pa) bs s)
  | none =>
    let n := a / 128
    if (aget s.homes n).isSome then
      .answered [] (bumpWatches [n] (touchHome n (writeHome n (bytesLine (a % 128) bs) (maskOf (a % 128) bs.length) s)))
    else remoteMade (pendStore (c * 8) n (remoteKs s c n) (a % 128) bs false { s with draws := s.draws + 1 })

/-- R198: an atomic at the home slice, or at the controller of an NC page: the old value, and the state. -/
def remoteAtomic (c a : Nat) (op : AtomOp) (ty : AtomTy) (b cmp : Nat) (s : State) : RemoteEnd :=
  let len := ty.regs * 4
  let f (old : Nat) : Nat := atomNew op ty old (b % 2 ^ (8 * len)) (cmp % 2 ^ (8 * len))
  match remoteFixed a with
  | some pa =>
    let (ok, s1) := adoptRow pa s
    let r := fixedFromHbm s1 pa (fixedKs s1 pa)
    if !ok || r.2 &&& sectorsHit (pa % 128) len ≠ 0 then .answered [] s1 else
    let old := leNat (lineBytes r.1 (pa % 128) len)
    .answered (leBytes len old) (fixedStore (c * 8) pa true (fixedKs s1 pa) (leBytes len (f old)) s1).state
  | none =>
    let n := a / 128
    let (homed, s1) := homeLine c n (remoteKs s c n) { s with draws := s.draws + 1 }
    match homed, aget s1.homes n with
    | true, some h =>
      let old := leNat (lineBytes h.data (a % 128) len)
      .answered (leBytes len old)
        (bumpWatches [n] (touchHome n (writeHome n (bytesLine (a % 128) (leBytes len (f old))) (maskOf (a % 128) len) s1)))
    | _, _ => .waits s1

/-- R193: the publish that a remote release asks for; it waits while the log is full. -/
def remotePublish (c : Nat) (s : State) : RemoteEnd :=
  let r := publishDone c s
  if r.2 then .answered [] r.1 else .waits r.1

/-- R432: a transaction is performed once and answered; one that must wait is performed when it can be. -/
def performRemote (t : RemoteTx) (s : State) : State :=
  let seen (o : Output) (u : State) : State :=
    { u with remoteSeen := u.remoteSeen ++ [(t.src, t.seq)], out := u.out ++ [o] }
  let r : RemoteEnd := match t.op with
    | .load n => remoteLoad t.addr n s
    | .store bs => remoteStore t.cluster t.addr bs s
    | .atomic op ty b cmp => remoteAtomic t.cluster t.addr op ty b.toNat cmp.toNat s
    | .publish => remotePublish t.cluster s
  match r with
  | .answered bs u => seen (.fabric t.src t.seq bs) u
  | .failed u => seen (.fabricError t.src t.seq) u
  | .waits u => u

def execRemoteTransactionArrive (x : RemoteTx) (s : State) :=
  event (fun t =>
    if t.phase ≠ 2 || t.remoteSeen.contains (x.src, x.seq) || 20 ≤ x.cluster then t
    else if x.crcOk then performRemote x t else retryRemote x t) s

/-! ### Collectives (R435 to R437) -/

def colFmt (d : Nat) : Nat := bitsOf d 164 160
def colTy (d : Nat) : Option Ty :=
  match colFmt d with
  | 0x10 => some .f32 | 0x12 => some .bf16 | 0x13 => some .e4m3 | 0x14 => some .e5m2 | _ => none

/-- R437: the statuses that the descriptor itself gives; 0: none. -/
def colStatus (s : State) (d : Nat) : Nat :=
  firstBad [(bitsOf d 255 166 ≠ 0 || bitsOf d 1023 576 ≠ 0 || bitsOf d 63 0 % 256 ≠ 0 || bitsOf d 127 64 % 256 ≠ 0
      || bitsOf d 575 512 % 8 ≠ 0 || bitsOf d 159 128 = 0 || 16777216 < bitsOf d 159 128 || (colTy d).isNone, 0xC1),
    (!d.testBit (256 + s.blob.device), 0xC3)]

/-- R437: element `i` of the sum over the members' vectors, in rising device number. -/
def colElement (t : Ty) (outf : Bool) (vs : List (List (BitVec 8))) (i : Nat) : List (BitVec 8) :=
  let w := t.width / 8
  let x (v : List (BitVec 8)) : BitVec 32 := encF32 .rne (decTy t (leNat ((v.drop (i * w)).take w)))
  let acc : BitVec 32 := match vs with
    | [] => 0
    | v :: rest => rest.foldl (fun a u => f32Add .rne a (x u)) (x v)
  if outf then leBytes 4 acc.toNat else leBytes w (encTy t .rne none (f32 acc))

/-- R437: the result bytes; `others` are the other members' contributions. -/
def colResult (s : State) (d : Nat) (others : List (Nat × List (BitVec 8))) : List (BitVec 8) :=
  match colTy d with
  | none => []
  | some t =>
    let n := bitsOf d 159 128
    let mine := readBytes s (bitsOf d 63 0) (n * (t.width / 8))
    let vs := ((List.range 256).filter (fun k => d.testBit (256 + k))).map (fun k =>
      if k = s.blob.device then mine else (aget others k).getD [])
    (List.range n).flatMap (colElement t (d.testBit 165) vs)

/-- R435, R437: the collective ends: its agent's system-scope release, then DONE. -/
def endColl (c : Coll) (status : Nat) (s : State) : State :=
  let d := c.desc.toNat
  let (s1, ok) := if (getBlock s c.block).any (fun b => b.resident) then agentRelease c.block .sy [] s else (s, true)
  if !ok then s1 else
  let s2 := { s1 with coll := none, collStatus := BitVec.ofNat 8 status }
  if physOk (bitsOf d 575 512) 8 then writeNat s2 (bitsOf d 575 512) 8 (2 ^ 63 + status) 64 else badAccess s2

def execCollectiveComplete (status : BitVec 8) (others : List (Nat × List (BitVec 8))) (s : State) :=
  event (fun t => match t.coll with
    | none => t
    | some c =>
      let d := c.desc.toNat
      let st := if colStatus t d ≠ 0 then colStatus t d else status.toNat
      endColl c st (if st = 0 then writeBytes t (bitsOf d 127 64) (colResult t d others) 64 else t)) s

def execCollectiveTimeout (s : State) :=
  event (fun t => match t.coll with
    | some c => if c.since + 2 ^ 30 ≤ t.clock then endColl c 0xC4 t else t
    | none => t) s

/-! ### Reliability and power (R438 to R443) -/

def execPatrolRead (addr : Nat) (ecc : Ecc) (s : State) :=
  event (fun t => if physOk addr 1 && decide (1 ≤ t.phase) then hbmRead ecc addr t else t) s

def execEventWindowExpiry (kind : EvKind) (s : State) :=
  event (fun t => { t with counts := t.counts.filter (fun c => c.1 != kind) }) s

def execTimingReplay (unit : EvUnit) (s : State) :=
  event (fun t => if isPipe unit then countEvent .timingReplay unit t else t) s

/-- R27: the voltage and frequency islands. -/
inductive Island where
  | cores (cluster pair : Nat)
  | massif (cluster : Nat)
  | cache (cluster : Nat)
  | base (die k : Nat)
  | other (k : Nat)
  deriving DecidableEq, Repr

/-- The island of a number: 6 for each cluster, 4 for each base die, 8 for fabric, host and management. -/
def islandOf (i : Nat) : Island :=
  if i < 120 then
    (if i % 6 < 4 then .cores (i / 6) (i % 6) else if i % 6 = 4 then .massif (i / 6) else .cache (i / 6))
  else if i < 152 then .base ((i - 120) / 4) ((i - 120) % 4)
  else .other (i - 152)

/-- R7, R443: how many steps of 25 MHz lie between an island's nominal clock and 0.6 GHz: 1.85 GHz, or the base-die logic's
1.2 GHz; for the eight others the spec gives no clock (log entry 92, DESIGN CHOICE). -/
def floorSteps (i : Nat) : Nat :=
  match islandOf i with
  | .base .. => 24
  | _ => 50

/-- R27: the islands that serve a deterministic launch: core pairs, Massif and cluster cache of its blocks' clusters. -/
def detIslands (s : State) : List Nat :=
  (s.blocks.filter (fun b => b.resident && (launchD s b.id.lid).det)).flatMap (fun b => blockIslands b.core)

/-- R443: one step of 25 MHz below, as far as 0.6 GHz. -/
def slower (s : State) (i : Nat) : State :=
  if detIslands s |>.contains i then s else { s with slow := aset s.slow i (min (floorSteps i) ((aget s.slow i).getD 0 + 1)) }

def faster (s : State) (i : Nat) : State :=
  match aget s.slow i with
  | some k => { s with slow := if k ≤ 1 then adel s.slow i else aset s.slow i (k - 1) }
  | none => s

/-- R443: a control step: the average power, and the islands that the controller picks. -/
def execPowerControlStep (watts : Nat) (islands : List Nat) (s : State) :=
  event (fun t =>
    let u := { t with power := watts }
    let is := islands.filter (fun i => decide (i < 160))
    if bitsOf t.csr.pwrlim.toNat 15 0 < watts then is.foldl slower u
    else if watts < bitsOf t.csr.pwrlim.toNat 15 0 && t.throttled.isEmpty then is.foldl faster u else u) s

/-- R443: at 105 °C every island not held by a deterministic launch drops to 0.6 GHz. -/
def execThermalThrottle (die : Nat) (s : State) :=
  event (fun t =>
    let det := detIslands t
    { t with throttled := insertNat t.throttled die, hottest := max t.hottest 105,
             slow := ((List.range 160).filter (fun i => !det.contains i)).foldl (fun m i => aset m i (floorSteps i)) t.slow }) s

def execThermalTrip (_die : Nat) (s : State) := event (fun t => fatalError 4 { t with hottest := 115 }) s

def execDieBridgeLost (s : State) := event (fatalError 5) s

/-- R443: a die that was throttled cools to 95 °C. -/
def execDieCools (die : Nat) (s : State) :=
  event (fun t =>
    if !t.throttled.contains die then t else
    let left := t.throttled.filter (· != die)
    if left.isEmpty then { t with throttled := [], slow := [], hottest := 95 } else { t with throttled := left }) s

end Sys2Proof.Machine
end

