-- ==== Sys2Proof/Machine/LaneFloat.lean ====
section
/-!
DEFINITION. Machine/LaneFloat.lean: floating-point P-words (R110 to R113, R120).
-/
namespace Sys2Proof.Machine

def execFadd (h : Hdr) (rm : Rm) (na nb : Bool) (d : Name) (a : ASrc) (b : BSrc) (s : State) :=
  laneWord (.fadd h rm na nb d a b) h (fun e l wp => wp.setReg d l
    (encF32 rm (FV.add (rmIsRd rm) (negIf na (f32 (srcA32 e a l))) (negIf nb (f32 (f32B e b l)))))) s

def execFmul (h : Hdr) (rm : Rm) (na nb : Bool) (d : Name) (a : ASrc) (b : BSrc) (s : State) :=
  laneWord (.fmul h rm na nb d a b) h (fun e l wp => wp.setReg d l
    (encF32 rm (FV.mul (negIf na (f32 (srcA32 e a l))) (negIf nb (f32 (f32B e b l)))))) s

def execFfma (h : Hdr) (rm : Rm) (na nc : Bool) (d : Name) (a : ASrc) (b c : Name) (s : State) :=
  laneWord (.ffma h rm na nc d a b c) h (fun e l wp => wp.setReg d l
    (encF32 rm (FV.fma (rmIsRd rm) (negIf na (f32 (srcA32 e a l))) (f32 (e.wp.reg b l))
      (negIf nc (f32 (e.wp.reg c l)))))) s

def execFmin (h : Hdr) (nanp na nb : Bool) (d : Name) (a : ASrc) (b : BSrc) (s : State) :=
  laneWord (.fmin h nanp na nb d a b) h (fun e l wp => wp.setReg d l
    (f32MinMax false nanp (negBits na (srcA32 e a l)) (negBits nb (f32B e b l)))) s

def execFmax (h : Hdr) (nanp na nb : Bool) (d : Name) (a : ASrc) (b : BSrc) (s : State) :=
  laneWord (.fmax h nanp na nb d a b) h (fun e l wp => wp.setReg d l
    (f32MinMax true nanp (negBits na (srcA32 e a l)) (negBits nb (f32B e b l)))) s

def execFrcp (h : Hdr) (rm : Rm) (d : Name) (a : ASrc) (s : State) :=
  laneWord (.frcp h rm d a) h (fun e l wp => wp.setReg d l (frcpF rm (f32 (srcA32 e a l)))) s

def execFrsq (h : Hdr) (rm : Rm) (d : Name) (a : ASrc) (s : State) :=
  laneWord (.frsq h rm d a) h (fun e l wp => wp.setReg d l (frsqF rm (f32 (srcA32 e a l)))) s

def execFsqrt (h : Hdr) (rm : Rm) (d : Name) (a : ASrc) (s : State) :=
  laneWord (.fsqrt h rm d a) h (fun e l wp => wp.setReg d l (fsqrtF rm (f32 (srcA32 e a l)))) s

def execFex2 (h : Hdr) (d : Name) (a : ASrc) (s : State) :=
  laneWord (.fex2 h d a) h (fun e l wp => wp.setReg d l (fex2F (f32 (srcA32 e a l)))) s

def execFlg2 (h : Hdr) (d : Name) (a : ASrc) (s : State) :=
  laneWord (.flg2 h d a) h (fun e l wp => wp.setReg d l (flg2F (f32 (srcA32 e a l)))) s

def execFsin (h : Hdr) (d : Name) (a : ASrc) (s : State) :=
  laneWord (.fsin h d a) h (fun e l wp => wp.setReg d l (fsinF (f32 (srcA32 e a l)))) s

def execFcos (h : Hdr) (d : Name) (a : ASrc) (s : State) :=
  laneWord (.fcos h d a) h (fun e l wp => wp.setReg d l (fcosF (f32 (srcA32 e a l)))) s

/-- R112: one half of HFMA2. -/
def hfmaHalf (f : Fmt) (na nc : Bool) (rm : Rm) (a b c : Nat) : Nat :=
  f.enc rm none (FV.fma (rmIsRd rm) (negIf na (f.dec a)) (f.dec b) (negIf nc (f.dec c)))

def execHfma2 (h : Hdr) (swb bf : Bool) (nc na : Bool) (rm : Rm) (d : Name) (a : ASrc) (b c : Name) (s : State) :=
  laneWord (.hfma2 h swb bf nc na rm d a b c) h (fun e l wp =>
    let f := if bf then fmtBf16 else fmtF16
    let x := (srcA32 e a l).toNat
    let y := (e.wp.reg b l).toNat
    let z := (e.wp.reg c l).toNat
    let half (v i : Nat) : Nat := v / 2 ^ (16 * i) % 2 ^ 16
    let lo := hfmaHalf f na nc rm (half x 0) (half y (if swb then 1 else 0)) (half z 0)
    let hi := hfmaHalf f na nc rm (half x 1) (half y (if swb then 0 else 1)) (half z 1)
    wp.setReg d l (BitVec.ofNat 32 (lo + hi * 2 ^ 16))) s

def execFclass (h : Hdr) (fmt : ClassFmt) (d : Name) (a : ASrc) (s : State) :=
  laneWord (.fclass h fmt d a) h (fun e l wp =>
    wp.setReg d l (BitVec.ofNat 32 (2 ^ classBit (classFmt fmt) (srcA32 e a l).toNat))) s

/-- R120. -/
def frnd (rm : Rm) (c : BitVec 32) : BitVec 32 :=
  match f32 c with
  | .nan => nanF32
  | .inf _ => c
  | .fin n m x => if m = 0 then c else encF32 .rne (.fin n (roundMag rm n m x false 0) 0)

def execFrnd (h : Hdr) (rm : Rm) (d : Name) (a : ASrc) (s : State) :=
  laneWord (.frnd h rm d a) h (fun e l wp => wp.setReg d l (frnd rm (srcA32 e a l))) s

end Sys2Proof.Machine
end

