-- ==== Sys2Proof/Machine/LaneConvert.lean ====
section
/-!
DEFINITION. Machine/LaneConvert.lean: conversion, packing and MX scale P-words (R114 to R119).
-/
namespace Sys2Proof.Machine

/-- R115. -/
def cvtfVal (dt st : Ty) (rm : Rm) (dr : Draw) (c : Nat) : BitVec 32 :=
  BitVec.ofNat 32 (encTy dt rm (some dr) (decTy st c))

def execCvtf (h : Hdr) (dt sty : Ty) (rm : Rm) (seed : Seed) (d : Name) (a : ASrc) (s : State) :=
  laneWord (.cvtf h dt sty rm seed d a) h (fun e l wp =>
    wp.setReg d l (cvtfVal dt sty rm (drawOf e seed l 0) (codeA e sty a l))) s

/-- R116: an integer of type `dt` from a code of type `st`. -/
def cvtiVal (dt st : Ty) (rm : Rm) (c : Nat) : Int :=
  let lo := intLo dt.width (isSigned dt)
  let hi := intHi dt.width (isSigned dt)
  if st.isInt then satInt lo hi (intVal c st.width (isSigned st)) else (decTy st c).toInt rm none lo hi

def execCvti (h : Hdr) (dt sty : Ty) (rm : Rm) (d : Name) (a : ASrc) (s : State) :=
  laneWord (.cvti h dt sty rm d a) h (fun e l wp =>
    let v := cvtiVal dt sty rm (codeA e sty a l)
    if dt.width = 64 then wp.setReg64 d l (BitVec.ofInt 64 v) else wp.setReg d l (BitVec.ofInt 32 v)) s

/-- R117: one element of PACK. -/
def packElem (dt : Ty) (rm : Rm) (dr : Draw) (c : BitVec 32) : Nat :=
  if dt.isInt then
    (cvtiVal dt (if isSigned dt then .i32 else .n32) rm c.toNat % (2 ^ dt.width : Nat)).toNat
  else encTy dt rm (some dr) (f32 c)

/-- R117: where the two codes go. -/
def packPlace (dt : Ty) (k : Nat) (x y old : Nat) : Nat :=
  let byte (v i b : Nat) : Nat := v - v / 2 ^ (8 * i) % 256 * 2 ^ (8 * i) + b * 2 ^ (8 * i)
  if dt.width = 16 then x + y * 2 ^ 16
  else if dt.width = 4 then byte old k (y * 16 + x)
  else byte (byte old (2 * k) x) (2 * k + 1) y

def execPack (h : Hdr) (dt : Ty) (k : BitVec 2) (rm : Rm) (seed : Seed) (d : Name) (a : ASrc) (b : Name) (s : State) :=
  laneWord (.pack h dt k rm seed d a b) h (fun e l wp =>
    let j := if dt.width = 16 then 0 else 2 * k.toNat
    let x := packElem dt rm (drawOf e seed l j) (srcA32 e a l)
    let y := packElem dt rm (drawOf e seed l (j + 1)) (e.wp.reg b l)
    wp.setReg d l (BitVec.ofNat 32 (packPlace dt k.toNat x y (e.wp.reg d l).toNat))) s

/-- R118: the code of element K; a 6-bit container with a high bit set is +0. -/
def unpackCode (st : Ty) (k : Nat) (x : Nat) : Nat :=
  if st.width = 16 then x / 2 ^ (16 * k) % 2 ^ 16
  else if st.width = 4 then x / 2 ^ (4 * k) % 16
  else
    let b := x / 2 ^ (8 * k) % 256
    if st.width = 6 && decide (64 ≤ b) then 0 else b

/-- R118. -/
def unpackVal (st : Ty) (k : Nat) (sc : Option Nat) (x : Nat) : BitVec 32 :=
  let c := unpackCode st k x
  if st.isInt then BitVec.ofInt 32 (intVal c st.width (isSigned st)) else encF32 .rne (scaledDec (decTy st c) sc)

def execUnpack (h : Hdr) (sty : Ty) (k : BitVec 3) (d : Name) (a : ASrc) (sc : Option Name) (s : State) :=
  laneWord (.unpack h sty k d a sc) h (fun e l wp =>
    wp.setReg d l (unpackVal sty k.toNat (sc.map (fun n => (e.wp.reg n l).toNat % 256)) (srcA32 e a l).toNat)) s

/-- R119. -/
def qscaleVal (dt : Ty) (rm : Rm) (dr : Draw) (enc : Option Nat) (a : BitVec 32) : Nat :=
  match enc with
  | none => scaleCode dt (f32 a)
  | some x => if x = 0xFF then 0 else scaledEnc dt rm (some dr) (f32 a) x

def execQscale (h : Hdr) (dt : Ty) (rm : Rm) (seed : Seed) (d : Name) (a : ASrc) (enc : Option Name) (s : State) :=
  laneWord (.qscale h dt rm seed d a enc) h (fun e l wp =>
    wp.setReg d l (BitVec.ofNat 32 (qscaleVal dt rm (drawOf e seed l 0)
      (enc.map (fun n => (e.wp.reg n l).toNat % 256)) (srcA32 e a l)))) s

end Sys2Proof.Machine
end

