-- ==== Sys2Proof/Machine/Dispatch.lean ====
section
/-!
DEFINITION. Machine/Dispatch.lean: one arm per instruction, each one call of its meaning.
-/
namespace Sys2Proof.Machine
open Sys2Proof

def exec (i : Instr) (s : State) : Host.Outcome State Fault Refusal :=
  match i with
  | .iadd h t sat d a b => Sys2Proof.Machine.execIadd h t sat d a b s
  | .isub h t sat d a b => Sys2Proof.Machine.execIsub h t sat d a b s
  | .imul h t d a b => Sys2Proof.Machine.execImul h t d a b s
  | .imulh h uns d a b => Sys2Proof.Machine.execImulh h uns d a b s
  | .imad h uns d a b c => Sys2Proof.Machine.execImad h uns d a b c s
  | .imadw h uns d a b c => Sys2Proof.Machine.execImadw h uns d a b c s
  | .imin h t d a b => Sys2Proof.Machine.execImin h t d a b s
  | .imax h t d a b => Sys2Proof.Machine.execImax h t d a b s
  | .iabsd h t d a b => Sys2Proof.Machine.execIabsd h t d a b s
  | .idiv h uns d a b => Sys2Proof.Machine.execIdiv h uns d a b s
  | .irem h uns d a b => Sys2Proof.Machine.execIrem h uns d a b s
  | .lea h uns d a b sh => Sys2Proof.Machine.execLea h uns d a b sh s
  | .mov h w64 d a => Sys2Proof.Machine.execMov h w64 d a s
  | .movi h t d imm => Sys2Proof.Machine.execMovi h t d imm s
  | .movhi h d a imm => Sys2Proof.Machine.execMovhi h d a imm s
  | .idot4 h an bn sat d a b c => Sys2Proof.Machine.execIdot4 h an bn sat d a b c s
  | .and h w64 notb d a b => Sys2Proof.Machine.execAnd h w64 notb d a b s
  | .or h w64 notb d a b => Sys2Proof.Machine.execOr h w64 notb d a b s
  | .xor h w64 notb d a b => Sys2Proof.Machine.execXor h w64 notb d a b s
  | .lop3 h w64 d a b c h1 h0 => Sys2Proof.Machine.execLop3 h w64 d a b c h1 h0 s
  | .shl h w64 d a b => Sys2Proof.Machine.execShl h w64 d a b s
  | .shr h t d a b => Sys2Proof.Machine.execShr h t d a b s
  | .bfx h uns d a b => Sys2Proof.Machine.execBfx h uns d a b s
  | .bcnt h op w64 d a => Sys2Proof.Machine.execBcnt h op w64 d a s
  | .fadd h rm na nb d a b => Sys2Proof.Machine.execFadd h rm na nb d a b s
  | .fmul h rm na nb d a b => Sys2Proof.Machine.execFmul h rm na nb d a b s
  | .ffma h rm na nc d a b c => Sys2Proof.Machine.execFfma h rm na nc d a b c s
  | .fmin h nanp na nb d a b => Sys2Proof.Machine.execFmin h nanp na nb d a b s
  | .fmax h nanp na nb d a b => Sys2Proof.Machine.execFmax h nanp na nb d a b s
  | .frcp h rm d a => Sys2Proof.Machine.execFrcp h rm d a s
  | .frsq h rm d a => Sys2Proof.Machine.execFrsq h rm d a s
  | .fsqrt h rm d a => Sys2Proof.Machine.execFsqrt h rm d a s
  | .fex2 h d a => Sys2Proof.Machine.execFex2 h d a s
  | .flg2 h d a => Sys2Proof.Machine.execFlg2 h d a s
  | .fsin h d a => Sys2Proof.Machine.execFsin h d a s
  | .fcos h d a => Sys2Proof.Machine.execFcos h d a s
  | .hfma2 h swb bf nc na rm d a b c => Sys2Proof.Machine.execHfma2 h swb bf nc na rm d a b c s
  | .fclass h fmt d a => Sys2Proof.Machine.execFclass h fmt d a s
  | .cvtf h dt strong rm seed d a => Sys2Proof.Machine.execCvtf h dt strong rm seed d a s
  | .cvti h dt strong rm d a => Sys2Proof.Machine.execCvti h dt strong rm d a s
  | .pack h dt k rm seed d a b => Sys2Proof.Machine.execPack h dt k rm seed d a b s
  | .unpack h strong k d a sc => Sys2Proof.Machine.execUnpack h strong k d a sc s
  | .qscale h dt rm seed d a enc => Sys2Proof.Machine.execQscale h dt rm seed d a enc s
  | .frnd h rm d a => Sys2Proof.Machine.execFrnd h rm d a s
  | .icmp h cc t p a b => Sys2Proof.Machine.execIcmp h cc t p a b s
  | .fcmp h cc p a b => Sys2Proof.Machine.execFcmp h cc p a b s
  | .sel h w64 p neg d a b => Sys2Proof.Machine.execSel h w64 p neg d a b s
  | .plop h f => Sys2Proof.Machine.execPlop h f s
  | .shfl h mode w d a b => Sys2Proof.Machine.execShfl h mode w d a b s
  | .vote h mode neg d p => Sys2Proof.Machine.execVote h mode neg d p s
  | .prmt h sel d a b => Sys2Proof.Machine.execPrmt h sel d a b s
  | .xred h op d a => Sys2Proof.Machine.execXred h op d a s
  | .ld h strong size sem msc hint d a off => Sys2Proof.Machine.execLd h strong size sem msc hint d a off s
  | .st h strong size sem msc hint d a off => Sys2Proof.Machine.execSt h strong size sem msc hint d a off s
  | .lds h strong size sem msc d a off => Sys2Proof.Machine.execLds h strong size sem msc d a off s
  | .sts h strong size sem msc d a off => Sys2Proof.Machine.execSts h strong size sem msc d a off s
  | .atom h k d a b => Sys2Proof.Machine.execAtom h k d a b s
  | .red h k a b => Sys2Proof.Machine.execRed h k a b s
  | .txb h d off => Sys2Proof.Machine.execTxb h d off s
  | .txe h => Sys2Proof.Machine.execTxe h s
  | .txa h code => Sys2Proof.Machine.execTxa h code s
  | .txq h d => Sys2Proof.Machine.execTxq h d s
  | .fence h sem msc => Sys2Proof.Machine.execFence h sem msc s
  | .bra h off => Sys2Proof.Machine.execBra h off s
  | .brx h a => Sys2Proof.Machine.execBrx h a s
  | .call h d off => Sys2Proof.Machine.execCall h d off s
  | .ret h a => Sys2Proof.Machine.execRet h a s
  | .nop h => Sys2Proof.Machine.execNop h s
  | .meet h off => Sys2Proof.Machine.execMeet h off s
  | .meetsv h d => Sys2Proof.Machine.execMeetsv h d s
  | .meetld h a => Sys2Proof.Machine.execMeetld h a s
  | .exit h => Sys2Proof.Machine.execExit h s
  | .yield h => Sys2Proof.Machine.execYield h s
  | .trap h code => Sys2Proof.Machine.execTrap h code s
  | .bkpt h code => Sys2Proof.Machine.execBkpt h code s
  | .waita h cond sp acq msc tmo d a b => Sys2Proof.Machine.execWaita h cond sp acq msc tmo d a b s
  | .salu h op n64 d a b => Sys2Proof.Machine.execSalu h op n64 d a b s
  | .smov h d a => Sys2Proof.Machine.execSmov h d a s
  | .smovI h d imm => Sys2Proof.Machine.execSmovI h d imm s
  | .smovCat h d a imm => Sys2Proof.Machine.execSmovCat h d a imm s
  | .smovGtos h d => Sys2Proof.Machine.execSmovGtos h d s
  | .smovStog h a => Sys2Proof.Machine.execSmovStog h a s
  | .smovRdl h d a k => Sys2Proof.Machine.execSmovRdl h d a k s
  | .scmp h cc n64 g a b => Sys2Proof.Machine.execScmp h cc n64 g a b s
  | .sbra h mode off => Sys2Proof.Machine.execSbra h mode off s
  | .sld h b32 strong sp sem msc d a off => Sys2Proof.Machine.execSld h b32 strong sp sem msc d a off s
  | .sst h b32 strong sp sem msc d a off => Sys2Proof.Machine.execSst h b32 strong sp sem msc d a off s
  | .satom h k d a b => Sys2Proof.Machine.execSatom h k d a b s
  | .csrr h d n => Sys2Proof.Machine.execCsrr h d n s
  | .csrw h n a => Sys2Proof.Machine.execCsrw h n a s
  | .bar h sem msc => Sys2Proof.Machine.execBar h sem msc s
  | .elect h p sa => Sys2Proof.Machine.execElect h p sa s
  | .wmovTol h d w => Sys2Proof.Machine.execWmovTol h d w s
  | .wmovFroml h w a => Sys2Proof.Machine.execWmovFroml h w a s
  | .wred h op d a => Sys2Proof.Machine.execWred h op d a s
  | .gmemb h q d n => Sys2Proof.Machine.execGmemb h q d n s
  | .grow h g n => Sys2Proof.Machine.execGrow h g n s
  | .band h op d a => Sys2Proof.Machine.execBand h op d a s
  | .sflush h => Sys2Proof.Machine.execSflush h s
  | .tcopy h sem msc vc d a q => Sys2Proof.Machine.execTcopy h sem msc vc d a q s
  | .tstore h sem msc vc d a q => Sys2Proof.Machine.execTstore h sem msc vc d a q s
  | .ring h sem msc d a => Sys2Proof.Machine.execRing h sem msc d a s
  | .twait h cond acq msc tmo d a b off => Sys2Proof.Machine.execTwait h cond acq msc tmo d a b off s
  | .tfill h sem msc d a q => Sys2Proof.Machine.execTfill h sem msc d a q s
  | .tstat h q d n => Sys2Proof.Machine.execTstat h q d n s
  | .tstatClr h d n => Sys2Proof.Machine.execTstatClr h d n s
  | .prefCc h a b off => Sys2Proof.Machine.execPrefCc h a b off s
  | .prefL1 h a b off => Sys2Proof.Machine.execPrefL1 h a b off s
  | .prefIx h a b off => Sys2Proof.Machine.execPrefIx h a b off s
  | .cctlL1inv h => Sys2Proof.Machine.execCctlL1inv h s
  | .cctlFxinv h a b => Sys2Proof.Machine.execCctlFxinv h a b s
  | .cctlAppend h => Sys2Proof.Machine.execCctlAppend h s
  | .mclaim h acc d n => Sys2Proof.Machine.execMclaim h acc d n s
  | .mrel h acc d a n => Sys2Proof.Machine.execMrel h acc d a n s
  | .mload h sem msc vc sp d a q => Sys2Proof.Machine.execMload h sem msc vc sp d a q s
  | .mma h vc z d a q => Sys2Proof.Machine.execMma h vc z d a q s
  | .mmasp h pat vc z d a q => Sys2Proof.Machine.execMmasp h pat vc z d a q s
  | .mzero h d a q => Sys2Proof.Machine.execMzero h d a q s
  | .mstore h sem msc vc sp d a q => Sys2Proof.Machine.execMstore h sem msc vc sp d a q s
  | .mwait h acq msc tmo d q b => Sys2Proof.Machine.execMwait h acq msc tmo d q b s
  | .mstat h q d a => Sys2Proof.Machine.execMstat h q d a s
  | .mcvt h vc d a q => Sys2Proof.Machine.execMcvt h vc d a q s
  | .mqcfgAlloc h d => Sys2Proof.Machine.execMqcfgAlloc h d s
  | .mqcfgFree h d a => Sys2Proof.Machine.execMqcfgFree h d a s
  | .mqcfgClr h d a => Sys2Proof.Machine.execMqcfgClr h d a s
  | .lbind h d a b => Sys2Proof.Machine.execLbind h d a b s
  | .mmad h vc f d a q => Sys2Proof.Machine.execMmad h vc f d a q s
  | .lrefForce h d a => Sys2Proof.Machine.execLrefForce h d a s
  | .lrefDrop h d a => Sys2Proof.Machine.execLrefDrop h d a s
  | .lrefQuery h d a => Sys2Proof.Machine.execLrefQuery h d a s
  | .lwatchAdd h d a b => Sys2Proof.Machine.execLwatchAdd h d a b s
  | .lwatchDel h d a => Sys2Proof.Machine.execLwatchDel h d a s
  | .lwatchGen h d a => Sys2Proof.Machine.execLwatchGen h d a s
  | .snapTake h d a b => Sys2Proof.Machine.execSnapTake h d a b s
  | .snapRd h d g a b => Sys2Proof.Machine.execSnapRd h d g a b s
  | .snapQuery h d a => Sys2Proof.Machine.execSnapQuery h d a s
  | .sndrop h d a => Sys2Proof.Machine.execSndrop h d a s
  | .rollb h d a b => Sys2Proof.Machine.execRollb h d a b s
  | .publ h d => Sys2Proof.Machine.execPubl h d s
  | .publWait h acq d a => Sys2Proof.Machine.execPublWait h acq d a s
  | .publSeal h d => Sys2Proof.Machine.execPublSeal h d s
  | .shipCfg h d a r => Sys2Proof.Machine.execShipCfg h d a r s
  | .shipStart h d r => Sys2Proof.Machine.execShipStart h d r s
  | .shipStop h d r => Sys2Proof.Machine.execShipStop h d r s
  | .shipStat h d r => Sys2Proof.Machine.execShipStat h d r s
  | .shipAccept h d a => Sys2Proof.Machine.execShipAccept h d a s
  | .shipPromote h d => Sys2Proof.Machine.execShipPromote h d s
  | .ixctlQuery h d a off => Sys2Proof.Machine.execIxctlQuery h d a off s
  | .ixctlDrop h a b => Sys2Proof.Machine.execIxctlDrop h a b s
  | .ixctlUnhome h a off => Sys2Proof.Machine.execIxctlUnhome h a off s
  | .nbarm h d a b => Sys2Proof.Machine.execNbarm h d a b s
  | .nbdisarm h d a => Sys2Proof.Machine.execNbdisarm h d a s
  | .nbload h vc d a => Sys2Proof.Machine.execNbload h vc d a s
  | .nbstrm h vc acc d a => Sys2Proof.Machine.execNbstrm h vc acc d a s
  | .nbdrain h rel msc d a => Sys2Proof.Machine.execNbdrain h rel msc d a s
  | .nbdrainClr h d => Sys2Proof.Machine.execNbdrainClr h d s
  | .nbop h sem msc vc d a => Sys2Proof.Machine.execNbop h sem msc vc d a s
  | .trav h sem msc d a => Sys2Proof.Machine.execTrav h sem msc d a s
  | .travqCount h d => Sys2Proof.Machine.execTravqCount h d s
  | .travqCancel h d a => Sys2Proof.Machine.execTravqCancel h d a s
  | .launch h d a => Sys2Proof.Machine.execLaunch h d a s
  | .mboxCfg h d a b => Sys2Proof.Machine.execMboxCfg h d a b s
  | .mboxPost h d a b => Sys2Proof.Machine.execMboxPost h d a b s
  | .mboxOpen h d a b => Sys2Proof.Machine.execMboxOpen h d a b s
  | .ctxsvWrite h d a b => Sys2Proof.Machine.execCtxsvWrite h d a b s
  | .ctxsvRead h d a b => Sys2Proof.Machine.execCtxsvRead h d a b s
  | .ctxsvResume h d a => Sys2Proof.Machine.execCtxsvResume h d a s
  | .ctxsvKill h d a => Sys2Proof.Machine.execCtxsvKill h d a s
  | .preemptCtx h d a => Sys2Proof.Machine.execPreemptCtx h d a s
  | .preemptLaunch h d a => Sys2Proof.Machine.execPreemptLaunch h d a s
  | .preemptBlock h d a b => Sys2Proof.Machine.execPreemptBlock h d a b s
  | .preemptResume h d a => Sys2Proof.Machine.execPreemptResume h d a s
  | .tret h => Sys2Proof.Machine.execTret h s
  | .tretExit h => Sys2Proof.Machine.execTretExit h s
  | .clk h d => Sys2Proof.Machine.execClk h d s
  | .clkCyc h d => Sys2Proof.Machine.execClkCyc h d s
  | .fltqDone h d a => Sys2Proof.Machine.execFltqDone h d a s
  | .fltqFail h d a b => Sys2Proof.Machine.execFltqFail h d a b s
  | .fltqStat h d a => Sys2Proof.Machine.execFltqStat h d a s
  | .tlbiAll h d => Sys2Proof.Machine.execTlbiAll h d s
  | .tlbiCtx h d a => Sys2Proof.Machine.execTlbiCtx h d a s
  | .tlbiRange h d a b => Sys2Proof.Machine.execTlbiRange h d a b s
  | .keyctlLoad h d a b => Sys2Proof.Machine.execKeyctlLoad h d a b s
  | .keyctlBind h d a b => Sys2Proof.Machine.execKeyctlBind h d a b s
  | .keyctlErase h d a => Sys2Proof.Machine.execKeyctlErase h d a s
  | .keyctlQuery h d a => Sys2Proof.Machine.execKeyctlQuery h d a s
  | .dbgAttach h d a => Sys2Proof.Machine.execDbgAttach h d a s
  | .dbgDetach h d a => Sys2Proof.Machine.execDbgDetach h d a s
  | .dbgStop h d a b => Sys2Proof.Machine.execDbgStop h d a b s
  | .dbgResume h d a b => Sys2Proof.Machine.execDbgResume h d a b s
  | .dbgRdreg h d a => Sys2Proof.Machine.execDbgRdreg h d a s
  | .dbgWrreg h d a b => Sys2Proof.Machine.execDbgWrreg h d a b s
  | .dbgStat h d a b => Sys2Proof.Machine.execDbgStat h d a b s
  | .tmaskWrite h a => Sys2Proof.Machine.execTmaskWrite h a s
  | .tpendWrite h a => Sys2Proof.Machine.execTpendWrite h a s
  | .mextWrite h a => Sys2Proof.Machine.execMextWrite h a s
  | .colcmdWrite h a => Sys2Proof.Machine.execColcmdWrite h a s
  | .errinjWrite h a => Sys2Proof.Machine.execErrinjWrite h a s
  | .deviceReset => Sys2Proof.Machine.execDeviceReset s
  | .phase1Entry => Sys2Proof.Machine.execPhase1Entry s
  | .phase2Entry fail => Sys2Proof.Machine.execPhase2Entry fail s
  | .barAccess fn off n write => Sys2Proof.Machine.execBarAccess fn off n write s
  | .ideKm stream vf session => Sys2Proof.Machine.execIdeKm stream vf session s
  | .getVersion req => Sys2Proof.Machine.execGetVersion req s
  | .getCapabilities req => Sys2Proof.Machine.execGetCapabilities req s
  | .negotiateAlgorithms req => Sys2Proof.Machine.execNegotiateAlgorithms req s
  | .getDigests req => Sys2Proof.Machine.execGetDigests req s
  | .getCertificate req => Sys2Proof.Machine.execGetCertificate req s
  | .challenge req => Sys2Proof.Machine.execChallenge req s
  | .getMeasurements req => Sys2Proof.Machine.execGetMeasurements req s
  | .keyExchange req => Sys2Proof.Machine.execKeyExchange req s
  | .finish session req => Sys2Proof.Machine.execFinish session req s
  | .keyUpdate session req => Sys2Proof.Machine.execKeyUpdate session req s
  | .heartbeat session => Sys2Proof.Machine.execHeartbeat session s
  | .endSession session => Sys2Proof.Machine.execEndSession session s
  | .heartbeatLoss session => Sys2Proof.Machine.execHeartbeatLoss session s
  | .lifetimeRecordRead => Sys2Proof.Machine.execLifetimeRecordRead s
  | .lifetimeRecordWrite => Sys2Proof.Machine.execLifetimeRecordWrite s
  | .remoteTransactionArrive t => Sys2Proof.Machine.execRemoteTransactionArrive t s
  | .nakReplay port => Sys2Proof.Machine.execNakReplay port s
  | .ackTimeoutReplay port => Sys2Proof.Machine.execAckTimeoutReplay port s
  | .laneDrop port lane => Sys2Proof.Machine.execLaneDrop port lane s
  | .laneDegradeRetrain port => Sys2Proof.Machine.execLaneDegradeRetrain port s
  | .collectiveComplete status others => Sys2Proof.Machine.execCollectiveComplete status others s
  | .collectiveTimeout => Sys2Proof.Machine.execCollectiveTimeout s
  | .loadDataReturn w n ecc => Sys2Proof.Machine.execLoadDataReturn w n ecc s
  | .storeAcknowledge w ecc => Sys2Proof.Machine.execStoreAcknowledge w ecc s
  | .atomicResultReturn w n ecc => Sys2Proof.Machine.execAtomicResultReturn w n ecc s
  | .publishInstall cluster => Sys2Proof.Machine.execPublishInstall cluster s
  | .publishTableStallTimeout cluster => Sys2Proof.Machine.execPublishTableStallTimeout cluster s
  | .replicaAgeLimit cluster slot => Sys2Proof.Machine.execReplicaAgeLimit cluster slot s
  | .talusCleanStart engine seg => Sys2Proof.Machine.execTalusCleanStart engine seg s
  | .segmentRetireComplete seg => Sys2Proof.Machine.execSegmentRetireComplete seg s
  | .patrolRead addr ecc => Sys2Proof.Machine.execPatrolRead addr ecc s
  | .eventWindowExpiry kind => Sys2Proof.Machine.execEventWindowExpiry kind s
  | .timingReplay unit => Sys2Proof.Machine.execTimingReplay unit s
  | .powerControlStep watts islands => Sys2Proof.Machine.execPowerControlStep watts islands s
  | .thermalThrottle die => Sys2Proof.Machine.execThermalThrottle die s
  | .thermalTrip die => Sys2Proof.Machine.execThermalTrip die s
  | .dieBridgeLost => Sys2Proof.Machine.execDieBridgeLost s
  | .blockStart => Sys2Proof.Machine.execBlockStart s
  | .warpEnd w => Sys2Proof.Machine.execWarpEnd w s
  | .blockEnd b => Sys2Proof.Machine.execBlockEnd b s
  | .scopeMismatchDetect b => Sys2Proof.Machine.execScopeMismatchDetect b s
  | .growGrant core => Sys2Proof.Machine.execGrowGrant core s
  | .growDeadlockResolve core => Sys2Proof.Machine.execGrowDeadlockResolve core s
  | .evictedWarpRestore core => Sys2Proof.Machine.execEvictedWarpRestore core s
  | .waitaCheck w lane => Sys2Proof.Machine.execWaitaCheck w lane s
  | .waitaTimeout w lane => Sys2Proof.Machine.execWaitaTimeout w lane s
  | .twaitWake w => Sys2Proof.Machine.execTwaitWake w s
  | .twaitTimeout w => Sys2Proof.Machine.execTwaitTimeout w s
  | .mwaitWake w => Sys2Proof.Machine.execMwaitWake w s
  | .mwaitTimeout w => Sys2Proof.Machine.execMwaitTimeout w s
  | .flushPointAllWaiting b => Sys2Proof.Machine.execFlushPointAllWaiting b s
  | .drainErrorDelivery w => Sys2Proof.Machine.execDrainErrorDelivery w s
  | .detStallTrap w => Sys2Proof.Machine.execDetStallTrap w s
  | .detPreemptWatchdog w => Sys2Proof.Machine.execDetPreemptWatchdog w s
  | .saveTmaskTimeout b => Sys2Proof.Machine.execSaveTmaskTimeout b s
  | .engineTrapDelivery w => Sys2Proof.Machine.execEngineTrapDelivery w s
  | .faultPostDeferred ctx => Sys2Proof.Machine.execFaultPostDeferred ctx s
  | .swapOut b => Sys2Proof.Machine.execSwapOut b s
  | .blockSave b => Sys2Proof.Machine.execBlockSave b s
  | .blockRestore b => Sys2Proof.Machine.execBlockRestore b s
  | .checkpointComplete b => Sys2Proof.Machine.execCheckpointComplete b s
  | .dataErrorConsumed w => Sys2Proof.Machine.execDataErrorConsumed w s
  | .deviceRecordPost => Sys2Proof.Machine.execDeviceRecordPost s
  | .copyGranuleTransfer core => Sys2Proof.Machine.execCopyGranuleTransfer core s
  | .copyCommandComplete b q => Sys2Proof.Machine.execCopyCommandComplete b q s
  | .tileTask cluster => Sys2Proof.Machine.execTileTask cluster s
  | .massifGranuleTransfer cluster q => Sys2Proof.Machine.execMassifGranuleTransfer cluster q s
  | .matrixCommandComplete cluster q => Sys2Proof.Machine.execMatrixCommandComplete cluster q s
  | .mrelWaitComplete w => Sys2Proof.Machine.execMrelWaitComplete w s
  | .nearMemoryCommandComplete b ecc => Sys2Proof.Machine.execNearMemoryCommandComplete b ecc s
  | .nbdisarmWaitComplete w => Sys2Proof.Machine.execNbdisarmWaitComplete w s
  | .walkStart b wid => Sys2Proof.Machine.execWalkStart b wid s
  | .walkLoadReturn b wid ecc => Sys2Proof.Machine.execWalkLoadReturn b wid ecc s
  | .walkRule b wid => Sys2Proof.Machine.execWalkRule b wid s
  | .rollbComplete cairn => Sys2Proof.Machine.execRollbComplete cairn s
  | .segmentShip seg => Sys2Proof.Machine.execSegmentShip seg s
  | .replicaBaseCopyComplete slot => Sys2Proof.Machine.execReplicaBaseCopyComplete slot s
  | .replicaRecordApply r => Sys2Proof.Machine.execReplicaRecordApply r s
  | .replicaPeerTimeout slot => Sys2Proof.Machine.execReplicaPeerTimeout slot s
  | .flitReceive port crcOk lane => Sys2Proof.Machine.execFlitReceive port crcOk lane s
  | .tdispMessage vf req => Sys2Proof.Machine.execTdispMessage vf req s
  | .appliedEpochReport slot epoch => Sys2Proof.Machine.execAppliedEpochReport slot epoch s
  | .dieCools die => Sys2Proof.Machine.execDieCools die s

end Sys2Proof.Machine
end

