-- ==== Sys2Proof/Machine/Settle.lean ====
section
/-!
DEFINITION. Machine/Settle.lean: what comes about within a step after its own action (spec 95): completed rendezvous run,
complete transactions commit, checkpoint instants are taken, waits end, pending traps are delivered, frames follow their blocks (R130, R137, R139,
R140, R215, R223, R332, R393, R400, R408, R410, R411).
-/
namespace Sys2Proof.Machine

def setCur (c : Option Cur) (s : State) : State := { s with cur := c }

/-- The state that a step within the step leaves. -/
def stateOf (s : State) (o : Host.Outcome State Fault Refusal) : State :=
  match o with
  | .next t => t
  | _ => { s with badPhys := true }

/-! ### Rendezvous (R136 to R140, R160) -/

/-- R136: the warps that a rendezvous takes in, in a block. -/
def rdvWarps (s : State) (b : Block) (r : Rdv) : List Nat :=
  if r.scope = .warp then [r.warp] else scopeWarps s b.id r.warp r.scope r.set

/-- R139: no member is stopped or suspended by another's fault. -/
def rdvFree (s : State) (b : Block) (r : Rdv) : Bool :=
  b.resident && (rdvWarps s b r).all (fun w =>
    (b.warps[w]?).all (fun wp => !wp.stopped && wp.frozenBy.isEmpty && wp.frozenPend.isEmpty))

/-- R136, R137: every lane a rendezvous requires in a block has arrived or exited, and no member is stopped. -/
def rdvComplete (s : State) (b : Block) (r : Rdv) : Bool :=
  rdvFree s b r && (rdvWarps s b r).all (fun w =>
    (b.warps[w]?).all (fun wp => wp.live &&& ~~~((aget r.arrived w).getD 0) == 0))

/-- The blocks that a rendezvous takes in: its own, or those of its band. -/
def rdvBlocks (s : State) (id : BlockId) (r : Rdv) : List BlockId := if r.band then bandBlocks s id else [id]

/-- Every part of a rendezvous satisfies `p`; a part of a band that has entirely exited counts as arrived (R160, R259). -/
def allParts (s : State) (id : BlockId) (r : Rdv) (p : Block → Rdv → Bool) : Bool :=
  (rdvBlocks s id r).all (fun x =>
    let b := blockD s x
    (b.rdvs.find? r.same).any (p b) || (r.band && (rdvWarps s b r).all (fun w =>
      (b.warps[w]?).all (fun wp => wp.ended || wp.allExited))))

def setPhase (id : BlockId) (r : Rdv) (f : Rdv → Rdv) (s : State) : State :=
  modBlock id (fun b => { b with rdvs := b.rdvs.map (fun x => if r.same x then f x else x) }) s

/-- R138: the last arriver of a deterministic launch is the member of highest wave. -/
def lastMember (det : Bool) (r : Rdv) : Nat := if det then (r.arrived.getLast?.map (·.1)).getD r.last else r.last

/-- R223, R410: a complete rendezvous: a deterministic block's entries are drained, a rollback-capable block's
checkpoint is asked for, and it may execute. -/
def beginRdv (id : BlockId) (r : Rdv) (s : State) : State :=
  let l := launchD s id.lid
  let ids := rdvBlocks s id r
  let (s1, ok) := if l.det && r.scope = .block then
      ids.foldl (fun (a : State × Bool) x =>
        if a.2 then drainAll x (List.range (blockD a.1 x).warps.length) a.1 else a) (s, true)
    else (s, true)
  if !ok then s1 else
  ids.foldl (fun t x =>
    let held := l.rb && r.scope = .block
    let t1 := setPhase x r (fun y => { y with phase := if held then .held else .executing, last := lastMember l.det y }) t
    if held then modBlock x (fun b => { b with rb := { b.rb with want := true } }) t1 else t1) s1

/-- R137: the single execution of a rendezvous; its results reach the frames of evicted members too (R162). -/
def runRdv (id : BlockId) (r : Rdv) (s : State) : State :=
  let c : Cur :=
    { block := id, warp := r.last, group := (aget r.arrived r.last).getD 0, pc := r.pc, iw := r.iw, ew := r.ew,
      single := some r }
  let s1 := { s with cur := some c }
  let s2 := stateOf s1 (exec r.instr s1)
  (rdvBlocks s id r).foldl (fun t x => if (blockD t x).warps.any (·.evicted) then rewriteEvicted x t else t) s2

/-- One rendezvous of a block: it begins, or it runs. -/
def settleRdv (id : BlockId) (r0 : Rdv) (s : State) : State :=
  match (blockD s id).rdvs.find? r0.same with
  | none => s
  | some r =>
    let s1 := if r.phase = .gathering && allParts s id r (rdvComplete s) then beginRdv id r s else s
    match (blockD s1 id).rdvs.find? r0.same with
    | none => s1
    | some q => if q.phase = .executing && allParts s1 id q (fun b x => x.phase = .executing && rdvFree s1 b x)
        then runRdv id q s1 else s1

def settleRdvs (s : State) : State :=
  s.blocks.foldl (fun t (b : Block) => b.rdvs.foldl (fun u r => settleRdv b.id r u) t) s

/-! ### Checkpoints (R411) -/

def settleInstants (s : State) : State :=
  s.blocks.foldl (fun t (b : Block) => if instantReady t (blockD t b.id) then takeInstant b.id t else t) s

/-! ### Transactions (R215) -/

/-- The PC of a warp's TXE. -/
def txPc (wp : Warp) : BitVec 53 :=
  match wp.tx.bind (·.lanes.head?) with
  | some x => (wp.lane x.lane).pc
  | none => 0

/-- R215: a complete transaction of a normal launch: its release, then its commit. -/
def commitNow (w : WarpId) (s : State) : State :=
  match heldRelease w.block w.warp .dv (txPc (warpD s w.block w.warp)) s with
  | .wait t => t
  | .ready t _ =>
    match commitTx w.block w.warp t with
    | some u => u
    | none => stallOnTable w.block s

/-- R212, R215: a transaction all of whose lanes are held at TXE. -/
def settleTx (w : WarpId) (s : State) : State :=
  let wp := warpD s w.block w.warp
  let det := (launchD s w.block.lid).det
  let close (x : Warp) : Warp := { x with tx := x.tx.map (fun t => { t with closed := true }) }
  let s1 := if txComplete wp then
      modWarp w.block w.warp (fun x => if det then (close x).bufferCommit (txPc x) else close x) s
    else s
  if !det && ((warpD s1 w.block w.warp).tx.any (·.closed)) then commitNow w s1 else s1

/-! ### Warps -/

/-- R226: a lane's arrival at a meeting is a switch point of a deterministic launch. -/
def settleSwitch (w : WarpId) (s : State) : State :=
  if (warpD s w.block w.warp).switched then
    let t := modWarp w.block w.warp (fun x => { x with switched := false }) s
    if (launchD s w.block.lid).det then switchPoint w.block w.warp t else t
  else s

/-- What comes about in one warp. -/
def settleWarp (w : WarpId) (s : State) : State :=
  settleSwitch w (reportStop w.block w.warp
    (deliverTrap w.block w.warp (settleArms w (settleWaits w (wakePublWait w (settlePubl w (settleTx w s)))))))

def settleWarps (s : State) : State :=
  s.blocks.foldl (fun t (b : Block) =>
    if b.resident then (List.range b.warps.length).foldl (fun u w => settleWarp { block := b.id, warp := w } u) t else t) s

/-- R304, R307, R308: LBINDs and LREFs whose turn has come take effect. -/
def settleBinds (s : State) : State := s.clusters.foldl (fun t c => runBinds c.1 t) s

/-! ### Flits that carry what the device sends (R431) -/

/-- The line of a transaction that leaves the device. -/
def sentLine : Output → Option Nat
  | .remote _ a _ => some (a / 128)
  | .remoteAtomic _ a .. => some (a / 128)
  | .homePublish .. => some 0
  | .fabric .. => some 0
  | _ => none

def sendFlit (s : State) (n : Nat) : State :=
  let p := portD s (planeOf s n)
  let q : Port := { p with sent := p.sent + 1, unacked := (p.unacked ++ [p.sent]).drop (p.unacked.length + 1 - 512) }
  { s with ports := aset s.ports (planeOf s n) q }

/-- Each transaction that left in this step after the first `n` outputs takes a flit. -/
def sendFlits (n : Nat) (s : State) : State := ((s.out.drop n).filterMap sentLine).foldl sendFlit s

/-! ### The step's end -/

/-- Everything that comes about within the step. -/
def settle (s : State) : State :=
  if s.fatal ≠ 0 then s else
  settleFrames (settleRdvs (requeueServed (settleWarps (settleBinds (settleRdvs (settleInstants (settleRdvs s)))))))

/-- The outcome of a step whose own action has ended so; `n` outputs came before it. -/
def closeStep (n : Nat) (o : Host.Outcome State Fault Refusal) : Host.Outcome State Fault Refusal :=
  match o with
  | .next s => finish (setCur none (sendFlits n (settle s)))
  | x => x

end Sys2Proof.Machine
end

