-- ==== Sys2Proof/Machine/Policy.lean ====
section
/-!
DEFINITION. Machine/Policy.lean: what happens next: the actions that the inputs name, and where they name none, the
model's own order (R226, R388, log entry 1, DESIGN CHOICE).
-/
namespace Sys2Proof.Machine

/-! ### Actions -/

/-- A cache may lose an entry at any time (R174, R178); one lane's access is performed, or one register written, before
the rest of its result (R39). -/
def evict (a : Act) (s : State) : State :=
  match a with
  | .evictIx core n => modCore core (fun k => { k with ix := adel k.ix n }) s
  | .evictClusterIx c n => modCluster c (fun k => { k with ix := adel k.ix n }) s
  | .evictL1 core key => modCore core (fun k => { k with l1 := k.l1.filter (fun x => x.key != key) }) s
  | .evictFixed c key => modCluster c (fun k => { k with fixed := adel k.fixed key }) s
  | .evictTlb core base => modCore core (fun k => { k with tlb := k.tlb.filter (fun x => x.base != base) }) s
  | .evictClusterTlb c base => modCluster c (fun k => { k with tlb := k.tlb.filter (fun x => x.base != base) }) s
  | .evictLog c pos => modCluster c (fun k => { k with logs := adel k.logs pos }) s
  | .evictTable c key => modCluster c (fun k => { k with tables := adel k.tables key }) s
  | .holdTable c key => holdTable c key s
  | .evictCornice c ctx line => corniceFlush c (fun x => x.ctx == ctx && x.line == line) s
  | .perform w i lane ecc => performLane w i lane ecc s
  | .deliver w i k => deliverOne w i k s
  | .hostMsix fn v e =>
    if fn < 64 && v < 2048 then { s with msix := sset s.msix (fn * 2048 + v) e } else s
  | .issue _ | .event _ => s

/-- A warp issues its next word. -/
def issueWarp (w : WarpId) (s : State) : Host.Outcome State Fault Refusal :=
  match fetchFor w s with
  | .run i t => exec i t
  | .done t => .next t

def doAct (a : Act) (s : State) : Host.Outcome State Fault Refusal :=
  match a with
  | .issue w => issueWarp w s
  | .event i => exec i s
  | x => .next (if s.fatal ≠ 0 then s else evict x s)

/-! ### The order without inputs -/

def allWarps (s : State) : List WarpId :=
  (s.blocks.filter (fun b => b.resident)).flatMap (fun b =>
    (List.range b.warps.length).map (fun w => { block := b.id, warp := w }))

/-- The events of a warp that may be due. -/
def warpEvents (s : State) (w : WarpId) : List Instr :=
  let wp := wpOf s w
  [.dataErrorConsumed w]
    ++ (if wp.unack.isEmpty && wp.remoteUnack.isEmpty then [] else [.storeAcknowledge w .ok])
    ++ wp.outs.flatMap (fun o => [.loadDataReturn w o.id .ok, .atomicResultReturn w o.id .ok])
    ++ (if wp.outs.isEmpty then [] else [.mrelWaitComplete w, .nbdisarmWaitComplete w])
    ++ (if wp.sleeps.isEmpty then [] else [.twaitWake w, .mwaitWake w, .twaitTimeout w, .mwaitTimeout w]
        ++ (List.range 32).map (fun l => .waitaTimeout w l) ++ [.detStallTrap w])
    ++ [.engineTrapDelivery w, .drainErrorDelivery w, .detPreemptWatchdog w, .warpEnd w]

/-- The events of a block that may be due. -/
def blockEvents (b : Block) : List Instr :=
  [.checkpointComplete b.id, .saveTmaskTimeout b.id, .blockSave b.id, .flushPointAllWaiting b.id]
    ++ b.copyQ.map (fun q => .copyCommandComplete b.id q.1) ++ [.nearMemoryCommandComplete b.id .ok]
    ++ b.walks.flatMap (fun w => [.walkStart b.id w.wid, .walkRule b.id w.wid, .walkLoadReturn b.id w.wid .ok])
    ++ [.swapOut b.id, .scopeMismatchDetect b.id, .blockEnd b.id]

def coreEvents (core : Nat) : List Instr :=
  [.growGrant core, .growDeadlockResolve core, .evictedWarpRestore core, .copyGranuleTransfer core]

def clusterEvents (c : Nat × Cluster) : List Instr :=
  [.publishInstall c.1, .publishTableStallTimeout c.1, .tileTask c.1]
    ++ c.2.queues.flatMap (fun q => [.massifGranuleTransfer c.1 q.1, .matrixCommandComplete c.1 q.1])

/-- The events of the device that may be due. -/
def deviceEvents (s : State) : List Instr :=
  [.deviceRecordPost] ++ s.fullFq.map (fun c => .faultPostDeferred c)
    ++ s.rollbs.map (fun r => .rollbComplete r.cairn)
    ++ s.segs.flatMap (fun g => [.talusCleanStart (g.1 % 512 / 64 * 4) g.1, .segmentRetireComplete g.1, .segmentShip g.1])
    ++ s.replicas.map (fun r => .replicaBaseCopyComplete r.1) ++ [.collectiveTimeout, .blockStart]

def dueEvents (s : State) : List Instr :=
  (allWarps s).flatMap (warpEvents s) ++ s.blocks.flatMap blockEvents ++ s.cores.flatMap (fun c => coreEvents c.1)
    ++ s.clusters.flatMap clusterEvents ++ deviceEvents s

/-- Whether an event would change anything. -/
def changes (s : State) (i : Instr) : Bool :=
  match exec i s with
  | .next t => decide (t ≠ s)
  | _ => true

/-- A warp with a word to issue. -/
def warpReady (s : State) (w : WarpId) : Bool :=
  let wp := wpOf s w
  deviceRuns s w.block && warpFree (launchD s w.block.lid) (blockD s w.block) wp && (wp.group.isSome || !wp.due.isEmpty)
    && (detTurn s w).1

/-- R388: the supervisor's class, then the launch's. -/
def warpClass (s : State) (w : WarpId) : Nat :=
  let l := launchD s w.block.lid
  if l.super then 4 else l.prio

/-- R388: of two warps of a scheduler the one of higher class, then the one that started earlier. -/
def better (s : State) (a b : WarpId) : WarpId :=
  if warpClass s b < warpClass s a then a
  else if warpClass s a < warpClass s b then b
  else if (wpOf s a).order ≤ (wpOf s b).order then a else b

/-- The scheduler of a warp: its core, and its slot modulo 4 (R10). -/
def schedulerOf (s : State) (w : WarpId) : Nat := (blockD s w.block).core * 4 + (wpOf s w).slot % 4

/-- The warps that the schedulers would issue from, by scheduler. -/
def chosen (s : State) : List (Nat × WarpId) :=
  ((allWarps s).filter (warpReady s)).foldl (fun l w =>
    let k := schedulerOf s w
    aset l k (match aget l k with | some x => better s x w | none => w)) []

/-- The lanes that sleep in WAITA. -/
def asleepLanes (s : State) : List (WarpId × Nat) :=
  (allWarps s).flatMap (fun w => (List.range 32).filterMap (fun l =>
    if (waitaSleep (wpOf s w) l).isSome then some (w, l) else none))

/-- The `n`-th entry of a list, counting around. -/
def nth {α : Type} (l : List α) (n : Nat) : Option α := l[n % l.length]?

/-- What the machine does next of its own accord: an event that is due; else a scheduler in turn issues; sleeping lanes are
checked from time to time (R210). -/
def nextAct (s : State) : Option Act :=
  let sleepers := asleepLanes s
  let warps := chosen s
  let check := (nth sleepers (s.clock / 64)).map (fun x => Act.event (.waitaCheck x.1 x.2))
  if s.clock % 64 = 0 && !sleepers.isEmpty then check
  else match (dueEvents s).find? (changes s) with
    | some i => some (.event i)
    | none => if warps.isEmpty then check else (nth warps s.clock).map (fun x => .issue x.2)

/-- A step without an input: one tick passes. -/
def idleStep (s : State) : Host.Outcome State Fault Refusal :=
  let t := { s with clock := s.clock + 1 }
  match nextAct s with
  | some a => doAct a t
  | none => .next t

/-- The step's own action. -/
def act (s : State) : Host.Outcome State Fault Refusal :=
  match s.inputs with
  | [] => idleStep s
  | x :: rest => doAct x.act { s with inputs := rest, clock := s.clock + x.ticks }

end Sys2Proof.Machine
end

