-- ==== Sys2Proof/Machine/Step.lean ====
section
/-!
DEFINITION. Machine/Step.lean: one step of the machine, and a word placed where the next step runs it.
-/
namespace Sys2Proof.Machine

/-- One step: its own action, then all that comes about within it. -/
def step (s : State) : Host.Outcome State Fault Refusal := closeStep s.out.length (act s)

/-- R28, log entry 3, DESIGN CHOICE: the table's word and the extension word above it, as the code of a loaded launch. -/
def State.withFetchWord (s : State) (nbits w : Nat) : State :=
  let inHandler := match decodeTableWord nbits w with
    | some (.tret _) | some (.tretExit _) => true
    | _ => false
  loadWord (BitVec.ofNat 32 (w % 2 ^ nbits)) (BitVec.ofNat 32 (w % 2 ^ nbits / 2 ^ 32)) inHandler s

end Sys2Proof.Machine
end

