-- ==== Sys2Proof/Safety.lean ====
section
/-!
DEFINITION. Safety.lean: what a safe run is, and the terms in which claims speak of a word in hand: when it goes its own
way, which members it has, how their warps go on, and what it leaves as it was.
-/
namespace Sys2Proof
open Machine

/-- A step that neither stops with a fault nor is refused. -/
def stepsOn (s : State) : Prop := ∃ t, step s = .next t

/-- The outcome is a next state, of which `P` holds. -/
def Next (o : Host.Outcome State Fault Refusal) (P : State → Prop) : Prop := ∃ t, o = .next t ∧ P t

/-- A word of lane or sub-warp scope meets nothing at issue that keeps its effect from it: no trap (R17, R50), no stall
for a release (R470), a checkpoint (R411), a 65th outstanding result (R40) or earlier accesses of its threads (R180, R187 to
R190, R245), and no lane of a transaction that it aborts (R213, R471). Its issue group has a lane (R28). -/
structure Issues (i : Instr) (h : Hdr) (c : Cur) (s : State) : Prop where
  some : c.group ≠ 0
  scope : h.scope = .own
  legal : issueTrap s c h i = none
  free : relStall (warpD s c.block c.warp) c h i = false
  ready : ownCheckpoint (warpD s c.block c.warp) c.pc = false
  room : (isLate i && outsFull (warpD s c.block c.warp)) = false
  order : orderStall (warpD s c.block c.warp) c i = false
  calm : txHit i h (warpD s c.block c.warp) c.group = 0

/-- The word `i` with frame `h` is in hand: it is issued and goes its own way, or its rendezvous is complete and this is
its single execution (R137). -/
structure InHand (i : Instr) (h : Hdr) (c : Cur) (s : State) : Prop where
  cur : s.cur = some c
  phys : s.badPhys = false
  goes : (∃ r, c.single = some r) ∨ (c.single = none ∧ Issues i h c s)

/-- A member of the word in hand that has lanes left, with the warp it is. -/
structure Contributes (s : State) (c : Cur) (e : Env) : Prop where
  mem : e ∈ members s c
  lanes : e.lanes ≠ 0
  warp : ∃ b, getBlock s c.block = some b ∧ b.warps[e.w]? = some e.wp

/-- The parts of a warp that its words read and write as registers, and its control state, left out; whether a lane came to
its meeting matters within the step alone (R226). -/
def Warp.rest (wp : Warp) : Warp :=
  { wp with regs := [], preds := [], s := [], g := 0, lanes := [], retired := 0, marker := false, switched := false }

/-- R28, R38, R130, R230: after a word the lanes `m` run at `next`, meetings take place, the word is counted, the
switch marker stands if S is set, and nothing but registers is otherwise changed. -/
structure GoesOn (h : Hdr) (m : Lanes) (next : BitVec 53) (w w' : Warp) : Prop where
  lanes : w'.lanes = (w.setLanes m (fun x => { x with pc := next, st := .running })).meetings.lanes
  retired : w'.retired = w.retired + 1
  marker : w'.marker = (w.marker || h.s)
  rest : Warp.rest w' = Warp.rest w

/-- The lane registers, predicates, uniform registers and uniform predicates of a warp are those of another. -/
structure SameRegs (w w' : Warp) : Prop where
  regs : w'.regs = w.regs
  preds : w'.preds = w.preds
  s : w'.s = w.s
  g : w'.g = w.g

/-- The state `t` differs from `s` in warps and rendezvous of the block in hand alone; `eff` says how each contributing
member's warp ends, and every other warp is as before. At sub-warp scope no rendezvous changes. -/
structure WordEnds (c : Cur) (s t : State) (eff : Env → Warp → Prop) : Prop where
  only : t = { s with blocks := t.blocks }
  others : ∀ id, id ≠ c.block → getBlock t id = getBlock s id
  block : ∀ b, getBlock s c.block = some b →
    ∃ b', getBlock t c.block = some b' ∧ b' = { b with warps := b'.warps, rdvs := b'.rdvs }
      ∧ (c.single = none → b'.rdvs = b.rdvs)
      ∧ (∀ w, (∀ e, Contributes s c e → e.w ≠ w) → b'.warps[w]? = b.warps[w]?)
  eff : ∀ e, Contributes s c e → eff e (warpD t c.block e.w)

/-- As `GoesOn`, each of the lanes `m` going to its own address. -/
structure GoesTo (h : Hdr) (m : Lanes) (next : Nat → BitVec 53) (w w' : Warp) : Prop where
  lanes : w'.lanes = (({ w with lanes := w.lanes.mapIdx (fun l x =>
    if m.getLsbD l then { x with pc := next l, st := .running } else x) } : Warp).meetings).lanes
  retired : w'.retired = w.retired + 1
  marker : w'.marker = (w.marker || h.s)
  rest : Warp.rest w' = Warp.rest w

/-- The state differs in warps of the block in hand, and in the scheduler's choice of a deterministic launch, which the
word gives up (R226). -/
structure Switches (c : Cur) (s t : State) (eff : Env → Warp → Prop) : Prop where
  ends : WordEnds c s { t with cores := s.cores } eff
  cores : ∀ k, coreD t k = { coreD s k with current := (coreD t k).current }
  current : (coreD t (blockD s c.block).core).current = (coreD s (blockD s c.block).core).current.filter
    (fun x => !(x.2.block == c.block && x.2.warp == c.warp))

/-- R392: the trap record, its fields from the top down. -/
def record (addr : BitVec 64) (lanes : Lanes) (aux : BitVec 16) (sub cause : BitVec 8) (ew iw : Word) (pc : BitVec 53) :
    BitVec 256 := addr ++ lanes ++ aux ++ sub ++ cause ++ ew ++ iw ++ 0#11 ++ pc

/-- R393: a trap raised now is delivered at once to a handler: traps are not masked, none is being delivered, no result
is outstanding, and the handler's address is not 0. -/
structure TakesTraps (s : State) (id : BlockId) (w : Nat) (handler : BitVec 64) : Prop where
  block : ∃ b x, getBlock s id = some b ∧ b.warps[w]? = some x
  tmask : (warpD s id w).tmask = false
  trapping : (warpD s id w).trapping = none
  results : (warpD s id w).results = []
  address : handler = (if (launchD s id.lid).super then s.csr.stvec else (launchD s id.lid).handler)
  nonzero : handler ≠ 0

/-- R26, R52, R139: nothing of the block is suspended for a trap of warp `w`, and none waits for one. -/
structure Unsuspended (s : State) (id : BlockId) (w : Nat) : Prop where
  warps : ∀ b, getBlock s id = some b → ∀ x ∈ b.warps, w ∉ x.frozenBy ∧ ∀ p ∈ x.frozenPend, p.1 ≠ w
  rdvs : ∀ b, getBlock s id = some b → ∀ r ∈ b.rdvs, r.phase ≠ .suspended w ∧ ∀ q, r.phase ≠ .pended w q

/-- R393, step 3: the record is written, traps are masked, the lanes that the record names run at the handler, every other
lane that has not exited is suspended, and nothing else of the warp changes. -/
structure Handles (r : BitVec 256) (handler : BitVec 53) (w w' : Warp) : Prop where
  trec : w'.trec = r
  tmask : w'.tmask = true
  hand : w'.hand = r.extractLsb' 160 32 &&& w.live
  lanes : w'.lanes = (({ w with lanes := w.lanes.mapIdx (fun l x =>
      if (r.extractLsb' 160 32 &&& w.live).getLsbD l then { x with pc := handler, st := .running, susp := false, txe := false }
      else if w.live.getLsbD l then { x with susp := true } else x) } : Warp).meetings).lanes
  rest : w' = { w with trec := w'.trec, tmask := w'.tmask, hand := w'.hand, lanes := w'.lanes, switched := w'.switched,
                       trapping := none }

/-- Only warp `w` of block `id` differs, and it is now `x`. -/
structure OnlyWarp (id : BlockId) (w : Nat) (x : Warp) (s t : State) : Prop where
  only : t = { s with blocks := t.blocks }
  others : ∀ j, j ≠ id → getBlock t j = getBlock s j
  block : ∀ b, getBlock s id = some b → ∃ b', getBlock t id = some b' ∧ b' = { b with warps := b'.warps }
    ∧ ∀ v, v ≠ w → b'.warps[v]? = b.warps[v]?
  warp : warpD t id w = x

/-- A word of a member writes `n` consecutive lane registers from `d` (the lower half of a 64-bit value first, R43) in
its active lanes, and nothing else (R38, R96). -/
structure LaneResult (h : Hdr) (c : Cur) (d : Name) (n : Nat) (v : Nat → BitVec 64) (e : Env) (w' : Warp) : Prop where
  goes : GoesOn h e.lanes (c.pc + wordLen h) e.wp w'
  low : ∀ l, (e.active h).getLsbD l → w'.reg d l = (v l).setWidth 32
  high : n = 2 → ∀ l, (e.active h).getLsbD l → w'.reg (d + 1) l = (v l >>> 32).setWidth 32
  kept : ∀ k l, l < 32 → ¬((e.active h).getLsbD l ∧ (k = d ∨ (n = 2 ∧ k = d + 1))) → w'.reg k l = e.wp.reg k l
  preds : w'.preds = e.wp.preds
  s : w'.s = e.wp.s
  g : w'.g = e.wp.g

/-- A word of a member writes predicate `p` in its active lanes, and nothing else; p7 reads true and stays so (R44). -/
structure PredResult (h : Hdr) (c : Cur) (p : BitVec 3) (v : Nat → Bool) (e : Env) (w' : Warp) : Prop where
  goes : GoesOn h e.lanes (c.pc + wordLen h) e.wp w'
  value : ∀ l, (e.active h).getLsbD l → w'.pred p l = (p == 7 || v l)
  kept : ∀ k l, l < 32 → ¬((e.active h).getLsbD l ∧ k = p) → w'.pred k l = e.wp.pred k l
  regs : w'.regs = e.wp.regs
  s : w'.s = e.wp.s
  g : w'.g = e.wp.g

/-- A word of a member writes uniform register `d` where its guard is true, and nothing else (R153). -/
structure UniResult (h : Hdr) (c : Cur) (d : Name) (v : BitVec 64) (e : Env) (w' : Warp) : Prop where
  goes : GoesOn h e.lanes (c.pc + wordLen h) e.wp w'
  value : guardG h e.wp → w'.sreg d = v
  kept : ∀ k, ¬(guardG h e.wp ∧ k.toNat = d.toNat) → w'.sreg k = e.wp.sreg k
  regs : w'.regs = e.wp.regs
  preds : w'.preds = e.wp.preds
  g : w'.g = e.wp.g

/-- A word leaves a variable-latency result of the lanes `m` outstanding, which is there from issue: `vs` are its register
writes, still to be made (R38, R39); the warp goes on. -/
def LeavesResult (h : Hdr) (c : Cur) (m : Lanes) (vs : List RegWrite → Prop) (e : Env) (w' : Warp) : Prop :=
  ∃ o : Outst, o.id = e.wp.nextOut ∧ o.pc = c.pc ∧ o.lanes = m ∧ o.parts = [] ∧ o.lead = none ∧ vs o.vals
    ∧ GoesOn h e.lanes (c.pc + wordLen h) { e.wp with outs := e.wp.outs ++ [o], nextOut := e.wp.nextOut + 1 } w'

/-- A word of sub-warp scope gives its guard-true member a variable-latency result: it is outstanding with the register writes
`vs`, which are still to be made (R38, R39); no register has changed. -/
structure LateUni (h : Hdr) (c : Cur) (vs : List RegWrite) (e : Env) (w' : Warp) : Prop where
  out : guardG h e.wp → LeavesResult h c e.lanes (· = vs) e w'
  off : ¬ guardG h e.wp → GoesOn h e.lanes (c.pc + wordLen h) e.wp w'
  same : SameRegs e.wp w'

/-- A word gives its members `v` in uniform register `d`: as an outstanding result at sub-warp scope, written at once by the
single execution of a wider one (R38, R137, R153). -/
def UniGives (h : Hdr) (c : Cur) (d : Name) (v : BitVec 64) (e : Env) (w' : Warp) : Prop :=
  if c.single.isSome then UniResult h c d v e w' else LateUni h c [.uni d v] e w'

/-- From the state `s'` that its effect leaves, the word in hand only goes on: no register of its members changes. -/
def Ends (h : Hdr) (c : Cur) (s' t : State) : Prop :=
  WordEnds c s' t (fun e w' => GoesOn h e.lanes (c.pc + wordLen h) e.wp w' ∧ SameRegs e.wp w')

/-- From the state `s'` that its effect leaves, the word in hand gives its guard-true members `v` in uniform register `d` and
goes on. -/
def EndsWith (h : Hdr) (c : Cur) (d : Name) (v : BitVec 64) (s' t : State) : Prop :=
  WordEnds c s' t (fun e w' => UniGives h c d v e w')

/-- As `EndsWith`, for a fixed-latency result: it is written as the word ends (R38). -/
def EndsNow (h : Hdr) (c : Cur) (d : Name) (v : BitVec 64) (s' t : State) : Prop :=
  WordEnds c s' t (fun e w' => UniResult h c d v e w')

/-- The word in hand answers a state in which every member has `n` lane registers from `d` written with `v`. -/
def LaneWrites (i : Instr) (h : Hdr) (c : Cur) (s : State) (d : Name) (n : Nat) (v : Env → Nat → BitVec 64) : Prop :=
  InHand i h c s → Next (exec i s) (fun t => WordEnds c s t (fun e w' => LaneResult h c d n (v e) e w'))

/-- The word in hand answers a state in which every member has predicate `p` written with `v`. -/
def PredWrites (i : Instr) (h : Hdr) (c : Cur) (s : State) (p : BitVec 3) (v : Env → Nat → Bool) : Prop :=
  InHand i h c s → Next (exec i s) (fun t => WordEnds c s t (fun e w' => PredResult h c p (v e) e w'))

/-- The word in hand answers a state in which every guard-true member is given `v` of the lead member in uniform register `d`
as a variable-latency result (R38, R153). -/
def UniLate (i : Instr) (h : Hdr) (c : Cur) (s : State) (d : Name) (v : Env → BitVec 64) : Prop :=
  InHand i h c s → Next (exec i s) (fun t => WordEnds c s t (fun e w' =>
    ∀ x, leadOf h s c = some x ∨ ¬ guardG h e.wp → UniGives h c d (v x) e w'))

/-- The word in hand answers a state in which every guard-true member has uniform register `d` written with `v` of the
lead member (R153). -/
def UniWrites (i : Instr) (h : Hdr) (c : Cur) (s : State) (d : Name) (v : Env → BitVec 64) : Prop :=
  InHand i h c s → Next (exec i s) (fun t => WordEnds c s t (fun e w' =>
    ∀ x, leadOf h s c = some x ∨ ¬ guardG h e.wp → UniResult h c d (v x) e w'))

end Sys2Proof
end

