-- ==== Sys2Proof/Certificates/Slice0/Obligations.lean ====
section
/-!
DEFINITION. Certificates/Slice0/Obligations.lean: the statements for the provers.
-/
open Sys2Proof Sys2Proof.Machine

/-! ### Lane words (spec 04) -/

/-- R101, R38, R96: the results of IADD to IABSD, and their frame. Val of an immediate is R99's. Completion is stated for:
iadd, isub, imul, imulh, imin, imax, iabsd. -/
def Claim.IntegerResults : Prop :=
  ∀ (h : Hdr) (c : Cur) (s : State) (t : IntTy) (d : Name) (a : ASrc) (b : BSrc) (uns : Bool),
    let lo : Int := if t.signed then -(2 ^ (t.width - 1)) else 0
    let hi : Int := if t.signed then 2 ^ (t.width - 1) - 1 else 2 ^ t.width - 1
    let narrow (x : Int) : BitVec 64 := BitVec.ofInt 64 x
    let A (e : Env) (l : Nat) : Int := intA e t a l
    let B (e : Env) (l : Nat) : Int := intB e t b l
    let A1 (e : Env) (l : Nat) : Int := intA e (if uns then .n32 else .i32) a l
    let B1 (e : Env) (l : Nat) : Int := intB e (if uns then .n32 else .i32) b l
    (∀ sat, LaneWrites (.iadd h t sat d a b) h c s d t.regs
      (fun e l => narrow (if sat then max lo (min hi (A e l + B e l)) else A e l + B e l)))
    ∧ (∀ sat, LaneWrites (.isub h t sat d a b) h c s d t.regs
      (fun e l => narrow (if sat then max lo (min hi (A e l - B e l)) else A e l - B e l)))
    ∧ LaneWrites (.imul h t d a b) h c s d t.regs (fun e l => narrow (A e l * B e l))
    ∧ LaneWrites (.imulh h uns d a b) h c s d 1 (fun e l => narrow (A1 e l * B1 e l / 2 ^ 32))
    ∧ LaneWrites (.imin h t d a b) h c s d t.regs (fun e l => narrow (min (A e l) (B e l)))
    ∧ LaneWrites (.imax h t d a b) h c s d t.regs (fun e l => narrow (max (A e l) (B e l)))
    ∧ LaneWrites (.iabsd h t d a b) h c s d t.regs (fun e l => narrow (max (A e l) (B e l) - min (A e l) (B e l)))

/-- R102: IDIV and IREM, for every divisor. Completion is stated for: idiv, irem. -/
def Obligations.DivisionResults : Prop :=
  ∀ (h : Hdr) (c : Cur) (s : State) (uns : Bool) (d : Name) (a : ASrc) (b : BSrc),
    let A (e : Env) (l : Nat) : Int := intA e (if uns then .n32 else .i32) a l
    let B (e : Env) (l : Nat) : Int := intB e (if uns then .n32 else .i32) b l
    LaneWrites (.idiv h uns d a b) h c s d 1 (fun e l => BitVec.ofInt 64 (
      if B e l = 0 then 2 ^ 32 - 1
      else if uns = false ∧ A e l = -2 ^ 31 ∧ B e l = -1 then -2 ^ 31
      else (A e l).tdiv (B e l)))
    ∧ LaneWrites (.irem h uns d a b) h c s d 1 (fun e l => BitVec.ofInt 64 (
      if B e l = 0 then A e l
      else if uns = false ∧ A e l = -2 ^ 31 ∧ B e l = -1 then 0
      else A e l - (A e l).tdiv (B e l) * B e l))

/-- R103: IMAD, IMADW and IDOT4. Completion is stated for: imad, imadw, idot4. -/
def Claim.MultiplyAddResults : Prop :=
  ∀ (h : Hdr) (c : Cur) (s : State) (uns an bn sat : Bool) (d : Name) (a : ASrc) (b x : Name),
    let v (r : BitVec 32) : Int := if uns then r.toNat else r.toInt
    let w (r : BitVec 64) : Int := if uns then r.toNat else r.toInt
    let byte (u : Bool) (r : BitVec 32) (k : Nat) : Int :=
      if u then (r.extractLsb' (8 * k) 8).toNat else (r.extractLsb' (8 * k) 8).toInt
    let dot (p q : BitVec 32) : Int :=
      byte an p 0 * byte bn q 0 + byte an p 1 * byte bn q 1 + byte an p 2 * byte bn q 2 + byte an p 3 * byte bn q 3
    LaneWrites (.imad h uns d a b x) h c s d 1
      (fun e l => BitVec.ofInt 64 (v (srcA32 e a l) * v (e.wp.reg b l) + v (e.wp.reg x l)))
    ∧ LaneWrites (.imadw h uns d a b x) h c s d 2
      (fun e l => BitVec.ofInt 64 (v (srcA32 e a l) * v (e.wp.reg b l) + w (e.wp.reg64 x l)))
    ∧ LaneWrites (.idot4 h an bn sat d a b x) h c s d 1
      (fun e l =>
        let y : Int := (e.wp.reg x l).toInt + dot (srcA32 e a l) (e.wp.reg b l)
        BitVec.ofInt 64 (if sat then max (-2 ^ 31) (min (2 ^ 31 - 1) y) else y))

/-- R104, R105: LEA, MOV, MOVI and MOVHI. Completion is stated for: lea, mov, movi, movhi. -/
def Claim.MoveResults : Prop :=
  ∀ (h : Hdr) (c : Cur) (s : State) (uns w64 : Bool) (t : IntTy) (d : Name) (a : ASrc) (b : Name) (sh : BitVec 3)
    (imm : BitVec 20),
    LaneWrites (.lea h uns d a b sh) h c s d 2 (fun e l =>
      srcA64 e a l + (if uns then (e.wp.reg b l).setWidth 64 else (e.wp.reg b l).signExtend 64) <<< sh.toNat)
    ∧ LaneWrites (.mov h w64 d a) h c s d (if w64 then 2 else 1) (fun e l =>
      if w64 then srcA64 e a l else (srcA32 e a l).setWidth 64)
    ∧ LaneWrites (.movi h t d imm) h c s d t.regs (fun _ _ =>
      if t.signed then imm.signExtend 64 else imm.setWidth 64)
    ∧ LaneWrites (.movhi h d a imm) h c s d 1 (fun e l =>
      BitVec.ofNat 64 (imm.toNat * 2 ^ 12 + (srcA32 e a l).toNat % 2 ^ 12))

/-- R106, R107: AND, OR, XOR, LOP3, SHL and SHR, bit by bit for the logic words. Completion is stated for: and, or, xor,
lop3, shl, shr. -/
def Claim.LogicResults : Prop :=
  ∀ (h : Hdr) (c : Cur) (s : State) (w64 notb : Bool) (t : IntTy) (d : Name) (a : ASrc) (b : BSrc) (x y : Name)
    (h1 h0 : BitVec 4),
    let n := if w64 then 2 else 1
    let B (e : Env) (l : Nat) : BitVec 64 := if notb then ~~~ rawB e w64 b l else rawB e w64 b l
    let K (e : Env) (l : Nat) : Nat := match b with
      | .reg r => (e.wp.reg r l).toNat % 256
      | .imm v => v.toNat % 256
    let bit (z : Bool) : Nat := if z then 1 else 0
    LaneWrites (.and h w64 notb d a b) h c s d n (fun e l => rawA e w64 a l &&& B e l)
    ∧ LaneWrites (.or h w64 notb d a b) h c s d n (fun e l => rawA e w64 a l ||| B e l)
    ∧ LaneWrites (.xor h w64 notb d a b) h c s d n (fun e l => rawA e w64 a l ^^^ B e l)
    ∧ (∃ r : Env → Nat → BitVec 64, LaneWrites (.lop3 h w64 d a x y h1 h0) h c s d n r
      ∧ ∀ e l k, k < 64 → (r e l).getLsbD k =
        (let i := bit ((rawA e w64 (.lane x) l).getLsbD k) * 2 + bit ((rawA e w64 (.lane y) l).getLsbD k)
         if (rawA e w64 a l).getLsbD k then h1.getLsbD i else h0.getLsbD i))
    ∧ LaneWrites (.shl h w64 d a b) h c s d n (fun e l => rawA e w64 a l <<< K e l)
    ∧ LaneWrites (.shr h t d a b) h c s d t.regs (fun e l => BitVec.ofInt 64 (intA e t a l / 2 ^ K e l))

/-- R108, R109: BFX and BCNT; the counts and the mirror image are said bit by bit. Completion is stated for: bfx, bcnt. -/
def Claim.BitFieldResults : Prop :=
  ∀ (h : Hdr) (c : Cur) (s : State) (uns w64 : Bool) (d : Name) (a : ASrc) (b : BfxSrc),
    let pos (e : Env) (l : Nat) : Nat := match b with
      | .reg r => (e.wp.reg r l).toNat % 256
      | .imm p _ => p.toNat
    let len (e : Env) (l : Nat) : Nat := match b with
      | .reg r => min ((e.wp.reg r l).toNat / 256 % 256) 32
      | .imm _ k => k.toNat
    let n := if w64 then 64 else 32
    let A (e : Env) (l : Nat) : BitVec 64 := if w64 then srcA64 e a l else (srcA32 e a l).setWidth 64
    (∃ r : Env → Nat → BitVec 32, LaneWrites (.bfx h uns d a b) h c s d 1 (fun e l => (r e l).setWidth 64)
      ∧ ∀ e l k, k < 32 → len e l ≤ 32 → (r e l).getLsbD k =
        (let i := pos e l + min k (len e l - 1)
         if len e l = 0 ∨ (uns = true ∧ len e l ≤ k) then false
         else if i < 32 then (srcA32 e a l).getLsbD i else !uns && (srcA32 e a l).getLsbD 31))
    ∧ LaneWrites (.bcnt h .pop w64 d a) h c s d 1
      (fun e l => BitVec.ofNat 64 ((List.range n).countP (fun k => (A e l).getLsbD k)))
    ∧ (∃ r : Env → Nat → Nat, LaneWrites (.bcnt h .clz w64 d a) h c s d 1 (fun e l => BitVec.ofNat 64 (r e l))
      ∧ ∀ e l, r e l ≤ n ∧ (∀ k, n - r e l ≤ k → k < n → (A e l).getLsbD k = false)
        ∧ (r e l < n → (A e l).getLsbD (n - 1 - r e l) = true))
    ∧ (∃ r : Env → Nat → Nat, LaneWrites (.bcnt h .ctz w64 d a) h c s d 1 (fun e l => BitVec.ofNat 64 (r e l))
      ∧ ∀ e l, r e l ≤ n ∧ (∀ k, k < r e l → (A e l).getLsbD k = false)
        ∧ (r e l < n → (A e l).getLsbD (r e l) = true))
    ∧ (∃ r : Env → Nat → BitVec 64, LaneWrites (.bcnt h .brev w64 d a) h c s d (if w64 then 2 else 1) r
      ∧ ∀ e l k, k < n → (r e l).getLsbD k = (A e l).getLsbD (n - 1 - k))
/-- R110 to R113, R120: the results of the FP32 words and HFMA2. Each is one rounding of the exact result (`encF32`,
`Fmt.enc`), but for FMIN and FMAX, which return an operand (R89), the special functions (log entry 22, DEDUCED) and FCLASS.
Completion is stated for: fadd, fmul, ffma, fmin, fmax, frcp, frsq, fsqrt, fex2, flg2, fsin, fcos, hfma2, fclass, frnd. -/
def Claim.FloatResults : Prop :=
  ∀ (h : Hdr) (c : Cur) (s : State) (rm : Rm) (na nb nanp swb bf : Bool) (fmt : ClassFmt) (d : Name) (a : ASrc) (b : BSrc)
    (x y : Name),
    let up (r : BitVec 32) : BitVec 64 := r.setWidth 64
    let A (e : Env) (l : Nat) : BitVec 32 := srcA32 e a l
    let B (e : Env) (l : Nat) : BitVec 32 := match b with
      | .reg n => e.wp.reg n l
      | .imm v => v ++ 0#12
    let flip (n : Bool) (v : FV) : FV := match v with
      | .nan => .nan
      | .inf g => .inf (g != n)
      | .fin g m k => .fin (g != n) m k
    let half (r : BitVec 32) (k : Nat) : Nat := (r.extractLsb' (16 * k) 16).toNat
    let f : Fmt := if bf then fmtBf16 else fmtF16
    let fma2 (e : Env) (l k : Nat) : Nat :=
      f.enc rm none (FV.fma (rm == .rd) (flip na (f.dec (half (A e l) k)))
        (f.dec (half (e.wp.reg x l) (if swb then 1 - k else k))) (flip nb (f.dec (half (e.wp.reg y l) k))))
    LaneWrites (.fadd h rm na nb d a b) h c s d 1 (fun e l =>
      up (encF32 rm (FV.add (rm == .rd) (flip na (f32 (A e l))) (flip nb (f32 (B e l))))))
    ∧ LaneWrites (.fmul h rm na nb d a b) h c s d 1 (fun e l =>
      up (encF32 rm (FV.mul (flip na (f32 (A e l))) (flip nb (f32 (B e l))))))
    ∧ LaneWrites (.ffma h rm na nb d a x y) h c s d 1 (fun e l =>
      up (encF32 rm (FV.fma (rm == .rd) (flip na (f32 (A e l))) (f32 (e.wp.reg x l)) (flip nb (f32 (e.wp.reg y l))))))
    ∧ LaneWrites (.fmin h nanp na nb d a b) h c s d 1 (fun e l =>
      up (f32MinMax false nanp (negBits na (A e l)) (negBits nb (B e l))))
    ∧ LaneWrites (.fmax h nanp na nb d a b) h c s d 1 (fun e l =>
      up (f32MinMax true nanp (negBits na (A e l)) (negBits nb (B e l))))
    ∧ LaneWrites (.frcp h rm d a) h c s d 1 (fun e l => up (frcpF rm (f32 (A e l))))
    ∧ LaneWrites (.frsq h rm d a) h c s d 1 (fun e l => up (frsqF rm (f32 (A e l))))
    ∧ LaneWrites (.fsqrt h rm d a) h c s d 1 (fun e l => up (fsqrtF rm (f32 (A e l))))
    ∧ LaneWrites (.fex2 h d a) h c s d 1 (fun e l => up (fex2F (f32 (A e l))))
    ∧ LaneWrites (.flg2 h d a) h c s d 1 (fun e l => up (flg2F (f32 (A e l))))
    ∧ LaneWrites (.fsin h d a) h c s d 1 (fun e l => up (fsinF (f32 (A e l))))
    ∧ LaneWrites (.fcos h d a) h c s d 1 (fun e l => up (fcosF (f32 (A e l))))
    ∧ LaneWrites (.hfma2 h swb bf nb na rm d a x y) h c s d 1 (fun e l =>
      up (BitVec.ofNat 32 (fma2 e l 0 + fma2 e l 1 * 2 ^ 16)))
    ∧ LaneWrites (.fclass h fmt d a) h c s d 1 (fun e l =>
      1#64 <<< classBit (match fmt with | .f32 => fmtF32 | .f16 => fmtF16 | .bf16 => fmtBf16) (A e l).toNat)
    ∧ LaneWrites (.frnd h rm d a) h c s d 1 (fun e l => up (frnd rm (A e l)))

/-- R84, R86, R89: a NaN operand gives the canonical NaN 0x7FC0_0000, whatever its payload and sign; FMIN and FMAX give it
under NANP or when both operands are NaN. -/
def Claim.FloatNaNs : Prop :=
  ∀ (h : Hdr) (c : Cur) (s : State) (rm : Rm) (na nb nanp : Bool) (d : Name) (a : ASrc) (b : BSrc) (x y : Name),
    let nan (r : BitVec 32) : Prop := r.extractLsb' 23 8 = 0xFF#8 ∧ r.extractLsb' 0 23 ≠ 0
    let A (e : Env) (l : Nat) : BitVec 32 := srcA32 e a l
    let B (e : Env) (l : Nat) : BitVec 32 := match b with
      | .reg n => e.wp.reg n l
      | .imm v => v ++ 0#12
    let gives (i : Instr) (when : Env → Nat → Prop) : Prop :=
      InHand i h c s → Next (exec i s) (fun t => WordEnds c s t (fun e w' =>
        ∀ l, (e.active h).getLsbD l → when e l → w'.reg d l = 0x7FC00000#32))
    gives (.fadd h rm na nb d a b) (fun e l => nan (A e l) ∨ nan (B e l))
    ∧ gives (.fmul h rm na nb d a b) (fun e l => nan (A e l) ∨ nan (B e l))
    ∧ gives (.ffma h rm na nb d a x y) (fun e l => nan (A e l) ∨ nan (e.wp.reg x l) ∨ nan (e.wp.reg y l))
    ∧ gives (.fmin h nanp na nb d a b) (fun e l =>
      (nan (A e l) ∧ nan (B e l)) ∨ (nanp = true ∧ (nan (A e l) ∨ nan (B e l))))
    ∧ gives (.fmax h nanp na nb d a b) (fun e l =>
      (nan (A e l) ∧ nan (B e l)) ∨ (nanp = true ∧ (nan (A e l) ∨ nan (B e l))))

/-- R114 to R119: conversions, packing, unpacking and MX scales; PACK leaves the bytes that its codes do not take. Completion
is stated for: cvtf, cvti, pack, unpack, qscale. -/
def Obligations.ConversionResults : Prop :=
  ∀ (h : Hdr) (c : Cur) (s : State) (dt sty : Ty) (rm : Rm) (seed : Seed) (k : BitVec 2) (j : BitVec 3) (d : Name)
    (a : ASrc) (b : Name) (sc : Option Name),
    let draw (e : Env) (l q : Nat) : Draw :=
      { seed := match seed with
          | .launch => (launchD s c.block.lid).seed
          | .reg n => e.wp.sreg (n.setWidth 7)
        idx := BitVec.ofNat 64 (((c.block.blk * 32 + e.w) * 32 + l) * 4 + q) }
    let scale (e : Env) (l : Nat) : Option Nat := sc.map (fun n => (e.wp.reg n l).toNat % 256)
    LaneWrites (.cvtf h dt sty rm seed d a) h c s d 1 (fun e l =>
      (cvtfVal dt sty rm (draw e l 0) (if sty.width = 64 then (srcA64 e a l).toNat else (srcA32 e a l).toNat)).setWidth 64)
    ∧ LaneWrites (.cvti h dt sty rm d a) h c s d (if dt.width = 64 then 2 else 1) (fun e l =>
      BitVec.ofInt 64 (cvtiVal dt sty rm (if sty.width = 64 then (srcA64 e a l).toNat else (srcA32 e a l).toNat)))
    ∧ (∃ r : Env → Nat → BitVec 32, LaneWrites (.pack h dt k rm seed d a b) h c s d 1 (fun e l => (r e l).setWidth 64)
      ∧ (k.toNat < dt.packSlots → ∀ e l, e.s = s → e.c = c →
        let q := if dt.width = 16 then 0 else 2 * k.toNat
        let x := BitVec.ofNat 16 (packElem dt rm (draw e l q) (srcA32 e a l))
        let y := BitVec.ofNat 16 (packElem dt rm (draw e l (q + 1)) (e.wp.reg b l))
        let byte (v : BitVec 32) (n : Nat) : BitVec 8 := v.extractLsb' (8 * n) 8
        if dt.width = 16 then r e l = y ++ x
        else if dt.width = 4 then
          byte (r e l) k.toNat = y.extractLsb' 0 4 ++ x.extractLsb' 0 4
          ∧ ∀ n, n < 4 → n ≠ k.toNat → byte (r e l) n = byte (e.wp.reg d l) n
        else
          byte (r e l) (2 * k.toNat) = x.setWidth 8 ∧ byte (r e l) (2 * k.toNat + 1) = y.setWidth 8
          ∧ ∀ n, n < 4 → n / 2 ≠ k.toNat → byte (r e l) n = byte (e.wp.reg d l) n))
    ∧ LaneWrites (.unpack h sty j d a sc) h c s d 1 (fun e l =>
      (unpackVal sty j.toNat (scale e l) (srcA32 e a l).toNat).setWidth 64)
    ∧ LaneWrites (.qscale h dt rm seed d a sc) h c s d 1 (fun e l =>
      BitVec.ofNat 64 (qscaleVal dt rm (draw e l 0) (scale e l) (srcA32 e a l)))

/-- R121 to R124: comparisons, SEL and the three forms of PLOP. Completion is stated for: icmp, fcmp, sel, plop. -/
def Claim.PredicateResults : Prop :=
  ∀ (h : Hdr) (c : Cur) (s : State) (cc : Cc) (fc : FCc) (t : IntTy) (w64 neg : Bool) (p q r : BitVec 3) (d : Name)
    (a : ASrc) (b : BSrc) (x : Name) (lut : BitVec 8) (mask : BitVec 7),
    let bit (z : Bool) : Nat := if z then 1 else 0
    let B (e : Env) (l : Nat) : BitVec 32 := match b with
      | .reg n => e.wp.reg n l
      | .imm v => v ++ 0#12
    PredWrites (.icmp h cc t p a b) h c s p (fun e l => match cc with
      | .eq => decide (intA e t a l = intB e t b l)
      | .ne => decide (intA e t a l ≠ intB e t b l)
      | .lt => decide (intA e t a l < intB e t b l)
      | .le => decide (intA e t a l ≤ intB e t b l)
      | .gt => decide (intA e t a l > intB e t b l)
      | .ge => decide (intA e t a l ≥ intB e t b l))
    ∧ PredWrites (.fcmp h fc p a b) h c s p (fun e l => fccHolds fc (f32 (srcA32 e a l)) (f32 (B e l)))
    ∧ LaneWrites (.sel h w64 p neg d a x) h c s d (if w64 then 2 else 1) (fun e l =>
      if e.wp.pred p l != neg then rawA e w64 a l else rawA e w64 (.lane x) l)
    ∧ (∀ o, PredWrites (.plop h (.lut o p q r lut)) h c s o (fun e l =>
      lut.getLsbD (4 * bit (e.wp.pred p l) + 2 * bit (e.wp.pred q l) + bit (e.wp.pred r l))))
    ∧ (∃ v : Env → Nat → BitVec 8, LaneWrites (.plop h (.toReg d)) h c s d 1 (fun e l => (v e l).setWidth 64)
      ∧ ∀ e l (n : BitVec 3), (v e l).getLsbD n.toNat = e.wp.pred n l)
    ∧ (InHand (.plop h (.fromReg a mask)) h c s → Next (exec (.plop h (.fromReg a mask)) s) (fun u =>
      WordEnds c s u (fun e w' => GoesOn h e.lanes (c.pc + wordLen h) e.wp w'
        ∧ w'.regs = e.wp.regs ∧ w'.s = e.wp.s ∧ w'.g = e.wp.g
        ∧ ∀ (n : BitVec 3) (l : Nat), l < 32 → w'.pred n l =
          if (e.active h).getLsbD l ∧ n ≠ 7 ∧ mask.getLsbD n.toNat then (srcA32 e a l).getLsbD n.toNat
          else e.wp.pred n l)))

/-- R149 to R152: SHFL, VOTE, PRMT and XRED. Completion is stated for: shfl, vote, prmt, xred. -/
def Claim.CrossLaneResults : Prop :=
  ∀ (h : Hdr) (c : Cur) (s : State) (edge neg : Bool) (sw : SegW) (op : RedOp) (d : Name) (a : ASrc) (b : ShflB)
    (x : Name) (p : BitVec 3) (sel : BitVec 16),
    let w : Nat := match sw with | .w32 => 32 | .w16 => 16 | .w8 => 8 | .w4 => 4
    let k (e : Env) (l : Nat) : Nat := match b with
      | .reg n => (e.wp.reg n l).toNat % 32
      | .imm v => v.toNat
    let base (l : Nat) : Nat := l - l % w
    let from' (e : Env) (l src : Nat) : BitVec 64 :=
      (srcA32 e a (if (e.active h).getLsbD src then src else l)).setWidth 64
    let value (e : Env) (l : Nat) : Bool := e.wp.pred p l != neg
    let all (f : Bool → Bool) : Prop := ∀ e ∈ members s c, ∀ l, (e.active h).getLsbD l → f (value e l) = true
    let code (e : Env) (l : Nat) : BitVec 64 := e.wp.reg x l ++ srcA32 e a l
    let pick (v : BitVec 64) (n : BitVec 4) : BitVec 8 :=
      let y : BitVec 8 := v.extractLsb' (8 * (n.toNat % 8)) 8
      if n.toNat < 8 then y else if y.getLsbD 7 then 0xFF#8 else 0#8
    LaneWrites (.shfl h .sel sw d a b) h c s d 1 (fun e l => from' e l (base l + k e l % w))
    ∧ LaneWrites (.shfl h (.ahead edge) sw d a b) h c s d 1 (fun e l =>
      from' e l (if edge = true ∧ w ≤ l % w + k e l then l else base l + (l % w + k e l) % w))
    ∧ LaneWrites (.shfl h (.behind edge) sw d a b) h c s d 1 (fun e l =>
      from' e l (if edge = true ∧ l % w < k e l then l else base l + (((l % w : Nat) - (k e l : Nat) : Int) % w).toNat))
    ∧ LaneWrites (.shfl h .pair sw d a b) h c s d 1 (fun e l => from' e l (base l + (l % w ^^^ k e l) % w))
    ∧ LaneWrites (.shfl h .rev sw d a b) h c s d 1 (fun e l => from' e l (base l + (w - 1 - l % w)))
    ∧ (∃ v : Bool, PredWrites (.vote h .all neg d p) h c s (d.setWidth 3) (fun _ _ => v) ∧ (v = true ↔ all id))
    ∧ (∃ v : Bool, PredWrites (.vote h .any neg d p) h c s (d.setWidth 3) (fun _ _ => v) ∧ (v = false ↔ all not))
    ∧ (∃ v : Bool, PredWrites (.vote h .uni neg d p) h c s (d.setWidth 3) (fun _ _ => v) ∧ (v = true ↔ all id ∨ all not))
    ∧ LaneWrites (.vote h .cnt neg d p) h c s d 1 (fun _ _ =>
      BitVec.ofNat 64 (((members s c).map (fun e => (List.range 32).countP (fun l => (e.active h).getLsbD l && value e l))).sum))
    ∧ (h.scope = .own ∨ h.scope = .warp → ∃ v : BitVec 32,
      LaneWrites (.vote h .mask neg d p) h c s d 1 (fun _ _ => v.setWidth 64)
      ∧ ∀ l, v.getLsbD l = true ↔ ∃ e ∈ members s c, (e.active h).getLsbD l = true ∧ value e l = true)
    ∧ (h.scope = .own ∨ h.scope = .warp → (members s c).length ≤ 1 → ∃ v : Nat,
      LaneWrites (.vote h .first neg d p) h c s d 1 (fun _ _ => BitVec.ofNat 64 v)
      ∧ v ≤ 32 ∧ (∀ e ∈ members s c, ∀ l, l < v → ¬((e.active h).getLsbD l = true ∧ value e l = true))
      ∧ (v < 32 → ∃ e ∈ members s c, (e.active h).getLsbD v = true ∧ value e v = true))
    ∧ LaneWrites (.prmt h sel d a x) h c s d 1 (fun e l =>
      (pick (code e l) (sel.extractLsb' 12 4) ++ pick (code e l) (sel.extractLsb' 8 4)
        ++ pick (code e l) (sel.extractLsb' 4 4) ++ pick (code e l) (sel.extractLsb' 0 4)).setWidth 64)
    ∧ LaneWrites (.xred h op d a) h c s d 1 (fun _ _ =>
      (reduceAll op c s (members s c) (fun e => e.active h) (fun e l => srcA32 e a l)).setWidth 64)
/-! ### Control flow and traps (spec 05, 13) -/

/-- R132 to R134: branches and the meeting words. A lane whose guard is false goes on at the next word. Completion is stated
for: bra, brx, call, ret. -/
def Claim.BranchResults : Prop :=
  ∀ (h : Hdr) (c : Cur) (s : State) (off : BitVec 20) (d : Name) (a : ASrc),
    let target : BitVec 53 := c.pc + off.signExtend 53 * 4
    let seq : BitVec 53 := c.pc + (if h.x then 8 else 4)
    let reg (e : Env) (l : Nat) : BitVec 64 := srcA64 e a l
    let jumps (i : Instr) (to' : Env → Nat → BitVec 53) (eff : Env → Warp → Prop) : Prop :=
      c.single = none → InHand i h c s → Next (exec i s) (fun t => WordEnds c s t (fun e w' =>
        GoesTo h e.lanes (fun l => if (e.active h).getLsbD l then to' e l else seq) e.wp w' ∧ eff e w'))
    let good (e : Env) : Prop := ∀ l, (e.active h).getLsbD l → (reg e l).toNat % 4 = 0 ∧ (reg e l).toNat < 2 ^ 53
    jumps (.bra h off) (fun _ _ => target) (fun e w' => SameRegs e.wp w')
    ∧ jumps (.call h d off) (fun _ _ => target) (fun e w' =>
      w'.preds = e.wp.preds ∧ w'.s = e.wp.s ∧ w'.g = e.wp.g
      ∧ ∀ k l, l < 32 → w'.reg k l = if (e.active h).getLsbD l ∧ k = d + 1 then ((c.pc + 8).setWidth 64 >>> 32).setWidth 32
        else if (e.active h).getLsbD l ∧ k = d then ((c.pc + 8).setWidth 64 : BitVec 64).setWidth 32 else e.wp.reg k l)
    ∧ ((∀ e ∈ members s c, good e) →
      jumps (.brx h a) (fun e l => (reg e l).setWidth 53) (fun e w' => SameRegs e.wp w')
      ∧ jumps (.ret h a) (fun e l => (reg e l).setWidth 53) (fun e w' => SameRegs e.wp w'))

/-- R134, R130: NOP, MEETSV, and MEET and MEETLD, which set `mt` in the active lanes before the lanes go on. Completion is
stated for: nop, meet, meetsv, meetld. -/
def Claim.MeetingResults : Prop :=
  ∀ (h : Hdr) (c : Cur) (s : State) (off : BitVec 20) (d : Name) (a : ASrc),
    let seq : BitVec 53 := c.pc + (if h.x then 8 else 4)
    let sets (i : Instr) (mt : Env → Nat → BitVec 53) : Prop :=
      InHand i h c s → Next (exec i s) (fun t => WordEnds c s t (fun e w' =>
        SameRegs e.wp w' ∧ w'.retired = e.wp.retired + 1 ∧ w'.marker = (e.wp.marker || h.s)
        ∧ Warp.rest w' = Warp.rest e.wp
        ∧ w'.lanes = (({ e.wp with lanes := e.wp.lanes.mapIdx (fun l x =>
            if e.lanes.getLsbD l then
              { x with pc := seq, st := .running, mt := if (e.active h).getLsbD l then mt e l else x.mt }
            else x) } : Warp).meetings).lanes))
    (InHand (.nop h) h c s → Next (exec (.nop h) s) (fun t => WordEnds c s t (fun e w' =>
      GoesOn h e.lanes seq e.wp w' ∧ SameRegs e.wp w')))
    ∧ LaneWrites (.meetsv h d) h c s d 2 (fun e l => (e.wp.lane l).mt.setWidth 64)
    ∧ sets (.meet h off) (fun _ _ => c.pc + off.signExtend 53 * 4)
    ∧ sets (.meetld h a) (fun e l => (srcA64 e a l).setWidth 53)

/-- R134, R135, R226: YIELD only gives up the scheduler's choice; EXIT ends its active lanes, outside a handler and a
transaction, while another lane of the warp stays. Completion is stated for: exit, yield. -/
def Claim.YieldExitResults : Prop :=
  ∀ (h : Hdr) (c : Cur) (s : State),
    let seq : BitVec 53 := c.pc + (if h.x then 8 else 4)
    (InHand (.yield h) h c s → Next (exec (.yield h) s) (fun t => Switches c s t (fun e w' =>
      GoesOn h e.lanes seq e.wp w' ∧ SameRegs e.wp w')))
    ∧ (c.single = none → (warpD s c.block c.warp).hand = 0 → (warpD s c.block c.warp).tx = none →
      InHand (.exit h) h c s → Next (exec (.exit h) s) (fun t =>
        ∃ w', OnlyWarp c.block c.warp w' s { t with cores := s.cores } ∧ ∀ e, Contributes s c e →
          SameRegs e.wp w' ∧ w'.retired = e.wp.retired + 1
          ∧ (∀ l x, l < 32 → e.wp.lanes[l]? = some x → ∃ y, w'.lanes[l]? = some y
            ∧ ((e.active h).getLsbD l → y.st = .exited)
            ∧ (e.lanes.getLsbD l → (e.active h).getLsbD l = false → y.pc = seq)
            ∧ (e.lanes.getLsbD l = false → y.pc = x.pc))))

/-- R390 to R393: TRAP, and BKPT where no debugger is attached, take the trap in the active lanes, which resume at the next
word; the other lanes of the issue group go on first. Completion is stated for: trap, bkpt. -/
def Claim.SoftwareTraps : Prop :=
  ∀ (h : Hdr) (c : Cur) (s : State) (code : BitVec 16) (handler : BitVec 64) (e : Env),
    let seq : BitVec 53 := c.pc + (if h.x then 8 else 4)
    let traps (i : Instr) (cause : BitVec 8) : Prop :=
      InHand i h c s → Next (exec i s) (fun t => ∃ x w',
        OnlyWarp c.block c.warp w' s t
        ∧ (if e.lanes &&& ~~~ e.active h = 0 then x = e.wp
           else GoesOn h (e.lanes &&& ~~~ e.active h) seq e.wp x ∧ SameRegs e.wp x)
        ∧ Handles (record 0 (e.active h) code 0 cause c.ew c.iw seq) (handler.setWidth 53) x w')
    c.single = none → members s c = [e] → e.active h ≠ 0 → TakesTraps s c.block c.warp handler →
      traps (.trap h code) 0x06 ∧ (debugged s c.block = false → traps (.bkpt h code) 0x07)

/-- R17, R50, R376, R391: a word that the state makes illegal or privileged changes nothing and takes the trap in its whole
issue group, at lane, sub-warp or warp scope; a level-S word in a level-T launch takes the privilege trap. -/
def Claim.IllegalAndPrivilegeTraps : Prop :=
  (∀ (i : Instr) (h : Hdr) (c : Cur) (s : State) (handler : BitVec 64) (cause sub : Nat),
    i.hdr? = some h → (h.scope = .own ∨ h.scope = .warp) → s.cur = some c → s.badPhys = false → c.single = none →
    issueTrap s c h i = some (cause, sub) → TakesTraps s c.block c.warp handler →
      Next (exec i s) (fun t => ∃ w', OnlyWarp c.block c.warp w' s t
        ∧ Handles (record 0 c.group 0 (BitVec.ofNat 8 sub) (BitVec.ofNat 8 cause) c.ew c.iw c.pc) (handler.setWidth 53)
          (warpD s c.block c.warp) w'))
  ∧ ∀ (i : Instr) (h : Hdr) (c : Cur) (s : State), sOnly i = true → (launchD s c.block.lid).super = false →
    dynSubcode s c h i = none → issueTrap s c h i = some (0x02, 0)

/-- R133, R390: a register branch with a misaligned target in some active lanes traps in those at the branching word,
with the target of the lowest in ADDR, and the other lanes of the issue group go on. -/
def Claim.MisalignedTargetTraps : Prop :=
  ∀ (h : Hdr) (c : Cur) (s : State) (a : ASrc) (handler : BitVec 64) (e : Env) (bad : Lanes) (l : Nat),
    let seq : BitVec 53 := c.pc + (if h.x then 8 else 4)
    let reg (k : Nat) : BitVec 64 := srcA64 e a k
    let traps (i : Instr) : Prop :=
      InHand i h c s → Next (exec i s) (fun t => ∃ x w',
        OnlyWarp c.block c.warp w' s t
        ∧ (if e.lanes &&& ~~~ bad = 0 then x = e.wp
           else GoesTo h (e.lanes &&& ~~~ bad) (fun k => if (e.active h).getLsbD k then (reg k).setWidth 53 else seq) e.wp x
             ∧ SameRegs e.wp x)
        ∧ Handles (record (reg l) bad 0 0 0x03 c.ew c.iw c.pc) (handler.setWidth 53) x w')
    c.single = none → h.scope = .own → members s c = [e] → TakesTraps s c.block c.warp handler →
    (∀ k, bad.getLsbD k ↔ (e.active h).getLsbD k ∧ ¬((reg k).toNat % 4 = 0 ∧ (reg k).toNat < 2 ^ 53)) →
    bad.getLsbD l → (∀ k, bad.getLsbD k → l ≤ k) →
      traps (.brx h a) ∧ traps (.ret h a)

/-- R394: with traps masked, a trap of handler lanes makes no change there, its record is kept while none is, and else only
OVF is set; the lanes of a TRAP go on at the next word. -/
def Claim.MaskedTraps : Prop :=
  ∀ (h : Hdr) (c : Cur) (s : State) (code : BitVec 16) (e : Env) (b : Block),
    let seq : BitVec 53 := c.pc + (if h.x then 8 else 4)
    c.single = none → members s c = [e] → e.active h = e.lanes → e.lanes ≠ 0 → getBlock s c.block = some b →
    b.warps[c.warp]? = some e.wp → e.wp.tmask = true → e.wp.trapping = none → e.lanes &&& e.wp.hand = e.lanes →
    InHand (.trap h code) h c s → Next (exec (.trap h code) s) (fun t => ∃ w', OnlyWarp c.block c.warp w' s t
      ∧ SameRegs e.wp w' ∧ w'.trec = e.wp.trec ∧ w'.tmask = true ∧ w'.hand = e.wp.hand
      ∧ w'.lanes = (e.wp.setLanes e.lanes (fun x => { x with pc := seq, st := .running })).meetings.lanes
      ∧ w'.tpend = (if e.wp.tpend.v then { e.wp.tpend with ovf := true }
          else { v := true, ovf := e.wp.tpend.ovf, record := record 0 e.lanes code 0 0x06 c.ew c.iw seq }))

/-- R395: TRET sets the issuing lanes' PC to TREC0's and suspends them while handler lanes are left; TRET.EXIT ends them.
When the last lane of the handler has gone, the suspended lanes resume and traps are unmasked (no trap waits). Completion is
stated for: tret, tretExit. -/
def Claim.TrapReturn : Prop :=
  ∀ (h : Hdr) (c : Cur) (s : State) (e : Env) (b : Block),
    let left : Lanes := e.wp.hand &&& ~~~ e.lanes
    let back (x : Lane) : Lane := { x with pc := e.wp.trec.extractLsb' 0 53 }
    c.single = none → members s c = [e] → e.lanes ≠ 0 → guardG h e.wp = true → getBlock s c.block = some b →
    b.warps[c.warp]? = some e.wp → e.wp.tpend.v = false → e.wp.late = [] → e.wp.trapping = none → e.wp.tmask = true →
    Unsuspended s c.block c.warp →
    (InHand (.tret h) h c s → Next (exec (.tret h) s) (fun t => ∃ w', OnlyWarp c.block c.warp w' s t
      ∧ SameRegs e.wp w' ∧ w'.trec = e.wp.trec ∧ w'.retired = e.wp.retired + 1
      ∧ (left &&& e.wp.live ≠ 0 → w'.tmask = true ∧ w'.hand = left
        ∧ ∀ l x, l < 32 → e.lanes.getLsbD l → e.wp.lanes[l]? = some x → ∃ y, w'.lanes[l]? = some y
          ∧ y.pc = e.wp.trec.extractLsb' 0 53 ∧ y.susp = true)
      ∧ (left &&& e.wp.live = 0 → w'.tmask = false ∧ w'.hand = 0
        ∧ (∀ l x, l < 32 → e.wp.lanes[l]? = some x → ∃ y, w'.lanes[l]? = some y ∧ y.susp = false
          ∧ y.pc = if e.lanes.getLsbD l then (back x).pc else x.pc))))
    ∧ (InHand (.tretExit h) h c s → Next (exec (.tretExit h) s) (fun t => ∃ u, OnlyWarp c.block c.warp u s { t with cores := s.cores }
      ∧ SameRegs e.wp u ∧ u.trec = e.wp.trec
      ∧ (∀ l y, l < 32 → e.lanes.getLsbD l → u.lanes[l]? = some y → y.st = .exited)
      ∧ (left &&& e.wp.live = 0 → u.tmask = false ∧ u.hand = 0)))
/-! ### Uniform words, group words, control registers (spec 05, 12) -/

/-- R153 to R156: SALU, SMOV and SCMP read from the lead member and write in every guard-true member. Completion is stated
for: salu, smov, smovI, smovCat, smovGtos, smovStog, smovRdl, scmp. -/
def Claim.UniformResults : Prop :=
  ∀ (h : Hdr) (c : Cur) (s : State) (n64 : Bool) (cc : Cc) (d a : Name) (b : BSrc) (imm : BitVec 20) (k : BitVec 5),
    let A (e : Env) : BitVec 64 := uniVal e a 0
    let B (e : Env) : BitVec 64 := match b with
      | .reg n => uniVal e n 0
      | .imm v => v.signExtend 64
    let int (x : BitVec 64) : Int := if n64 then x.toNat else x.toInt
    let z (v : Int) : BitVec 64 := BitVec.ofInt 64 v
    let K (e : Env) : Nat := (B e).toNat % 256
    let salu (op : SaluOp) (v : Env → BitVec 64) : Prop := UniWrites (.salu h op n64 d a b) h c s d v
    let preds (i : Instr) (v : Env → BitVec 3 → Bool) (put : BitVec 3 → Prop) : Prop :=
      InHand i h c s → Next (exec i s) (fun t => WordEnds c s t (fun e w' => ∀ x, leadOf h s c = some x ∨ ¬ guardG h e.wp →
        GoesOn h e.lanes (c.pc + wordLen h) e.wp w' ∧ w'.regs = e.wp.regs ∧ w'.preds = e.wp.preds ∧ w'.s = e.wp.s
        ∧ ∀ g, (guardG h e.wp ∧ g ≠ 7 ∧ put g → w'.gpred g = v x g)
          ∧ (¬(guardG h e.wp ∧ g ≠ 7 ∧ put g) → w'.gpred g = e.wp.gpred g)))
    salu .add (fun e => z ((A e).toNat + (B e).toNat)) ∧ salu .sub (fun e => z ((A e).toNat - (B e).toNat))
    ∧ salu .mul (fun e => z ((A e).toNat * (B e).toNat)) ∧ salu .mulh (fun e => z (int (A e) * int (B e) / 2 ^ 64))
    ∧ salu .min (fun e => z (min (int (A e)) (int (B e)))) ∧ salu .max (fun e => z (max (int (A e)) (int (B e))))
    ∧ salu .and (fun e => A e &&& B e) ∧ salu .or (fun e => A e ||| B e) ∧ salu .xor (fun e => A e ^^^ B e)
    ∧ salu .shl (fun e => z ((A e).toNat * 2 ^ K e)) ∧ salu .shr (fun e => z (int (A e) / 2 ^ K e))
    ∧ salu .andn (fun e => A e &&& ~~~ B e)
    ∧ UniWrites (.smov h d a) h c s d A
    ∧ UniWrites (.smovI h d imm) h c s d (fun _ => imm.signExtend 64)
    ∧ UniWrites (.smovCat h d a imm) h c s d (fun e => z ((A e).toNat * 2 ^ 20 + imm.toNat))
    ∧ UniWrites (.smovRdl h d a k) h c s d (fun e => (e.wp.reg a k.toNat).setWidth 64)
    ∧ (∃ v : Env → BitVec 8, UniWrites (.smovGtos h d) h c s d (fun e => (v e).setWidth 64)
      ∧ ∀ e (g : BitVec 3), (v e).getLsbD g.toNat = e.wp.gpred g)
    ∧ preds (.smovStog h a) (fun e g => (A e).getLsbD g.toNat) (fun _ => True)
    ∧ preds (.scmp h cc n64 d a b) (fun e _ => match cc with
      | .eq => decide (int (A e) = int (B e))
      | .ne => decide (int (A e) ≠ int (B e))
      | .lt => decide (int (A e) < int (B e))
      | .le => decide (int (A e) ≤ int (B e))
      | .gt => decide (int (A e) > int (B e))
      | .ge => decide (int (A e) ≥ int (B e))) (fun g => g = d.setWidth 3)

/-- R157: SBRA, each member by its own guard, or all members together. Completion is stated for: sbra. -/
def Claim.UniformBranches : Prop :=
  ∀ (h : Hdr) (c : Cur) (s : State) (off : BitVec 20),
    let target : BitVec 53 := c.pc + off.signExtend 53 * 4
    let goes (mode : SbraMode) (taken : Env → Prop) : Prop :=
      InHand (.sbra h mode off) h c s → Next (exec (.sbra h mode off) s) (fun t => WordEnds c s t (fun e w' =>
        SameRegs e.wp w' ∧ (taken e → GoesOn h e.lanes target e.wp w')
        ∧ (¬ taken e → GoesOn h e.lanes (c.pc + wordLen h) e.wp w')))
    goes .each (fun e => guardG h e.wp = true)
    ∧ goes .any (fun _ => ∃ x ∈ members s c, x.lanes ≠ 0 ∧ guardG h x.wp = true)
    ∧ goes .all (fun _ => ∀ x ∈ members s c, x.lanes ≠ 0 → guardG h x.wp = true)

/-- R46, R376, R444: CSRR of every register that can be read; CSRW puts the value where CSRR reads it, but for reserved
fields and PWRLIM's range, and changes nothing else of the device. Completion is stated for: csrr, csrw. -/
def Claim.ControlRegisters : Prop :=
  ∀ (h : Hdr) (c : Cur) (s : State) (d a : Name) (n : BitVec 12),
    UniWrites (.csrr h d n) h c s d (fun e => csrValue s e.wp n.toNat)
    ∧ (∀ e, leadOf h s c = some e → n ≠ 0 → InHand (.csrw h n a) h c s →
      Next (exec (.csrw h n a) s) (fun t => ∃ s', Ends h c s' t ∧ s' = { s with csr := s'.csr }
        ∧ (n ∈ [0x100#12, 0x101#12, 0x102#12, 0x104#12, 0x109#12] → ∀ w, csrValue s' w n.toNat = uniVal e a 0)
        ∧ (n = 0x110#12 → ∀ w, csrValue s' w n.toNat = uniVal e a 0 &&& 0xFFFFFF07FF#64)
        ∧ (n = 0x220#12 → 600 ≤ (uniVal e a 0).toNat % 65536 → (uniVal e a 0).toNat % 65536 ≤ 2200 →
          ∀ w, csrValue s' w n.toNat = BitVec.ofNat 64 ((uniVal e a 0).toNat % 65536))
        ∧ (n = 0x220#12 → ¬(600 ≤ (uniVal e a 0).toNat % 65536 ∧ (uniVal e a 0).toNat % 65536 ≤ 2200) → s' = s)
        ∧ ∀ w, ∀ m : BitVec 12, m ≠ n → (n = 0x110#12 → m ≠ 0x111#12) → csrValue s' w m.toNat = csrValue s w m.toNat))
    ∧ (∀ e, leadOf h s c = some e → Contributes s c e → c.single = none → InHand (.csrw h 0 a) h c s →
      Next (exec (.csrw h 0 a) s) (fun t => ∃ s' w', Ends h c s' t ∧ OnlyWarp c.block c.warp w' s s'
        ∧ w' = { e.wp with trec := w'.trec } ∧ w'.trec.extractLsb' 0 64 = ((uniVal e a 0).setWidth 53).setWidth 64
        ∧ w'.trec.extractLsb' 64 192 = e.wp.trec.extractLsb' 64 192))

/-- R376, R394: writes of TMASK and TPEND by a warp at sub-warp scope; unmasking with a record pending delivers it. What is
suspended for a discarded record goes on, as the model chooses (log entry 83). Completion is stated for: tmaskWrite,
tpendWrite. -/
def Claim.TrapRegisters : Prop :=
  ∀ (h : Hdr) (c : Cur) (s : State) (a : Name) (e : Env) (handler : BitVec 64),
    let bit : Bool := (uniVal e a 0).getLsbD 0
    let goesOn (x : Warp) : Prop := GoesOn h e.lanes (c.pc + wordLen h) e.wp x ∧ SameRegs e.wp x
    members s c = [e] → c.single = none → guardG h e.wp = true → Contributes s c e → e.wp.trapping = none →
    (InHand (.tmaskWrite h a) h c s →
      (bit = true ∨ (e.wp.tpend.v = false ∧ e.wp.late = [] ∧ Unsuspended s c.block c.warp) →
        Next (exec (.tmaskWrite h a) s) (fun t => ∃ x, goesOn x ∧ OnlyWarp c.block c.warp { x with tmask := bit } s t))
      ∧ (bit = false → e.wp.tpend.v = true → Unsuspended s c.block c.warp → e.wp.results = [] → handler ≠ 0 →
        handler = (if (launchD s c.block.lid).super then s.csr.stvec else (launchD s c.block.lid).handler) →
        e.wp.tpend.record.extractLsb' 160 32 &&& e.wp.live ≠ 0 →
        Next (exec (.tmaskWrite h a) s) (fun t => ∃ x w' r, goesOn x ∧ OnlyWarp c.block c.warp w' s t
          ∧ (let p : Tpend := { v := false, ovf := x.tpend.ovf, record := 0 }
            Handles r (handler.setWidth 53) { x with tpend := p, tmask := false } w')
          ∧ r.extractLsb' 0 160 = e.wp.tpend.record.extractLsb' 0 160
          ∧ r.extractLsb' 192 64 = e.wp.tpend.record.extractLsb' 192 64
          ∧ r.extractLsb' 160 32 = e.wp.tpend.record.extractLsb' 160 32 &&& e.wp.live)))
    ∧ (InHand (.tpendWrite h a) h c s → Next (exec (.tpendWrite h a) s) (fun t =>
      let p : Tpend := if bit then { e.wp.tpend with ovf := false } else { v := false, ovf := false, record := 0 }
      let s' := if bit = true ∨ e.wp.tpend.v = false then s else dropFrozen c.block c.warp e.wp.tpend.record s
      ∃ x, goesOn x ∧ OnlyWarp c.block c.warp { x with tpend := p, frozenPend := (warpD s' c.block c.warp).frozenPend } s' t))

/-- R158: BAR after its rendezvous; a BAR with an acquire leaves its core's L1 empty, and from device scope on the member has
the current epoch (R185). Completion is stated for: bar. -/
def Claim.BarrierResults : Prop :=
  ∀ (h : Hdr) (c : Cur) (s : State) (sem : Sem) (m : Msc),
    InHand (.bar h sem m) h c s →
    (sem = .none ∨ sem = .rel → Next (exec (.bar h sem m) s) (fun t => Ends h c s t))
    ∧ (sem = .acq ∨ sem = .ar → ∀ e ∈ members s c, e.lanes ≠ 0 → guardG h e.wp = true →
      Next (exec (.bar h sem m) s) (fun t => ∃ s', Ends h c s' t ∧ (coreD s' (blockD s c.block).core).l1 = []
        ∧ s'.mem = s.mem ∧ s'.epoch = s.epoch ∧ s'.launches = s.launches
        ∧ (m = .b → s'.blocks = s.blocks ∧ s'.clusters = s.clusters)
        ∧ (m = .dv ∨ m = .sy → (coreD s' (blockD s c.block).core).acc = 0
          ∧ ((∃ b, getBlock s c.block = some b ∧ b.warps[e.w]? = some e.wp) → (warpD s' c.block e.w).acq = s.epoch))))

/-- R146, R147, R152, R159: ELECT, WMOV, WRED and GMEMB. Completion is stated for: elect, wmovTol, wmovFroml, wred, gmemb. -/
def Claim.GroupResults : Prop :=
  ∀ (h : Hdr) (c : Cur) (s : State) (p : BitVec 3) (sa : Option Name) (d a : Name) (op : RedOp) (n : BitVec 8)
    (x : Env) (l0 : Nat),
    leadOf h s c = some x →
    let set := wSetOf h c s
    let ms := setMembers (launchD s c.block.lid) n.toNat
    (x.lanes.getLsbD l0 = true → (∀ l, x.lanes.getLsbD l = true → l0 ≤ l) → InHand (.elect h p sa) h c s →
      Next (exec (.elect h p sa) s) (fun t => WordEnds c s t (fun e w' =>
        GoesOn h e.lanes (c.pc + wordLen h) e.wp w' ∧ w'.regs = e.wp.regs ∧ w'.g = e.wp.g
        ∧ (∀ k l, l < 32 → w'.pred k l = if k = p ∧ k ≠ 7 ∧ guardG h e.wp ∧ e.lanes.getLsbD l then
            decide (e.w = x.w ∧ l = l0) else e.wp.pred k l)
        ∧ (∀ k, w'.sreg k = if guardG h e.wp ∧ (∃ r ∈ sa, k.toNat = r.toNat) then BitVec.ofNat 64 (l0 + x.w * 2 ^ 32)
            else e.wp.sreg k))))
    ∧ (InHand (.wmovTol h d a) h c s → Next (exec (.wmovTol h d a) s) (fun t => WordEnds c s t (fun e w' =>
        GoesOn h e.lanes (c.pc + wordLen h) e.wp w' ∧ w'.preds = e.wp.preds ∧ w'.s = e.wp.s ∧ w'.g = e.wp.g
        ∧ ∀ k l, l < 32 → w'.reg k l = if guardG h e.wp ∧ e.lanes.getLsbD l ∧ k = d then
            sget (blockD s c.block).wregs ((set * 16 + (a.toNat - 64)) * 32 + l) else e.wp.reg k l)))
    ∧ (InHand (.wmovFroml h d a) h c s → Next (exec (.wmovFroml h d a) s) (fun t => ∃ s', Ends h c s' t
        ∧ s' = { s with blocks := s'.blocks } ∧ (∀ id, id ≠ c.block → getBlock s' id = getBlock s id)
        ∧ ∀ b, getBlock s c.block = some b → ∃ b', getBlock s' c.block = some b' ∧ b' = { b with wregs := b'.wregs }
          ∧ (∀ l e, l < 32 → (gMembers h s c).find? (fun y => y.lanes.getLsbD l) = some e →
            sget b'.wregs ((set * 16 + (d.toNat - 64)) * 32 + l) = e.wp.reg a l)
          ∧ ∀ k, (∀ l, l < 32 → k ≠ (set * 16 + (d.toNat - 64)) * 32 + l) → sget b'.wregs k = sget b.wregs k))
    ∧ (InHand (.wred h op d a) h c s → Next (exec (.wred h op d a) s) (fun t => ∃ v : BitVec 32,
        v = reduceAll op c s (gMembers h s c) (fun e => e.lanes) (fun e l => e.wp.reg a l)
        ∧ WordEnds c s t (fun e w' => UniResult h c d
          (if op = .add false ∨ op = .min false ∨ op = .max false then v.signExtend 64 else v.setWidth 64) e w')))
    ∧ (∃ v : BitVec 32, UniWrites (.gmemb h .mask d n) h c s d (fun _ => v.setWidth 64) ∧ ∀ w, v.getLsbD w = true ↔ w ∈ ms)
    ∧ UniWrites (.gmemb h .index d n) h c s d (fun _ =>
      if c.warp ∈ ms then BitVec.ofNat 64 (ms.countP (· < c.warp)) else 0xFFFFFFFFFFFFFFFF#64)
    ∧ UniWrites (.gmemb h .count d n) h c s d (fun _ => BitVec.ofNat 64 ms.length)
    ∧ (∃ v : BitVec 32, UniWrites (.gmemb h .live d n) h c s d (fun _ => v.setWidth 64)
      ∧ ∀ w, v.getLsbD w = true ↔ w ∈ ms ∧ (warpD s c.block w).allExited = false)
/-! ### GROW, BAND, blocks and what waits in a warp (spec 05, 09, 12, 13) -/

/-- R144, R161: GROW is granted, answered by .TRY, or waits; a grant keeps the contents of the names kept, and names newly
taken read 0. The event GROW_GRANT grants the waiter that R161 chooses. Completion is stated for: grow, growGrant. -/
def Obligations.GrowResults : Prop :=
  ∀ (h : Hdr) (c : Cur) (s : State) (gd : Option Name) (n : BitVec 7) (e : Env),
    let grants (n : Nat) (gd : Option Name) (x w' : Warp) : Prop :=
      w'.allot = n ∧ w'.grow = none ∧ w' = { x with allot := w'.allot, grow := none, regs := w'.regs, g := w'.g }
      ∧ (∀ k l, l < 32 → w'.reg k l = if k.toNat < 16 + min n x.allot then x.reg k l else 0)
      ∧ ∀ k, w'.gpred k = (x.gpred k || (match gd with | some g => k == g.setWidth 3 | none => false))
    let core := (blockD s c.block).core
    (gMembers h s c = [e] → Contributes s c e → InHand (.grow h gd n) h c s →
      (growReady s core e.wp n.toNat = true → Next (exec (.grow h gd n) s) (fun t => ∃ s' w', Ends h c s' t
        ∧ OnlyWarp c.block e.w w' s s' ∧ grants n.toNat gd e.wp w'))
      ∧ (growReady s core e.wp n.toNat = false → ∀ g, gd = some g → e.wp.allot < n.toNat →
        Next (exec (.grow h gd n) s) (fun t => ∃ s' w', Ends h c s' t ∧ OnlyWarp c.block e.w w' s s'
          ∧ w' = { e.wp with g := w'.g } ∧ ∀ k, w'.gpred k = (e.wp.gpred k && (k != g.setWidth 3 || k == 7))))
      ∧ (growReady s core e.wp n.toNat = false → (gd = none ∨ n.toNat ≤ e.wp.allot) →
        Next (exec (.grow h gd n) s) (fun t => ∃ s' w', Ends h c s s' ∧ OnlyWarp c.block e.w w' s' t
          ∧ w' = { warpD s' c.block e.w with grow := w'.grow }
          ∧ ∃ g, w'.grow = some g ∧ g.n = n.toNat ∧ g.gd = gd)))
    ∧ ∀ (core : Nat) (w : WarpId) (b : Block) (x : Warp) (g : GrowWait), s.fatal = 0 → s.badPhys = false →
      nextGrant s core = some w → getBlock s w.block = some b → b.warps[w.warp]? = some x → x.grow = some g →
      Next (exec (.growGrant core) s) (fun t => ∃ w', OnlyWarp w.block w.warp w' s t ∧ grants g.n g.gd x w')

/-- R94, R160: after its rendezvous BAND writes sD in the guard-true members of each block of the band that has arrived.
Completion is stated for: band. -/
def Claim.BandResults : Prop :=
  ∀ (h : Hdr) (c : Cur) (s : State) (op : BandOp) (d a : Name) (r : Rdv),
    let vals := (List.range 8).map (bandValue h a (bandCurs s c r) s)
    let v : Option (BitVec 64) := match op with
      | .sync => none
      | .red o n64 => some ((tree (bandRedOp o n64) 3 vals).getD (bandRedEmpty o n64))
      | .bcast k => some (((bandValue h a (bandCurs s c r) s) k.toNat).getD 0)
    c.single = some r → InHand (.band h op d a) h c s →
    Next (exec (.band h op d a) s) (fun t => t.mem = s.mem ∧ ∀ x ∈ bandCurs s c r, ∀ e, Contributes s x e →
      ∃ w', warpD t x.block e.w = w'
        ∧ w'.lanes = (e.wp.setLanes e.lanes (fun y => { y with pc := c.pc + wordLen h, st := .running })).meetings.lanes
        ∧ w'.retired = e.wp.retired + 1 ∧ w'.regs = e.wp.regs ∧ w'.preds = e.wp.preds ∧ w'.g = e.wp.g
        ∧ ∀ k, w'.sreg k = (match v with
            | some y => if guardG h e.wp ∧ k.toNat = d.toNat then y else e.wp.sreg k
            | none => e.wp.sreg k))

/-- R223, R225, R229: SFLUSH goes on when no atomic of its members, at set scope of the whole set, is left; CLK reads the
count that R229 names, and CLK.CYC the reference count. Completion is stated for: sflush, clk, clkCyc. -/
def Claim.FlushAndClockResults : Prop :=
  ∀ (h : Hdr) (c : Cur) (s : State) (d : Name),
    let det := (launchD s c.block.lid).det
    (InHand (.sflush h) h c s →
      (det = false → (∀ e ∈ gMembers h s c, atomsQuiet e.wp = true) → Next (exec (.sflush h) s) (fun t => Ends h c s t))
      ∧ (det = true → (blockD s c.block).draining = none → (∀ w ∈ flushWarps h c s, (warpD s c.block w).det = []) →
        Next (exec (.sflush h) s) (fun t => Ends h c s t))
      ∧ (det = false → (∃ e ∈ gMembers h s c, atomsQuiet e.wp = false) → exec (.sflush h) s = .next s))
    ∧ UniWrites (.clk h d) h c s d (fun e => BitVec.ofNat 64 (if det then e.wp.retired else s.clock))
    ∧ UniWrites (.clkCyc h d) h c s d (fun _ => BitVec.ofNat 64 s.clock)

/-- R135, R162, R385: a warp that ends, a block that ends and frees its place, an evicted warp and its return. Completion is
stated for: warpEnd, blockEnd, growDeadlockResolve, evictedWarpRestore. -/
def Obligations.WarpAndBlockEvents : Prop :=
  ∀ (s : State) (w : WarpId) (b : Block) (x : Warp), s.fatal = 0 → s.badPhys = false →
    getBlock s w.block = some b → b.warps[w.warp]? = some x → b.saved = false →
    let l := launchD s w.block.lid
    (x.allExited = true → x.ended = false → x.results = [] → l.rb = false → x.due = [] →
      Next (exec (.warpEnd w) s) (fun t => OnlyWarp w.block w.warp { x with ended := true, trapping := none } s t))
    ∧ (b.saving = none → (∀ y ∈ b.warps, y.ended = true ∧ y.outs = [] ∧
        ∃ r, y.rel = some r ∧ r.pc = 0x1FFFFFFFFFFFFF#53 ∧ r.phase = .done) → enginesDone s b = true → l.det = false →
      b.frame = none → l.ended + 1 + l.killed ≠ l.total →
      Next (exec (.blockEnd w.block) s) (fun t => getBlock t w.block = none
        ∧ ((∀ y ∈ (clusterD s b.cluster).cornice, y.ctx ≠ launchKey l) → t.mem = s.mem)
        ∧ (∀ j, j ≠ w.block → getBlock t j = getBlock s j)
        ∧ ((∃ y ∈ s.launches, y.lid = w.block.lid) → launchD t w.block.lid = { l with ended := l.ended + 1 })
        ∧ ∀ k, (∀ y ∈ (clusterD t k).slots, y.2.owner ≠ w.block) ∧ (∀ y ∈ (clusterD t k).accs, y.2.owner ≠ w.block)
          ∧ (∀ y ∈ (clusterD t k).queues, y.2.owner ≠ w.block)))
    ∧ (∀ core f rest, byRank s ((coreWarps s core).filter (fun y => (wpOf s y).evicted)) = w :: rest → x.allot ≤ poolNames s core →
      nextGrant s core = none → b.saving = none → b.frame = some f → x.allot ≤ 112 →
      frameAddr s l.ctx.toNat f + 0x1000000 ≤ 0x8000000000 →
      Next (exec (.evictedWarpRestore core) s) (fun t => ∃ w', warpD t w.block w.warp = w'
        ∧ w' = { x with evicted := false, regs := w'.regs } ∧ ∀ k n, n < 32 →
          w'.reg k n = if k.toNat < 16
            then BitVec.ofNat 32 (readNat s (frameAddr s l.ctx.toNat f + 0x20000 + 2048 * w.warp + 128 * k.toNat + 4 * n) 4)
            else if k.toNat < 16 + x.allot then BitVec.ofNat 32 (readNat s
              (frameAddr s l.ctx.toNat f + 0x30000 + (112 * w.warp + (k.toNat - 16)) * 128 + 4 * n) 4)
            else x.reg k n))
    ∧ (∀ core f g rest, growWaiters s core = g :: rest → (∀ y ∈ coreWarps s core, growWaits (wpOf s y) = true) →
      nextGrant s core = none → (wpOf s g).grow.any (fun q => growReady s core (wpOf s g) q.n) = false →
      (∀ y ∈ s.blocks, y.core = core → y.saved = false → y.saving = none) →
      byRank s ((coreWarps s core).filter (fun y => y != g && !(wpOf s y).evicted && !(launchD s y.block.lid).super)) = [w] →
      b.frame = some f → frameAddr s l.ctx.toNat f + 0x1000000 ≤ 0x8000000000 → w.warp < 32 → x.allot ≤ 112 →
      Next (exec (.growDeadlockResolve core) s) (fun t => OnlyWarp w.block w.warp { x with evicted := true } s
        { t with mem := s.mem, keyOf := s.keyOf, bad := s.bad }))

/-- R141, R227, R248, R390, R473: the traps that the device raises in a warp, to a handler that takes them at once.
Completion is stated for: scopeMismatchDetect, drainErrorDelivery, detStallTrap, engineTrapDelivery. -/
def Obligations.DeviceTraps : Prop :=
  ∀ (s : State) (w : WarpId) (handler : BitVec 64), s.fatal = 0 → s.badPhys = false →
    TakesTraps s w.block w.warp handler →
    let x := warpD s w.block w.warp
    let free := deviceRuns s w.block = true ∧ warpFree (launchD s w.block.lid) (blockD s w.block) x = true
    let trapped (r : BitVec 256) (t : State) : Prop :=
      (warpD t w.block w.warp).trec = r ∧ (warpD t w.block w.warp).tmask = true
      ∧ (warpD t w.block w.warp).hand = r.extractLsb' 160 32 &&& x.live
      ∧ ∀ j, j ≠ w.block → getBlock t j = getBlock s j
    (∀ (k : Nat) (n : WaitNode) (m : Lanes) (a : Nat), (blockD s w.block).saved = false → waitBlocks s w.block = [w.block] →
      (deadNodes s w.block)[k]? = some n → n.iw ≠ 0 → lanesAt n.hit w.block w.warp = m → m &&& x.live = m → m ≠ 0 →
      (∀ j d, j ≠ k → (deadNodes s w.block)[j]? = some d → lanesAt d.hit w.block w.warp = 0 ∧ a ≤ d.addr.toNat) →
      (∃ j d, j ≠ k ∧ (deadNodes s w.block)[j]? = some d ∧ d.addr.toNat = a) →
      Next (exec (.scopeMismatchDetect w.block) s)
        (trapped (record (BitVec.ofNat 64 a) m 0 0 0x05 n.ew n.iw n.addr)))
    ∧ (∀ z l rest, (launchD s w.block.lid).det = true → (blockD s w.block).saved = false → (detTurn s w).1 = true →
      x.mask (fun y => y.st == .asleep) = x.live → laneNums x.live = l :: rest → laneSleep s w l = some z →
      (∀ k, x.live.getLsbD k → ∃ y, laneSleep s w k = some y ∧ y.since + 2 ^ 24 ≤ s.clock) →
      Next (exec (.detStallTrap w) s) (trapped (record (BitVec.ofNat 64 (stallKind z).2) x.live
        (BitVec.ofNat 16 (stallKind z).1) 0 0x09 ((encode z.instr)[1]?.getD 0) ((encode z.instr)[0]?.getD 0) z.pc)))
    ∧ (∀ d rest pc m, free → x.due = d :: rest → d.cause = 0x08 → d.lanes = 0 → d.pc = none → x.group = some (pc, m) →
      Next (exec (.engineTrapDelivery w) s) (trapped (record (BitVec.ofNat 64 d.addr) m (BitVec.ofNat 16 d.aux)
        (BitVec.ofNat 8 d.sub) 0x08 d.ew d.iw pc)))
    ∧ (∀ d rest pc, free → x.due = d :: rest → d.lanes &&& x.live = d.lanes → d.lanes ≠ 0 → d.pc = some pc →
      (d.rollback && (launchD s w.block.lid).rb) = false →
      Next (exec (.drainErrorDelivery w) s) (trapped (record (BitVec.ofNat 64 d.addr) d.lanes (BitVec.ofNat 16 d.aux)
        (BitVec.ofNat 8 d.sub) (BitVec.ofNat 8 d.cause) d.ew d.iw pc)))

/-- R223, R224, R228, R402: a flush point drains a deterministic block's buffers, and a drain that had to wait goes on; after
2^20 cycles a save no longer waits for masked warps, and its watchdog aborts transaction lanes with code 0x06. Completion is
stated for: flushPointAllWaiting, detPreemptWatchdog, saveTmaskTimeout. -/
def Obligations.DeterministicEvents : Prop :=
  ∀ (s : State) (id : BlockId) (b : Block), s.fatal = 0 → s.badPhys = false → getBlock s id = some b → b.id = id →
    let r := drainAll id (List.range b.warps.length) s
    ((launchD s id.lid).det = true → b.saved = false → b.draining = none → (∀ x ∈ b.warps, notCandidate x = true) →
      (∃ x ∈ b.warps, x.det ≠ []) → r.2 = true → r.1.badPhys = false →
      Next (exec (.flushPointAllWaiting id) s) (fun t => (blockD t id).draining = none
        ∧ ∀ w, w < b.warps.length → (warpD t id w).det = []))
    ∧ (∀ ws, b.draining = some ws → b.saved = false → (drainAll id ws s).2 = true → (drainAll id ws s).1.badPhys = false →
      Next (exec (.flushPointAllWaiting id) s) (fun t => (blockD t id).draining = none
        ∧ ∀ w ∈ ws, w < b.warps.length → (warpD t id w).det = []))
    ∧ (∀ y, b.saving = some y → y.since + 2 ^ 20 ≤ s.clock →
      Next (exec (.saveTmaskTimeout id) s) (fun t => (∀ j, j ≠ id → getBlock t j = getBlock s j)
        ∧ getBlock t id = some { b with saving := some { y with masked := true } })
      ∧ ∀ w x tx, (launchD s id.lid).det = true → b.warps[w]? = some x → x.tx = some tx →
        Next (exec (.detPreemptWatchdog { block := id, warp := w }) s) (fun t => ∃ w', OnlyWarp id w w' s t
          ∧ w'.det = x.det.filter (fun d => !d.commit)
          ∧ ∀ l p, l < 32 → tx.lanes.find? (fun q => q.lane == l) = some p → w'.reg p.dst l = 0x00010006#32
            ∧ ∀ q, x.lanes[l]? = some q → ∃ q', w'.lanes[l]? = some q' ∧ q'.pc = p.handler))

/-- R381, R397: a waiting fault record and a waiting device record go to their rings when these have room. Completion is
stated for: faultPostDeferred, deviceRecordPost. -/
def Claim.RecordEvents : Prop :=
  ∀ (s : State), s.fatal = 0 → s.badPhys = false →
    (∀ (ctx : Nat) (f : FaultRec),
      let fqb := ctxField s ctx 154 128 * 8192
      let cap := 2 ^ ctxField s ctx 159 155
      let prod := readNat s fqb 4
      let cons := readNat s (fqb + 128) 4
      s.faults.find? (fun y => y.ctx.toNat == ctx && !y.posted) = some f →
      (∀ y ∈ s.faults, y.ctx.toNat = ctx → y.posted = false → y.token = f.token) →
      (prod + 2 ^ 32 - cons) % 2 ^ 32 < cap → fqb + 256 + 32 * cap ≤ 0x8000000000 →
      f.cls < 16 → f.src < 4 →
      Next (exec (.faultPostDeferred ctx) s) (fun t => readNat t fqb 4 = (prod + 1) % 2 ^ 32
        ∧ readNat t (fqb + 256 + 32 * (prod % cap)) 8 = f.va % 2 ^ 53 + f.cls * 2 ^ 53 + f.src * 2 ^ 57
          + (if f.store then 2 ^ 59 else 0)
        ∧ (∀ y ∈ t.faults, y.ctx.toNat = ctx → y.posted = true) ∧ ctx ∉ t.fullFq ∧ t.blocks = s.blocks))
    ∧ ∀ (r : DevRec) (rest : List DevRec),
      let base := s.blob.mbxbase
      let prod := readNat s (base + 0x80) 4
      s.records = r :: rest → ringFull s = false → base + 0x400000 ≤ 0x8000000000 → r.payload.length ≤ 96 →
      Next (exec .deviceRecordPost s) (fun t => t.records = rest ∧ t.recSeq = s.recSeq + 1
        ∧ readNat t (base + 0x80) 4 = (prod + 1) % 2 ^ 32
        ∧ readBytes t (base + 0x800 + 128 * (prod % 16) + 32) r.payload.length = r.payload
        ∧ t.blocks = s.blocks ∧ t.launches = s.launches)
/-! ### Memory access (spec 06, 07, 08) -/

/-- R22, R38, R179, R182, R352: LD and SLD of global addresses go out and leave their result outstanding; no register changes
at issue, and only translation caches change beside the warp. An acquire holds the warp until its result is there (R470).
Completion is stated for: ld, sld. -/
def Claim.LoadIssue : Prop :=
  ∀ (h : Hdr) (c : Cur) (s : State) (strong b32 : Bool) (z : Size) (sem : Sem) (m : Msc) (hint : Hint) (d n : Name)
    (a : ASrc) (off : BitVec 20) (e : Env),
    let va (l : Nat) : Nat := match a with
      | .lane x => (e.wp.reg64 x l).toNat
      | .uni x => (uniVal e x l + off.signExtend 64).toNat
    let ua : Nat := (uniVal e n 0 + off.signExtend 64).toNat
    let r := resolve c (laneNums (e.active h)) va z.bytes .load s
    let issued (i : Instr) (P : Warp → Prop) : Prop :=
      Next (exec i s) (fun t => ∃ w', OnlyWarp c.block c.warp w' s { t with cores := s.cores, clusters := s.clusters }
        ∧ SameRegs e.wp w' ∧ w'.retired = e.wp.retired + 1
        ∧ w'.lanes = (e.wp.setLanes e.lanes (fun x => { x with pc := c.pc + wordLen h, st := .running })).meetings.lanes ∧ P w')
    let out (i : Instr) (w' : Warp) (P : Outst → Prop) : Prop := ∃ o, w'.outs = e.wp.outs ++ [o] ∧ o.id = e.wp.nextOut
      ∧ o.instr = i ∧ o.pc = c.pc ∧ w'.nextOut = e.wp.nextOut + 1
      ∧ w'.waitOn = (if sem = .acq then some (i, c.pc, o.id) else e.wp.waitOn) ∧ P o
    members s c = [e] → Contributes s c e → c.single = none →
    (InHand (.ld h strong z sem m hint d a off) h c s → e.wp.tx = none → r.faults = [] →
      rowStall e.wp c (rowLanes r.parts) = false →
      issued (.ld h strong z sem m hint d a off) (fun w' => if e.active h = 0 then w'.outs = e.wp.outs ∧ w'.waitOn = e.wp.waitOn
        else out (.ld h strong z sem m hint d a off) w' (fun o =>
          (∀ x ∈ o.parts, (e.active h).getLsbD x.1 = true ∧ x.2.1 = va x.1)
          ∧ ∀ l, (e.active h).getLsbD l = true → ∃ p, (l, va l, p) ∈ o.parts)))
    ∧ (∀ p u, InHand (.sld h b32 strong false sem m d n off) h c s → guardG h e.wp = true →
      uniPlace c false ua (if b32 then 4 else 8) .load s = .ok (p, u) → rowStall e.wp c (if p.isRow then e.lanes else 0) = false →
      issued (.sld h b32 strong false sem m d n off) (fun w' => out (.sld h b32 strong false sem m d n off) w' (fun o =>
        o.parts = [(0, ua, p)] ∧ o.members = [e.w])))

/-- R22, R38, R39, R179, R182: a result that was there from issue, of LDS or of a uniform register, returns: its registers
are written. The data of a load of one lane, or of a uniform load, returns: the result is written as its size says, the
result is no longer outstanding, and the warps that its acquire held go on. Completion is stated for: loadDataReturn. -/
def Claim.LoadReturn : Prop :=
  ∀ (s u : State) (w : WarpId) (i l va : Nat) (o : Outst) (p : Place) (h : Hdr) (strong b32 sp : Bool) (z : Size) (sem : Sem)
    (m : Msc) (hint : Hint) (d n : Name) (a : ASrc) (off : BitVec 20) (bs : List (BitVec 8)),
    let x := warpD s w.block w.warp
    let val (k : Nat) : BitVec 32 := match z with
      | .i8 => (BitVec.ofNat 8 (leNat bs)).signExtend 32
      | .i16 => (BitVec.ofNat 16 (leNat bs)).signExtend 32
      | .n8 | .n16 => BitVec.ofNat 32 (leNat bs)
      | _ => BitVec.ofNat 32 (leNat ((bs.drop (4 * k)).take 4))
    let rest (y : Outst) : Bool := y.id != i && y.lead != some (w.warp, i)
    let back (P : State → Prop) : Prop := Next (exec (.loadDataReturn w i .ok) s) (fun t =>
      (warpD t w.block w.warp).outs = x.outs.filter rest ∧ t.mem = u.mem
      ∧ (∀ v ∈ (blockD t w.block).warps, ∀ j, v.waitOn ≠ some (j, o.pc, i)) ∧ P t)
    s.fatal = 0 → s.badPhys = false → findOut s w i = some o → o.lead = none →
    (∀ vs, o.instr = .lds h strong z sem m d a off ∨ o.instr = noWord → o.parts = [] → o.members = [] → o.vals = vs → vs ≠ [] →
      (∀ j k y, .lane j k y ∈ vs → j < 32 ∧ ∀ q, .lane j k q ∈ vs → q = y) → (∀ k y, .uni k y ∈ vs → vs = [.uni k y]) →
      Next (exec (.loadDataReturn w i .ok) s) (fun t => t.mem = s.mem ∧ (warpD t w.block w.warp).outs = x.outs.filter rest
        ∧ (∀ v ∈ (blockD t w.block).warps, ∀ j, v.waitOn ≠ some (j, o.pc, i))
        ∧ (let w' := warpD t w.block w.warp
          (∀ j k y, .lane j k y ∈ vs → w'.reg k j = y) ∧ (∀ k y, .uni k y ∈ vs → w'.sreg k = y)
          ∧ (∀ k j, j < 32 → (∀ y, .lane j k y ∉ vs) → w'.reg k j = x.reg k j)
          ∧ (∀ k, (∀ q y, .uni q y ∈ vs → q.toNat ≠ k.toNat) → w'.sreg k = x.sreg k)
          ∧ w'.preds = x.preds ∧ w'.g = x.g)))
    ∧ (bitsOf s.csr.errinj.toNat 45 45 = 0 → o.parts = [(l, va, p)] → o.vals = [] → o.waits x (l, va, p) = false →
    u.fatal = 0 →
    (o.instr = .ld h strong z sem m hint d a off → l < 32 → o.members = [] →
      loadPlace w.block p z.bytes (strong || p.isRow) (hint != .nl1) s = (bs, none, u) → bs.length = z.bytes → u.badPhys = false →
      back (fun t => let w' := warpD t w.block w.warp
        (∀ k, k < z.regs → w'.reg (d + BitVec.ofNat 7 k) l = val k)
        ∧ (∀ k j, j < 32 → ¬(j = l ∧ ∃ q, q < z.regs ∧ k = d + BitVec.ofNat 7 q) → w'.reg k j = x.reg k j)
        ∧ w'.preds = x.preds ∧ w'.s = x.s ∧ w'.g = x.g))
    ∧ (o.instr = .sld h b32 strong sp sem m d n off →
      loadPlace w.block p (if b32 then 4 else 8) (strong || p.isRow) true s = (bs, none, u) → u.badPhys = false → o.members ≠ [] →
      (∀ v ∈ o.members, v < (blockD s w.block).warps.length) →
      back (fun t => ∀ v ∈ o.members, (warpD t w.block v).sreg d = BitVec.ofNat 64 (leNat bs))))

/-- R38, R179, R182, R233: scratchpad loads and stores, each active lane at its own offset, which is a multiple of the size
and inside the allocation. A load leaves what it read as its outstanding result. A byte that two lanes store to holds the
highest lane's; every other byte keeps its value. A releasing store with unacknowledged stores before it is held until these
are acknowledged (R470). Completion is stated for: lds, sts, sld, sst. -/
def Claim.ScratchAccesses : Prop :=
  ∀ (h : Hdr) (c : Cur) (s : State) (strong b32 : Bool) (z : Size) (sem : Sem) (m : Msc) (d n : Name) (a : ASrc)
    (off : BitVec 20) (e : Env),
    let va (l : Nat) : Nat := match a with
      | .lane x => (e.wp.reg x l).toNat
      | .uni x => ((uniVal e x l).setWidth 32 + off.signExtend 32).toNat
    let ua : Nat := ((uniVal e n 0).setWidth 32 + off.signExtend 32).toNat
    let k : Nat := if b32 then 4 else 8
    let lim := (launchD s c.block.lid).scratch
    let byte (t : State) (x : Nat) : List (BitVec 8) := scratchRead t c.block x 1
    let data (l j : Nat) : BitVec 8 := ((e.wp.reg (d + BitVec.ofNat 7 (j / 4)) l) >>> (8 * (j % 4))).setWidth 8
    let val (l i : Nat) : BitVec 32 := match z with
      | .i8 => (BitVec.ofNat 8 (leNat (scratchRead s c.block (va l) 1))).signExtend 32
      | .i16 => (BitVec.ofNat 16 (leNat (scratchRead s c.block (va l) 2))).signExtend 32
      | .n8 => BitVec.ofNat 32 (leNat (scratchRead s c.block (va l) 1))
      | .n16 => BitVec.ofNat 32 (leNat (scratchRead s c.block (va l) 2))
      | _ => BitVec.ofNat 32 (leNat (scratchRead s c.block (va l + 4 * i) 4))
    let places := (laneNums (e.active h)).map (fun l => (l, va l, Place.scratch (va l)))
    let quiet : Prop := e.wp.rel = none ∧ m = .b ∧ e.wp.unacked = 0
    let holds (i : Instr) (stores : List (Nat × Place × List (BitVec 8))) : Prop :=
      e.wp.rel = none → (m = .b ∨ (launchD s c.block.lid).rb = false) → e.wp.unacked ≠ 0 → Next (exec i s) (fun t => ∃ r s',
        Ends h c s' t ∧ OnlyWarp c.block c.warp { e.wp with rel := some r } s s' ∧ r.msc = m ∧ r.phase = .acks ∧ r.pc = c.pc
        ∧ r.stores = stores)
    members s c = [e] → Contributes s c e → c.single = none → e.wp.tx = none →
    ((∀ l, (e.active h).getLsbD l → va l % z.bytes = 0 ∧ va l + z.bytes ≤ lim) → weakStall e.wp z.bytes places = false →
      (InHand (.lds h strong z sem m d a off) h c s → Next (exec (.lds h strong z sem m d a off) s) (fun t => ∃ s',
        s' = (if sem = .acq ∧ e.active h ≠ 0 then acquireNow c.block c.warp m s else s)
        ∧ WordEnds c s' t (fun e' w' => SameRegs e.wp w'
          ∧ (e.active h = 0 → GoesOn h e.lanes (c.pc + wordLen h) e'.wp w')
          ∧ (e.active h ≠ 0 → LeavesResult h c (e.active h) (fun vs =>
              (∀ l i, (e.active h).getLsbD l → i < z.regs → .lane l (d + BitVec.ofNat 7 i) (val l i) ∈ vs)
              ∧ ∀ x ∈ vs, ∃ l i, (e.active h).getLsbD l ∧ i < z.regs ∧ x = .lane l (d + BitVec.ofNat 7 i) (val l i)) e' w'))))
      ∧ (InHand (.sts h strong z sem m d a off) h c s →
        needsCheckpoint s c.block ((laneNums (e.active h)).map (fun l => (va l, z.bytes))) = false →
        (sem = .rel → e.active h ≠ 0 → holds (.sts h strong z sem m d a off)
          ((laneNums (e.active h)).map (fun l => (l, .scratch (va l), (List.range z.bytes).map (data l)))))
        ∧ ((sem = .rel → quiet ∨ e.active h = 0) → Next (exec (.sts h strong z sem m d a off) s) (fun t =>
        ∃ s', Ends h c s' t ∧ s'.mem = s.mem ∧ s'.cores = s.cores ∧ s'.clusters = s.clusters
          ∧ (blockD s' c.block).warps = (blockD s c.block).warps
          ∧ (∀ l j, (e.active h).getLsbD l → j < z.bytes →
            (∀ l', (e.active h).getLsbD l' → l < l' → ¬(va l' ≤ va l + j ∧ va l + j < va l' + z.bytes)) →
            byte s' (va l + j) = [data l j])
          ∧ ∀ x, (∀ l, (e.active h).getLsbD l → ¬(va l ≤ x ∧ x < va l + z.bytes)) → byte s' x = byte s x))))
    ∧ (guardG h e.wp = true → ua % k = 0 → ua + k ≤ lim → uniStall s c (.scratch ua) k = false →
      (InHand (.sld h b32 strong true sem m d n off) h c s → Next (exec (.sld h b32 strong true sem m d n off) s) (fun t =>
        ∃ s', s' = (if sem = .acq then acquireMembers h m c s else s)
        ∧ EndsWith h c d (BitVec.ofNat 64 (leNat (scratchRead s c.block ua k))) s' t))
      ∧ (InHand (.sst h b32 strong true sem m d n off) h c s → needsCheckpoint s c.block [(ua, k)] = false →
        (sem = .rel → holds (.sst h b32 strong true sem m d n off)
          [(0, .scratch ua, (List.range k).map (fun j => ((e.wp.sreg d) >>> (8 * j)).setWidth 8))])
        ∧ ((sem = .rel → quiet) → Next (exec (.sst h b32 strong true sem m d n off) s) (fun t => ∃ s', Ends h c s' t
          ∧ s'.mem = s.mem ∧ (∀ j, j < k → byte s' (ua + j) = [((e.wp.sreg d) >>> (8 * j)).setWidth 8])
          ∧ ∀ x, ¬(ua ≤ x ∧ x < ua + k) → byte s' x = byte s x))))

/-- R23, R179, R182: ST and SST to global addresses are made in lane order and wait for their acknowledgements, which come in
order; so does a block-scope release store when nothing of the warp is unacknowledged (R185); with something unacknowledged a
releasing store is held until that is acknowledged (R470). Completion is stated for: st, sst, storeAcknowledge. -/
def Claim.StoreIssue : Prop :=
  ∀ (h : Hdr) (c : Cur) (s : State) (strong b32 : Bool) (z : Size) (sem : Sem) (m : Msc) (hint : Hint) (d n : Name)
    (a : ASrc) (off : BitVec 20) (e : Env),
    let va (l : Nat) : Nat := match a with
      | .lane x => (e.wp.reg64 x l).toNat
      | .uni x => (uniVal e x l + off.signExtend 64).toNat
    let ua : Nat := (uniVal e n 0 + off.signExtend 64).toNat
    let r := resolve c (laneNums (e.active h)) va z.bytes .store s
    let bytes (l : Nat) : List (BitVec 8) := (List.range z.bytes).map (fun j =>
      ((e.wp.reg (d + BitVec.ofNat 7 (j / 4)) l) >>> (8 * (j % 4))).setWidth 8)
    let ubytes : List (BitVec 8) := (List.range (if b32 then 4 else 8)).map (fun j => ((e.wp.sreg d) >>> (8 * j)).setWidth 8)
    let holds (i : Instr) (u : State) (stores : List (Nat × Place × List (BitVec 8))) : Prop :=
      e.wp.rel = none → (m = .b ∨ (launchD s c.block.lid).rb = false) → e.wp.unacked ≠ 0 → Next (exec i s) (fun t => ∃ q v,
        Ends h c v t ∧ OnlyWarp c.block c.warp { e.wp with rel := some q } u v ∧ q.msc = m ∧ q.phase = .acks ∧ q.pc = c.pc
        ∧ q.stores = stores)
    members s c = [e] → Contributes s c e → c.single = none →
    (InHand (.st h strong z sem m hint d a off) h c s → e.wp.tx = none → r.faults = [] →
      rowStall e.wp c (rowLanes r.parts) = false → weakStall e.wp z.bytes r.parts = false →
      (sem = .rel → r.parts ≠ [] → holds (.st h strong z sem m hint d a off) r.st (r.parts.map (fun x => (x.1, x.2.2, bytes x.1))))
      ∧ ((sem ≠ .rel ∨ (m = .b ∧ e.wp.rel = none ∧ e.wp.unacked = 0)) →
      (∀ x ∈ r.parts, x.2.1 = va x.1) ∧
      (∀ u, makeStores c.block c.warp c.iw c.ew false (r.parts.map (fun x => (x.1, x.2.2, bytes x.1))) r.st = some u →
        u.badPhys = false → Next (exec (.st h strong z sem m hint d a off) s) (fun t => Ends h c u t))
      ∧ ∀ l q la v, r.parts = [(l, q, .log la v)] → ∀ u, storePlace c.block (.log la v) (bytes l) r.st = .made u →
        u.badPhys = false → Next (exec (.st h strong z sem m hint d a off) s) (fun t => ∃ s', Ends h c s' t
          ∧ s' = modWarp c.block c.warp (fun x => { x with unack := x.unack ++ [(l, .log la v, c.iw, c.ew)] }) u)))
    ∧ (∀ p u, InHand (.sst h b32 strong false sem m d n off) h c s → guardG h e.wp = true →
      uniPlace c false ua (if b32 then 4 else 8) .store s = .ok (p, u) → uniStall s c p (if b32 then 4 else 8) = false →
      rowStall e.wp c (if p.isRow then e.lanes else 0) = false →
      (sem = .rel → holds (.sst h b32 strong false sem m d n off) u [(0, p, ubytes)])
      ∧ ((sem ≠ .rel ∨ (m = .b ∧ e.wp.rel = none ∧ e.wp.unacked = 0)) →
        ∀ v, makeStores c.block e.w c.iw c.ew false [(0, p, ubytes)] u = some v → v.badPhys = false →
          Next (exec (.sst h b32 strong false sem m d n off) s) (fun t => Ends h c v t)))
    ∧ ∀ (w : WarpId) (b : Block) (x : Warp) (l : Nat) (p : Place) (iw ew : Word) rest, s.fatal = 0 → s.badPhys = false →
      getBlock s w.block = some b → b.warps[w.warp]? = some x → x.unack = (l, p, iw, ew) :: rest → x.rel = none →
      Next (exec (.storeAcknowledge w .ok) s) (fun t => OnlyWarp w.block w.warp { x with unack := rest } s t)

/-- R22, R23, R172: a store to a log line of a normal launch is seen by the same thread's next load of these bytes, weak or
strong; no other line changes, nor does memory: the store stays in the cluster's pending line. -/
def Claim.StoreThenLoad : Prop :=
  ∀ (s t : State) (id : BlockId) (la ks : Nat) (bs : List (BitVec 8)) (strong fill : Bool),
    let n := la / 128
    let cl := (blockD s id).cluster
    findCopy s id false n = none → aget s.homes n = none → (launchD s id.lid).rb = false → findTent (blockD s id) n = none →
    tableUse s cl < 16384 → la % 128 + bs.length ≤ 128 → bs ≠ [] → storePlace id (.log la ks) bs s = .made t →
    (∃ u, loadPlace id (.log la ks) bs.length strong fill t = (bs, none, u))
    ∧ t.mem = s.mem ∧ t.blocks = s.blocks
    ∧ (∀ k, k ≠ cl → clusterD t k = clusterD s k)
    ∧ ∀ k, k ≠ n → (clusterD t cl).pend.find? (fun p => p.line == k) = (clusterD s cl).pend.find? (fun p => p.line == k)
/-- R204: the thirteen atomic operations on 32 and 64 bits, at the scratchpad: the old value is answered and the new one stored. -/
def Obligations.AtomicOperations : Prop :=
  ∀ (s : State) (b : Block) (k : AtomSpec) (off : Nat) (x y : BitVec 64), getBlock s b.id = some b →
    (k.op ∈ [.fadd, .fmin, .fmax] → k.ty.regs = 1) →
    let w := 32 * k.ty.regs
    let len := 4 * k.ty.regs
    let old := leNat (scratchRead s b.id off len)
    let B := x.toNat % 2 ^ w
    let C := y.toNat % 2 ^ w
    let int (v : Nat) : Int := if k.ty.signed = true ∧ 2 ^ (w - 1) ≤ v then (v : Int) - 2 ^ w else v
    let f (v : Nat) : FV := f32 (BitVec.ofNat 32 v)
    let new : Nat := match k.op with
      | .add => (old + B) % 2 ^ w
      | .min => if int B < int old then B else old
      | .max => if int old < int B then B else old
      | .and => old &&& B
      | .or => old ||| B
      | .xor => old ^^^ B
      | .xchg => B
      | .cas => if old = C then B else old
      | .inc => if B ≤ old then 0 else old + 1
      | .dec => if old = 0 ∨ B < old then B else old - 1
      | .fadd => (encF32 .rne (FV.add false (f old) (f B))).toNat
      | .fmin => (f32MinMax false false (BitVec.ofNat 32 old) (BitVec.ofNat 32 B)).toNat
      | .fmax => (f32MinMax true false (BitVec.ofNat 32 old) (BitVec.ofNat 32 B)).toNat
    ∃ t, atomAt b.id k 0 (.scratch off) x y s = .done old t
      ∧ leNat (scratchRead t b.id off len) = new % 2 ^ w
      ∧ (∀ z, ¬(off ≤ z ∧ z < off + len) → scratchRead t b.id z 1 = scratchRead s b.id z 1)
      ∧ t.mem = s.mem ∧ t.clusters = s.clusters

/-- R198, R202, R203, R205, R222: ATOM, RED and SATOM go out with their operands in lane order, outstanding until they are
performed; a release they carry then waits for what is unacknowledged; in a deterministic launch each lane enters the buffer.
Completion is stated for: atom, red, satom. -/
def Claim.AtomicIssue : Prop :=
  ∀ (h : Hdr) (c : Cur) (s : State) (k : AtomSpec) (d n : Name) (a : ASrc) (b : Name) (e : Env),
    let off : BitVec 20 := k.off.signExtend 20
    let va (l : Nat) : Nat := match a, k.sp with
      | .lane x, true => (e.wp.reg x l).toNat
      | .lane x, false => (e.wp.reg64 x l).toNat
      | .uni x, true => ((uniVal e x l).setWidth 32 + off.signExtend 32).toNat
      | .uni x, false => (uniVal e x l + off.signExtend 64).toNat
    let lanes := laneNums (e.active h)
    let len := 4 * k.ty.regs
    let r := if k.sp then resolveScratch c lanes va len true s else resolve c lanes va len (.atomic k.msc) s
    let value (x : Name) (l : Nat) : BitVec 64 := if k.ty.regs = 2 then e.wp.reg64 x l else (e.wp.reg x l).setWidth 64
    let operand (l : Nat) : BitVec 64 := value (if k.op = .cas then b + BitVec.ofNat 7 k.ty.regs else b) l
    let cmp (l : Nat) : BitVec 64 := if k.op = .cas then value b l else 0
    let det := (launchD s c.block.lid).det
    let issued (i : Instr) (P : Warp → Prop) : Prop :=
      Next (exec i s) (fun t => ∃ w', OnlyWarp c.block c.warp w' s { t with cores := s.cores, clusters := s.clusters }
        ∧ ((k.sem = .rel ∨ k.sem = .ar) ∧ e.wp.unacked ≠ 0 → ∃ r, w'.rel = some r ∧ r.msc = k.msc ∧ r.phase = .acks
          ∧ r.out = some e.wp.nextOut)
        ∧ SameRegs e.wp w' ∧ w'.retired = e.wp.retired + 1 ∧ w'.nextOut = e.wp.nextOut + 1
        ∧ w'.lanes = (e.wp.setLanes e.lanes (fun x => { x with pc := c.pc + wordLen h, st := .running })).meetings.lanes ∧ P w')
    let out (i : Instr) (P : Outst → Prop) (w' : Warp) : Prop := ∃ o, w'.outs = e.wp.outs ++ [o] ∧ o.id = e.wp.nextOut
      ∧ o.instr = i ∧ o.pc = c.pc ∧ P o
    let lanesOut (o : Outst) : Prop := o.parts = r.parts ∧ o.ops = r.parts.map (fun x => (x.1, operand x.1, cmp x.1))
    let held (i : Instr) (w' : Warp) : Prop :=
      w'.waitOn = (if k.sem = .acq ∨ k.sem = .ar then some (i, c.pc, e.wp.nextOut) else e.wp.waitOn)
    let room (offs : List (Nat × Nat)) : Prop := k.sp = true → needsCheckpoint s c.block offs = false
    members s c = [e] → Contributes s c e → c.single = none →
    ((k.sem = .none ∨ k.sem = .acq) ∧ atomCloses s c.block k = false ∨ (k.sem = .rel ∨ k.sem = .ar) ∧ e.wp.rel = none
      ∧ (k.msc = .b ∨ (e.wp.unacked ≠ 0 ∧ (launchD s c.block.lid).rb = false))) →
    (room (r.parts.map (fun x => (x.2.1, len))) → r.faults = [] → r.parts ≠ [] →
      (InHand (.atom h k d a b) h c s →
        (det = false → issued (.atom h k d a b) (fun w' => out (.atom h k d a b) lanesOut w' ∧ held (.atom h k d a b) w'))
        ∧ (det = true → e.wp.det.length + r.parts.length ≤ 128 →
          issued (.atom h k d a b) (fun w' => out (.atom h k d a b) lanesOut w'
            ∧ w'.det.length = e.wp.det.length + r.parts.length)))
      ∧ (InHand (.red h k a b) h c s →
        (det = false → issued (.red h k a b) (fun w' => out (.red h k a b) lanesOut w' ∧ held (.red h k a b) w'))
        ∧ (det = true → e.wp.det.length + r.parts.length ≤ 128 → issued (.red h k a b) (fun w' => w'.outs = e.wp.outs
          ∧ w'.det.length = e.wp.det.length + r.parts.length))))
    ∧ (InHand (.satom h k d n b) h c s → guardG h e.wp = true → room [(uniAddr e k.sp n off, len)] → ∀ p u,
      uniPlace c k.sp (uniAddr e k.sp n off) len (.atomic k.msc) s = .ok (p, u) →
      let lead (w' : Warp) : Prop := out (.satom h k d n b) (fun o =>
        o.parts = [(0, uniAddr e k.sp n off, p)] ∧ o.members = [e.w]
        ∧ o.ops = [(0, e.wp.sreg (if k.op = .cas then b + 1 else b), if k.op = .cas then e.wp.sreg b else 0)]) w'
      (det = false → issued (.satom h k d n b) (fun w' => lead w' ∧ held (.satom h k d n b) w'))
      ∧ (det = true → e.wp.det.length + 1 ≤ 128 →
        issued (.satom h k d n b) (fun w' => lead w' ∧ w'.det.length = e.wp.det.length + 1)))

/-- R205, R207, R208: an atomic of one lane, or a uniform one, is performed at its site; ATOM gets the old value in its lane,
SATOM in every member, a signed 32-bit value extended, and RED none. Completion is stated for: atomicResultReturn. -/
def Claim.AtomicReturn : Prop :=
  ∀ (s u : State) (w : WarpId) (i l va site old : Nat) (o : Outst) (p : Place) (x y : BitVec 64) (h : Hdr) (k : AtomSpec)
    (d n : Name) (a : ASrc) (b : Name),
    let x0 := warpD s w.block w.warp
    let back (P : Warp → State → Prop) : Prop := Next (exec (.atomicResultReturn w i .ok) s) (fun t => t.mem = u.mem
      ∧ (warpD t w.block w.warp).outs = x0.outs.filter (fun q => q.id != i && q.lead != some (w.warp, i))
      ∧ P (warpD t w.block w.warp) t)
    s.fatal = 0 → bitsOf s.csr.errinj.toNat 45 45 = 0 → findOut s w i = some o → o.parts = [(l, va, p)] → o.sites = [site] →
    o.lead = none → o.waits x0 (l, va, p) = false → u.fatal = 0 →
    o.ops = [(l, x, y)] → x0.det = [] → x0.rel = none → l < 32 → atomAt w.block k site p x y s = .done old u →
    old < 2 ^ (32 * k.ty.regs) →
    u.badPhys = false → (blockD u w.block).warps = (blockD s w.block).warps →
    (o.instr = .atom h k d a b → back (fun w' _ =>
      (k.ty.regs = 1 → w'.reg d l = BitVec.ofNat 32 old)
      ∧ (k.ty.regs = 2 → w'.reg d l = BitVec.ofNat 32 old ∧ w'.reg (d + 1) l = BitVec.ofNat 32 (old / 2 ^ 32))
      ∧ ∀ q j, j < 32 → ¬(j = l ∧ (q = d ∨ (k.ty.regs = 2 ∧ q = d + 1))) → w'.reg q j = x0.reg q j))
    ∧ (o.instr = .red h k a b → back (fun w' _ => w'.regs = x0.regs ∧ w'.s = x0.s))
    ∧ (o.instr = .satom h k d n b → (∀ v ∈ o.members, v < (blockD s w.block).warps.length) → back (fun _ t =>
      ∀ v ∈ o.members, (warpD t w.block v).sreg d =
        if k.ty.regs = 1 ∧ k.ty.signed = true then (BitVec.ofNat 32 old).signExtend 64 else BitVec.ofNat 64 old))

/-- R181, R185, R470: a fence without release only goes on; an acquire empties the core's L1 first; a block-scope release
with nothing unacknowledged is performed at once; a device-scope one asks the cluster for a publish. Completion is stated
for: fence. -/
def Claim.FenceResults : Prop :=
  ∀ (h : Hdr) (c : Cur) (s : State) (m : Msc) (e : Env),
    let core := (blockD s c.block).core
    let quiet : Prop := e.wp.rel = none ∧ e.wp.unack = [] ∧ e.wp.outs.all (fun o => !isRed o.instr) = true
      ∧ (launchD s c.block.lid).rb = false
    members s c = [e] → Contributes s c e → c.single = none → e.active h ≠ 0 →
    (∀ sem, InHand (.fence h sem m) h c s →
      (sem = .none → Next (exec (.fence h sem m) s) (fun t => Ends h c s t))
      ∧ (sem = .acq → Next (exec (.fence h sem m) s) (fun t => ∃ s', Ends h c s' t ∧ (coreD s' core).l1 = [] ∧ s'.mem = s.mem
        ∧ (m = .dv ∨ m = .sy → (coreD s' core).acc = 0 ∧ (warpD s' c.block c.warp).acq = s.epoch)))
      ∧ (sem = .rel → quiet → m = .b → Next (exec (.fence h sem m) s) (fun t => Ends h c s t))
      ∧ (sem = .rel → quiet → m = .dv → s.phase = 2 → (coreD s core).atoms = [] →
        Next (exec (.fence h sem m) s) (fun t => ∃ s', Ends h c s' t ∧ (clusterD s' (core / 8)).publish = true
          ∧ s'.mem = s.mem ∧ ∃ r, (warpD s' c.block c.warp).rel = some r ∧ r.phase = .publish ∧ r.pc = c.pc))
      ∧ (sem = .ar → quiet → m = .b → Next (exec (.fence h sem m) s) (fun t => ∃ s', Ends h c s' t
        ∧ (coreD s' core).l1 = [] ∧ s'.mem = s.mem ∧ s'.blocks = s.blocks)))

/-- R24, R175: a cluster's publish takes one new epoch and empties its pending lines; a release that waited for it is
performed. After 65,536 cycles a stall for want of publish-table entries ends in a forced publish, or asks the blocks that
hold tentative lines for checkpoints, and ends so when these have been completed. Completion is stated for: publishInstall,
publishTableStallTimeout. -/
def Claim.PublishEvents : Prop :=
  ∀ (s : State) (k : Nat), s.fatal = 0 → s.replica = none → s.epoch + 1 ≤ 0xFFFFFFFFFFFF →
    let r := publishCluster k s
    let r' := publishDone k s
    ((clusterD s k).publish = true → r.2 = true → r'.1.badPhys = false →
      Next (exec (.publishInstall k) s) (fun t => r.1.epoch = s.epoch + 1 ∧ (clusterD r.1 k).pend = []
        ∧ t = releasePublished k (modCluster k (fun x => { x with publish := false }) r.1)))
    ∧ (∀ (w : Warp) (x : Release), w.rel = some x → x.phase = .publish →
      (Warp.published (s.epoch + 1) w).rel = some { x with phase := if x.msc = .sy then .remote else .done, epoch := s.epoch + 1 })
    ∧ (∀ since, (clusterD s k).stallSince = some since →
      let ends : Prop := Next (exec (.publishTableStallTimeout k) s) (fun t =>
        (clusterD t k).stallSince = none ∧ (clusterD t k).ending = none)
      ((clusterD s k).ending = none → since + 65536 ≤ s.clock →
        (tentBlocks s k = [] → r.2 = true → r'.1.badPhys = false → ends)
        ∧ (∀ id ∈ tentBlocks s k, s.badPhys = false →
          Next (exec (.publishTableStallTimeout k) s) (fun t => (blockD t id).rb.want = true ∧ t.mem = s.mem ∧ t.epoch = s.epoch
            ∧ (clusterD t k).ending = some ((tentBlocks s k).map (fun x => (x, false))))))
      ∧ (∀ l, (clusterD s k).ending = some l → endingLeft s k l = [] → r.2 = true → r'.1.badPhys = false → ends))

/-- R209, R210: WAITA of one active lane: its word is read; the lane goes on with it when the condition holds, and sleeps
otherwise, until a later check finds it true or its time is over. Completion is stated for: waita. -/
def Claim.WaitResults : Prop :=
  ∀ (h : Hdr) (c : Cur) (s u : State) (cond : WaitCond) (sp acq : Bool) (m : Msc) (tmo : BitVec 4) (d a b : Name) (e : Env)
    (l v : Nat) (p : Place),
    let va : Nat := if sp then (e.wp.reg a l).toNat else (e.wp.reg64 a l).toNat
    let r := if sp then resolveScratch c [l] (fun _ => va) 4 false s else resolve c [l] (fun _ => va) 4 .load s
    let i := Instr.waita h cond sp acq m tmo d a b
    let B := (e.wp.reg b l).toNat
    let int (x : Nat) : Int := (BitVec.ofNat 32 x).toInt
    let holds : Prop := match cond with
      | .eq => v = B
      | .ne => v ≠ B
      | .geu => B ≤ v
      | .ges => int B ≤ int v
      | .any => v &&& B ≠ 0
    members s c = [e] → Contributes s c e → c.single = none → e.active h = 1#32 <<< l → l < 32 → InHand i h c s →
    r.parts = [(l, va, p)] → waitRead c.block p r.st = (v, none, u) → v < 2 ^ 32 → u.badPhys = false →
    u.blocks = s.blocks → (∀ z ∈ e.wp.sleeps, z.word ≠ e.wp.nextOut) →
    (holds → Next (exec i s) (fun t => ∃ w', warpD t c.block c.warp = w' ∧ t.mem = u.mem ∧ w'.retired = e.wp.retired + 1
      ∧ (∀ k j, j < 32 → w'.reg k j = if k = d ∧ j = l then BitVec.ofNat 32 v else e.wp.reg k j)
      ∧ w'.lanes = (e.wp.setLanes e.lanes (fun x => { x with pc := c.pc + wordLen h, st := .running })).meetings.lanes
      ∧ w'.sleeps = e.wp.sleeps ∧ (acq = true → (coreD t (blockD s c.block).core).l1 = [])))
    ∧ (¬ holds → e.lanes = e.active h → Next (exec i s) (fun t => ∃ w', warpD t c.block c.warp = w' ∧ t.mem = u.mem
      ∧ (∀ k j, j < 32 → w'.reg k j = if k = d ∧ j = l then BitVec.ofNat 32 v else e.wp.reg k j)
      ∧ w'.lanes = (e.wp.setLanes e.lanes (fun x => { x with st := .asleep })).meetings.lanes ∧ w'.retired = e.wp.retired
      ∧ ∃ z, w'.sleeps = e.wp.sleeps ++ [z] ∧ z.pc = c.pc ∧ z.lanes = e.lanes ∧ z.va = va ∧ z.cmp.toNat = B ∧ z.instr = i ∧ z.word = e.wp.nextOut
        ∧ z.deadline = (if tmo = 0 then none else some (u.clock + 2 ^ (tmo.toNat + 9)))))

/-- R210: a sleeping lane of WAITA whose word now meets its condition, or whose time is over, runs at the next word. The word
is counted with its last lane, as the model chooses (log entry 82). Completion is stated for: waita, waitaCheck,
waitaTimeout. -/
def Claim.WaitWakes : Prop :=
  ∀ (s u : State) (w : WarpId) (bl : Block) (x : Warp) (z : Sleep) (lane v : Nat) (p : Place) (h : Hdr) (cond : WaitCond)
    (sp acq : Bool) (m : Msc) (tmo : BitVec 4) (d a b : Name),
    let wakes (v : Nat) (t : State) : Prop := ∃ w', warpD t w.block w.warp = w'
      ∧ (∀ k j, j < 32 → w'.reg k j = if k = d ∧ j = lane then BitVec.ofNat 32 v else x.reg k j)
      ∧ w'.sleeps = x.sleeps.filter (fun y => !(y.lanes == z.lanes && y.pc == z.pc))
      ∧ w'.retired = (if w'.sleeps.any (fun y => y.word == z.word) then x.retired else x.retired + 1)
      ∧ ∀ y, x.lanes[lane]? = some y → ∃ y', w'.lanes[lane]? = some y' ∧ y'.pc = z.pc + wordLen h
    s.fatal = 0 → s.badPhys = false → getBlock s w.block = some bl → bl.warps[w.warp]? = some x → bl.saved = false →
    x.stopped = false → waitaSleep x lane = some z → z.instr = .waita h cond sp acq m tmo d a b → lane < 32 →
    (sleepPlace w z s = .ok p → waitRead w.block p s = (v, none, u) → u.badPhys = false → u.blocks = s.blocks →
      (waitHolds cond 32 v z.cmp.toNat = true → Next (exec (.waitaCheck w lane) s) (fun t => wakes v t
        ∧ (acq = true → (coreD t bl.core).l1 = [])))
      ∧ (waitHolds cond 32 v z.cmp.toNat = false → Next (exec (.waitaCheck w lane) s) (fun t => ∃ w',
        OnlyWarp w.block w.warp w' u t ∧ w' = { x with sleeps := w'.sleeps } ∧ w'.lanes = x.lanes)))
    ∧ (∀ dl, z.deadline = some dl → dl ≤ s.clock →
      Next (exec (.waitaTimeout w lane) s) (fun t => wakes z.last.toNat t ∧ t.mem = s.mem ∧ t.cores = s.cores))

/-- R212, R213, R217 to R219: TXB begins or joins a transaction after a device-scope acquire; TXE holds the lanes that close
their part; TXA leaves with code 0x01; TXQ reads the state. Completion is stated for: txb, txe, txa, txq. -/
def Obligations.TransactionWords : Prop :=
  ∀ (h : Hdr) (c : Cur) (s : State) (d : Name) (off : BitVec 20) (code : BitVec 8) (e : Env),
    let act := e.active h
    let next : BitVec 53 := c.pc + wordLen h
    let handler : BitVec 53 := c.pc + off.signExtend 53 * 4
    members s c = [e] → Contributes s c e → c.single = none →
    (InHand (.txb h d off) h c s → act ≠ 0 → e.wp.tx = none →
      Next (exec (.txb h d off) s) (fun t => ∃ w' tx, OnlyWarp c.block c.warp w' (acquireNow c.block c.warp .dv s) t
        ∧ w'.tx = some tx ∧ tx.closed = false ∧ tx.seen = [] ∧ w'.acq = s.epoch
        ∧ (∀ l, (∃ y ∈ tx.lanes, y.lane = l) ↔ act.getLsbD l = true)
        ∧ (∀ y ∈ tx.lanes, y.handler = handler ∧ y.dst = d ∧ y.committing = false ∧ y.reads = [] ∧ y.writes = [])
        ∧ (∀ k l, l < 32 → w'.reg k l = if k = d ∧ act.getLsbD l then 0 else e.wp.reg k l)
        ∧ w'.preds = e.wp.preds ∧ w'.s = e.wp.s ∧ w'.g = e.wp.g ∧ w'.retired = e.wp.retired + 1
        ∧ w'.lanes = (e.wp.setLanes e.lanes (fun x => { x with pc := next, st := .running })).meetings.lanes))
    ∧ (∀ tx, e.wp.tx = some tx → InHand (.txe h) h c s → act &&& txLanes e.wp ≠ 0 →
      Next (exec (.txe h) s) (fun t => ∃ w', OnlyWarp c.block c.warp w' s { t with cores := s.cores } ∧ SameRegs e.wp w'
        ∧ (∃ u, w'.tx = some u ∧ u.words = tx.words + 1 ∧ u.closed = tx.closed ∧ u.lanes = tx.lanes.map (fun y =>
          { y with committing := y.committing || (act &&& txLanes e.wp).getLsbD y.lane }))
        ∧ ∀ l y, l < 32 → e.wp.lanes[l]? = some y → ∃ y', w'.lanes[l]? = some y'
          ∧ ((act &&& txLanes e.wp).getLsbD l = true → y'.txe = true ∧ y'.st = .waiting)
          ∧ (e.lanes.getLsbD l = true → (act &&& txLanes e.wp).getLsbD l = false → y'.pc = next)))
    ∧ (InHand (.txe h) h c s → e.wp.tx = none → Next (exec (.txe h) s) (fun t => Ends h c s t))
    ∧ (∀ tx, e.wp.tx = some tx → InHand (.txa h code) h c s →
      Next (exec (.txa h code) s) (fun t => ∃ w', OnlyWarp c.block c.warp w' s t
        ∧ ∀ l y z, l < 32 → tx.lanes.find? (fun q => q.lane == l) = some y → e.wp.lanes[l]? = some z → act.getLsbD l = true →
          w'.reg y.dst l = BitVec.ofNat 32 (1 + code.toNat * 256)
          ∧ (∃ z', w'.lanes[l]? = some z' ∧ z'.pc = y.handler)
          ∧ ∀ u, w'.tx = some u → ∀ q ∈ u.lanes, q.lane ≠ l))
    ∧ LaneWrites (.txq h d) h c s d 1 (fun e l => match e.wp.tx with
      | none => 0
      | some tx => BitVec.ofNat 64 ((if tx.lanes.any (fun y => y.lane == l) then 1 else 0) + tx.readSet.length * 2 ^ 8
        + tx.writeSet.length * 2 ^ 16))
/-! ### Cache control and the copy engine (spec 06, 10) -/

/-- R183: prefetches and cache control. Prefetches change no block and no byte of memory. Completion is stated for: prefCc,
prefL1, prefIx, cctlL1inv, cctlFxinv, cctlAppend, ixctlQuery, ixctlDrop, ixctlUnhome. -/
def Obligations.CacheControl : Prop :=
  ∀ (h : Hdr) (c : Cur) (s : State) (d a b : Name) (off : BitVec 20) (e : Env), leadOf h s c = some e →
    let core := (blockD s c.block).core
    let va : Nat := (uniVal e a 0 + off.signExtend 64).toNat
    let done (i : Instr) (P : State → Prop) : Prop := InHand i h c s → Next (exec i s) (fun t => ∃ s', Ends h c s' t ∧ P s')
    let fetches (i : Instr) : Prop := done i (fun s' => s'.mem = s.mem ∧ s'.blocks = s.blocks ∧ s'.segs = s.segs)
    fetches (.prefCc h a b off) ∧ fetches (.prefL1 h a b off) ∧ fetches (.prefIx h a b off)
    ∧ done (.cctlL1inv h) (fun s' => s' = { s with cores := s'.cores } ∧ (coreD s' core).l1 = [])
    ∧ ((appendPendings (core / 8) s).badPhys = false → done (.cctlAppend h) (fun s' => s'.blocks = s.blocks ∧ s'.epoch = s.epoch
      ∧ (clusterD s' (core / 8)).pend.map (fun p => (p.line, p.data)) = (clusterD s (core / 8)).pend.map (fun p => (p.line, p.data))))
    ∧ (∀ ps, (uniVal e b 0).toNat ≤ 0x40000000 → rangePieces c (uniVal e a 0).toNat (uniVal e b 0).toNat s = .ok ps →
      done (.cctlFxinv h a b) (fun s' => s' = { s with cores := s'.cores, clusters := s'.clusters }
        ∧ (∀ x ∈ (coreD s' core).l1, x.kind = 1 → inPieces ps true x.key = false)
        ∧ ∀ x ∈ (clusterD s' (core / 8)).fixed, inPieces ps true (x.1 / 128) = false)
      ∧ done (.ixctlDrop h a b) (fun s' => s' = { s with cores := s'.cores, clusters := s'.clusters }
        ∧ (∀ x ∈ (coreD s' core).ix, inPieces ps false x.1 = false)
        ∧ ∀ x ∈ (clusterD s' (core / 8)).ix, inPieces ps false x.1 = false))
    ∧ (∀ la ks u, uniPlace c false va 1 .load s = .ok (.log la ks, u) → InHand (.ixctlQuery h d a off) h c s →
      Next (exec (.ixctlQuery h d a off) s) (fun t => EndsWith h c d ((ixEntry u (la / 128)).setWidth 64) u t))
    ∧ (∀ la ks u, uniPlace c false va 1 .store s = .ok (.log la ks, u) →
      (aget (unhomeLines (homeSliceOf (la / 128)) [la / 128] u).homes (la / 128)) = none →
      (unhomeLines (homeSliceOf (la / 128)) [la / 128] u).badPhys = false →
      done (.ixctlUnhome h a off) (fun s' => aget s'.homes (la / 128) = none
        ∧ (aget s.homes (la / 128) = none → s'.mem = s.mem)))

/-- R236 to R241, R250: TCOPY, TSTORE and TFILL answer a ticket. A command that fails a check changes nothing else; with room
in its queue it enters behind the others; with none the word stalls. Completion is stated for: tcopy, tstore, tfill. -/
def Claim.CopyCommands : Prop :=
  ∀ (h : Hdr) (c : Cur) (s : State) (sem : Sem) (m : Msc) (vc : Vc) (d a : Name) (q : BitVec 4) (e : Env),
    leadOf h s c = some e → (sem = .none ∨ sem = .rel ∨ e.wp.unacked = 0) →
    let cq := copyQ (blockD s c.block) q.toNat
    let ticket (seq : BitVec 32) (st : Nat) : BitVec 64 := BitVec.ofNat 64 (seq.toNat + st * 2 ^ 32 + q.toNat * 2 ^ 40)
    let off := (uniVal e a 0).toNat % 2 ^ 32
    let word (i : Instr) (k : CopyKind) (vc : Vc) : Prop :=
      InHand i h c s →
      ((off % 64 ≠ 0 ∨ (launchD s c.block.lid).scratch < off + 64) →
        Next (exec i s) (fun t => EndsWith h c d (ticket cq.issued 0x08) s t))
      ∧ (off % 64 = 0 → off + 64 ≤ (launchD s c.block.lid).scratch →
        let desc := leNat (scratchRead s c.block off 64)
        let v := vcOf e vc (cdRows desc)
        let st := copyStatus k (launchD s c.block.lid).scratch (vc != .all) v cq desc
        (st ≠ 0 → Next (exec i s) (fun t => EndsWith h c d (ticket cq.issued st) s t))
        ∧ (st = 0 → 16 ≤ cq.cmds.length → exec i s = .next s)
        ∧ (st = 0 → cq.cmds.length < 16 → Next (exec i s) (fun t => ∃ s', EndsWith h c d (ticket (cq.issued + 1) 0) s' t
          ∧ s' = { s with blocks := s'.blocks } ∧ (∀ id, id ≠ c.block → getBlock s' id = getBlock s id)
          ∧ ∀ b, getBlock s c.block = some b → ∃ b' x, getBlock s' c.block = some b' ∧ b' = { b with copyQ := b'.copyQ }
            ∧ (∀ n, n ≠ q.toNat → copyQ b' n = copyQ b n) ∧ (copyQ b' q.toNat).issued = cq.issued + 1
            ∧ (copyQ b' q.toNat).completed = cq.completed ∧ (copyQ b' q.toNat).cmds = cq.cmds ++ [x]
            ∧ x.kind = k ∧ x.desc = BitVec.ofNat 512 desc ∧ x.v = v ∧ x.pos = 0 ∧ x.warp = e.w
            ∧ x.seq = (cq.issued + 1).toNat)))
    word (.tcopy h sem m vc d a q) .copy vc ∧ word (.tstore h sem m vc d a q) .store vc
    ∧ word (.tfill h sem m d a q) .fill .all

/-- R258 to R260: RING after its rendezvous. Each live block of the band gets a ticket of queue 16 and, for a region of one
row, the bytes that the block before it brought; one failing block makes the command fail in all. Completion is stated for:
ring. -/
def Claim.RingResults : Prop :=
  ∀ (h : Hdr) (c : Cur) (s : State) (sem : Sem) (m : Msc) (d a : Name) (r : Rdv),
    let cs := bandCurs s c r
    let ps := cs.filterMap (ringPart h a s)
    let bad : Prop := (∃ p ∈ ps, p.status ≠ 0) ∨ ∃ p ∈ ps, ∃ p' ∈ ps, cdLen p.desc ≠ cdLen p'.desc
    let ticket (seq : BitVec 32) (st : Nat) : BitVec 64 := BitVec.ofNat 64 (seq.toNat + st * 2 ^ 32 + 16 * 2 ^ 40)
    let issued (p : RingPart) : BitVec 32 := (copyQ (blockD s p.cur.block) 16).issued
    c.single = some r → (∀ p ∈ ps, p.lead.w < (blockD s p.cur.block).warps.length) → InHand (.ring h sem m d a) h c s →
    (bad → Next (exec (.ring h sem m d a) s) (fun t => t.mem = s.mem ∧ ∀ p ∈ ps,
      (warpD t p.cur.block p.lead.w).sreg d = ticket (issued p) (if p.status = 0 then 0x0C else p.status)
      ∧ (blockD t p.cur.block).scratch = (blockD s p.cur.block).scratch
      ∧ (blockD t p.cur.block).copyQ = (blockD s p.cur.block).copyQ))
    ∧ (¬ bad → (∀ p ∈ ps, (copyQ (blockD s p.cur.block) 16).cmds.length < 16 ∧ needsCheckpoint s p.cur.block (ringRuns p) = false) →
      Next (exec (.ring h sem m d a) s) (fun t => t.mem = s.mem ∧ ∀ j p p', ps[j]? = some p →
        ps[(j + ps.length - 1) % ps.length]? = some p' →
        (warpD t p.cur.block p.lead.w).sreg d = ticket (issued p + 1) 0
        ∧ (copyQ (blockD t p.cur.block) 16).issued = issued p + 1
        ∧ (cdRows p.desc = 1 → cdRows p'.desc = 1 → scratchRead t p.cur.block (cdDoff p.desc) (cdLen p.desc)
          = scratchRead s p'.cur.block (cdSoff p'.desc) (cdLen p'.desc))))

/-- R235, R242 to R248, R250: a granule of the copy engine, its faults, and the end of a command: the arrival word is
updated, the command leaves its queue and is counted. Completion is stated for: copyGranuleTransfer, copyCommandComplete. -/
def Claim.CopyEngineEvents : Prop :=
  ∀ (s : State) (core key q : Nat) (id : BlockId) (c : CopyCmd) (b : Block), s.fatal = 0 → s.badPhys = false →
    getBlock s id = some b → b.saved = false → (launchD s id.lid).rb = false →
    let d := c.desc.toNat
    (nextRound ((aget (clusterD s (core / 8)).lastCopy core).getD 0) (copyReady s core) = some (key, id, q, c) →
      let s0 := modCluster (core / 8) (fun k => { k with lastCopy := aset k.lastCopy core key }) s
      let r := beginCopy id c s0
      let fin := min (c.pos + 512) (cdLen d)
      (∀ snap homes u, moveGranule id r.1 fin r.2 = .moved snap homes u → u.badPhys = false →
        Next (exec (.copyGranuleTransfer core) s) (fun t => t.mem = u.mem ∧ ∀ b', getBlock u id = some b' →
          (copyQ (blockD t id) q).cmds.head? = some { r.1 with pos := fin, snap := snap, homes := homes }
          ∧ (copyQ (blockD t id) q).cmds.drop 1 = (copyQ b' q).cmds.drop 1 ∧ (blockD t id).scratch = b'.scratch
          ∧ (blockD t id).warps = b'.warps))
      ∧ (c.kind = .fill → cdRows d = 1 → b.copyQ ≠ [] → Next (exec (.copyGranuleTransfer core) s) (fun t =>
          (∀ j, c.pos ≤ j → j < fin → scratchRead t id (cdSoff d + j) 1
            = [BitVec.ofNat 8 (cdGaddr d / 2 ^ (8 * ((j - c.pos) % cdEs d)))])
          ∧ ∀ x, ¬(cdSoff d + c.pos ≤ x ∧ x < cdSoff d + fin) → scratchRead t id x 1 = scratchRead s id x 1))
      ∧ (∀ cls va u, moveGranule id r.1 fin r.2 = .fault cls va u → cls ≠ heldClass → (cls ≠ 5 ∧ cls ≠ 6) → u.badPhys = false →
        Next (exec (.copyGranuleTransfer core) s) (fun t => ∀ b', getBlock u id = some b' →
          (copyQ (blockD t id) q).state = .error ∧ (copyQ (blockD t id) q).cls = cls
          ∧ (copyQ (blockD t id) q).offset = r.1.pos)))
    ∧ ((copyQ b q).cmds.head? = some c → (copyQ b q).state = .running → cdLen d ≤ c.pos → c.ord.rel = false → c.stage ≠ .remote →
      let old := leNat (scratchRead s id (cdAoff d) 4)
      Next (exec (.copyCommandComplete id q) s) (fun t =>
        scratchRead t id (cdAoff d) 4 = leBytes 4 (if bitsOf d 164 164 = 1 then bitsOf d 159 128 else (old + cdLen d) % 2 ^ 32)
        ∧ (∀ x, ¬(cdAoff d ≤ x ∧ x < cdAoff d + 4) → scratchRead t id x 1 = scratchRead s id x 1)
        ∧ (copyQ (blockD t id) q).cmds = (copyQ b q).cmds.drop 1
        ∧ (copyQ (blockD t id) q).completed = (copyQ b q).completed + 1
        ∧ ((copyQ (blockD t id) q).state = .idle ↔ (copyQ b q).cmds.length = 1)
        ∧ (blockD t id).warps = b.warps ∧ t.mem = s.mem))

/-- R255 to R257: TWAIT, its wake and its time-out; TSTAT and TSTAT.CLR. Completion is stated for: twait, tstat, tstatClr,
twaitWake, twaitTimeout. -/
def Claim.CopyWaits : Prop :=
  ∀ (h : Hdr) (c : Cur) (s : State) (cond : WaitCond) (acq : Bool) (m : Msc) (tmo : BitVec 2) (d a b : Name) (off : BitVec 20)
    (n : BitVec 5) (e : Env),
    let i := Instr.twait h cond acq m tmo d a b off
    let o : Nat := ((uniVal e a 0).setWidth 32 + off.signExtend 32).toNat
    let x := leNat (scratchRead s c.block o 4)
    let B := (uniVal e b 0).toNat % 2 ^ 32
    let q := copyQ (blockD s c.block) n.toNat
    (leadOf h s c = some e → o % 4 = 0 → o + 4 ≤ (launchD s c.block.lid).scratch → InHand i h c s →
      (waitHolds cond 32 x B = true → Next (exec i s) (fun t => ∃ s', s' = (if acq then acquireMembers h m c s else s)
        ∧ EndsNow h c d (BitVec.ofNat 64 x) s' t))
      ∧ (waitHolds cond 32 x B = false → c.single = none → Contributes s c e → Next (exec i s) (fun t => ∃ w' z,
        OnlyWarp c.block c.warp w' s { t with cores := s.cores } ∧ SameRegs e.wp w' ∧ w'.sleeps = e.wp.sleeps ++ [z]
        ∧ w'.lanes = (e.wp.setLanes e.lanes (fun y => { y with st := .asleep })).lanes ∧ z.lanes = e.lanes ∧ z.pc = c.pc
        ∧ z.va = o ∧ z.cmp.toNat = B ∧ z.last.toNat = x ∧ z.instr = i
        ∧ z.deadline = (if tmo = 0 then none else some (s.clock + 2 ^ (12 + 4 * tmo.toNat))))))
    ∧ UniLate (.tstat h .seq d n) h c s d (fun _ => q.issued ++ q.completed)
    ∧ UniLate (.tstat h .state d n) h c s d (fun _ => BitVec.ofNat 64 (
      (match q.state with | .idle => 0 | .running => 1 | .stalled => 2 | .error => 3)
      + (if q.state = .stalled ∨ q.state = .error then q.cls else 0) * 2 ^ 2 + q.cmds.length * 2 ^ 8
      + (match q.state with
          | .stalled | .error => q.offset
          | .running => (q.cmds.head?.map (·.pos)).getD 0
          | .idle => 0) * 2 ^ 32))
    ∧ (∃ v : BitVec 64, UniLate (.tstat h .stage d n) h c s d (fun _ => v)
      ∧ ∀ k, k < 32 → (v.getLsbD k = true ↔ ∃ y ∈ (blockD s c.block).staging, y.num = k))
    ∧ (leadOf h s c = some e → InHand (.tstatClr h d n) h c s →
      (q.state ≠ .error → Next (exec (.tstatClr h d n) s) (fun t => EndsWith h c d 0 s t))
      ∧ (q.state = .error → Next (exec (.tstatClr h d n) s) (fun t => ∃ s', EndsWith h c d (BitVec.ofNat 64 q.cmds.length) s' t
        ∧ s' = { s with blocks := s'.blocks } ∧ (blockD s' c.block).warps = (blockD s c.block).warps
        ∧ ((getBlock s c.block).isSome = true → (copyQ (blockD s' c.block) n.toNat).cmds = []
          ∧ (copyQ (blockD s' c.block) n.toNat).state = .idle
          ∧ (copyQ (blockD s' c.block) n.toNat).issued = q.issued))))
    ∧ ∀ (w : WarpId) (bl : Block) (y : Warp) (z : Sleep), s.fatal = 0 → s.badPhys = false → getBlock s w.block = some bl →
      bl.warps[w.warp]? = some y → bl.saved = false → y.stopped = false → y.sleeps = [z] → z.members = [] → z.instr = i →
      let v := leNat (scratchRead s w.block z.va 4)
      let wakes (v : BitVec 64) (t : State) : Prop := ∃ w', warpD t w.block w.warp = w' ∧ w'.sleeps = []
        ∧ w'.retired = y.retired + 1 ∧ w'.regs = y.regs ∧ w'.preds = y.preds ∧ w'.g = y.g
        ∧ (∀ k, w'.sreg k = if guardG h y = true ∧ k.toNat = d.toNat then v else y.sreg k)
        ∧ w'.lanes = (y.setLanes z.lanes (fun l => { l with pc := z.pc + wordLen h, st := .running })).meetings.lanes
      (waitHolds cond 32 v z.cmp.toNat = true → Next (exec (.twaitWake w) s) (wakes (BitVec.ofNat 64 v)))
      ∧ (waitHolds cond 32 v z.cmp.toNat = false → Next (exec (.twaitWake w) s) (fun t =>
        OnlyWarp w.block w.warp { y with sleeps := [{ z with last := BitVec.ofNat 64 v }] } s t))
      ∧ (∀ dl, z.deadline = some dl → dl ≤ s.clock → Next (exec (.twaitTimeout w) s) (wakes z.last))
/-! ### The Massif (spec 09) -/

/-- R267 to R269, R289, R290: MCLAIM takes the lowest free run or answers all ones, MREL frees a run that the block owns once
no command names it, MQCFG gives, frees and clears queues, and MSTAT answers their state. Completion is stated for: mclaim,
mrel, mstat, mqcfgAlloc, mqcfgFree, mqcfgClr. -/
def Claim.MatrixResources : Prop :=
  ∀ (h : Hdr) (c : Cur) (s : State) (acc : Bool) (d a : Name) (n : BitVec 8) (e : Env), leadOf h s c = some e →
    let cl := (blockD s c.block).cluster
    let k := clusterD s cl
    let rb := (launchD s c.block.lid).rb
    let A := (uniVal e a 0).toNat
    let gives (i : Instr) (v : BitVec 64) (P : State → Prop) : Prop :=
      InHand i h c s → Next (exec i s) (fun t => ∃ s', EndsWith h c d v s' t ∧ P s')
    let same (s' : State) : Prop := s' = { s with clusters := s'.clusters } ∧ ∀ j, j ≠ cl → clusterD s' j = clusterD s j
    let taken (x : Nat) : Prop := if acc then (aget k.accs x).isSome = true else (aget k.slots x).isSome = true
    let total := if acc then 16 else 128
    let free (x : Nat) : Prop := x + n.toNat ≤ total ∧ ∀ j, j < n.toNat → ¬ taken (x + j)
    let run (x j : Nat) : Prop := x ≤ j ∧ j < x + n.toNat
    -- MCLAIM
    (InHand (.mclaim h acc d n) h c s → (∀ x, ¬ free x) → Next (exec (.mclaim h acc d n) s) (EndsWith h c d (BitVec.allOnes 64) s))
    ∧ (∀ x, free x → (∀ y, y < x → ¬ free y) → gives (.mclaim h acc d n) (BitVec.ofNat 64 x) (fun s' => same s'
      ∧ ∀ j, if run x j then
          (if acc then aget (clusterD s' cl).accs j = some { owner := c.block, data := [] }
            else aget (clusterD s' cl).slots j
              = some { owner := c.block, tag := 0, sref := false, data := [], side := [], stage := none })
        else aget (clusterD s' cl).accs j = aget k.accs j ∧ aget (clusterD s' cl).slots j = aget k.slots j))
    -- MREL
    ∧ (let x := A % 256
      let owned : Prop := ∀ j, j < n.toNat → (if acc then ownsAcc s c.block (x + j) else ownsSlot s c.block (x + j)) = true
      let names (m : MCmd) : Prop := ∃ j, j < n.toNat ∧ (if acc then 128 + x + j else x + j) ∈ m.reads ++ m.writes s
      let failed : Prop := ∃ q ∈ k.queues, q.2.state = .error ∧ ∃ m ∈ q.2.cmds, m.done = false ∧ names m
      let busy : Prop := ∃ q ∈ k.queues, ∃ m ∈ q.2.cmds, m.done = false ∧ names m
      let i := Instr.mrel h acc d a n
      (c.single = none ∨ outsFull e.wp = false) →
      (InHand i h c s → ¬ owned → Next (exec i s) (EndsWith h c d 1 s))
      ∧ (InHand i h c s → owned → failed → Next (exec i s) (EndsWith h c d 2 s))
      ∧ (owned → ¬ failed → busy → members s c = [e] → Contributes s c e → c.single = none → InHand i h c s →
        Next (exec i s) (fun t => ∃ w' o, OnlyWarp c.block c.warp w' s t ∧ SameRegs e.wp w' ∧ w'.outs = e.wp.outs ++ [o]
          ∧ o.id = e.wp.nextOut ∧ o.instr = i ∧ o.ops = [(x, 0, 0)] ∧ o.members = [e.w]))
      ∧ (owned → ¬ busy → rb = false → gives i 0 (fun s' => same s' ∧ ∀ j, if run x j then
          (if acc then aget (clusterD s' cl).accs j = none else aget (clusterD s' cl).slots j = none)
        else aget (clusterD s' cl).accs j = aget k.accs j ∧ aget (clusterD s' cl).slots j = aget k.slots j))
      ∧ (owned → ¬ busy → rb = true → (getBlock s c.block).isSome = true → gives i 0 (fun s' => ∀ j, run x j →
          (if acc then ownsAcc s' c.block j else ownsSlot s' c.block j) = false
          ∧ (acc = false → (slotD s' cl j).stage = none))))
    -- MQCFG
    ∧ (InHand (.mqcfgAlloc h d) h c s → (∀ q, q < 64 → (aget k.queues q).isSome = true) →
      Next (exec (.mqcfgAlloc h d) s) (EndsWith h c d (BitVec.allOnes 64) s))
    ∧ (∀ q, q < 64 → aget k.queues q = none → (∀ y, y < q → (aget k.queues y).isSome = true) →
      gives (.mqcfgAlloc h d) (BitVec.ofNat 64 q) (fun s' => same s' ∧ ∀ j, aget (clusterD s' cl).queues j =
        if j = q then some { owner := c.block, issued := 0, completed := 0, cmds := [], state := .idle, cls := 0, estat := 0,
                             offset := 0, token := none, held := 0 }
        else aget k.queues j))
    ∧ (let q := A % 64
      (InHand (.mqcfgFree h d a) h c s → queueOf s c.block q = none → Next (exec (.mqcfgFree h d a) s) (EndsWith h c d 1 s))
      ∧ (InHand (.mqcfgClr h d a) h c s → (∀ x, queueOf s c.block q = some x → x.state ≠ .error) →
        Next (exec (.mqcfgClr h d a) s) (EndsWith h c d 0 s))
      ∧ ∀ x, queueOf s c.block q = some x →
        (InHand (.mqcfgFree h d a) h c s → x.state = .error → Next (exec (.mqcfgFree h d a) s) (EndsWith h c d 2 s))
        ∧ (InHand (.mqcfgFree h d a) h c s → (x.state = .running ∨ x.state = .stalled) → exec (.mqcfgFree h d a) s = .next s)
        ∧ (x.state = .idle → gives (.mqcfgFree h d a) 0 (fun s' => same s' ∧ ∀ j, aget (clusterD s' cl).queues j =
          if j = q then none else aget k.queues j))
        ∧ (x.state = .error → gives (.mqcfgClr h d a) (BitVec.ofNat 64 x.cmds.length) (fun s' => same s'
          ∧ ∀ j, aget (clusterD s' cl).queues j = if j = q then
              some { x with cmds := [], state := .idle, cls := 0, estat := 0, offset := 0 }
            else aget k.queues j)))
    -- MSTAT
    ∧ (let stat (q : MstatQ) (v : BitVec 64) : Prop := gives (.mstat h q d a) v (fun s' => s' = { s with draws := s.draws + 1 })
      (queueOf s c.block (A % 64) = none → stat .queue (BitVec.allOnes 64))
      ∧ (∀ x, queueOf s c.block (A % 64) = some x → ∃ off,
        stat .queue (BitVec.ofNat 64 ((match x.state with | .idle => 0 | .running => 1 | .stalled => 2 | .error => 3)
          + (if x.state = .stalled ∨ x.state = .error then x.cls else 0) * 2 ^ 2 + x.cmds.length * 2 ^ 8
          + x.estat * 2 ^ 16 + off % 2 ^ 32 * 2 ^ 32))
        ∧ (x.state = .idle → off = 0) ∧ (x.state = .stalled ∨ x.state = .error → off = x.offset)
        ∧ ∀ m, x.cmds.head? = some m → x.state = .running → m.kind.moves = true → off = m.pos)
      ∧ stat .slot (BitVec.ofNat 64 ((slotD s cl (A % 128)).tag.toNat + (if (slotD s cl (A % 128)).sref then 2 ^ 5 else 0)
          + (if (slotD s cl (A % 128)).stage.isSome then 2 ^ 6 else 0) + (if ownsSlot s c.block (A % 128) then 2 ^ 7 else 0)))
      ∧ (∃ v : BitVec 64, stat .own v ∧ ∀ j, j < 64 → v.getLsbD j = (decide (j < 16) && ownsAcc s c.block j))
      ∧ stat .free (BitVec.ofNat 64 (128 - k.slots.length + (16 - k.accs.length) * 2 ^ 8 + (64 - k.queues.length) * 2 ^ 16)))

/-- R270, R273 to R285: the six queued commands of the Massif at issue. The first check that fails gives the ticket's status
and nothing else changes; a full queue stalls the word; a command that passes enters its queue last, in the cluster's
acceptance order, and the tags of its destination slots change at once. Completion is stated for: mload, mma, mmasp, mzero,
mstore, mcvt. -/
def Obligations.MatrixCommands : Prop :=
  ∀ (h : Hdr) (c : Cur) (s : State) (sem : Sem) (m : Msc) (vc : Vc) (sp z : Bool) (pat : SpPat) (d a : Name) (q : BitVec 6)
    (e : Env), leadOf h s c = some e → (sem = .none ∨ sem = .rel ∨ e.wp.unacked = 0) →
    let cl := (blockD s c.block).cluster
    let k := clusterD s cl
    let own := queueOf s c.block q.toNat
    let issued := ((aget k.queues q.toNat).map (·.issued)).getD 0
    let ticket (seq : BitVec 32) (st : Nat) : BitVec 64 := BitVec.ofNat 64 (seq.toNat + st * 2 ^ 32 + q.toNat * 2 ^ 40)
    let gives (i : Instr) (st : Nat) : Prop := Next (exec i s) (EndsWith h c d (ticket issued st) s)
    let word (i : Instr) (bad5 : Bool) (checks : List (Bool × Nat)) (K : MKind) (D v : Nat) (dst : List Nat) (tag : Nat)
        (sref : Bool) : Prop :=
      (bad5 = true → gives i 5)
      ∧ (bad5 = false → own = none → gives i 8)
      ∧ ∀ x, bad5 = false → own = some x →
        (x.state = .error → gives i 7)
        ∧ (x.state ≠ .error → ∀ st, (checks.find? (fun y => y.1)).map (fun y => y.2) = some st → st ≠ 0 → gives i st)
        ∧ (x.state ≠ .error → checks.find? (fun y => y.1) = none →
          (32 ≤ x.cmds.length → exec i s = .next s)
          ∧ (x.cmds.length < 32 → Next (exec i s) (fun t => ∃ s' x' C, EndsWith h c d (ticket (x.issued + 1) 0) s' t
            ∧ s'.mem = s.mem ∧ ((launchD s c.block.lid).rb = false → s' = { s with clusters := s'.clusters })
            ∧ queueOf s' c.block q.toNat = some x' ∧ x'.cmds = x.cmds ++ [C] ∧ x'.issued = x.issued + 1
            ∧ x'.completed = x.completed ∧ x'.state = (if x.state = .idle then .running else x.state)
            ∧ C.kind = K ∧ C.desc = BitVec.ofNat 512 D ∧ C.v = v ∧ C.block = c.block ∧ C.warp = e.w ∧ C.pos = 0
            ∧ C.stage = .start ∧ C.order = k.nextOrder ∧ C.seq = (x.issued + 1).toNat
            ∧ (clusterD s' cl).nextOrder = k.nextOrder + 1 ∧ (clusterD s' cl).accs = k.accs
            ∧ (K ≠ .mmasp → ∀ j ∈ C.reads, j < 128 → (j, (slotD s cl j).tag, (slotD s cl j).sref) ∈ C.tags)
            ∧ ∀ j y, aget k.slots j = some y → aget (clusterD s' cl).slots j =
              some (if j ∈ dst then { y with tag := BitVec.ofNat 5 tag, sref := sref, stage := none } else y))))
    let A := (uniVal e a 0).toNat
    let off := A % 2 ^ 32
    let outside : Bool := off % 64 ≠ 0 || (launchD s c.block.lid).scratch < off + 64
    let D := leNat (scratchRead s c.block off 64)
    let scratch := (launchD s c.block.lid).scratch
    let vOf (rows : Nat) : Nat := match vc with
      | .all => rows
      | .reg r => min ((uniVal e r 0).toNat % 2 ^ 32) rows
    (InHand (.mload h sem m vc sp d a q) h c s → word (.mload h sem m vc sp d a q)
      (outside || (sp && spBeyond scratch D (vOf (mlRows D)) (tagRow (mlFmt D)) (mlSc D) (tagScales (mlFmt D))))
      (mloadChecks s c.block sp D) .load D (vOf (mlRows D)) (loadSlots D) (mlFmt D) (mlSc D))
    ∧ (InHand (.mstore h sem m vc sp d a q) h c s → word (.mstore h sem m vc sp d a q)
      (outside || (sp && spBeyond scratch D (vOf 128) (msRow D) (msSc D) (msNc D)))
      (mstoreChecks s c.block sp D) .store D (vOf 128) [] 0 false)
    ∧ (InHand (.mma h vc z d a q) h c s → word (.mma h vc z d a q) false
      (let slots := runFrom (bitsOf A 6 0) (bitsOf A 27 24 + 1) ++ runFrom (bitsOf A 14 8) (2 * (bitsOf A 27 24 + 1))
       let cls := tagClass (slotD s cl (bitsOf A 6 0)).tag.toNat
       [(A.testBit 7 || A.testBit 15 || bitsOf A 23 20 != 0 || bitsOf A 63 28 != 0, 1),
        (slots.any (fun j => decide (127 < j)), 2),
        (slots.any (fun j => !ownsSlot s c.block j) || !ownsAcc s c.block (bitsOf A 19 16), 3),
        (slots.any (fun j => (slotD s cl j).tag == 0 || (slotD s cl j).tag == 0x1D
          || tagClass (slotD s cl j).tag.toNat != cls), 4)]) .mma A (vOf 128) [] 0 false)
    ∧ (InHand (.mmasp h pat vc z d a q) h c s → word (.mmasp h pat vc z d a q) false (mmaspChecks s c.block pat A)
      .mmasp A (vOf 128) [] 0 false)
    ∧ (InHand (.mzero h d a q) h c s → word (.mzero h d a q) false
      [(decide (2 ^ 16 ≤ A), 1), ((List.range 16).any (fun j => A.testBit j && !ownsAcc s c.block j), 3)] .zero A 128 [] 0 false)
    ∧ (InHand (.mcvt h vc d a q) h c s → word (.mcvt h vc d a q) false (mcvtChecks s c.block A) .cvt A (vOf 128)
      (cvtSlots A) (mcFmt A) (mcSc A))

/-- R268, R270 to R272, R277, R279, R282 to R284, R291, R292: the array runs a tile task of MMA on the rows below V; a bad
mask of MMASP stops its queue; a granule of an MLOAD from the scratchpad and of an MCVT; faults; a command's completion,
after which the completed commands at the head of its queue leave it and are counted; the end of an MREL's wait. Completion
is stated for: tileTask, massifGranuleTransfer, matrixCommandComplete, mrelWaitComplete. -/
def Obligations.MatrixEngineEvents : Prop :=
  ∀ (s : State) (cl q : Nat) (c : MCmd), s.fatal = 0 → s.badPhys = false →
    let d := c.desc.toNat
    let rb := (launchD s c.block.lid).rb
    let accRowD (t : State) (m : Nat) : List (BitVec 32) := accRow (accD t cl (twAcc d)) m
    let put (c' : MCmd) (x : MQueue) : MQueue := { x with cmds := x.cmds.map (fun y => if y.order = c.order then c' else y) }
    let now (t : State) : Option MCmd := (aget (clusterD t cl).queues q).bind (fun x => x.cmds.find? (fun y => y.order == c.order))
    let taken := modCluster cl (fun k => { k with lastTile := q + 1 }) s
    -- the array
    (nextRound (clusterD s cl).lastTile (taskReady s cl) = some (q + 1, q, c) →
      (aget (clusterD s cl).accs (twAcc d)).isSome = true →
      (c.kind = .mma → Next (exec (.tileTask cl) s) (fun t => t.mem = s.mem ∧ (rb = false → t.blocks = s.blocks)
        ∧ (∀ m, m < 128 → accRowD t m = if c.v ≤ m then accRowD s m else
            rowStep (slotRow s cl c (twA d + c.pos) m) (bCols s cl c (twB d + 2 * c.pos))
              (if c.z = true ∧ c.pos = 0 then List.replicate 256 0#32 else accRowD s m))
        ∧ (∀ j, j ≠ twAcc d → accD t cl j = accD s cl j) ∧ (clusterD t cl).slots = (clusterD s cl).slots
        ∧ now t = some { c with pos := c.pos + 1 }))
      ∧ (c.kind = .mmasp →
        (spBad taken cl c c.pos = false → Next (exec (.tileTask cl) s) (fun t => t.mem = s.mem
          ∧ accD t cl (twAcc d) = mmaspTask taken cl c c.pos (accD s cl (twAcc d))
          ∧ (∀ m, c.v ≤ m → m < 128 → accRowD t m = accRowD s m) ∧ now t = some { c with pos := c.pos + 1 }))
        ∧ (spBad taken cl c c.pos = true → queueState s cl q = .running → Next (exec (.tileTask cl) s) (fun t => t.mem = s.mem
          ∧ (clusterD t cl).accs = (clusterD s cl).accs ∧ now t = now s
          ∧ ∃ x, aget (clusterD t cl).queues q = some x ∧ x.state = .error ∧ x.estat = 0x0A ∧ x.held = c.order))))
    -- granules
    ∧ (activeHead s cl q = some c → c.kind.moves = true → c.pos < c.total → rb = false →
      let fin := min (c.pos + 512) c.total
      let b := beginM c s
      let r := if c.kind = .store then moveStoreM cl b.1 fin b.2 else moveLoadM cl b.1 fin b.2
      (c.kind = .load → c.sp = true → c.ord.acq = false → mlSc d = false → tagRow (mlFmt d) = 64 → c.v = mlRows d →
        (∀ k ∈ loadSlots d, (aget (clusterD s cl).slots k).isSome = true) →
        Next (exec (.massifGranuleTransfer cl q) s) (fun t => t.mem = s.mem ∧ now t = some { b.1 with pos := fin, snap := none, homes := [] }
          ∧ ∀ x, x < 8192 * (mlRows d / 128) → (sget (slotD t cl (mlSlot d + x / 8192)).data (x % 8192)) =
            if c.pos ≤ x ∧ x < fin then BitVec.ofNat 8 (leNat (scratchRead s c.block (mdGaddr d + x / 64 * mdRs d + x % 64) 1))
            else sget (slotD s cl (mlSlot d + x / 8192)).data (x % 8192)))
      ∧ (c.kind = .cvt → c.ord.acq = false → Next (exec (.massifGranuleTransfer cl q) s) (fun t => t.mem = s.mem
          ∧ (clusterD t cl).accs = (clusterD s cl).accs ∧ now t = some { b.1 with pos := fin, snap := none, homes := [] }
          ∧ ((aget (clusterD s cl).slots (mcSlot d + c.pos / 8192)).isSome = true → ∀ j, j < 8 →
            sbytes (slotD t cl (mcSlot d + c.pos / 8192)).data (64 * (c.pos % 8192 / 64 + j)) 64
              = ((cvtRow (accD s cl (mcAcc d)) c (c.pos / 8192) (c.pos % 8192 / 64 + j)).1))))
      ∧ (c.kind ≠ .cvt → (∀ snap homes u, r = .moved snap homes u → u.badPhys = false →
          Next (exec (.massifGranuleTransfer cl q) s) (fun t => t.mem = u.mem ∧ t.blocks = u.blocks
            ∧ ∀ x, aget (clusterD u cl).queues q = some x → aget (clusterD t cl).queues q =
              some (put { b.1 with pos := fin, snap := snap, homes := homes } x)))
        ∧ (∀ cls va u x, r = .fault cls va u → cls ≠ heldClass → cls ≠ 5 → cls ≠ 6 → u.badPhys = false →
          aget (clusterD u cl).queues q = some x → x.state = .running →
          Next (exec (.massifGranuleTransfer cl q) s) (fun t => t.mem = u.mem ∧ ∃ x',
            aget (clusterD t cl).queues q = some x' ∧ x'.state = .error ∧ x'.cls = cls ∧ x'.offset = c.pos
            ∧ x'.held = c.order))))
    -- completion
    ∧ (∀ x, activeHead s cl q = some c → aget (clusterD s cl).queues q = some x → c.total ≤ c.pos → c.ord.acq = false →
      let marked := x.cmds.map (fun y => if y.order = c.order then { y with done := true } else y)
      let rest := marked.dropWhile (fun y => y.done)
      let completes (t : State) : Prop := t.mem = s.mem ∧ (rb = false → t.blocks = s.blocks)
        ∧ ∃ x', aget (clusterD t cl).queues q = some x' ∧ x'.cmds = rest ∧ x'.issued = x.issued
          ∧ x'.completed = x.completed + BitVec.ofNat 32 (marked.length - rest.length)
          ∧ x'.state = (if x.state = .running ∧ rest = [] then .idle else x.state)
      ((c.kind = .zero ∨ c.kind = .mma ∨ c.kind = .mmasp ∨ c.kind = .cvt) →
        Next (exec (.matrixCommandComplete cl q) s) (fun t => completes t
          ∧ ∀ j, j < 16 → accD t cl j = if c.kind = .zero ∧ d.testBit j = true then [] else accD s cl j))
      ∧ ((c.kind = .load ∨ c.kind = .store) → c.ord.rel = false → c.stage ≠ .remote →
        Next (exec (.matrixCommandComplete cl q) s) completes))
    -- the wait of an MREL
    ∧ ∀ (w : WarpId) (b : Block) (x : Warp) (o : Outst) (h : Hdr) (acc : Bool) (D A : Name) (n : BitVec 8) (k : Nat),
      getBlock s w.block = some b → b.saved = false → b.warps[w.warp]? = some x → x.outs = [o] →
      o.instr = .mrel h acc D A n → o.ops = [(k, 0, 0)] → o.members = [w.warp] → o.lead = none →
      let busy := mrelBusy s b.cluster (runRes acc k n.toNat)
      (busy = true → exec (.mrelWaitComplete w) s = .next s)
      ∧ (busy = false → (launchD s w.block.lid).rb = false → Next (exec (.mrelWaitComplete w) s) (fun t => t.mem = s.mem
        ∧ (warpD t w.block w.warp).outs = [] ∧ (warpD t w.block w.warp).sreg D = 0
        ∧ (∀ j, j ≠ D → (warpD t w.block w.warp).sreg j = x.sreg j) ∧ (warpD t w.block w.warp).regs = x.regs
        ∧ ∀ j, if k ≤ j ∧ j < k + n.toNat then
            (if acc then aget (clusterD t b.cluster).accs j = none else aget (clusterD t b.cluster).slots j = none)
          else aget (clusterD t b.cluster).accs j = aget (clusterD s b.cluster).accs j
            ∧ aget (clusterD t b.cluster).slots j = aget (clusterD s b.cluster).slots j))

/-- R288: MWAIT answers the completed count and the queue's state once the count has reached its target or the queue is in
Error, all ones for a queue that is not the block's, and sleeps otherwise, until its wake or its time-out. Completion is
stated for: mwait, mwaitWake, mwaitTimeout. -/
def Claim.MatrixWaits : Prop :=
  ∀ (h : Hdr) (c : Cur) (s : State) (acq : Bool) (m : Msc) (tmo : BitVec 2) (d b : Name) (q : BitVec 6) (e : Env),
    let i := Instr.mwait h acq m tmo d q b
    let B : BitVec 32 := (uniVal e b 0).setWidth 32
    let own (t : State) (id : BlockId) := queueOf t id q.toNat
    let reached (x : MQueue) (target : BitVec 32) : Prop := (x.completed - target).toNat < 2 ^ 31
    let val (x : MQueue) : BitVec 64 := BitVec.ofNat 64 (x.completed.toNat
      + (match x.state with | .idle => 0 | .running => 1 | .stalled => 2 | .error => 3) * 2 ^ 32)
    (leadOf h s c = some e → InHand i h c s →
      (own s c.block = none → Next (exec i s) (EndsNow h c d (BitVec.allOnes 64) s))
      ∧ ∀ x, own s c.block = some x →
        (reached x B → Next (exec i s) (EndsNow h c d (val x) (if acq then acquireMembers h m c s else s)))
        ∧ (¬ reached x B → x.state = .error → Next (exec i s) (EndsNow h c d (val x) s))
        ∧ (¬ reached x B → x.state ≠ .error → c.single = none → Contributes s c e → Next (exec i s) (fun t => ∃ w' z,
          OnlyWarp c.block c.warp w' s { t with cores := s.cores } ∧ SameRegs e.wp w' ∧ w'.sleeps = e.wp.sleeps ++ [z]
          ∧ w'.lanes = (e.wp.setLanes e.lanes (fun y => { y with st := .asleep })).lanes ∧ z.lanes = e.lanes ∧ z.pc = c.pc
          ∧ z.cmp = B.setWidth 64 ∧ z.instr = i ∧ z.last = val x
          ∧ z.deadline = (if tmo = 0 then none else some (s.clock + 2 ^ (12 + 4 * tmo.toNat))))))
    ∧ ∀ (w : WarpId) (bl : Block) (y : Warp) (z : Sleep) (x : MQueue), s.fatal = 0 → s.badPhys = false →
      getBlock s w.block = some bl → bl.warps[w.warp]? = some y → bl.saved = false → y.stopped = false → y.sleeps = [z] →
      z.members = [] → z.instr = i → own s w.block = some x → acq = false →
      let wakes (t : State) : Prop := ∃ w', warpD t w.block w.warp = w' ∧ w'.sleeps = []
        ∧ w'.retired = y.retired + 1 ∧ w'.regs = y.regs ∧ w'.preds = y.preds ∧ w'.g = y.g
        ∧ (∀ k, w'.sreg k = if guardG h y = true ∧ k.toNat = d.toNat then val x else y.sreg k)
        ∧ w'.lanes = (y.setLanes z.lanes (fun l => { l with pc := z.pc + wordLen h, st := .running })).meetings.lanes
      let done : Prop := reached x (z.cmp.setWidth 32) ∨ x.state = .error
      (done → Next (exec (.mwaitWake w) s) wakes)
      ∧ (¬ done → exec (.mwaitWake w) s = .next s)
      ∧ (∀ dl, z.deadline = some dl → dl ≤ s.clock → Next (exec (.mwaitTimeout w) s) wakes)
/-! ### Delta-mode execution (spec 10) -/

/-- R299, R301: the three forms of LWATCH. Completion is stated for: lwatchAdd, lwatchDel, lwatchGen. -/
def Claim.WatchWords : Prop :=
  ∀ (h : Hdr) (c : Cur) (s : State) (d a b : Name) (e : Env), leadOf h s c = some e →
    let A := (uniVal e a 0).toNat
    let B := (uniVal e b 0).toNat
    let gives (i : Instr) (v : BitVec 64) : Prop := InHand i h c s → Next (exec i s) (EndsWith h c d v s)
    let fails (st : Nat) : Prop := gives (.lwatchAdd h d a b) (BitVec.ofNat 64 (0xFFFFFFFF00000000 + st))
    let free (k : Nat) : Prop := k < 1024 ∧ (watchD s k).v = false
    let k := A % 1024
    let owned : Prop := (watchD s k).v = true ∧ (watchD s k).ctx.toNat = ctxKey s c.block
    (¬(A % 128 = 0 ∧ B % 128 = 0 ∧ 0 < B ∧ B ≤ 2 ^ 30) → fails 0x21)
    ∧ (A % 128 = 0 → B % 128 = 0 → 0 < B → B ≤ 2 ^ 30 →
      (∀ cls va, rangePieces c A B s = .error (cls, va) → cls ≠ heldClass → fails 0x22)
      ∧ ∀ ps, rangePieces c A B s = .ok ps →
        (logRun ps = none → fails 0x23)
        ∧ ∀ la, logRun ps = some la →
          ((∀ j, ¬ free j) → fails 0x24)
          ∧ ∀ j, free j → (∀ y, y < j → ¬ free y) → InHand (.lwatchAdd h d a b) h c s →
            Next (exec (.lwatchAdd h d a b) s) (fun t => ∃ s', EndsWith h c d (BitVec.ofNat 64 j) s' t
              ∧ s' = { s with watch := s'.watch } ∧ (∀ x, x ≠ j → watchD s' x = watchD s x)
              ∧ watchD s' j = { first := la / 128, count := B / 128, gen := (watchD s j).gen + 1, v := true,
                                ctx := BitVec.ofNat 12 (ctxKey s c.block) }))
    ∧ (¬ owned → gives (.lwatchDel h d a) 1 ∧ gives (.lwatchGen h d a) (BitVec.allOnes 64))
    ∧ (owned → gives (.lwatchGen h d a) (BitVec.ofNat 64 (watchD s k).gen)
      ∧ (InHand (.lwatchDel h d a) h c s → Next (exec (.lwatchDel h d a) s) (fun t => ∃ s', EndsWith h c d 0 s' t
        ∧ s' = { s with watch := s'.watch } ∧ (∀ x, x ≠ k → watchD s' x = watchD s x)
        ∧ watchD s' k = { watchD s k with v := false })))

/-- R302 to R305, R307 to R309: LBIND and the three forms of LREF. A status is the result at once; a word that has none takes
its place in the cluster's acceptance order, after every MMAD, LBIND and LREF of its handle, and its result waits for its
turn. Its effect is one record of 64 bytes, or none. Completion is stated for: lbind, lrefForce, lrefDrop, lrefQuery. -/
def Claim.HandleWords : Prop :=
  (∀ (h : Hdr) (c : Cur) (s : State) (d a b : Name) (e : Env), leadOf h s c = some e →
    let id := c.block
    let cl := (blockD s id).cluster
    let k := clusterD s cl
    let A := (uniVal e a 0).toNat
    let B := (uniVal e b 0).toNat
    let gives (i : Instr) (v : BitVec 64) : Prop := InHand i h c s → Next (exec i s) (EndsWith h c d v s)
    -- an MMAD of handle `n` that is not complete, in some queue of a cluster
    let pending (x : Cluster) (n : Nat) (p : MQueue → Prop) : Prop :=
      ∃ q ∈ x.queues, p q.2 ∧ ∃ m ∈ q.2.cmds, m.done = false ∧ handleRes s id n ∈ m.writes s
    let elsewhere (n : Nat) : Prop := ∃ x ∈ s.clusters, x.1 ≠ cl ∧ pending x.2 n (fun _ => True)
    let failed (n : Nat) : Prop := pending k n (fun q => q.state = .error)
    -- the word takes its place; what waits there already waits on
    let accepts (i : Instr) (n : Nat) (op : BindOp) : Prop := InHand i h c s →
      (∀ y ∈ k.binds, bindReady s cl y = false) → (∀ x ∈ s.clusters, ∀ y ∈ x.2.cornice, physOk (128 * y.line) 128 = true) →
      let x : Bind := { order := k.nextOrder, handle := n, block := id, warp := e.w, out := e.wp.nextOut, op := op }
      Next (exec i s) (fun t => ∃ t0, t = runBind cl t0 x ∧ t0 = { s with blocks := t0.blocks, clusters := t0.clusters }
        ∧ (∀ j, clusterD t0 j = if j = cl then { k with nextOrder := k.nextOrder + 1, binds := k.binds ++ [x] } else clusterD s j)
        ∧ (c.single = none → Contributes s c e → ∃ w' o, OnlyWarp id c.warp w' s { t0 with clusters := s.clusters }
          ∧ o = { blankOut i c e.wp.nextOut with members := [e.w] }
          ∧ GoesOn h e.lanes (c.pc + wordLen h) { e.wp with outs := e.wp.outs ++ [o], nextOut := e.wp.nextOut + 1 } w'
          ∧ SameRegs e.wp w'))
    (let i := Instr.lbind h d a b
      let n := bitsOf B 11 0
      let ok1 : Prop := B < 2 ^ 37
      let ok2 : Prop := bitsOf B 29 22 ≠ 0 ∧ bitsOf B 32 31 ≠ 3
      let ke := (bitsOf B 36 33 + 1) * classE (bitsOf B 32 31)
      (¬ ok1 → gives i 0x01) ∧ (ok1 → ¬ ok2 → gives i 0x02)
      ∧ (ok1 → ok2 → handleTable s id = none → gives i 0x10)
      ∧ (ok1 → ok2 → (handleTable s id).isSome = true →
        (watchOwned s id (bitsOf B 21 12) = false → gives i 0x0E)
        ∧ (watchOwned s id (bitsOf B 21 12) = true →
          (A % 8192 ≠ 0 → gives i 0x0F)
          ∧ (A % 8192 = 0 →
            let pages := bufferPages s (blockD s id).core (blockCtx s id) A (List.range ((512 * ke + 131072 + 8191) / 8192)) none
            (∀ k, pages = .error k → k ≠ heldClass → gives i 0x0F)
            ∧ ∀ pa ksel, pages = .ok (pa, ksel) →
              (elsewhere n → gives i 0x0D) ∧ (¬ elsewhere n → failed n → gives i 0x07)
              ∧ (¬ elsewhere n → ¬ failed n → pa % 8192 = 0 → pa < 2 ^ 40 → ksel < 4 → cl < 32 → ∃ r, accepts i n (.bind r)
                ∧ hrBound r = true ∧ hrForce r = false ∧ hrDfmt r = bitsOf B 30 30 ∧ hrWcls r = bitsOf B 32 31
                ∧ hrNk r = bitsOf B 36 33 ∧ hrWidx r = bitsOf B 21 12 ∧ hrN r = bitsOf B 29 22 ∧ hrCnt r = 0 ∧ hrKsel r = ksel
                ∧ hrHcl r = cl ∧ hrRecgen r = 0 ∧ hrBuf r = pa ∧ hrRowv r = 0 ∧ hrNfull r = 0 ∧ hrNdelta r = 0 ∧ r < 2 ^ 512)))))
    -- FORCE and DROP; the handle is bound as the words accepted before leave it
    ∧ (∀ i op, (i = Instr.lrefForce h d a ∧ op = .force) ∨ (i = Instr.lrefDrop h d a ∧ op = .drop) →
      (4096 ≤ A → gives i 0x01) ∧ (A < 4096 → hrBound (handleSeen s id A) = false → gives i 0x0B)
      ∧ (A < 4096 → hrBound (handleSeen s id A) = true →
        (elsewhere A → gives i 0x0D) ∧ (¬ elsewhere A → failed A → gives i 0x07)
        ∧ (¬ elsewhere A → ¬ failed A → accepts i A op)))
    ∧ (let i := Instr.lrefQuery h d a
      (handleTable s id = none ∨ 4096 ≤ A → gives i (BitVec.allOnes 64))
      ∧ ((handleTable s id).isSome = true → A < 4096 →
        (hrBound (handleSeen s id A) = true → elsewhere A ∨ failed A → gives i (BitVec.allOnes 64))
        ∧ (hrBound (handleSeen s id A) = false ∨ (¬ elsewhere A ∧ ¬ failed A) → accepts i A .query))))
  -- the turn
  ∧ ∀ (s : State) (cl : Nat) (x : Bind),
    let id := x.block
    let n := x.handle
    let key := ctxKey s id
    let r := handleRec s id n
    let t := runBind cl s x
    let word : Nat := (if hrBound r then 1 else 0)
      + (if hrRecgen r = (watchD s (hrWidx r)).gen ∧ hrForce r = false then 2 else 0) + (if hrForce r then 4 else 0)
      + hrCnt r * 2 ^ 3 + hrN r * 2 ^ 11 + hrDfmt r * 2 ^ 19 + hrWidx r * 2 ^ 20
      + (if watchOwned s id (hrWidx r) then 0 else 2 ^ 30) + hrNdelta r * 2 ^ 32
    (bindReady s cl x = false → t = s)
    ∧ (bindReady s cl x = true →
      (clusterD t cl).binds = (clusterD s cl).binds.filter (· ≠ x)
      ∧ (∀ b y, getBlock s id = some b → b.warps[x.warp]? = some y → (warpD t id x.warp).outs = y.outs.map (fun o =>
          if o.id = x.out then
            { o with vals := [.uni (bindDst o.instr) (if x.op = .query then BitVec.ofNat 64 word else 0)] }
          else o))
      ∧ ∀ pa, handleTable s id = some pa → pa % 8192 = 0 → (∀ j, (clusterD s j).cornice.length < 16384) →
        (∀ j ∈ s.clusters, ∀ y ∈ j.2.cornice, y.ctx ≠ key) →
        let r' := handleRec t id n
        t.mem = s.mem
        ∧ (x.op = .query → r' = r)
        ∧ (x.op = .force → hrForce r' = true ∧ ∀ j, j ≠ 1 → r'.testBit j = r.testBit j)
        ∧ (x.op = .drop → r' = 0)
        ∧ ∀ v, x.op = .bind v → hrBound v = true → v < 2 ^ 512 → r' = v)

/-- R302, R305, R306, R310: MMAD at issue enters its queue, and its handle moves to this cluster; its first tile task decides
whether every row is computed in full, and its last one writes the record. Completion is stated for: mmad, tileTask. -/
def Claim.DeltaTasks : Prop :=
  (∀ (h : Hdr) (c : Cur) (s : State) (vc : Vc) (f : Bool) (d a : Name) (q : BitVec 6) (e : Env), leadOf h s c = some e →
    let id := c.block
    let cl := (blockD s id).cluster
    let A := (uniVal e a 0).toNat
    let n := bitsOf A 55 44
    let own := queueOf s id q.toNat
    let i := Instr.mmad h vc f d a q
    let issued := ((aget (clusterD s cl).queues q.toNat).map (·.issued)).getD 0
    let ticket (seq : BitVec 32) (st : Nat) : BitVec 64 := BitVec.ofNat 64 (seq.toNat + st * 2 ^ 32 + q.toNat * 2 ^ 40)
    InHand i h c s →
      (own = none → Next (exec i s) (EndsWith h c d (ticket issued 8) s))
      ∧ ∀ x, own = some x →
        (x.state = .error → Next (exec i s) (EndsWith h c d (ticket issued 7) s))
        ∧ (x.state ≠ .error → ∀ st, ((mmadChecks s id A).find? (fun y => y.1)).map (fun y => y.2) = some st → st ≠ 0 →
          Next (exec i s) (EndsWith h c d (ticket issued st) s))
        ∧ (x.state ≠ .error → (mmadChecks s id A).find? (fun y => y.1) = none →
          (32 ≤ x.cmds.length → exec i s = .next s)
          ∧ (x.cmds.length < 32 → (∀ x ∈ s.clusters, ∀ y ∈ x.2.cornice, physOk (128 * y.line) 128 = true) →
            Next (exec i s) (fun t => ∃ s' x' C, EndsWith h c d (ticket (x.issued + 1) 0) s' t
              ∧ queueOf s' id q.toNat = some x' ∧ x'.cmds = x.cmds ++ [C] ∧ x'.issued = x.issued + 1
              ∧ x'.completed = x.completed ∧ C.kind = .mmad ∧ C.desc = BitVec.ofNat 512 A ∧ C.z = f ∧ C.pos = 0
              ∧ C.order = (clusterD s cl).nextOrder
              ∧ (∀ b, getBlock s id = some b → n ∈ (blockD s' id).rb.undo.handles)
              ∧ ((∀ j ∈ s.clusters, ∀ y ∈ j.2.cornice, y.ctx ≠ ctxKey s id) → (∀ j, (clusterD s j).cornice.length < 16384) →
                handleSeen s id n = handleRec s id n → cl < 32 → ∀ pa, handleTable s id = some pa → pa % 8192 = 0 →
                s'.mem = s.mem ∧ hrHcl (handleRec s' id n) = cl
                ∧ ∀ j, ¬(37 ≤ j ∧ j ≤ 41) → (handleRec s' id n).testBit j = (handleRec s id n).testBit j)))))
  ∧ ∀ (s : State) (cl q : Nat) (c : MCmd), s.fatal = 0 → s.badPhys = false →
    nextRound (clusterD s cl).lastTile (taskReady s cl) = some (q + 1, q, c) → c.kind = .mmad →
    let taken := modCluster cl (fun k => { k with lastTile := q + 1 }) s
    let now (t : State) : Option MCmd := (aget (clusterD t cl).queues q).bind (fun x => x.cmds.find? (fun y => y.order == c.order))
    let n := twHandle c.desc.toNat
    let r := handleRec s c.block n
    let w := watchD s (hrWidx r)
    let C := if c.pos = 0 then startMmad c s else c
    -- the handle is this cluster's
    hrBound r = true → hrHcl r = cl →
    (c.pos = 0 → (C.gen = w.gen) ∧ (C.all = true ↔ hrRecgen r ≠ w.gen ∨ hrForce r = true ∨ c.z = true ∨ hrN r ≤ hrCnt r + 1
      ∨ watchOwned s c.block (hrWidx r) = false))
    ∧ (c.pos + 1 < c.total → Next (exec (.tileTask cl) s) (fun t => t.mem = s.mem
      ∧ (clusterD t cl).accs = (clusterD s cl).accs ∧ (clusterD t cl).cornice = (clusterD s cl).cornice
      ∧ (c.pos = 0 → ∀ b, getBlock s c.block = some b → n ∈ (blockD t c.block).rb.undo.handles)
      ∧ now t = some { C with pos := c.pos + 1 }))
    ∧ (c.pos + 1 = c.total → c.v ≤ 128 → (∀ j ∈ s.clusters, j.1 ≠ cl → ∀ y ∈ j.2.cornice, y.ctx ≠ ctxKey s c.block) →
      ∀ pa, handleTable s c.block = some pa → pa % 8192 = 0 →
      (stepTask cl q c taken).badPhys = false → Next (exec (.tileTask cl) s) (fun t =>
        let r' := handleRec t c.block n
        now t = some { C with pos := c.pos + 1 } ∧ hrForce r' = (if C.all then false else hrForce r)
        ∧ hrCnt r' = (if C.all then 0 else (hrCnt r + 1) % 2 ^ 8) ∧ hrRecgen r' = (if C.all then C.gen % 2 ^ 64 else hrRecgen r)
        ∧ hrRowv r' = (if C.all then 2 ^ c.v - 1 else hrRowv r ||| (2 ^ c.v - 1))
        ∧ hrNfull r' = (if C.all then (hrNfull r + 1) % 2 ^ 32 else hrNfull r)
        ∧ hrNdelta r' = (if C.all then hrNdelta r else (hrNdelta r + 1) % 2 ^ 32)
        ∧ hrBuf r' = hrBuf r ∧ hrN r' = hrN r ∧ hrBound r' = hrBound r))
/-! ### The log: cairns, rollback, publishes, cleaning (spec 11) -/

/-- R324 to R327: SNAP.TAKE records its ranges and the epoch in the lowest free cairn, SNAP.RD reads eight bytes as of a
cairn's epoch. Completion is stated for: snapTake, snapRd. -/
def Claim.CairnWords : Prop :=
  ∀ (h : Hdr) (c : Cur) (s : State) (d a b : Name) (g : BitVec 3) (e : Env), leadOf h s c = some e →
    let A := (uniVal e a 0).toNat
    let B := (uniVal e b 0).toNat
    let gives (i : Instr) (v : BitVec 64) : Prop := InHand i h c s → Next (exec i s) (EndsWith h c d v s)
    let fail (st : Nat) : BitVec 64 := BitVec.ofNat 64 (0xFFFFFFFF00000000 + st)
    let changes (s' : State) (k : Nat) : Prop := s' = { s with cairns := s'.cairns, out := s'.out, replicas := s'.replicas }
      ∧ ∀ j, j ≠ k → cairnRec s' j = cairnRec s j
    -- SNAP.TAKE
    (let i := Instr.snapTake h d a b
      let off := A % 2 ^ 32
      let listed : Prop := off % 16 = 0 ∧ 1 ≤ B ∧ B ≤ 8 ∧ off + 16 * B ≤ (launchD s c.block.lid).scratch
      (¬ listed → gives i (fail 0x25))
      ∧ (listed → (∀ st, takeRanges c (rangeList s c.block off B) s = .error st → st ≠ heldClass → gives i (fail st))
        ∧ ∀ rs, takeRanges c (rangeList s c.block off B) s = .ok rs →
          ((∀ k, k < 64 → cairnValid (cairnRec s k) = true) → gives i (fail 0x24))
          ∧ ∀ k, k < 64 → cairnValid (cairnRec s k) = false → (∀ j, j < k → cairnValid (cairnRec s j) = true) →
            (∀ x ∈ s.homes, inRanges rs x.1 = false) → (∀ x ∈ rs, x.1 < 2 ^ 45 ∧ x.2 < 2 ^ 24) → s.epoch < 2 ^ 48 →
            InHand i h c s → Next (exec i s) (fun t => ∃ s', EndsWith h c d (BitVec.ofNat 64 (s.epoch * 2 ^ 16 + k)) s' t
              ∧ changes s' k ∧ cairnValid (cairnRec s' k) = true ∧ bitsOf (cairnRec s' k) 47 0 = s.epoch
              ∧ bitsOf (cairnRec s' k) 51 49 = 0 ∧ bitsOf (cairnRec s' k) 67 56 = ctxKey s c.block
              ∧ cairnRanges (cairnRec s' k) = rs)))
    -- SNAP.RD
    ∧ (∀ la ks u v, uniPlace c false A 8 .load s = .ok (.log la ks, u) → InHand (.snapRd h d g a b) h c s →
      let q := cairnRec u (B % 64)
      let covers : Prop := cairnValid q = true ∧ mayCairn u c.block q = true ∧ inRanges (cairnRanges q) (la / 128) = true
      let x := decryptLine u v ks
      let ends (value : BitVec 64) (ok : Bool) : Prop := Next (exec (.snapRd h d g a b) s) (fun t =>
        WordEnds c u t (fun e' w' =>
          (guardG h e'.wp = true → c.single = none →
            LeavesResult h c e'.lanes (· = [.uni d value]) { e' with wp := e'.wp.setG g ok } w' ∧ SameRegs (e'.wp.setG g ok) w')
          ∧ (guardG h e'.wp = true → c.single.isSome = true →
            GoesOn h e'.lanes (c.pc + wordLen h) e'.wp w' ∧ SameRegs ((e'.wp.setS d value).setG g ok) w')
          ∧ (guardG h e'.wp = false → GoesOn h e'.lanes (c.pc + wordLen h) e'.wp w' ∧ SameRegs e'.wp w')))
      (¬ covers → ends 0 false)
      ∧ (covers → versionAsOf u (la / 128) (bitsOf q 47 0) = some v → x.poison &&& sectorsHit (la % 128) 8 = 0 →
        ends (BitVec.ofNat 64 (leNat (lineBytes x.data (la % 128) 8))) true))

/-- R328: SNAP.QUERY answers a record, or all ones for one that the issuing level may not read; SNDROP answers 0x02 for one
that is invalid or not owned and 0x04 while RB = 1, and else zeroes the record, which is then none of those that `pinEpochs`
collects. Completion is stated for: snapQuery, sndrop. -/
def Obligations.CairnQueryAndDrop : Prop :=
  ∀ (h : Hdr) (c : Cur) (s : State) (d a : Name) (e : Env), leadOf h s c = some e →
    let k := (uniVal e a 0).toNat % 64
    let gives (i : Instr) (v : BitVec 64) : Prop := InHand i h c s → Next (exec i s) (EndsWith h c d v s)
    let fail (st : Nat) : BitVec 64 := BitVec.ofNat 64 (0xFFFFFFFF00000000 + st)
    let r := cairnRec s k
    gives (.snapQuery h d a) (if mayCairn s c.block r then BitVec.ofNat 64 r else BitVec.allOnes 64)
    ∧ (cairnValid r = false ∨ mayCairn s c.block r = false → gives (.sndrop h d a) (fail 0x02))
    ∧ (cairnValid r = true → mayCairn s c.block r = true → bitsOf r 49 49 = 1 → gives (.sndrop h d a) (fail 0x04))
    ∧ (cairnValid r = true → mayCairn s c.block r = true → bitsOf r 49 49 = 0 → InHand (.sndrop h d a) h c s →
      Next (exec (.sndrop h d a) s) (fun t => ∃ s', EndsWith h c d 0 s' t
        ∧ s' = { s with cairns := s'.cairns, out := s'.out, replicas := s'.replicas }
        ∧ (∀ j, j ≠ k → cairnRec s' j = cairnRec s j) ∧ cairnRec s' k = 0
        ∧ ∀ x ∈ s'.cairns, x.1 ≠ k))

/-- R329, R330: ROLLB is refused with a status, or sets RB and sleeps. Its completion re-points every line of the selected
ranges that is named after the cairn's epoch at its version of that epoch, by one publish, clears RB and wakes the warp with
the publish's epoch. Completion is stated for: rollb, rollbComplete. -/
def Claim.RollbackResults : Prop :=
  (∀ (h : Hdr) (c : Cur) (s : State) (d a b : Name) (e : Env), leadOf h s c = some e →
    let A := (uniVal e a 0).toNat
    let B := (uniVal e b 0).toNat
    let i := Instr.rollb h d a b
    let k := A % 64
    let r := cairnRec s k
    let nr := bitsOf r 55 52
    let mask := if B % 256 = 0 then 2 ^ nr - 1 else B % 256
    let later : Prop := ∃ x ∈ s.cairns, cairnValid x.2.toNat = true ∧ bitsOf r 47 0 < bitsOf x.2.toNat 47 0
      ∧ overlaps (cairnRanges x.2.toNat) (selRanges r mask) = true
    let st : Nat := if 64 ≤ A ∨ 256 ≤ B then 0x01 else if cairnValid r = false ∨ mayCairn s c.block r = false then 0x02
      else if 2 ^ nr ≤ mask then 0x05 else if bitsOf r 49 49 = 1 then 0x04 else 0
    InHand i h c s →
      (st ≠ 0 → Next (exec i s) (EndsWith h c d (BitVec.ofNat 64 (0xFFFFFFFF00000000 + st)) s))
      ∧ (st = 0 → later → Next (exec i s) (EndsWith h c d (BitVec.ofNat 64 0xFFFFFFFF00000003) s))
      ∧ (st = 0 → ¬ later → s.replica.isSome = true →
        Next (exec i s) (EndsWith h c d (BitVec.ofNat 64 0xFFFFFFFF00000006) s))
      ∧ (st = 0 → ¬ later → s.replica = none → c.single = none → Contributes s c e → Next (exec i s) (fun t => ∃ w' z x,
        OnlyWarp c.block c.warp w' s { t with cores := s.cores, cairns := s.cairns, rollbs := s.rollbs } ∧ SameRegs e.wp w'
        ∧ w'.sleeps = e.wp.sleeps ++ [z] ∧ z.instr = i ∧ z.pc = c.pc ∧ z.va = k
        ∧ w'.lanes = (e.wp.setLanes e.lanes (fun y => { y with st := .asleep })).lanes
        ∧ t.rollbs = s.rollbs ++ [x] ∧ x.cairn = k ∧ x.mask = mask ∧ x.epoch = s.epoch ∧ x.dst = d
        ∧ cairnRec t k = r + 2 ^ 49 ∧ ∀ j, j ≠ k → cairnRec t j = cairnRec s j)))
  ∧ ∀ (s : State) (k : Nat) (r : Rollb) (bl : Block) (y : Warp) (z : Sleep) (h : Hdr) (d a b : Name),
    s.fatal = 0 → s.badPhys = false → s.rollbs.find? (fun x => x.cairn == k) = some r → noCleaning s = true →
    s.replicas = [] → s.replica = none → s.epoch + 1 < 0x800000000000 →
    let q := cairnRec s k
    let rs := selRanges q r.mask
    let epoch := bitsOf q 47 0
    let lines := visitLines s rs epoch
    (∀ n ∈ lines, startOk s n = true ∧ (headOf s n = 0 ∨ entryOk s n (headOf s n) = true)) →
    getBlock s r.waiter.block = some bl → bl.warps[r.waiter.warp]? = some y → y.sleeps = [z] → z.members = [] →
    z.instr = .rollb h d a b → z.va = k → bitsOf q 49 49 = 1 →
    Next (exec (.rollbComplete k) s) (fun t => t.epoch = s.epoch + 1
      ∧ (∀ n, ixEntry t n = if n ∈ lines then versionWalk s n epoch (walkFuel s) (headOf s n) else ixEntry s n)
      ∧ (∀ n ∈ lines, aget t.homes n = none) ∧ (∀ x ∈ t.rollbs, x.cairn ≠ k)
      ∧ (∀ n g, aget s.segs n = some g → ∃ g', aget t.segs n = some g' ∧ g'.sums = g.sums ∧ g'.data = g.data ∧ g'.used = g.used)
      ∧ bitsOf (cairnRec t k) 49 49 = 0 ∧ (∀ j, j ≠ 49 → (cairnRec t k).testBit j = q.testBit j)
      ∧ (warpD t r.waiter.block r.waiter.warp).sleeps = []
      ∧ ((warpD t r.waiter.block r.waiter.warp).sreg d =
        if guardG h y = true then BitVec.ofNat 64 (s.epoch + 1) else y.sreg d))

/-- R332: PUBL begins a device-scope release, and takes the epoch of its publish when that is performed; PUBL.WAIT waits for
an epoch; PUBL.SEAL closes the cluster's open segments and answers how many. Completion is stated for: publ, publWait,
publSeal. -/
def Claim.PublishWords : Prop :=
  (∀ (h : Hdr) (c : Cur) (s : State) (acq : Bool) (d a : Name) (e : Env), leadOf h s c = some e →
    let core := (blockD s c.block).core
    let cl := (blockD s c.block).cluster
    let target := (uniVal e a 0).toNat % 2 ^ 48
    (∀ r, c.single = some r → InHand (.publ h d) h c s →
      Next (exec (.publ h d) s) (EndsWith h c d (BitVec.ofNat 64 r.epoch) s))
    ∧ (c.single = none → Contributes s c e → members s c = [e] → e.wp.rel = none → e.wp.unack = [] → e.wp.outs = [] →
      (launchD s c.block.lid).rb = false → s.phase = 2 → (coreD s core).atoms = [] → InHand (.publ h d) h c s →
      Next (exec (.publ h d) s) (fun t => ∃ s', Ends h c s' t ∧ (clusterD s' cl).publish = true ∧ s'.mem = s.mem
        ∧ ∃ r o, (warpD s' c.block c.warp).rel = some r ∧ r.phase = .publish ∧ r.msc = .dv ∧ r.pc = c.pc
          ∧ (warpD s' c.block c.warp).outs = [o] ∧ o.instr = .publ h d))
    ∧ (InHand (.publWait h acq d a) h c s →
      (target ≤ s.epoch → Next (exec (.publWait h acq d a) s)
        (EndsWith h c d (BitVec.ofNat 64 s.epoch) (if acq then acquireMembers h .dv c s else s)))
      ∧ (s.epoch < target → c.single = none → Contributes s c e → Next (exec (.publWait h acq d a) s) (fun t => ∃ w' z,
        OnlyWarp c.block c.warp w' s { t with cores := s.cores } ∧ SameRegs e.wp w' ∧ w'.sleeps = e.wp.sleeps ++ [z]
        ∧ w'.lanes = (e.wp.setLanes e.lanes (fun y => { y with st := .asleep })).lanes
        ∧ z.instr = .publWait h acq d a ∧ z.pc = c.pc ∧ z.cmp = BitVec.ofNat 64 target ∧ z.deadline = none)))
    ∧ (InHand (.publSeal h d) h c s → Next (exec (.publSeal h d) s) (fun t => ∃ s',
      EndsWith h c d (BitVec.ofNat 64 (clusterD s cl).openSegs.length) s' t ∧ (clusterD s' cl).openSegs = []
      ∧ s'.mem = s.mem ∧ s'.epoch = s.epoch ∧ ∀ n g, aget s.segs n = some g → ∃ g', aget s'.segs n = some g'
        ∧ g'.data = g.data ∧ g'.sums = g.sums ∧ g'.used = g.used
        ∧ g'.phase = if g.phase = .opened ∧ (∃ x ∈ (clusterD s cl).openSegs, x.2 = n) then .closed else g.phase)))
  ∧ ∀ (s : State) (w : WarpId) (b : Block) (x : Warp) (h : Hdr) (d : Name) (o : Outst) (r : Release),
    getBlock s w.block = some b → b.warps[w.warp]? = some x → x.outs = [o] → o.instr = .publ h d → x.rel = some r →
    r.phase = .done →
    let x' := warpD (settlePubl w s) w.block w.warp
    x'.sreg d = BitVec.ofNat 64 r.epoch ∧ x'.outs = [] ∧ x'.rel = none ∧ x'.regs = x.regs ∧ (settlePubl w s).mem = s.mem

/-- R335 to R338: a Talus engine takes a segment that it may clean; copies the live chain of its next line, here of one
version, to a fresh segment under the same key slot; swings the index to the copy if its head has not changed meanwhile, and
else tries again, until after four failures the segment is a candidate again; and with every line swung the segment retires,
with no publish. A retired segment becomes free, and no cache names it. Completion is stated for: talusCleanStart,
segmentRetireComplete. -/
def Obligations.CleaningEvents : Prop :=
  ∀ (s : State) (engine seg : Nat) (g : Segment), s.fatal = 0 → s.badPhys = false → aget s.segs seg = some g →
    let i := Instr.talusCleanStart engine seg
    let doing (t : State) : Option Clean := t.cleans.find? (fun c => c.seg == seg)
    let calm (t : State) : Prop := t.epoch = s.epoch ∧ t.watch = s.watch
    let retires (t : State) : Prop := aget t.segs seg = some { g with phase := .retiring } ∧ t.mem = s.mem ∧ calm t ∧ doing t = none
    (doing s = none →
      (mayClean engine seg g s = false → exec i s = .next s)
      ∧ (mayClean engine seg g s = true → headerBad s seg = true → Next (exec i s) (fun t =>
        aget t.segs seg = some { g with barred := true } ∧ t.mem = s.mem ∧ ∀ j, j ≠ seg → aget t.segs j = aget s.segs j))
      ∧ (mayClean engine seg g s = true → headerBad s seg = false → liveLines s seg g = [] → Next (exec i s) retires)
      ∧ (mayClean engine seg g s = true → headerBad s seg = false → liveLines s seg g ≠ [] → Next (exec i s) (fun t =>
        aget t.segs seg = some { g with phase := .cleaning } ∧ t.mem = s.mem ∧ calm t
        ∧ ∃ c, doing t = some c ∧ c.engine = engine ∧ c.copies = [] ∧ c.fails = 0
          ∧ ∀ n, n ∈ c.todo ↔ n ∈ liveLines s seg g)))
    ∧ (∀ c, doing s = some c → c.engine ≠ engine → exec i s = .next s)
    ∧ (∀ c, doing s = some c → c.engine = engine → c.todo = [] →
      (liveLines s seg g = [] → Next (exec i s) retires)
      ∧ (liveLines s seg g ≠ [] → Next (exec i s) (fun t => t.segs = s.segs ∧ t.mem = s.mem ∧ calm t
        ∧ ∃ l, doing t = some { c with todo := l } ∧ ∀ n, n ∈ l ↔ n ∈ liveLines s seg g)))
    ∧ (∀ c n rest, doing s = some c → c.engine = engine → c.todo = n :: rest →
      -- copying
      (c.copies = [] → (entryBad s n = true ∨ entryOk s n (headOf s n) = false) → Next (exec i s) (fun t => t.fatal ≠ 0))
      ∧ (∀ f old v, c.copies = [] → entryBad s n = false → entryOk s n (headOf s n) = true → liveChain s n = [old] →
        s.talusOpen = [] → freeSegment s = some f → entrySeg old = seg → aget g.sums (entrySlot old) = some v →
        Next (exec i s) (fun t => doing t = some { c with old := headOf s n, copies := [mkEntry f 0] } ∧ headOf t n = headOf s n
          ∧ (segLine t (mkEntry f 0)).data = (segLine s old).data ∧ (segLine t (mkEntry f 0)).ks = (segLine s old).ks
          ∧ (segLine t (mkEntry f 0)).zero = (segLine s old).zero ∧ t.mem = s.mem ∧ calm t ∧ aget t.segs seg = some g))
      -- the compare
      ∧ (∀ new more, c.copies = new :: more →
        (headOf s n = c.old → Next (exec i s) (fun t => headOf t n = new ∧ calm t ∧ t.segs = s.segs
          ∧ doing t = some { c with todo := rest, copies := [], fails := 0 }))
        ∧ (headOf s n ≠ c.old → c.fails < 3 → Next (exec i s) (fun t => t.mem = s.mem ∧ t.homes = s.homes ∧ t.segs = s.segs
          ∧ calm t ∧ doing t = some { c with copies := [], fails := c.fails + 1 }))
        ∧ (headOf s n ≠ c.old → 3 ≤ c.fails → Next (exec i s) (fun t => t.mem = s.mem ∧ t.homes = s.homes ∧ calm t
          ∧ doing t = none ∧ aget t.segs seg = some { g with phase := .closed }))))
    ∧ (g.phase = .retiring → Next (exec (.segmentRetireComplete seg) s) (fun t => aget t.segs seg = none
      ∧ t.reclaimed = s.reclaimed + 1 ∧ t.mem = s.mem ∧ t.epoch = s.epoch ∧ (∀ j, j ≠ seg → aget t.segs j = aget s.segs j)
      ∧ (∀ c ∈ t.clusters, (∀ x ∈ c.2.ix, entrySeg x.2 ≠ seg) ∧ ∀ x ∈ c.2.logs, x.1 / 2 ^ 24 ≠ seg)
      ∧ ∀ c ∈ t.cores, ∀ x ∈ c.2.ix, entrySeg x.2 ≠ seg))

/-- R339 to R345: the words and events of replica shipping, at the source and at the peer. Completion is stated for: shipCfg,
shipStart, shipStop, shipStat, shipAccept, shipPromote, replicaAgeLimit, segmentShip, replicaBaseCopyComplete,
replicaRecordApply, replicaPeerTimeout, appliedEpochReport. -/
def Obligations.ReplicaResults : Prop :=
  (∀ (h : Hdr) (c : Cur) (s : State) (d a : Name) (r : BitVec 2) (e : Env), leadOf h s c = some e →
    let k := r.toNat
    let off := (uniVal e a 0).toNat % 2 ^ 32
    let D := leNat (scratchRead s c.block off 32)
    let fine : Prop := off % 32 = 0 ∧ off + 32 ≤ (launchD s c.block.lid).scratch ∧ bitsOf D 15 8 = 0 ∧ bitsOf D 255 46 = 0
      ∧ bitsOf D 7 0 ≠ s.blob.device
    let fail (st : Nat) : BitVec 64 := BitVec.ofNat 64 (0xFFFFFFFF00000000 + st)
    let gives (i : Instr) (v : BitVec 64) (P : State → Prop) : Prop :=
      InHand i h c s → Next (exec i s) (fun t => ∃ s', EndsWith h c d v s' t ∧ P s')
    let same (s' : State) : Prop := s' = s
    let slot (s' : State) (x : Replica) : Prop := s' = { s with replicas := s'.replicas, draws := s'.draws }
      ∧ aget s'.replicas k = some x ∧ ∀ j, j ≠ k → aget s'.replicas j = aget s.replicas j
    (streamingSlot s k = true → gives (.shipCfg h d a r) (fail 0x31) same)
    ∧ (streamingSlot s k = false → ¬ fine → gives (.shipCfg h d a r) (fail 0x34) same)
    ∧ (streamingSlot s k = false → fine → gives (.shipCfg h d a r) 0 (fun s' => slot s'
      { desc := BitVec.ofNat 256 D, state := .configured, base := false, start := 0, applied := 0, since := s.clock, held := [],
        marks := (0, 0) }))
    ∧ ((aget s.replicas k).all (fun x => x.state != .configured) = true → gives (.shipStart h d r) (fail 0x32) (fun s' =>
      s' = { s with draws := s'.draws }))
    ∧ (∀ x, aget s.replicas k = some x → x.state = .configured →
      ((Config.free64 s.draws).getLsbD 0 = false → gives (.shipStart h d r) (fail 0x32) (fun s' =>
        s' = { s with draws := s'.draws }))
      ∧ ((Config.free64 s.draws).getLsbD 0 = true → gives (.shipStart h d r) (BitVec.ofNat 64 s.epoch) (fun s' =>
        slot s' { x with state := .streaming, base := true, start := s.epoch, since := s.clock, held := [] })))
    ∧ (∀ x, aget s.replicas k = some x → gives (.shipStop h d r) (BitVec.ofNat 64 x.applied) (fun s' =>
      slot s' (if x.state = .streaming then { x with state := .configured, base := false, held := [] } else x)))
    ∧ (aget s.replicas k = none → gives (.shipStop h d r) 0 same ∧ gives (.shipStat h d r) 0 same)
    ∧ (∀ x, aget s.replicas k = some x → gives (.shipStat h d r) (BitVec.ofNat 64 (x.applied % 2 ^ 48
      + (match x.state with | .configured => 1 | .streaming => 2 | .broken => 3) * 2 ^ 48 + (if x.base then 2 ^ 50 else 0))) same)
    ∧ (¬ fine → gives (.shipAccept h d a) (fail 0x34) same)
    ∧ (fine → (∃ x ∈ s.clusters, x.2.pend ≠ []) → gives (.shipAccept h d a) (fail 0x33) same)
    ∧ (fine → (∀ x ∈ s.clusters, x.2.pend = []) → gives (.shipAccept h d a) 0 (fun s' => s'.segs = [] ∧ s'.homes = []
      ∧ s'.cairns = [] ∧ (∀ n, n < s.blob.ixlines → ixEntry s' n = 0) ∧ s'.epoch = s.epoch
      ∧ s'.replica = some { desc := BitVec.ofNat 256 D, started := false, cairns := 0, queue := [] }))
    ∧ (s.replica = none → gives (.shipPromote h d) (BitVec.ofNat 64 s.epoch) same)
    ∧ (∀ m, s.replica = some m → m.queue = [] → gives (.shipPromote h d) (BitVec.ofNat 64 s.epoch) (fun s' =>
      s'.replica = none ∧ s'.epoch = s.epoch ∧ s'.mem = s.mem ∧ ∀ x ∈ s'.cairns, x.2.getLsbD 50 = false)))
  ∧ ∀ (s : State) (seg k : Nat) (x : Replica) (g : Segment), s.fatal = 0 → s.badPhys = false →
    (aget s.segs seg = some g → g.phase = .closed → Next (exec (.segmentShip seg) s) (fun t => t.mem = s.mem
      ∧ (g.kind = 1 → t.out = s.out) ∧ ∃ g', aget t.segs seg = some g' ∧ g'.data = g.data ∧ g'.phase = .closed
        ∧ ∀ j y, (j, y) ∈ s.replicas → y.state = .streaming → j ∈ g'.shipped))
    ∧ (aget s.replicas k = some x → x.state = .streaming →
      (x.base = true → Next (exec (.replicaBaseCopyComplete k) s) (fun t => aget t.replicas k = some { x with base := false, held := [] }
        ∧ t.mem = s.mem ∧ t.out = s.out ++ [.baseCopy k x.start (baseLines x.start s)] ++ x.held))
      ∧ (∀ n, Next (exec (.appliedEpochReport k n) s) (fun t =>
        aget t.replicas k = some { x with applied := n % 2 ^ 48, since := s.clock } ∧ t.mem = s.mem))
      ∧ (s.clock < x.since + 2 ^ 30 → exec (.replicaPeerTimeout k) s = .next s)
      ∧ (x.since + 2 ^ 30 ≤ s.clock → 0 < s.records.length → Next (exec (.replicaPeerTimeout k) s) (fun t => t.mem = s.mem
        ∧ aget t.replicas k = some { x with state := .broken, base := false, held := [] })))
    ∧ (∀ c, aget s.replicas k = some x → x.state = .streaming → bitsOf x.desc.toNat 31 16 ≠ 0 →
      Next (exec (.replicaAgeLimit c k) s) (fun t => t.mem = s.mem ∧ t.epoch = s.epoch ∧ ∀ n g, aget s.segs n = some g →
        ∃ g', aget t.segs n = some g' ∧ g'.data = g.data ∧ (g'.phase = g.phase ∨ (g.phase = .opened ∧ g'.phase = .closed
          ∧ g.since + 1850 * bitsOf x.desc.toNat 31 16 < s.clock ∧ ∃ y ∈ (clusterD s c).openSegs, y.2 = n))))
    ∧ (∀ m e lines missing, s.replica = some m → m.started = true → e ≤ s.epoch →
      exec (.replicaRecordApply (.publish e lines missing)) s = .next s)
    ∧ (∀ m e lines missing, s.replica = some m → m.started = true → m.queue = [] → s.epoch + 1 < e →
      Next (exec (.replicaRecordApply (.publish e lines missing)) s) (fun t => t.epoch = s.epoch ∧ t.mem = s.mem
        ∧ ∃ m', t.replica = some m' ∧ m'.queue = [.publish e lines missing]))
    ∧ (∀ m, s.replica = some m → m.started = true → m.queue = [] → s.replicas = [] → s.epoch + 1 < 0x800000000000 →
      Next (exec (.replicaRecordApply (.publish (s.epoch + 1) [] false)) s) (fun t => t.epoch = s.epoch + 1 ∧ t.mem = s.mem
        ∧ t.replica = some { m with cairns := 0 }))
    ∧ (∀ m n j q, s.replica = some m → m.started = true → m.queue = [] →
      (n < m.cairns → exec (.replicaRecordApply (.cairn s.epoch n j q)) s = .next s)
      ∧ (n = m.cairns → q ≠ 0 → Next (exec (.replicaRecordApply (.cairn s.epoch n j q)) s) (fun t => t.mem = s.mem
        ∧ t.epoch = s.epoch ∧ t.replica = some { m with cairns := n + 1 } ∧ (cairnRec t j).testBit 50 = true
        ∧ ∀ b, b < 1024 → b ≠ 50 → (cairnRec t j).testBit b = q.getLsbD b)))
/-! ### Near-memory compute and walks (spec 12) -/

/-- R348 to R350: NBARM answers the first status that applies, or arms the extent: it takes an arm-table entry and binds its
group, and its result 0 comes when no store or atomic into the range is left to be performed. NBDISARM answers 0x48 or 0x49,
waits for commands that name the extent, or disarms it. Completion is stated for: nbarm, nbdisarm, nbdisarmWaitComplete. -/
def Claim.ArmResults : Prop :=
  (∀ (h : Hdr) (c : Cur) (s : State) (d a b : Name) (e : Env), leadOf h s c = some e →
    let id := c.block
    let core := (blockD s id).core
    let ctx := blockCtx s id
    let me := BitVec.ofNat 12 (ctxKey s id)
    let A := (uniVal e a 0).toNat
    let B := (uniVal e b 0).toNat
    let fail (st : Nat) : BitVec 64 := BitVec.ofNat 64 (0xFFFFFFFF00000000 + st)
    let gives (i : Instr) (v : BitVec 64) : Prop := InHand i h c s → Next (exec i s) (EndsWith h c d v s)
    (let i := Instr.nbarm h d a b;
      (¬(A % 0x200000 = 0 ∧ B % 0x100000 = 0) → gives i (fail 0x41))
      ∧ (A % 0x200000 = 0 → B % 0x100000 = 0 →
        (∀ k, extentOf s core ctx A = .error k → k ≠ heldClass → gives i (fail 0x42))
        ∧ ∀ pa ks, extentOf s core ctx A = .ok (pa, ks) →
          let g := extentGroup pa
          let windowed : Prop := ∀ j, j < 128 → windowPage s core ctx B pa ks j = true
          let armed : Prop := ∃ x ∈ s.arms, x.base = pa
          let foreign : Prop := ∃ o, aget s.groups g = some o ∧ o ≠ me;
          (¬ windowed → gives i (fail 0x43)) ∧ (windowed → armed → gives i (fail 0x44))
          ∧ (windowed → ¬ armed → foreign → gives i (fail 0x45))
          ∧ (windowed → ¬ armed → ¬ foreign → 256 ≤ s.arms.length → gives i (fail 0x46))
          ∧ (windowed → ¬ armed → ¬ foreign → s.arms.length < 256 → (∀ k ∈ s.cores, k.2.atoms = []) → c.single = none →
            Contributes s c e → (∀ x ∈ e.wp.outs, x.ops = [] ∧ x.id ≠ e.wp.nextOut) → InHand i h c s →
            Next (exec i s) (fun t => ∃ s' w' o, OnlyWarp id c.warp w' s' t ∧ SameRegs e.wp w'
              ∧ w'.outs = e.wp.outs ++ [o] ∧ o.id = e.wp.nextOut ∧ o.instr = i
              ∧ o.vals = (if extentBusy s pa then [] else [.uni d 0]) ∧ o.ops = (if extentBusy s pa then [(pa, 0, 0)] else [])
              ∧ s'.arms = s.arms ++ [{ base := pa, vbase := A, ctx := me, ks := ks, window := B }]
              ∧ s'.blocks = s.blocks ∧ s'.segs = s.segs ∧ s'.epoch = s.epoch
              ∧ ((∀ x ∈ s.arms, ¬(extentGroup x.base = g ∧ x.ctx = me)) → aget s'.groups g = some me)
              ∧ (∀ x ∈ s'.clusters, ∀ y ∈ x.2.tlb, meetsExtent pa y = false)
              ∧ (∀ x ∈ s'.cores, ∀ y ∈ x.2.tlb, meetsExtent pa y = false)))))
    ∧ (let i := Instr.nbdisarm h d a
      let cmds := extentCmds s (ctxKey s id) A
      e.wp.results.length < 64 →
      (armAt s (ctxKey s id) A = none → gives i (fail 0x48))
      ∧ ∀ x, armAt s (ctxKey s id) A = some x →
        (QState.error ∈ cmds → gives i (fail 0x49))
        ∧ (cmds = [] → InHand i h c s → Next (exec i s) (fun t => ∃ s', EndsWith h c d 0 s' t ∧ x ∉ s'.arms
          ∧ (∀ y ∈ s.arms, y ≠ x → y ∈ s'.arms) ∧ s'.blocks = s.blocks
          ∧ ((∀ y ∈ s.arms, y ≠ x → ¬(extentGroup y.base = extentGroup x.base ∧ y.ctx = x.ctx)) →
            aget s'.groups (extentGroup x.base) = none)))
        ∧ (cmds ≠ [] → QState.error ∉ cmds → members s c = [e] → Contributes s c e → c.single = none → InHand i h c s →
          Next (exec i s) (fun t => ∃ w' o, OnlyWarp c.block c.warp w' s t ∧ SameRegs e.wp w' ∧ w'.outs = e.wp.outs ++ [o]
            ∧ o.instr = i ∧ o.ops = [(A, 0, 0)]))))
  ∧ ∀ (s : State) (w : WarpId) (b : Block) (x : Warp) (o : Outst) (h : Hdr) (d a : Name) (va : Nat), s.fatal = 0 →
    s.badPhys = false → getBlock s w.block = some b → b.warps[w.warp]? = some x → x.outs = [o] → o.instr = .nbdisarm h d a →
    o.ops = [(va, 0, 0)] →
    (extentCmds s (ctxKey s w.block) va ≠ [] → exec (.nbdisarmWaitComplete w) s = .next s)
    ∧ (extentCmds s (ctxKey s w.block) va = [] → Next (exec (.nbdisarmWaitComplete w) s) (fun t =>
      (warpD t w.block w.warp).outs = [] ∧ (warpD t w.block w.warp).sreg d = 0 ∧ (warpD t w.block w.warp).regs = x.regs
      ∧ ∀ y, armAt s (ctxKey s w.block) va = some y → y ∉ t.arms))
  ∧ ∀ (s : State) (w : WarpId) (b : Block) (x : Warp) (o : Outst) (h : Hdr) (d a v : Name) (pa : Nat),
    getBlock s w.block = some b → b.warps[w.warp]? = some x → x.outs = [o] → o.instr = .nbarm h d a v → o.ops = [(pa, 0, 0)] →
    (∀ k ∈ s.cores, k.2.atoms = []) →
    (extentBusy s pa = true → settleArms w s = s)
    ∧ (extentBusy s pa = false → (warpD (settleArms w s) w.block w.warp).outs = [{ o with ops := [], vals := [.uni d 0] }]
      ∧ (settleArms w s).mem = s.mem)

/-- R355 to R360, R362: NBLOAD, NBSTRM, NBOP and NBDRAIN answer a ticket: the first check that fails gives its status; a full
queue stalls the word; a command that passes enters the block's queue. NBDRAIN.CLR empties a queue in Error. Completion is
stated for: nbload, nbstrm, nbdrain, nbdrainClr, nbop. -/
def Claim.NearMemoryCommands : Prop :=
  ∀ (h : Hdr) (c : Cur) (s : State) (sem : Sem) (m : Msc) (vc : Vc) (acc rel : Bool) (d a : Name) (e : Env),
    leadOf h s c = some e → (sem = .none ∨ sem = .rel ∨ e.wp.unacked = 0) →
    let q := (blockD s c.block).nm
    let scratch := (launchD s c.block.lid).scratch
    let off := (uniVal e a 0).toNat % 2 ^ 32
    let D := leNat (scratchRead s c.block off 64)
    let inside : Prop := off % 64 = 0 ∧ off + 64 ≤ scratch
    let ticket (seq : BitVec 32) (st : Nat) : BitVec 64 := BitVec.ofNat 64 (seq.toNat + st * 2 ^ 32)
    let gives (i : Instr) (st : Nat) : Prop := InHand i h c s → Next (exec i s) (EndsWith h c d (ticket q.issued st) s)
    let enters (i : Instr) (P : NmCmd → Prop) : Prop := InHand i h c s →
      (16 ≤ q.cmds.length → exec i s = .next s)
      ∧ (q.cmds.length < 16 → Next (exec i s) (fun t => ∃ s', EndsWith h c d (ticket (q.issued + 1) 0) s' t
        ∧ s' = { s with blocks := s'.blocks } ∧ (∀ id, id ≠ c.block → getBlock s' id = getBlock s id)
        ∧ ∀ b, getBlock s c.block = some b → ∃ b' C, getBlock s' c.block = some b' ∧ b' = { b with nm := b'.nm }
          ∧ b'.nm.issued = q.issued + 1 ∧ b'.nm.completed = q.completed ∧ b'.nm.cmds = q.cmds ++ [C] ∧ b'.nm.sum = q.sum
          ∧ C.seq = (q.issued + 1).toNat ∧ C.warp = e.w ∧ C.stage = .start ∧ P C))
    let word (i : Instr) (k : NmKind) : Prop :=
      (¬ inside → gives i 0x50)
      ∧ (inside →
        (∀ st, ((nmChecks s c.block k D).find? (fun y => y.1)).map (fun y => y.2) = some st → st ≠ 0 → gives i st)
        ∧ ((nmChecks s c.block k D).find? (fun y => y.1) = none → enters i (fun C => C.kind = k ∧ C.desc = BitVec.ofNat 512 D
          ∧ C.v = (match vc with | .all => nmBv D | .reg r => min ((uniVal e r 0).toNat % 2 ^ 32) (nmBv D))
          ∧ (isStrm k = false → C.x = (List.range (nmBv D * nmK D)).map (fun j =>
            BitVec.ofNat 16 (leNat (scratchRead s c.block (nmSoff D + 2 * j) 2)))))))
    word (.nbload h vc d a) .load ∧ word (.nbstrm h vc acc d a) (.strm acc) ∧ word (.nbop h sem m vc d a) .op
    ∧ (let i := Instr.nbdrain h rel m d a
      let aligned : Prop := off % 4 = 0 ∧ off + 4 ≤ scratch
      (¬ aligned → gives i 0x56) ∧ (aligned → q.state = .error → gives i 0x57)
      ∧ (aligned → q.state ≠ .error → enters i (fun C => C.kind = .drain ∧ C.aoff = off ∧ C.ord.rel = rel)))
    ∧ (InHand (.nbdrainClr h d) h c s →
      (q.state ≠ .error → Next (exec (.nbdrainClr h d) s) (EndsWith h c d 0 s))
      ∧ (q.state = .error → Next (exec (.nbdrainClr h d) s) (fun t => ∃ s', EndsWith h c d (BitVec.ofNat 64 q.cmds.length) s' t
        ∧ s' = { s with blocks := s'.blocks } ∧ ((getBlock s c.block).isSome = true →
          (blockD s' c.block).nm = { q with cmds := [], state := .idle, sum := 0 }))))

/-- R359, R360, R362, R363: the head of a near-memory queue: its reads and row writes, and its completion, which signals the
arrival word of an NBOP or an NBDRAIN and counts the bytes of an NBSTRM; a Poisoned row stops the queue. Completion is stated
for: nearMemoryCommandComplete. -/
def Claim.NearMemoryExecution : Prop :=
  ∀ (s : State) (id : BlockId) (b : Block) (c : NmCmd) (rest : List NmCmd) (x : Arm), s.fatal = 0 → s.badPhys = false →
    getBlock s id = some b → b.nm.cmds = c :: rest → b.nm.state = .running → b.saved = false → enginesHeld b = false →
    (launchD s id.lid).rb = false → c.stage = .start → c.ord.acq = false → c.ord.rel = false →
    let d := c.desc.toNat
    let r := nmData c x (nmCount c) s
    let old := leNat (scratchRead s id c.aoff 4)
    let out (t : State) : Prop := (blockD t id).nm.cmds = rest ∧ (blockD t id).nm.completed = b.nm.completed + 1
      ∧ (blockD t id).nm.issued = b.nm.issued ∧ (blockD t id).nm.state = (if rest = [] then .idle else .running)
      ∧ (blockD t id).warps = b.warps
    let word (t : State) (v : Nat) : Prop := scratchRead t id c.aoff 4 = leBytes 4 v
      ∧ ∀ y, ¬(c.aoff ≤ y ∧ y < c.aoff + 4) → scratchRead t id y 1 = scratchRead s id y 1
    (c.kind = .drain → Next (exec (.nearMemoryCommandComplete id .ok) s) (fun t => out t ∧ t.mem = s.mem
      ∧ word t ((old + b.nm.sum) % 2 ^ 32) ∧ (blockD t id).nm.sum = 0))
    ∧ (armAt s (ctxKey s id) (nmXaddr d) = some x → c.kind ≠ .drain → r.2.blocks = s.blocks → r.2.launches = s.launches →
      r.2.badPhys = false →
      (r.1 = true → Next (exec (.nearMemoryCommandComplete id .ok) s) (fun t => out t ∧ t.mem = r.2.mem
        ∧ t.rows = r.2.rows
        ∧ (c.kind = .op → word t (if nmMode d then nmAval d else (old + 4 * nmBv d * nmN d) % 2 ^ 32)
          ∧ (blockD t id).nm.sum = b.nm.sum)
        ∧ (c.kind = .load → (blockD t id).scratch = b.scratch ∧ (blockD t id).nm.sum = b.nm.sum)
        ∧ (isStrm c.kind = true → (blockD t id).scratch = b.scratch
          ∧ (blockD t id).nm.sum = b.nm.sum + 32 * nmBv d * nmJc d)))
      ∧ (r.1 = false → Next (exec (.nearMemoryCommandComplete id .ok) s) (fun t => t.mem = r.2.mem
        ∧ (blockD t id).nm.state = .error ∧ (blockD t id).nm.completed = b.nm.completed
        ∧ (blockD t id).scratch = b.scratch)))

/-- R366, R370: TRAV answers a ticket: a status, or 0 with a walk started under the next number; TRAVQ counts the block's
walks or cancels one. Completion is stated for: trav, travqCount, travqCancel. -/
def Claim.WalkWords : Prop :=
  ∀ (h : Hdr) (c : Cur) (s : State) (sem : Sem) (m : Msc) (d a : Name) (e : Env), leadOf h s c = some e →
    (sem = .none ∨ sem = .rel ∨ e.wp.unacked = 0) →
    let i := Instr.trav h sem m d a
    let bl := blockD s c.block
    let scratch := (launchD s c.block.lid).scratch
    let off := (uniVal e a 0).toNat % 2 ^ 32
    let D := leNat (scratchRead s c.block off 64)
    let inside : Prop := off % 64 = 0 ∧ off + 64 + 8 * (bitsOf D 243 240 + 1) ≤ scratch
    let rules := (List.range (bitsOf D 243 240 + 1)).map (fun j =>
      BitVec.ofNat 64 (leNat (scratchRead s c.block (off + 64 + 8 * j) 8)))
    let ticket (st : Nat) : BitVec 64 := BitVec.ofNat 64 (bl.nextWid % 2 ^ 32 + st * 2 ^ 32)
    let gives (st : Nat) : Prop := Next (exec i s) (EndsWith h c d (ticket st) s)
    let inFlight := ((s.blocks.filter (fun b => b.core / 8 / 10 == bl.core / 8 / 10 && !b.saved)).map (fun b => b.walks.length)).sum
    let wid := (uniVal e a 0).toNat % 2 ^ 32
    (InHand i h c s →
      (¬ inside → gives 0x60)
      ∧ (inside →
        (∀ st, ((walkChecks scratch D rules).find? (fun y => y.1)).map (fun y => y.2) = some st → st ≠ 0 → gives st)
        ∧ ((walkChecks scratch D rules).find? (fun y => y.1) = none →
          (512 ≤ inFlight → exec i s = .next s)
          ∧ (inFlight < 512 → Next (exec i s) (fun t => ∃ s', EndsWith h c d (ticket 0) s' t
            ∧ s' = { s with blocks := s'.blocks } ∧ ∀ b, getBlock s c.block = some b → ∃ b' w,
              getBlock s' c.block = some b' ∧ b' = { b with walks := b'.walks, nextWid := b.nextWid + 1 }
              ∧ b'.walks = b.walks ++ [w] ∧ w.wid = b.nextWid % 2 ^ 32 ∧ w.desc = BitVec.ofNat 512 D ∧ w.rules = rules
              ∧ w.ptr = BitVec.ofNat 64 (bitsOf D 63 0) ∧ w.rule = 0 ∧ w.steps = 0 ∧ w.buf = [] ∧ w.phase = .starting)))))
    ∧ UniLate (.travqCount h d) h c s d (fun _ => BitVec.ofNat 64 bl.walks.length)
    ∧ (InHand (.travqCancel h d a) h c s →
      (findWalk s c.block wid = none → Next (exec (.travqCancel h d a) s) (EndsWith h c d 1 s))
      ∧ ∀ w, findWalk s c.block wid = some w → Next (exec (.travqCancel h d a) s) (fun t => ∃ s', EndsWith h c d 0 s' t
        ∧ s' = { s with blocks := s'.blocks } ∧ (blockD s' c.block).walks.length = bl.walks.length
        ∧ findWalk s' c.block wid = some { w with cancel := true }))

/-- R368, R369, R371, R373: a walk starts at the current epoch; its LOAD, CMP, NEXT, RET and MISS rules; the bytes a LOAD
brings; and how a walk ends: its result of 16 bytes and a record is written, then its arrival word, and it is gone.
Completion is stated for: walkStart, walkLoadReturn, walkRule. -/
def Claim.WalkEvents : Prop :=
  ∀ (s : State) (id : BlockId) (b : Block) (w : Walk), s.fatal = 0 → s.badPhys = false → getBlock s id = some b →
    b.walks = [w] → (launchD s id.lid).rb = false →
    let d := w.desc.toNat
    let r := ((w.rules[w.rule]?).getD 0).toNat
    let now (t : State) (x : Walk) : Prop := (blockD t id).walks = [x] ∧ t.mem = s.mem ∧ (blockD t id).warps = b.warps
      ∧ (blockD t id).scratch = b.scratch
    let steps (P : State → Prop) : Prop := Next (exec (.walkRule id w.wid) s) P
    -- the result of a walk that ends with status `st`: what it waits for after it is its release and arrival word
    let result (st cls : Nat) (t : State) : Prop := (blockD t id).walks = [] ∧ t.mem = s.mem ∧ (blockD t id).warps = b.warps
      ∧ (wkRoff d + 16 + wkRlen d ≤ wkAoff d ∨ wkAoff d + 4 ≤ wkRoff d →
        scratchRead t id (wkRoff d) 16 = leBytes 8 (st + cls * 2 ^ 8 + w.steps * 2 ^ 16) ++ leBytes 8 w.ptr.toNat
        ∧ (st ≠ 0 → scratchRead t id (wkRoff d + 16) (wkRlen d) = List.replicate (wkRlen d) 0)
        ∧ (st = 0 → wkRlen d ≤ w.buf.length → scratchRead t id (wkRoff d + 16) (wkRlen d) = w.buf.take (wkRlen d))
        ∧ scratchRead t id (wkAoff d) 4 = leBytes 4 (if wkMode d then wkAval d
            else (leNat (scratchRead s id (wkAoff d) 4) + 16 + wkRlen d) % 2 ^ 32))
    let ends (st : Nat) : Prop := (wkFpol d = false ∨ st < 2 ∨ 7 < st) → steps (result st 0)
    (w.phase = .starting → w.ord.acq = false →
      Next (exec (.walkStart id w.wid) s) (fun t => now t { w with phase := .running, epoch := s.epoch }))
    ∧ (w.phase = .running → w.ord.rel = false → w.cancel = true → ends 8)
    ∧ (w.phase = .running → w.ord.rel = false → w.cancel = false →
      (rlOp r = 0 →
        (w.steps = wkSlim d → ends 2) ∧ (w.steps ≠ wkSlim d → w.ptr = 0 → ends 3)
        ∧ (w.steps ≠ wkSlim d → w.ptr ≠ 0 → steps (fun t => now t { w with steps := w.steps + 1, phase := .reading })))
      ∧ (rlOp r = 1 →
        (w.buf.length < rlOff r + rlW r → ends 5)
        ∧ (rlOff r + rlW r ≤ w.buf.length → w.run + 1 < 64 →
          let f := leNat ((w.buf.drop (rlOff r)).take (rlW r))
          let k := (if rlKs r then rlImm r else wkKey d) % 2 ^ (8 * rlW r)
          let int (v : Nat) : Int := if 2 ^ (8 * rlW r - 1) ≤ v then (v : Int) - 2 ^ (8 * rlW r) else v
          let holds : Prop := match rlCc r with
            | 0 => f = k
            | 1 => f ≠ k
            | 2 => f < k
            | 3 => k ≤ f
            | 4 => int f < int k
            | _ => int k ≤ int f
          (holds → steps (fun t => now t { w with rule := rlT r, run := w.run + 1 }))
          ∧ (¬ holds → steps (fun t => now t { w with rule := rlF r, run := w.run + 1 }))))
      ∧ (rlOp r = 2 →
        (w.buf.length < rlOff r + 8 → ends 5)
        ∧ (rlOff r + 8 ≤ w.buf.length → w.run + 1 < 64 →
          let p := leNat ((w.buf.drop (rlOff r)).take 8)
          steps (fun t => now t { w with ptr := BitVec.ofNat 64 p, rule := if p ≠ 0 then rlT r else rlF r, run := w.run + 1 })))
      ∧ (rlOp r = 3 → ends 0) ∧ (4 ≤ rlOp r → ends 1))
    ∧ (w.phase = .reading → ∀ bs u, walkLoad id w (rlImm r) .ok s = (.bytes bs, u) → u.blocks = s.blocks → u.badPhys = false →
      Next (exec (.walkLoadReturn id w.wid .ok) s) (fun t => t.mem = u.mem
        ∧ (blockD t id).walks = [{ w with buf := bs, rule := rlT r, run := 0, phase := .running }]))
    ∧ (w.phase = .reading → w.ord.rel = false → wkFpol d = false → ∀ cls u, walkLoad id w (rlImm r) .ok s = (.fault cls, u) →
      u.blocks = s.blocks → u.launches = s.launches → u.mem = s.mem → u.badPhys = false →
      Next (exec (.walkLoadReturn id w.wid .ok) s) (result 4 cls))
/-! ### System words (spec 13, 14) -/

/-- R435, R444, R446: MEXT extends a measurement register, COLCMD starts a collective after its release, or is ignored, and
ERRINJ takes its value. Completion is stated for: mextWrite, colcmdWrite, errinjWrite. -/
def Claim.DeviceRegisterWrites : Prop :=
  ∀ (h : Hdr) (c : Cur) (s : State) (a : Name) (e : Env), leadOf h s c = some e →
    let x := uniVal e a 0
    let v := x.toNat
    let done (i : Instr) (P : State → Prop) : Prop := InHand i h c s → Next (exec i s) (fun t => ∃ s', Ends h c s' t ∧ P s')
    let pa := bitsOf v 39 6 * 64
    let k := bitsOf v 3 0
    (8 ≤ k → physOk pa 64 = true → done (.mextWrite h a) (fun s' => s' = { s with meas := s'.meas }
      ∧ sget s'.meas k = Config.shake512 (leBytes 64 (sget s.meas k).toNat ++ readBytes s pa 64)
      ∧ ∀ j, j ≠ k → sget s'.meas j = sget s.meas j))
    ∧ (s.coll.isSome = true → done (.colcmdWrite h a) (fun s' => s' = s))
    ∧ (s.coll = none → bitsOf v 6 0 ≠ 0 ∨ bitsOf v 63 40 ≠ 0 → done (.colcmdWrite h a) (fun s' =>
      s' = { s with collStatus := 0xC1 }))
    ∧ (s.coll = none → bitsOf v 6 0 = 0 → bitsOf v 63 40 = 0 → physOk v 128 = true → Contributes s c e →
      (∀ r, e.wp.rel = some r → r.phase = .done ∧ r.pc = c.pc ∧ r.holds = true → done (.colcmdWrite h a) (fun s' =>
        ∃ y, s'.coll = some y ∧ y.desc = BitVec.ofNat 1024 (readNat s v 128) ∧ y.block = c.block ∧ y.since = s.clock
          ∧ s'.mem = s.mem ∧ (warpD s' c.block e.w).rel = none))
      ∧ (e.wp.rel = none → e.wp.unack = [] → e.wp.outs = [] → s.phase = 2 → (launchD s c.block.lid).rb = false →
        (coreD s (blockD s c.block).core).atoms = [] → InHand (.colcmdWrite h a) h c s →
        Next (exec (.colcmdWrite h a) s) (fun t => t.coll = none ∧ (clusterD t ((blockD s c.block).core / 8)).publish = true
          ∧ ∃ r, (warpD t c.block e.w).rel = some r ∧ r.msc = .sy ∧ r.phase = .publish ∧ r.pc = c.pc ∧ r.holds = true)))
    ∧ done (.errinjWrite h a) (fun s' => s' = { s with csr := { s.csr with errinj := x } })

/-- R378, R380, R382: MBOX.CFG binds a mailbox, MBOX.POST copies a message into the outbound ring and signals its vector,
MBOX.OPEN brings an inbound message to the scratchpad; each failure answers its status and changes nothing. Completion is
stated for: mboxCfg, mboxPost, mboxOpen. -/
def Obligations.MailboxWords : Prop :=
  ∀ (h : Hdr) (c : Cur) (s : State) (d a b : Name) (e : Env), leadOf h s c = some e →
    let A := (uniVal e a 0).toNat
    let B := (uniVal e b 0).toNat
    let scratch := (launchD s c.block.lid).scratch
    let fail (st : Nat) : BitVec 64 := BitVec.ofNat 64 (0xFFFFFFFF00000000 + st)
    let gives (i : Instr) (v : BitVec 64) : Prop := InHand i h c s → Next (exec i s) (EndsWith h c d v s)
    let bad (x : Nat) : Prop := bitsOf x 9 8 = 3 ∨ bitsOf x 15 11 ≠ 0 ∨ bitsOf x 31 24 ≠ 0 ∨ bitsOf x 127 76 ≠ 0
      ∨ 224 < bitsOf x 23 16 ∨ (x.testBit 10 = false ∧ bitsOf x 255 128 ≠ 0)
    (let i := Instr.mboxCfg h d a b
      let m := A % 64
      let wrong : Prop := m = 0 ∨ bitsOf B 23 18 ≠ 0 ∨ bitsOf B 63 35 ≠ 0
      (wrong → gives i (fail 0x81))
      ∧ (¬ wrong → InHand i h c s → Next (exec i s) (fun t => ∃ s', EndsWith h c d 0 s' t ∧ s' = { s with mboxes := s'.mboxes }
        ∧ mboxD s' m = { ctx := BitVec.ofNat 12 B, slot := bitsOf B 17 12, vector := bitsOf B 34 24, seq := (mboxD s m).seq }
        ∧ ∀ j, j ≠ m → mboxD s' j = mboxD s j)))
    ∧ (let i := Instr.mboxPost h d a b
      let off := A % 2 ^ 32
      let m := B % 64
      let base := s.blob.mbxbase + m * 65536
      let prod := readNat s (base + 0x40) 4
      let cons := readNat s (base + 0x44) 4
      let bs := scratchRead s c.block off 256
      let x := leNat (bs.take 32)
      let M := 3758096384
      let inside : Prop := off % 32 = 0 ∧ off + 256 ≤ scratch
      let full : Prop := (prod + M - cons % M) % M = 112
      (¬ inside → gives i (fail 0x81)) ∧ (inside → full → gives i (fail 0x82)) ∧ (inside → ¬ full → bad x → gives i (fail 0x83))
      ∧ (inside → ¬ full → ¬ bad x → x.testBit 10 = false → physOk base 65536 = true → InHand i h c s →
        Next (exec i s) (fun t => ∃ s', EndsWith h c d (BitVec.ofNat 64 prod) s' t
          ∧ readNat s' (base + 0x40) 4 = (prod + 1) % M ∧ readBytes s' (base + 0x9000 + 256 * (prod % 112)) 256 = bs
          ∧ (∀ y, ¬(base + 0x40 ≤ y ∧ y < base + 0x44) →
            ¬(base + 0x9000 + 256 * (prod % 112) ≤ y ∧ y < base + 0x9100 + 256 * (prod % 112)) →
            readBytes s' y 1 = readBytes s y 1)
          ∧ s'.out = s.out ++ [.msix m (mboxD s m).vector (sget s.msix (m * 2048 + (mboxD s m).vector))] ∧ s'.blocks = s.blocks)))
    ∧ (let i := Instr.mboxOpen h d a b
      let off := B % 2 ^ 32
      let m := A % 64
      let bs := readBytes s (s.blob.mbxbase + m * 65536 + 0x1000 + 256 * bitsOf B 38 32) 256
      let x := leNat (bs.take 32)
      let len := bitsOf x 23 16
      let stale : Prop := ∃ n, (mboxD s m).seq = some n ∧ bitsOf x 63 32 ≤ n
      (off % 32 ≠ 0 ∨ scratch < off + 32 → gives i (fail 0x81))
      ∧ (off % 32 = 0 → off + 32 ≤ scratch → bad x → gives i (fail 0x83))
      ∧ (off % 32 = 0 → off + 32 ≤ scratch → ¬ bad x → scratch < off + 32 + len → gives i (fail 0x81))
      ∧ (off % 32 = 0 → ¬ bad x → off + 32 + len ≤ scratch → x.testBit 10 = false →
        (stale → gives i (fail 0x85))
        ∧ (¬ stale → InHand i h c s → Next (exec i s) (fun t => ∃ s', EndsWith h c d (BitVec.ofNat 64 len) s' t
          ∧ s'.mem = s.mem ∧ (mboxD s' m).seq = some (bitsOf x 63 32)
          ∧ ((getBlock s c.block).isSome = true → scratchRead s' c.block off (32 + len) = bs.take (32 + len)
            ∧ ∀ y, ¬(off ≤ y ∧ y < off + 32 + len) → scratchRead s' c.block y 1 = scratchRead s c.block y 1)))))

/-- R383, R384: LAUNCH, its release performed, answers the first status that applies, or the next launch ID; the launch takes
its parameters from the header, and its blocks wait to start. Completion is stated for: launch. -/
def Claim.LaunchResults : Prop :=
  ∀ (h : Hdr) (c : Cur) (s : State) (d a : Name) (e : Env) (r : Release), leadOf h s c = some e → e.wp.rel = some r →
    r.phase = .done → r.pc = c.pc → r.holds = true → Contributes s c e → InHand (.launch h d a) h c s →
    let i := Instr.launch h d a
    let A := (uniVal e a 0).toNat
    let u := setRel c.block e.w none s
    let fail (st : Nat) : BitVec 64 := BitVec.ofNat 64 (0xFFFFFFFF00000000 + st)
    (A % 256 ≠ 0 ∨ readVirtual c.block A 256 u = none → Next (exec i s) (EndsWith h c d (fail 0x70) u))
    ∧ ∀ hb s1 g s2, A % 256 = 0 → readVirtual c.block A 256 u = some (hb, false, s1) →
      let x := leNat hb
      ((x.testBit 67 = false ∧ g = 0 ∧ s2 = s1)
        ∨ ∃ gb, x.testBit 67 = true ∧ readVirtual c.block (A + 256) 2048 s1 = some (gb, false, s2) ∧ g = leNat gb) →
      let s3 := dropCode (ctxCheck (bitsOf x 95 84) s2)
      s3.badPhys = false →
      (∀ st, launchStatus s3 x g = st → st ≠ 0 → Next (exec i s) (EndsWith h c d (fail st) s3))
      ∧ (launchStatus s3 x g = 0 → Next (exec i s) (fun t => ∃ s' L,
        EndsWith h c d (s3.nextLid.setWidth 64) s' t ∧ s' = { s3 with launches := s3.launches ++ [L], nextLid := s'.nextLid }
        ∧ s'.nextLid = (if s3.nextLid = 0xFFFFFFFF then 1 else s3.nextLid + 1)
        ∧ L.lid = s3.nextLid ∧ L.super = false ∧ L.gdim.toNat = bitsOf x 62 0 ∧ L.band = x.testBit 64 ∧ L.det = x.testBit 65
        ∧ L.rb = x.testBit 66 ∧ (L.e1 = true ↔ bitsOf x 69 68 = 1) ∧ L.prio = bitsOf x 71 70
        ∧ L.scratch = 1024 * bitsOf x 80 72 ∧ L.ctx.toNat = bitsOf x 95 84 ∧ L.seed.toNat = bitsOf x 191 128
        ∧ L.handler.toNat = bitsOf x 255 192 ∧ L.data.toNat = bitsOf x 319 256 ∧ L.const.toNat = bitsOf x 383 320
        ∧ L.args.toNat = bitsOf x 447 384 ∧ L.ltag.toNat = bitsOf x 511 448
        ∧ L.total = bitsOf x 20 0 * bitsOf x 41 21 * bitsOf x 62 42 ∧ L.nextBlk = 0 ∧ L.ended = 0 ∧ L.killed = 0
        ∧ L.held = false ∧ L.code = []))

/-- R375, R403: CTXSV.WRITE puts a record in place with its key slots kept, CTXSV.READ copies one to the scratchpad,
CTXSV.RESUME clears HOLD and requeues, CTXSV.KILL leaves nothing of the context. Completion is stated for: ctxsvWrite,
ctxsvRead, ctxsvResume, ctxsvKill. -/
def Claim.ContextWords : Prop :=
  ∀ (h : Hdr) (c : Cur) (s : State) (d a b : Name) (e : Env), leadOf h s c = some e →
    let A := (uniVal e a 0).toNat
    let off := A % 2 ^ 32
    let fail (st : Nat) : BitVec 64 := BitVec.ofNat 64 (0xFFFFFFFF00000000 + st)
    let inside : Prop := off % 64 = 0 ∧ off + 64 ≤ (launchD s c.block.lid).scratch
    let gives (i : Instr) (v : BitVec 64) (P : State → Prop) : Prop :=
      InHand i h c s → Next (exec i s) (fun t => ∃ s', EndsWith h c d v s' t ∧ P s')
    let busy (k : Nat) : Prop := ∃ l ∈ s.launches, l.super = false ∧ l.ctx.toNat = k
    let there (k : Nat) : Prop := physOk (s.csr.ctxbase.toNat + 64 * k) 64 = true
    (inside →
      let k := (uniVal e b 0).toNat % 4096
      let V := leNat (scratchRead s c.block off 64)
      let old := (ctxRec s k).toNat
      let moved : Prop := bitsOf V 34 8 ≠ bitsOf old 34 8 ∨ bitsOf V 154 128 ≠ bitsOf old 154 128
        ∨ bitsOf V 159 155 ≠ bitsOf old 159 155 ∨ bitsOf V 218 192 ≠ bitsOf old 218 192 ∨ bitsOf V 250 224 ≠ bitsOf old 250 224
        ∨ bitsOf V 271 256 ≠ bitsOf old 271 256 ∨ (old.testBit 0 = true ∧ V.testBit 0 = false)
      let reserved : Prop := bitsOf V 7 3 ≠ 0 ∨ bitsOf V 63 35 ≠ 0 ∨ bitsOf V 127 120 ≠ 0 ∨ bitsOf V 191 160 ≠ 0
        ∨ bitsOf V 223 219 ≠ 0 ∨ bitsOf V 255 251 ≠ 0 ∨ bitsOf V 511 352 ≠ 0
      (busy k → moved → gives (.ctxsvWrite h d a b) (fail 0x93) (fun s' => s' = s))
      ∧ (¬(busy k ∧ moved) → reserved → gives (.ctxsvWrite h d a b) (fail 0x94) (fun s' => s' = s))
      ∧ (¬(busy k ∧ moved) → ¬ reserved → there k → gives (.ctxsvWrite h d a b) 0 (fun s' =>
        (∀ j, (ctxRec s' k).getLsbD j = if 64 ≤ j ∧ j < 120 then (ctxRec s k).getLsbD j else V.testBit j)
        ∧ (∀ j, j ≠ k → ctxRec s' j = ctxRec s j) ∧ s'.blocks = s.blocks ∧ s'.launches = s.launches))
      ∧ gives (.ctxsvRead h d a b) 0 (fun s' => s'.mem = s.mem ∧ s'.ctxs = s.ctxs ∧ ((getBlock s c.block).isSome = true →
        scratchRead s' c.block off 64 = leBytes 64 (ctxRec s k).toNat
        ∧ ∀ y, ¬(off ≤ y ∧ y < off + 64) → scratchRead s' c.block y 1 = scratchRead s c.block y 1)))
    ∧ (let k := A % 4096;
      (there k → gives (.ctxsvResume h d a) 0 (fun s' => (ctxRec s' k).getLsbD 1 = false
        ∧ (∀ j, j ≠ 1 → (ctxRec s' k).getLsbD j = (ctxRec s k).getLsbD j) ∧ (∀ j, j ≠ k → ctxRec s' j = ctxRec s j)
        ∧ s'.blocks = s.blocks.map (fun x => if blockOfCtx s k x = true ∧ savedFor x .preempt = true then
            (if x.saved = true then { x with requeued := true }
              else { x with saving := x.saving.map (fun y => { y with why := .swap }) }) else x)))
      ∧ ((∃ x ∈ s.rollbs, cairnCtx (cairnRec s x.cairn) = k) → InHand (.ctxsvKill h d a) h c s →
        exec (.ctxsvKill h d a) s = .next s)
      ∧ ((∀ x ∈ s.rollbs, cairnCtx (cairnRec s x.cairn) ≠ k) → (clearContext k (killContext k s).2).badPhys = false →
        gives (.ctxsvKill h d a) (BitVec.ofNat 64 ((s.blocks.filter (blockOfCtx s k)).length)) (fun s' =>
          (∀ x ∈ s'.blocks, blockOfCtx s k x = false) ∧ (∀ l ∈ s'.launches, l.super = true ∨ l.ctx.toNat ≠ k)
          ∧ (∀ x ∈ s'.arms, x.ctx.toNat ≠ k) ∧ (∀ w ∈ s'.watch, w.2.v = true → w.2.ctx.toNat ≠ k)
          ∧ (∀ f ∈ s'.faults, f.ctx.toNat ≠ k) ∧ (k ≠ 0xFFF → ∀ x ∈ s'.mboxes, x.2.ctx.toNat ≠ k)
          ∧ (ctxRec s' k).getLsbD 0 = false)))

/-- R398, R400, R401: PREEMPT begins to save the blocks it names and answers when they are saved, or 0 at once when there are
none; PREEMPT.RESUME clears holds and requeues; FLTQ serves or fails a fault in flight, or counts those of a context.
Completion is stated for: preemptCtx, preemptLaunch, preemptBlock, preemptResume, fltqDone, fltqFail, fltqStat. -/
def Claim.PreemptAndFaultWords : Prop :=
  ∀ (h : Hdr) (c : Cur) (s : State) (d a b : Name) (e : Env), leadOf h s c = some e → e.wp.results.length < 64 →
    let A := (uniVal e a 0).toNat
    let B := (uniVal e b 0).toNat
    let fail (st : Nat) : BitVec 64 := BitVec.ofNat 64 (0xFFFFFFFF00000000 + st)
    let gives (i : Instr) (v : BitVec 64) (P : State → Prop) : Prop :=
      InHand i h c s → Next (exec i s) (fun t => ∃ s', EndsWith h c d v s' t ∧ P s')
    let same (s' : State) : Prop := s' = s
    let saves (i : Instr) (why : SaveWhy) (ids : List BlockId) (P : State → Prop) : Prop :=
      (ids = [] → gives i 0 P)
      ∧ (ids ≠ [] → Contributes s c e → InHand i h c s → Next (exec i s) (fun t => ∃ s' o, Ends h c s' t ∧ P s'
        ∧ (warpD s' c.block e.w).outs.getLast? = some o ∧ o.instr = i ∧ o.ops.length = ids.length
        ∧ ∀ id x, id ∈ ids → getBlock s id = some x → x.saved = false → ∃ x' y, getBlock s' id = some x'
          ∧ x'.saving = some y ∧ (x.saving = none → y.why = why ∧ y.stage = 0 ∧ y.since = s.clock)))
    let lid : BitVec 32 := (uniVal e a 0).setWidth 32
    let named : Option Launch := s.launches.find? (fun l => l.lid == lid)
    let stays (p : Block → Bool) : List BlockId := (s.blocks.filter (fun x => !x.saved && p x)).map (·.id)
    (let k := A % 4096;
      (ctxValid s k = false → gives (.preemptCtx h d a) (fail 0x90) same)
      ∧ (ctxValid s k = true → physOk (s.csr.ctxbase.toNat + 64 * k) 64 = true →
        saves (.preemptCtx h d a) .preempt (stays (blockOfCtx s k)) (fun s' => (ctxRec s' k).getLsbD 1 = true
          ∧ ∀ j, j ≠ k → ctxRec s' j = ctxRec s j)))
    ∧ (named = none → gives (.preemptLaunch h d a) (fail 0x90) same ∧ gives (.preemptBlock h d a b) (fail 0x90) same
      ∧ gives (.preemptResume h d a) (fail 0x90) same)
    ∧ (∀ L, named = some L →
      (L.super = true → gives (.preemptLaunch h d a) (fail 0x92) same ∧ gives (.preemptBlock h d a b) (fail 0x92) same)
      ∧ (L.super = false →
        saves (.preemptLaunch h d a) .hold (stays (fun x => x.id.lid == lid)) (fun s' => (launchD s' lid).held = true)
        ∧ ((getBlock s { lid := lid, blk := B }).all (fun x => x.saved) = true → gives (.preemptBlock h d a b) (fail 0x91) same)
        ∧ ((getBlock s { lid := lid, blk := B }).any (fun x => !x.saved) = true →
          let unit := if L.band then stays (fun x => x.id.lid == lid && x.id.blk / 8 == B / 8) else [{ lid := lid, blk := B }]
          saves (.preemptBlock h d a b) .hold unit (fun s' => s'.launches = s.launches)))
      ∧ gives (.preemptResume h d a) (BitVec.ofNat 64 ((s.blocks.filter (fun x =>
          x.saved && (x.id.lid == lid && savedFor x .hold) && !x.requeued)).length)) (fun s' =>
        (launchD s' lid).held = false ∧ (launchD s' lid).heldBlks = []
        ∧ s'.blocks = s.blocks.map (fun x => if x.id.lid = lid ∧ savedFor x .hold = true then
            (if x.saved = true then { x with requeued := true }
              else { x with saving := x.saving.map (fun y => { y with why := .swap }) }) else x)))
    ∧ (let found := s.faults.find? (fun f => f.token % 2 ^ 32 == A % 2 ^ 32)
      let cls := B % 16
      let allowed : Prop := (1 ≤ cls ∧ cls ≤ 4) ∨ (7 ≤ cls ∧ cls ≤ 10)
      (found = none → gives (.fltqDone h d a) (fail 0x98) same ∧ gives (.fltqFail h d a b) (fail 0x98) same)
      ∧ ∀ f, found = some f →
        gives (.fltqDone h d a) (BitVec.ofNat 64 (waiters s f.token)) (fun s' => (∀ x ∈ s'.faults, x.token ≠ f.token)
          ∧ s'.mem = s.mem ∧ (∀ x ∈ s'.blocks, ∀ y ∈ x.warps, ∀ p ∈ y.parks, p.token ≠ some f.token)
          ∧ (∀ x ∈ s'.blocks, ∀ q ∈ x.copyQ, q.2.token ≠ some f.token)
          ∧ (∀ k ∈ s'.clusters, ∀ q ∈ k.2.queues, q.2.token ≠ some f.token))
        ∧ (¬ allowed → gives (.fltqFail h d a b) (fail 0x99) same)
        ∧ (allowed → (failFault f.token cls s).badPhys = false →
          gives (.fltqFail h d a b) (BitVec.ofNat 64 (waiters s f.token)) (fun s' => s' = failFault f.token cls s)))
    ∧ (let mine := s.faults.filter (fun f => f.ctx == (uniVal e a 0).setWidth 12);
      gives (.fltqStat h d a) (BitVec.ofNat 64 (mine.length + (mine.filter (fun f => !f.posted)).length * 2 ^ 32)) same)

/-- R408, R409: TLBI drops the entries it names from every TLB and answers when the accesses through them are over; KEYCTL
loads, binds, erases and reports key slots. Completion is stated for: tlbiAll, tlbiCtx, tlbiRange, keyctlLoad, keyctlBind,
keyctlErase, keyctlQuery. -/
def Obligations.TlbAndKeyWords : Prop :=
  ∀ (h : Hdr) (c : Cur) (s : State) (d a b : Name) (e : Env), leadOf h s c = some e → e.wp.results.length < 64 →
    let A := (uniVal e a 0).toNat
    let B := (uniVal e b 0).toNat
    let fail (st : Nat) : BitVec 64 := BitVec.ofNat 64 (0xFFFFFFFF00000000 + st)
    let gives (i : Instr) (v : BitVec 64) (P : State → Prop) : Prop :=
      InHand i h c s → Next (exec i s) (fun t => ∃ s', EndsWith h c d v s' t ∧ P s')
    let same (s' : State) : Prop := s' = s
    let tlbs (s' : State) (p : TlbEntry → Prop) : Prop := (∀ k ∈ s'.clusters, ∀ x ∈ k.2.tlb, p x) ∧ ∀ k ∈ s'.cores, ∀ x ∈ k.2.tlb, p x
    let drops (i : Instr) (p : TlbEntry → Bool) (k : Option (BitVec 12) → Bool) : Prop :=
      -- the accesses through an entry that goes, and those whose page would have one
      let open' := pendingAccesses s k (fun x va =>
        p { ctx := x, base := va, size := 1, pte := 0 } || (droppedEntries s p).any (fun y => y.covers x va))
      (open' = [] → gives i 0 (fun s' => s' = { s with clusters := s'.clusters, cores := s'.cores } ∧ tlbs s' (fun x => p x = false)
        ∧ ∀ n x, x ∈ (coreD s n).tlb → p x = false → x ∈ (coreD s' n).tlb))
      ∧ (open' ≠ [] → Contributes s c e → InHand i h c s → Next (exec i s) (fun t => ∃ s' o, Ends h c s' t
        ∧ tlbs s' (fun x => p x = false) ∧ s'.mem = s.mem ∧ (warpD s' c.block e.w).outs = e.wp.outs ++ [o] ∧ o.instr = i ∧ o.ops ≠ []))
    let ctxOf (x : BitVec 64) : Option (BitVec 12) := if x.setWidth 12 = 0xFFF#12 then none else some (x.setWidth 12)
    let ka := ctxOf (uniVal e a 0)
    let kb := ctxOf (uniVal e b 0)
    let hi := A + bitsOf B 63 12 * 8192
    drops (.tlbiAll h d) (fun _ => true) (fun _ => true)
    ∧ drops (.tlbiCtx h d a) (fun x => x.ctx == ka) (fun k => k == ka)
    ∧ (A % 8192 ≠ 0 ∨ bitsOf B 63 12 = 0 → gives (.tlbiRange h d a b) (fail 0xA0) same)
    ∧ (A % 8192 = 0 → bitsOf B 63 12 ≠ 0 → drops (.tlbiRange h d a b)
      (fun x => x.ctx == kb && decide (x.base < hi) && decide (A < x.base + x.size)) (fun k => k == kb))
    -- KEYCTL
    ∧ (let off := A % 2 ^ 32
      let slot := bitsOf B 13 0
      let session := bitsOf B 29 16
      let i := Instr.keyctlLoad h d a b
      off % 8 = 0 → off + 72 ≤ (launchD s c.block.lid).scratch →
      (slot < 64 ∨ 64 ≤ session → gives i (fail 0xA8) same)
      ∧ (64 ≤ slot → session < 64 → aget s.keys session = none → gives i (fail 0xAB) same)
      ∧ ∀ key, 64 ≤ slot → session < 64 → aget s.keys session = some key →
        (Config.keyUnwrap key (scratchRead s c.block off 72) = none → gives i (fail 0xA9) same)
        ∧ ∀ pair, Config.keyUnwrap key (scratchRead s c.block off 72) = some pair →
          ((aget s.keys slot).isSome = true → gives i (fail 0xAA) same)
          ∧ (aget s.keys slot = none → gives i 0 (fun s' => s' = { s with keys := s'.keys } ∧ aget s'.keys slot = some pair
            ∧ ∀ j, j ≠ slot → aget s'.keys j = aget s.keys j)))
    ∧ (let k := A % 4096
      let slot := bitsOf B 13 0
      let lo := 64 + 14 * bitsOf A 13 12
      let i := Instr.keyctlBind h d a b
      let held : Prop := 65 ≤ slot ∧ (aget s.keys slot).isSome = true
      let busy : Prop := ∃ l ∈ s.launches, l.super = false ∧ l.ctx.toNat = k
      (¬ held → gives i (fail 0xAC) same) ∧ (held → ctxValid s k = false → gives i (fail 0xAD) same)
      ∧ (held → ctxValid s k = true → busy → gives i (fail 0xAE) same)
      ∧ (held → ctxValid s k = true → ¬ busy → physOk (s.csr.ctxbase.toNat + 64 * k) 64 = true → gives i 0 (fun s' =>
        bitsOf (ctxRec s' k).toNat (lo + 13) lo = slot
        ∧ (∀ j, ¬(lo ≤ j ∧ j < lo + 14) → (ctxRec s' k).getLsbD j = (ctxRec s k).getLsbD j)
        ∧ ∀ j, j ≠ k → ctxRec s' j = ctxRec s j)))
    ∧ (let k := A % 16384;
      (k < 64 → gives (.keyctlErase h d a) (fail 0xA8) same)
      ∧ (64 ≤ k → slotBound s k = true → gives (.keyctlErase h d a) (fail 0xAF) same)
      ∧ (64 ≤ k → slotBound s k = false → gives (.keyctlErase h d a) 0 (fun s' =>
        s' = { s with keys := s'.keys, bad := s'.bad, segs := s'.segs, clusters := s'.clusters, cores := s'.cores }
        ∧ aget s'.keys k = none ∧ (∀ j, j ≠ k → aget s'.keys j = aget s.keys j)
        -- what the slot had encrypted is lost with its key; nothing else is
        ∧ (∀ x ∈ s.keyOf, x.2.toNat = k → x.1 ∈ s'.bad)
        ∧ (∀ y ∈ s'.bad, y ∈ s.bad ∨ ∃ x ∈ s.keyOf, x.1 = y ∧ x.2.toNat = k)
        ∧ s'.segs.length = s.segs.length ∧ ∀ g ∈ s.segs, g.2.ks ≠ k → g ∈ s'.segs))
      ∧ gives (.keyctlQuery h d a) (BitVec.ofNat 64 ((if (aget s.keys k).isSome then 1 else 0) + (if k < 64 then 2 else 0)
        + (if slotBound s k then 4 else 0))) same)

/-- R416, R417: the seven forms of DBG. Completion is stated for: dbgAttach, dbgDetach, dbgStop, dbgResume, dbgRdreg,
dbgWrreg, dbgStat. -/
def Obligations.DebugWords : Prop :=
  ∀ (h : Hdr) (c : Cur) (s : State) (d a b : Name) (e : Env), leadOf h s c = some e →
    let A := (uniVal e a 0).toNat
    let fail (st : Nat) : BitVec 64 := BitVec.ofNat 64 (0xFFFFFFFF00000000 + st)
    let gives (i : Instr) (v : BitVec 64) (P : State → Prop) : Prop :=
      InHand i h c s → Next (exec i s) (fun t => ∃ s', EndsWith h c d v s' t ∧ P s')
    let same (s' : State) : Prop := s' = s
    let k := A % 4096
    let id : BlockId := { lid := (uniVal e a 0).setWidth 32, blk := (uniVal e b 0).toNat }
    let off := A % 2 ^ 32
    let x := readLocator (leNat (scratchRead s c.block off 16))
    let v := uniVal e b 0
    let wp := warpD s x.block x.warp
    -- where the frame of a saved block, or of an evicted warp, keeps a lane's register
    let inFrame (x : Locator) : Nat := frameAddr s (launchD s x.block.lid).ctx.toNat ((blockD s x.block).frame.getD 0)
      + (if x.name < 16 then 0x20000 + 2048 * x.warp + 128 * x.name else 0x30000 + (112 * x.warp + (x.name - 16)) * 128) + 4 * x.lane
    let bit (s' : State) (on : Bool) : Prop := (ctxRec s' k).getLsbD 2 = on
      ∧ (∀ j, j ≠ 2 → (ctxRec s' k).getLsbD j = (ctxRec s k).getLsbD j) ∧ ∀ j, j ≠ k → ctxRec s' j = ctxRec s j
    (ctxValid s k = false → gives (.dbgAttach h d a) (fail 0xB0) same ∧ gives (.dbgDetach h d a) (fail 0xB0) same)
    ∧ (ctxValid s k = true → physOk (s.csr.ctxbase.toNat + 64 * k) 64 = true →
      gives (.dbgAttach h d a) 0 (fun s' => bit s' true ∧ s'.blocks = s.blocks)
      ∧ gives (.dbgDetach h d a) 0 (fun s' => bit s' false ∧ s'.blocks = s.blocks.map (fun y =>
        if blockOfCtx s k y then { y with warps := y.warps.map (fun z =>
          if z.stopped then { z.cancelLoads with stopped := false } else z) } else y)))
    ∧ (getBlock s id = none → gives (.dbgStop h d a b) (fail 0xB0) same ∧ gives (.dbgResume h d a b) (fail 0xB0) same
      ∧ gives (.dbgStat h d a b) (fail 0xB0) same)
    ∧ (∀ y, getBlock s id = some y →
      (InHand (.dbgStop h d a b) h c s → Next (exec (.dbgStop h d a b) s) (fun t => ∃ t1, EndsWith h c d 0 s t1
        ∧ t.mem = s.mem ∧ (∀ j, j ≠ id → getBlock t j = getBlock t1 j)
        ∧ ∀ (n : Nat) (z : Warp), (blockD t1 id).warps[n]? = some z → ∃ z' : Warp, (blockD t id).warps[n]? = some z'
          ∧ (z.ended = true → z' = z) ∧ (z.ended = false → z'.stopped = true)
          ∧ (z.ended = false → z.tx = none →
            z' = { z.cancelLoads with stopped := true, stopAt := if z.stopped then z.stopAt else s.clock })))
      ∧ gives (.dbgResume h d a b) 0 (fun s' => s' = { s with blocks := s'.blocks } ∧ ∀ (n : Nat) (z : Warp), y.warps[n]? = some z →
        (blockD s' id).warps[n]? = some (if z.stopped then { z.cancelLoads with stopped := false } else z))
      ∧ gives (.dbgStat h d a b) (BitVec.ofNat 64 ((if y.saved then 2 else 1) + (y.warps.filter (fun z =>
        z.stopped && z.awaited.isEmpty && z.tx.isNone && !z.ended)).length * 2 ^ 32)) same)
    ∧ (off % 16 = 0 → off + 16 ≤ (launchD s c.block.lid).scratch →
      (getBlock s x.block = none → gives (.dbgRdreg h d a) (fail 0xB0) same ∧ gives (.dbgWrreg h d a b) (fail 0xB0) same)
      ∧ ((getBlock s x.block).isSome = true →
        (locatorOk s x = false → gives (.dbgRdreg h d a) (fail 0xB2) same ∧ gives (.dbgWrreg h d a b) (fail 0xB2) same)
        ∧ (3 ≤ x.kind → v.toNat % 4 ≠ 0 → gives (.dbgWrreg h d a b) (fail 0xB2) same)
        ∧ (locatorOk s x = true → wp.halted = false → gives (.dbgRdreg h d a) (fail 0xB1) same)
        ∧ (locatorOk s x = true → wp.halted = true →
          gives (.dbgRdreg h d a) (match x.kind with
            | 0 => if (blockD s x.block).saved = true ∨ wp.evicted = true then BitVec.ofNat 64 (readNat s (inFrame x) 4)
              else (wp.reg (BitVec.ofNat 7 x.name) x.lane).setWidth 64
            | 1 => if x.name < 64 then wp.sreg (BitVec.ofNat 7 x.name) else locatorGet s x
            | 2 => if wp.pred (BitVec.ofNat 3 x.name) x.lane then 1 else 0
            | 3 => (wp.lane x.lane).pc.setWidth 64
            | _ => (wp.lane x.lane).mt.setWidth 64) same
          ∧ ((x.kind < 3 ∨ v.toNat % 4 = 0) → (∀ pa, locatorAddr s x = some pa → physOk pa 4 = true) →
            gives (.dbgWrreg h d a b) 0 (fun s' => (locatorAddr s x = none → s'.mem = s.mem)
            ∧ (∀ pa, locatorAddr s x = some pa → readNat s' pa 4 = v.toNat % 2 ^ 32
              ∧ ∀ y, ¬(pa ≤ y ∧ y < pa + 4) → sget s'.mem y = sget s.mem y)
            ∧ (x.kind = 0 → (warpD s' x.block x.warp).reg (BitVec.ofNat 7 x.name) x.lane = v.setWidth 32
              ∧ ∀ n l, l < 32 → ¬(n.toNat = x.name ∧ l = x.lane) → (warpD s' x.block x.warp).reg n l = wp.reg n l)
            ∧ (x.kind = 1 → x.name < 64 → (warpD s' x.block x.warp).sreg (BitVec.ofNat 7 x.name) = v)
            ∧ (x.kind = 2 → x.name < 7 → (warpD s' x.block x.warp).pred (BitVec.ofNat 3 x.name) x.lane = v.getLsbD 0)
            ∧ ∀ j, j ≠ x.block → getBlock s' j = getBlock s j)))))
/-! ### Blocks that start, are saved and come back; checkpoints and rollback (spec 09, 13, 14) -/

/-- R46, R144, R177, R383, R386: when no saved block comes back, the first launch's next block starts on the core that R386
chooses, every warp at its role's entry with what R383 gives it and the current epoch acquired; and nothing starts when
nothing fits. Completion is stated for: blockStart. -/
def Obligations.BlockStarts : Prop :=
  ∀ (s : State), s.fatal = 0 → s.badPhys = false → restoreAny s = none →
    (startAny s = none → exec .blockStart s = .next s)
    ∧ ∀ (l : Launch) (rest : List Launch) (core : Nat),
      let id : BlockId := { lid := l.lid, blk := l.nextBlk }
      s.launches = l :: rest → l.band = false → l.rb = false → l.held = false → l.nextBlk < l.total →
      (l.super = true ∨ ctxHold s l.ctx.toNat = false) → bestCore s (fitsNew s l) = some core → getBlock s id = none →
      Next (exec .blockStart s) (fun t => t.mem = s.mem ∧ (∀ j, j ≠ id → getBlock t j = getBlock s j)
        ∧ (launchD t l.lid).nextBlk = l.nextBlk + 1
        ∧ ∃ b, getBlock t id = some b ∧ b.core = core ∧ b.saved = false ∧ b.warps.length = nwarps l
          ∧ ∀ w x, b.warps[w]? = some x → x.lanes = List.replicate 32
              { pc := (((l.roles[roleOf l w]?).map (·.entry)).getD 0), mt := 0x1FFFFFFFFFFFFF#53, st := .running,
                susp := false, txe := false }
            ∧ x.allot = ((l.roles[roleOf l w]?).map (·.regs)).getD 8 ∧ x.acq = s.epoch ∧ x.tmask = false
            ∧ x.sreg 0 = l.data ∧ x.sreg 1 = l.const ∧ x.sreg 2 = l.args
            ∧ (∀ k, 2 < k.toNat → k.toNat < 63 → x.sreg k = 0) ∧ ∀ k n, x.reg k n = 0)

/-- R399, R400, R401, R405, R407: a block at rest is written to its frame, its resources are free and the frame says so;
without a frame it stays; a saved block comes back on a core with the registers of its frame; a block that waits on faults
alone begins to be swapped. Completion is stated for: swapOut, blockSave, blockRestore. -/
def Obligations.SavesAndRestores : Prop :=
  ∀ (s : State) (id : BlockId) (b : Block), s.fatal = 0 → s.badPhys = false → getBlock s id = some b →
    let l := launchD s id.lid
    let ctx := l.ctx.toNat
    l.band = false → l.rb = false →
    (∀ (y : Saving) (f : Nat) (u : State) (v : Block),
      let lu := launchD u id.lid
      let base := frameAddr u lu.ctx.toNat f
      let kind := if y.why = .swap ∨ y.why = .evict then 2 else 1
      b.saved = false → b.saving ≠ none → b.frame = some f → base + 0x1000000 ≤ 0x8000000000 →
      readyToSave (stopOpen id s) (blockD (stopOpen id s) id) = true → agentRelease id .dv [] (stopOpen id s) = (u, true) →
      getBlock u id = some v → v.saving = some y →
      u.badPhys = false → v.warps.length ≤ 32 → (∀ x ∈ v.warps, x.allot ≤ 112) →
      (∀ g ∈ lu.groups, g.1 < 16) → lu.scratch ≤ 262144 → (∀ x ∈ (clusterD u v.cluster).cornice, x.ctx ≠ launchKey lu) →
      (∀ x ∈ (clusterD u v.cluster).slots, x.1 < 128) → (∀ x ∈ (clusterD u v.cluster).accs, x.1 < 8) →
      Next (exec (.blockSave id) s) (fun t => (blockD t id).saved = true ∧ (blockD t id).frame = some f
        ∧ (lu.ctx.toNat, f, kind) ∈ t.frames
        ∧ readNat t base 1 = kind + (if lu.det then 4 else 0) + (if lu.rb then 8 else 0) + (if lu.band then 16 else 0)
        ∧ (∀ a, (a < base ∨ base + 0x1000000 ≤ a) → sget t.mem a = sget u.mem a)
        ∧ (∀ j, j ≠ id → getBlock t j = getBlock u j)
        ∧ (∀ x ∈ (clusterD t v.cluster).slots, x.2.owner ≠ id)
        ∧ (y.why = .hold → (∃ L ∈ u.launches, L.lid = id.lid) → id.blk ∈ (launchD t id.lid).heldBlks)))
    ∧ (∀ y, b.saved = false → b.saving = some y → y.why ≠ .evict → b.frame = none → freeFrameOf s ctx = none →
      readyToSave (stopOpen id s) (blockD (stopOpen id s) id) = true →
      Next (exec (.blockSave id) s) (fun t => t.mem = s.mem ∧ t.frames = s.frames ∧ (blockD t id).saved = false
        ∧ (blockD t id).saving = none ∧ ∀ j, j ≠ id → getBlock t j = getBlock s j))
    ∧ (∀ core f, b.saved = true → b.id = id → mayRestore s b = true → bestCore s (fitsSaved s b) = some core → b.frame = some f →
      b.staging = [] → (∀ x ∈ b.massif, x.stage = none) → (∀ x ∈ (clusterD s (core / 8)).slots, x.2.owner ≠ id) →
      (∀ x ∈ b.warps, x.evicted = false ∧ x.allot ≤ 112) → frameAddr s ctx f + 0x1000000 ≤ 0x8000000000 →
      Next (exec (.blockRestore id) s) (fun t => (∀ y ∈ t.frames, ¬(y.1 = ctx ∧ y.2.1 = f))
        ∧ (∀ a, (a < frameAddr s ctx f ∨ frameAddr s ctx f + 0x1000000 ≤ a) → sget t.mem a = sget s.mem a)
        ∧ (∀ j, j ≠ id → getBlock t j = getBlock s j)
        ∧ ∃ b', getBlock t id = some b' ∧ b'.saved = false ∧ b'.saving = none ∧ b'.core = core ∧ b'.frame = none
          ∧ ∀ w x, b.warps[w]? = some x → x.ended = false → ∃ w', b'.warps[w]? = some w' ∧ w'.acq = s.epoch
            ∧ ∀ k n, n < 32 → w'.reg k n = if k.toNat < 16
                then BitVec.ofNat 32 (readNat s (frameAddr s ctx f + 0x20000 + 2048 * w + 128 * k.toNat + 4 * n) 4)
                else if k.toNat < 16 + x.allot then BitVec.ofNat 32 (readNat s
                  (frameAddr s ctx f + 0x30000 + (112 * w + (k.toNat - 16)) * 128 + 4 * n) 4)
                else x.reg k n))
    ∧ (b.saved = true → mayRestore s b = false → exec (.blockRestore id) s = .next s)
    ∧ ((l.super = true ∨ b.saved = true ∨ b.saving ≠ none) → exec (.swapOut id) s = .next s)
    ∧ (b.id = id → b.saved = false → b.saving = none → l.super = false →
      (∀ x ∈ b.warps, warpCanIssue l b x = false ∧ x.tx = none) →
      unservedOf s b ≠ [] → (b.frame ≠ none ∨ freeFrameOf s ctx ≠ none) →
      Next (exec (.swapOut id) s) (fun t => t = { s with blocks := t.blocks } ∧ (∀ j, j ≠ id → getBlock t j = getBlock s j)
        ∧ ∃ b', getBlock t id = some b' ∧ b'.saving = some { why := .swap, since := s.clock, stage := 0, masked := false }
          ∧ b' = { b with saving := b'.saving, warps := b'.warps }))

/-- R411 step 5, R412: a checkpoint whose copy is over becomes the newest one; the bytes of its interval merge into the
cluster's pending line. Completion is stated for: checkpointComplete. -/
def Claim.CheckpointCompletes : Prop :=
  ∀ (s : State) (id : BlockId) (b : Block) (img : Checkpoint) (at' f : Nat), s.fatal = 0 → s.badPhys = false →
    getBlock s id = some b → b.rb.capture = some (img, at') → b.saved = false →
    (s.clock < at' + 256 → exec (.checkpointComplete id) s = .next s)
    ∧ (at' + 256 ≤ s.clock → b.frame = some f → (∀ x ∈ b.warps, x.rel = none) →
      frameAddr s (launchD s id.lid).ctx.toNat f + 0x1000000 ≤ 0x8000000000 → (∀ g ∈ (launchD s id.lid).groups, g.1 < 16) →
      img.warps.length ≤ 32 → (∀ x ∈ img.warps, x.allot ≤ 112) →
      (b.rb.tentPrev = [] →
        Next (exec (.checkpointComplete id) s) (fun t => (∀ j, j ≠ id → getBlock t j = getBlock s j)
          ∧ ∃ b', getBlock t id = some b' ∧ b'.warps = b.warps ∧ b'.scratch = b.scratch ∧ b'.wregs = b.wregs
            ∧ b'.rb = { b.rb with newest := some img, capture := none, undoPrev := b'.rb.undoPrev, count := 0, secB := !b.rb.secB }
            ∧ ∀ a, (a < frameAddr s (launchD s id.lid).ctx.toNat f ∨ frameAddr s (launchD s id.lid).ctx.toNat f + 0x1000000 ≤ a) →
              sget t.mem a = sget s.mem a))
      ∧ ∀ x q, b.rb.tentPrev = [x] → (clusterD s (b.core / 8)).pend.find? (fun y => y.line == x.line) = some q →
        Next (exec (.checkpointComplete id) s) (fun t => (blockD t id).rb.newest = some img ∧ (blockD t id).rb.tentPrev = []
          ∧ ∃ q', (clusterD t (b.core / 8)).pend.find? (fun y => y.line == x.line) = some q' ∧ q'.mask = q.mask ||| x.mask
            ∧ ∀ i, i < 128 → q'.data.extractLsb' (8 * i) 8
              = if x.mask.getLsbD i then x.data.extractLsb' (8 * i) 8 else q.data.extractLsb' (8 * i) 8))

/-- R390, R413 to R415, R439: an error consumed in a rollback-capable block takes it back to its newest checkpoint up to
three times and then kills it; elsewhere it is a data-error trap. Completion is stated for: dataErrorConsumed. -/
def Claim.DataErrorsConsumed : Prop :=
  ∀ (s : State) (w : WarpId) (b : Block) (x : Warp) (d : DueError), s.fatal = 0 → s.badPhys = false →
    getBlock s w.block = some b → b.warps[w.warp]? = some x →
    let l := launchD s w.block.lid
    (l.rb = true → b.saved = false → x.due.find? (·.rollback) = some d → s.blob.mbxbase + 0x400000 ≤ 0x8000000000 →
      (∀ img : Checkpoint, b.rb.newest = some img → b.rb.count < 3 → b.rb.undoPrev = Undo.blank → b.rb.undo.handles = [] →
        b.rb.undo.slots = [] → (∀ y ∈ b.warps, y.rel = none ∧ y.evicted = false) → (∀ y ∈ img.warps, y.rel = none) →
        img.warps.length = b.warps.length →
        Next (exec (.dataErrorConsumed w) s) (fun t => t.rollbacks = s.rollbacks + 1 ∧ (∀ j, j ≠ w.block → getBlock t j = getBlock s j)
          ∧ ∃ b' : Block, getBlock t w.block = some b' ∧ b'.wregs = img.wregs ∧ b'.nm = img.nm ∧ b'.walks = img.walks
            ∧ b'.copyQ = img.copyQ ∧ b'.rb.newest = some img ∧ b'.rb.count = b.rb.count + 1 ∧ b'.rb.tent = []
            ∧ (∀ g, b.rb.undo.granules = [g] → sbytes b'.scratch (g.1 * 1024) g.2.length = g.2)
            ∧ ∀ (k : Nat) (y : Warp), img.warps[k]? = some y → y.tx = none → ∃ w' : Warp, b'.warps[k]? = some w' ∧ w'.regs = y.regs ∧ w'.preds = y.preds
              ∧ w'.s = y.s ∧ w'.g = y.g ∧ w'.trec = y.trec ∧ w'.tmask = y.tmask ∧ w'.retired = y.retired ∧ w'.due = []))
      ∧ ((b.rb.newest = none ∨ 3 ≤ b.rb.count) → b.frame = none →
        (∀ y ∈ (clusterD s b.cluster).cornice, y.ctx ≠ launchKey l) → (∃ y ∈ s.launches, y.lid = w.block.lid) →
        l.ended + (l.killed + 1) ≠ l.total →
        Next (exec (.dataErrorConsumed w) s) (fun t => t.kills = s.kills + 1 ∧ getBlock t w.block = none
          ∧ (launchD t w.block.lid).killed = l.killed + 1 ∧ ∀ j, j ≠ w.block → getBlock t j = getBlock s j)))
    ∧ (l.rb = true → x.due.find? (·.rollback) = none → exec (.dataErrorConsumed w) s = .next s)
    ∧ ∀ handler rest pc, TakesTraps s w.block w.warp handler → l.rb = false → deviceRuns s w.block = true →
      warpFree l b x = true → x.due = d :: rest → d.cause = 0x0A → d.lanes &&& x.live = d.lanes → d.lanes ≠ 0 → d.pc = some pc →
      Next (exec (.dataErrorConsumed w) s) (fun t =>
        (warpD t w.block w.warp).trec = record (BitVec.ofNat 64 d.addr) d.lanes (BitVec.ofNat 16 d.aux) (BitVec.ofNat 8 d.sub) 0x0A
          d.ew d.iw pc
        ∧ (warpD t w.block w.warp).tmask = true ∧ (warpD t w.block w.warp).hand = d.lanes
        ∧ ∀ j, j ≠ w.block → getBlock t j = getBlock s j)

/-! ### Reset, the host, attestation, the fabric, reliability and power (spec 15 to 19) -/

/-- How many events of a kind a unit has counted in the open window (R441). -/
def Obl.counted (s : State) (k : EvKind) (u : EvUnit) : Nat := ((s.counts.find? (fun c => c.1 == k && c.2.1 == u)).map (·.2.2)).getD 0

/-- R424, R425, R428, R431, R441: what a reset leaves and clears; phase 1 with its context records zero and key slot 64
loaded; phase 2 with the index zero and every port trained to lanes that are not dropped. Completion is stated for:
deviceReset, phase1Entry, phase2Entry. -/
def Obligations.ResetAndPhases : Prop :=
  ∀ (s : State), s.badPhys = false →
    Next (exec .deviceReset s) (fun t => t.phase = 0 ∧ t.fatal = 0 ∧ t.launches = [] ∧ t.blocks = [] ∧ t.keys = [] ∧ t.sessions = []
      ∧ t.csr = Csrs.reset ∧ t.epoch = 0 ∧ t.ctxs = [] ∧ t.clock = 0 ∧ t.resets = s.resets + 1 ∧ t.flash = s.flash
      ∧ t.totals = s.totals ∧ t.counts = [] ∧ (∀ a, sget t.mem a = if isRow a then 0 else sget s.mem a)
      ∧ (s.flash.images = [] → sget t.meas 0 = Config.shake512 (leBytes 64 (Config.shake512 (leBytes 64 0
          ++ leBytes 64 Config.romDigest.toNat)).toNat ++ leBytes 64 (Config.shake512 s.blob.data).toNat))
      ∧ (∀ x, s.flash.images = [x] → x.reg ≠ 0 → x.reg ≠ 5 →
          sget t.meas x.reg = Config.shake512 (leBytes 64 0 ++ leBytes 64 (Config.shake512 x.data).toNat))
      ∧ ∀ x ∈ s.flash.retire, (x.bytes = [] ∨ Config.kmacOk x.bytes = true) → x.unit ∈ t.retired)
    ∧ (s.fatal = 0 →
      (∀ good : Bool, good = (Config.mldsaVerify s.blob.data s.blob.sig && s.flash.images.all (fun x => Config.mldsaVerify x.data x.sig)) →
        ((s.phase ≠ 0 ∨ good = false) → exec .phase1Entry s = .next s)
        ∧ (s.phase = 0 → good = true → Next (exec .phase1Entry s) (fun t => t.phase = 1 ∧ t.ctxs = []
          ∧ (∀ k, aget t.keys k = if k = 64 then some Config.bootKey else aget s.keys k)
          ∧ (∀ a, sget t.mem a = if s.csr.ctxbase.toNat ≤ a ∧ a < s.csr.ctxbase.toNat + 262144 then 0 else sget s.mem a)
          ∧ (s.blob.super = none → t.launches = s.launches)
          ∧ ∀ x, s.blob.super = some x → ∃ y, t.launches = s.launches ++ [y] ∧ y.super = true ∧ y.lid = s.nextLid)))
      ∧ (∀ o, s.phase ≠ 1 → exec (.phase2Entry o) s = .next s)
      ∧ (∀ u, s.phase = 1 → exec (.phase2Entry (some u)) s = .next { s with failed := u })
      ∧ (s.phase = 1 → (∀ b ∈ s.blocks, ∀ x ∈ b.warps, x.rel = none) →
        Next (exec (.phase2Entry none) s) (fun t => t.phase = 2 ∧ t.blocks = s.blocks ∧ t.launches = s.launches
          ∧ (∀ a, sget t.mem a = if s.blob.ixbase ≤ a ∧ a < s.blob.ixbase + 4 * s.blob.ixlines then 0 else sget s.mem a)
          ∧ ∀ p, p < 18 → ((portD s p).dropped = 0 → (portD t p).state = 2 ∧ (portD t p).width = 0 ∧ (portD t p).lanes = 0xFF)
            ∧ ((portD t p).state = 2 → (portD t p).lanes ≠ 0 ∧ (portD t p).lanes &&& (portD s p).dropped = 0)
            ∧ (portD t p).dropped = (portD s p).dropped)))

/-- R420, R421: an access through a function's BAR reads and writes the bytes of its mailbox window, or completes with
Unsupported Request; IDE keys take a finished session, and with function 0 they are the port's Link IDE; the moves of a
virtual function's interface are those of log entry 8, PRESUMED. Completion is stated for: barAccess, ideKm, tdispMessage. -/
def Claim.HostLink : Prop :=
  ∀ (s : State), s.badPhys = false →
    (∀ (fn off n : Nat) (w : Option (List (BitVec 8))), s.fatal = 0 → s.blob.mbxbase + 0x400000 ≤ 0x8000000000 →
      let len := (w.map List.length).getD n
      let pa := s.blob.mbxbase + fn * 0x10000 + off
      let ok := s.phase ≠ 0 ∧ fn ≤ 63 ∧ aget s.tdisp fn ≠ some .error ∧ off + len ≤ if fn = 0 then 0x400000 else 0x10000
      (¬ok → exec (.barAccess fn off n w) s = .next { s with out := s.out ++ [.unsupported fn] })
      ∧ (ok → w = none → exec (.barAccess fn off n w) s = .next { s with out := s.out ++ [.hostData (readBytes s pa n)] })
      ∧ ∀ bs, ok → w = some bs → Next (exec (.barAccess fn off n w) s) (fun t => readBytes t pa bs.length = bs
        ∧ (∀ a, (a < pa ∨ pa + bs.length ≤ a) → sget t.mem a = sget s.mem a) ∧ t.blocks = s.blocks ∧ t.out = s.out))
    ∧ (∀ stream vf n, (sessionOpen s n = true ∧ stream < 64 ∧ 1 ≤ vf ∧ vf ≤ 63 →
        Next (exec (.ideKm stream vf n) s) (fun t => t = { s with ides := t.ides } ∧ aget t.ides stream = some vf
          ∧ ∀ k, k ≠ stream → aget t.ides k = aget s.ides k))
      ∧ (sessionOpen s n = true → vf = 0 → exec (.ideKm stream vf n) s = .next { s with linkIde := true })
      ∧ (¬(sessionOpen s n = true ∧ (vf = 0 ∨ (stream < 64 ∧ vf ≤ 63))) → exec (.ideKm stream vf n) s = .next s))
    ∧ ∀ vf r, 1 ≤ vf → vf ≤ 63 →
      let old := (aget s.tdisp vf).getD .unlocked
      Next (exec (.tdispMessage vf r) s) (fun t => t = { s with tdisp := t.tdisp } ∧ ∃ x, aget t.tdisp vf = some x
        ∧ (r = .error → x = .error) ∧ (r = .stop → x = .unlocked) ∧ (r = .lock → x = if old = .unlocked then .locked else old)
        ∧ (r = .start → x = if old = .locked ∧ ∃ y ∈ s.ides, y.2 = vf then .run else old))

/-- R423, R426, R427: SPDM requests are answered; GET_MEASUREMENTS signs the registers and the retired units; sessions open,
take a session slot with its key, change it, and close with the slot zeroed. Completion is stated for: getVersion,
getCapabilities, negotiateAlgorithms, getDigests, getCertificate, challenge, getMeasurements, keyExchange, finish, keyUpdate,
heartbeat, endSession, heartbeatLoss. -/
def Claim.SpdmEvents : Prop :=
  ∀ (s : State) (req : List (BitVec 8)) (n : Nat), s.badPhys = false →
    let a := Config.spdmAnswer req
    let replies (i : Instr) (bs : List (BitVec 8)) : Prop := exec i s = .next { s with out := s.out ++ [.doe bs] }
    let closes (i : Instr) : Prop := Next (exec i s) (fun t => t = { s with sessions := t.sessions, keys := t.keys }
      ∧ (∀ k, aget t.sessions k = if k = n then none else aget s.sessions k)
      ∧ ∀ k, aget t.keys k = if (aget s.sessions n).bind (·.slot) = some k then none else aget s.keys k)
    replies (.getVersion req) a ∧ replies (.getCapabilities req) a ∧ replies (.negotiateAlgorithms req) a ∧ replies (.getDigests req) a
    ∧ replies (.getCertificate req) a
    ∧ replies (.challenge req) (a ++ Config.aliasSign (req ++ measBytes s))
    ∧ (let body := a ++ measBytes s ++ s.retired.flatMap unitBytes; replies (.getMeasurements req) (body ++ Config.aliasSign body))
    ∧ (∀ k, s.phase ≠ 0 → k < 64 → aget s.sessions k = none → (∀ j, j < k → aget s.sessions j ≠ none) →
      Next (exec (.keyExchange req) s) (fun t => t.out = s.out ++ [.doe a] ∧ t.keys = s.keys
        ∧ (∃ x, aget t.sessions k = some x ∧ x.slot = none) ∧ ∀ j, j ≠ k → aget t.sessions j = aget s.sessions j))
    ∧ ((s.phase = 0 ∨ ∀ k, k < 64 → aget s.sessions k ≠ none) → replies (.keyExchange req) a)
    ∧ (∀ x, aget s.sessions n = some x →
      (Config.spdmAccept x.secret req = false → closes (.finish n req) ∧ closes (.keyUpdate n req))
      ∧ (∀ k, Config.spdmAccept x.secret req = true → x.slot = none → freeSessionSlot s = some k →
        Next (exec (.finish n req) s) (fun t => t.out = s.out ++ [.doe a] ∧ aget t.sessions n = some { x with slot := some k }
          ∧ ∀ j, aget t.keys j = if j = k then some (Config.sessionKey x.secret req) else aget s.keys j))
      ∧ (∀ k, Config.spdmAccept x.secret req = true → x.slot = some k →
        Next (exec (.keyUpdate n req) s) (fun t => t.out = s.out ++ [.doe a] ∧ t.sessions = s.sessions
          ∧ ∀ j, aget t.keys j = if j = k then some (Config.sessionKey x.secret req) else aget s.keys j))
      ∧ replies (.heartbeat n) (Config.spdmAnswer []) ∧ closes (.endSession n) ∧ closes (.heartbeatLoss n))
    ∧ (aget s.sessions n = none → exec (.finish n req) s = .next s ∧ exec (.keyUpdate n req) s = .next s
      ∧ exec (.heartbeat n) s = .next s ∧ exec (.endSession n) s = .next s ∧ exec (.heartbeatLoss n) s = .next s)

/-- R27, R438, R441, R442: lifetime records; what a patrol read finds; timing replays and event windows. Completion is stated
for: lifetimeRecordRead, lifetimeRecordWrite, patrolRead, eventWindowExpiry, timingReplay. -/
def Claim.ReliabilityEvents : Prop :=
  ∀ (s : State), s.badPhys = false →
    exec .lifetimeRecordRead s = .next { s with out := s.out ++ [.lifetime s.flash.lifetime] }
    ∧ Next (exec .lifetimeRecordWrite s) (fun t => t.out = s.out ∧ t.mem = s.mem ∧ t.flash.images = s.flash.images
      ∧ t.flash.retire = s.flash.retire
      ∧ ∃ r, t.flash.lifetime = s.flash.lifetime ++ [r] ∧ r.take 2 = [s.hours + s.clock / (1850000000 * 3600), s.resets])
    ∧ (s.fatal = 0 →
      (∀ a e, a < 0x8000000000 →
        let ch := EvUnit.channel (channelOf a)
        -- a row outside plain use has a check of its own (R353, R354)
        let row := if isRow a = true then aget s.rows (rowOf a) else none
        (s.phase = 0 → exec (.patrolRead a e) s = .next s)
        ∧ exec (.patrolRead a .ok) s = .next s
        ∧ (1 ≤ s.phase → row = none → Next (exec (.patrolRead a .corrected) s) (fun t => t.mem = s.mem ∧ t.bad = s.bad
          ∧ Obl.counted t .hbmCorrectable ch = Obl.counted s .hbmCorrectable ch + 1))
        ∧ (1 ≤ s.phase → row = none → Next (exec (.patrolRead a .uncorrectable) s) (fun t => t.mem = s.mem
          ∧ (∀ k, k ∈ t.bad ↔ k = a / 32 ∨ k ∈ s.bad)
          ∧ Obl.counted t .hbmUncorrectable ch = Obl.counted s .hbmUncorrectable ch + 1))
        ∧ (∀ crc ecc, 1 ≤ s.phase → row = some (.unadopted crc) → ecc ≠ .ok →
          Next (exec (.patrolRead a ecc) s) (fun t => t.mem = s.mem ∧ t.bad = s.bad
            ∧ (∀ k, aget t.rows k = if k = rowOf a then some .poisoned else aget s.rows k)
            ∧ Obl.counted t .hbmUncorrectable ch = Obl.counted s .hbmUncorrectable ch + 1))
        ∧ (∀ ecc, row = some .poisoned → exec (.patrolRead a ecc) s = .next s))
      ∧ (∀ k, Next (exec (.eventWindowExpiry k) s) (fun t => t.totals = s.totals ∧ (∀ u, Obl.counted t k u = 0)
          ∧ ∀ j u, j ≠ k → Obl.counted t j u = Obl.counted s j u))
      ∧ ∀ u, (((∃ n, u = .laneGroup n) ∨ ∃ n, u = .engine n) →
          Next (exec (.timingReplay u) s) (fun t => t.blocks = s.blocks ∧ t.mem = s.mem
            ∧ Obl.counted t .timingReplay u = Obl.counted s .timingReplay u + 1
            ∧ (∀ th, s.blob.thresholds[2]? = some th → Obl.counted t .timingReplay u = th →
              t.lasting = true ∧ ∃ e ∈ t.flash.retire, e.unit = u)
            ∧ (∀ th, s.blob.thresholds[2]? = some th → Obl.counted t .timingReplay u ≠ th →
              t.lasting = s.lasting ∧ t.flash = s.flash)))
        ∧ ((∀ n, u ≠ .laneGroup n) → (∀ n, u ≠ .engine n) → exec (.timingReplay u) s = .next s))

/-- R431, R433, R441: resends, acknowledged and refused flits, and a lane that is dropped before the port trains again.
Completion is stated for: nakReplay, ackTimeoutReplay, laneDrop, laneDegradeRetrain, flitReceive. -/
def Claim.RidgelineEvents : Prop :=
  ∀ (s : State) (p : Nat), s.fatal = 0 → s.badPhys = false → p < 18 →
    let x := portD s p
    (∀ i, i = .nakReplay p ∨ i = .ackTimeoutReplay p →
      (x.state = 2 → x.unacked ≠ [] → Next (exec i s) (fun t => t.out = s.out ++ [.replay p x.unacked]
        ∧ portD t p = { x with replays := x.replays + BitVec.ofNat 32 x.unacked.length } ∧ ∀ q, q ≠ p → portD t q = portD s q))
      ∧ ((x.state ≠ 2 ∨ x.unacked = []) → exec i s = .next s))
    ∧ (∀ l, l < 8 → (x.dropped.getLsbD l = true ∧ x.lanes.getLsbD l = true →
        Next (exec (.laneDrop p l) s) (fun t => t = { s with ports := t.ports } ∧ portD t p = { x with state := 1, lanes := 0 }))
      ∧ (¬(x.dropped.getLsbD l = true ∧ x.lanes.getLsbD l = true) → exec (.laneDrop p l) s = .next s))
    ∧ (x.state = 1 → Next (exec (.laneDegradeRetrain p) s) (fun t => t = { s with ports := t.ports }
        ∧ (x.dropped = 0 → portD t p = { x with state := 2, width := 0, lanes := 0xFF })
        ∧ (x.dropped &&& 0x0F = 0 → x.dropped ≠ 0 → portD t p = { x with state := 2, width := 1, lanes := 0x0F })
        ∧ (x.dropped = 0xFF → portD t p = { x with state := 0, width := 0, lanes := 0 })))
    ∧ (x.state ≠ 1 → exec (.laneDegradeRetrain p) s = .next s)
    ∧ ∀ l, (x.state = 2 → Next (exec (.flitReceive p true l) s) (fun t => t.out = s.out ++ [.ack p]
          ∧ ∃ k, portD t p = { x with unacked := x.unacked.drop k })
        ∧ Next (exec (.flitReceive p false l) s) (fun t => t.out = s.out ++ [.nak p]
          ∧ Obl.counted t .hopCrc (.lane p (l % 8)) = Obl.counted s .hopCrc (.lane p (l % 8)) + 1))
      ∧ ∀ ok, x.state ≠ 2 → exec (.flitReceive p ok l) s = .next s

/-- R193, R198, R432, R433: a transaction of another device is performed once at the home and answered; one whose CRC fails
is asked for again, and the fourth failure answers with nothing. Completion is stated for: remoteTransactionArrive. -/
def Claim.RemoteTransactions : Prop :=
  ∀ (s : State) (x : RemoteTx), s.fatal = 0 → s.badPhys = false → s.phase = 2 → x.cluster < 20 →
    let n := x.addr / 128
    let off := x.addr % 128
    let key := x.src * 2 ^ 64 + x.seq
    ((x.src, x.seq) ∈ s.remoteSeen → exec (.remoteTransactionArrive x) s = .next s)
    ∧ ((x.src, x.seq) ∉ s.remoteSeen → x.crcOk = false →
      Next (exec (.remoteTransactionArrive x) s) (fun t => t.mem = s.mem ∧ t.blocks = s.blocks
        ∧ aget t.remoteTries key = some ((aget s.remoteTries key).getD 0 + 1)
        ∧ ((aget s.remoteTries key).getD 0 < 3 → t.out = s.out ++ [.retry x.src x.seq] ∧ t.remoteSeen = s.remoteSeen)
        ∧ (3 ≤ (aget s.remoteTries key).getD 0 → t.out = s.out ++ [.fabric x.src x.seq []]
          ∧ t.remoteSeen = s.remoteSeen ++ [(x.src, x.seq)])))
    ∧ ((x.src, x.seq) ∉ s.remoteSeen → x.crcOk = true → x.addr < 2 ^ 60 →
      (∀ k, x.op = .load k → startOk s n = true → (installedLine s n).poison = 0 → ((installedLine s n).zero = false → keyLoaded s (installedLine s n).ks = true) →
        Next (exec (.remoteTransactionArrive x) s) (fun t => t.mem = s.mem ∧ t.blocks = s.blocks
          ∧ t.remoteSeen = s.remoteSeen ++ [(x.src, x.seq)]
          ∧ t.out = s.out ++ [.fabric x.src x.seq (lineBytes (installedLine s n).data off k)]))
      ∧ ∀ h, aget s.homes n = some h →
        (∀ bs, x.op = .store bs → off + bs.length ≤ 128 →
          Next (exec (.remoteTransactionArrive x) s) (fun t => t.mem = s.mem ∧ t.blocks = s.blocks
            ∧ t.out = s.out ++ [.fabric x.src x.seq []] ∧ t.remoteSeen = s.remoteSeen ++ [(x.src, x.seq)]
            ∧ ∃ h', aget t.homes n = some h' ∧ ∀ i, i < 128 → h'.data.extractLsb' (8 * i) 8
              = if off ≤ i ∧ i < off + bs.length then bs.getD (i - off) 0 else h.data.extractLsb' (8 * i) 8))
        ∧ ∀ op b cmp, x.op = .atomic op .i32 b cmp → off % 4 = 0 →
          let old := leNat (lineBytes h.data off 4)
          Next (exec (.remoteTransactionArrive x) s) (fun t => t.out = s.out ++ [.fabric x.src x.seq (leBytes 4 old)]
            ∧ ∃ h', aget t.homes n = some h'
              ∧ leNat (lineBytes h'.data off 4) = atomNew op .i32 old (b.toNat % 2 ^ 32) (cmp.toNat % 2 ^ 32) % 2 ^ 32))

/-- R435 to R437, R444: a collective ends with its status in COLSTAT and in DONE, its result at DST when it succeeds; after
2^30 cycles it ends with 0xC4. Completion is stated for: collectiveComplete, collectiveTimeout. -/
def Claim.CollectiveEvents : Prop :=
  ∀ (s : State) (c : Coll), s.fatal = 0 → s.badPhys = false → s.coll = some c → (getBlock s c.block).any (fun b => b.resident) = false →
    let d := c.desc.toNat
    let dst := bitsOf d 127 64
    let done := bitsOf d 575 512
    done + 8 ≤ 0x8000000000 →
    let ends (i : Instr) (st : Nat) : Prop := Next (exec i s) (fun t => t.coll = none ∧ t.collStatus = BitVec.ofNat 8 st
      ∧ readNat t done 8 = 2 ^ 63 + st ∧ t.blocks = s.blocks
      ∧ ∀ a, (a < done ∨ done + 8 ≤ a) → sget t.mem a = sget s.mem a)
    (c.since + 2 ^ 30 ≤ s.clock → ends .collectiveTimeout 0xC4)
    ∧ (s.clock < c.since + 2 ^ 30 → exec .collectiveTimeout s = .next s)
    ∧ (∀ st others, colStatus s d ≠ 0 → ends (.collectiveComplete st others) (colStatus s d))
    ∧ (∀ st others, colStatus s d = 0 → st ≠ 0 → ends (.collectiveComplete st others) st.toNat)
    ∧ ((bitsOf d 255 166 ≠ 0 ∨ dst % 256 ≠ 0 ∨ bitsOf d 63 0 % 256 ≠ 0 ∨ bitsOf d 159 128 = 0) → colStatus s d = 0xC1)
    ∧ ∀ others, colStatus s d = 0 →
      let r := colResult s d others
      dst + r.length ≤ 0x8000000000 → (done + 8 ≤ dst ∨ dst + r.length ≤ done) →
      Next (exec (.collectiveComplete 0 others) s) (fun t => t.coll = none ∧ t.collStatus = 0 ∧ readNat t done 8 = 2 ^ 63
        ∧ readBytes t dst r.length = r
        ∧ ∀ a, (a < done ∨ done + 8 ≤ a) → (a < dst ∨ dst + r.length ≤ a) → sget t.mem a = sget s.mem a)

/-- R27, R440, R443: a control step slows or speeds up an island; 105 °C throttles all that serve no deterministic launch;
115 °C and a lost die are fatal. Completion is stated for: powerControlStep, thermalThrottle, thermalTrip, dieBridgeLost,
dieCools. -/
def Claim.PowerEvents : Prop :=
  ∀ (s : State), s.fatal = 0 → s.badPhys = false →
    let limit := bitsOf s.csr.pwrlim.toNat 15 0
    (∀ watts i, i < 160 → Next (exec (.powerControlStep watts [i]) s) (fun t => t = { s with power := watts, slow := t.slow }
      ∧ (limit < watts → i ∉ detIslands s → aget t.slow i = some (min (floorSteps i) ((aget s.slow i).getD 0 + 1)))
      ∧ (limit < watts → i ∈ detIslands s → t.slow = s.slow)
      ∧ (watts < limit → s.throttled = [] → ∀ k, aget s.slow i = some k → aget t.slow i = if k ≤ 1 then none else some (k - 1))
      ∧ (watts < limit → s.throttled ≠ [] → t.slow = s.slow) ∧ (watts = limit → t.slow = s.slow)
      ∧ ∀ j, j ≠ i → aget t.slow j = aget s.slow j))
    ∧ (∀ die, Next (exec (.thermalThrottle die) s) (fun t => die ∈ t.throttled ∧ t.hottest = max s.hottest 105
        ∧ (∀ i, i < 160 → i ∉ detIslands s → aget t.slow i = some (floorSteps i))
        ∧ (∀ i, i ∈ detIslands s → aget t.slow i = aget s.slow i) ∧ t.blocks = s.blocks ∧ t.mem = s.mem)
      ∧ exec (.thermalTrip die) s = .next { s with hottest := 115, fatal := 4, out := s.out ++ [.aer] }
      ∧ (die ∉ s.throttled → exec (.dieCools die) s = .next s)
      ∧ (die ∈ s.throttled → Next (exec (.dieCools die) s) (fun t => die ∉ t.throttled ∧ t.blocks = s.blocks ∧ t.mem = s.mem
        ∧ ((∀ x ∈ s.throttled, x = die) → t.slow = []) ∧ ((∃ x ∈ s.throttled, x ≠ die) → t.slow = s.slow))))
    ∧ exec .dieBridgeLost s = .next { s with fatal := 5, out := s.out ++ [.aer] }

/-! ### The machine as a whole (spec 01, 02, 05, 14) -/

/-- R44: p7 and g7 read true, and a write to either is discarded. -/
def Obligations.SevenReadsTrue : Prop :=
  ∀ (x : Warp) (l : Nat) (v : Bool), x.pred 7 l = true ∧ x.gpred 7 = true ∧ x.setPred 7 l v = x ∧ x.setG 7 v = x

/-- R3, R29, R32 to R34 and the entries' fields: words written out from the encoding decode to what they stand for, and a
reserved major, a missing extension word, a reserved minor, a scope that the entry does not permit, an unused field that is
not zero, a reserved register name and an odd name of a 64-bit operand are refused with the subcodes of R50. -/
def Obligations.SpecWordsDecode : Prop :=
  let h : Hdr := { s := false, x := false, scope := .own, set := 0, gn := false, gp := 7 }
  let hx : Hdr := { h with x := true }
  let cx : DecCtx := { e1 := false, band := true, det := false, handler := true }
  decode cx 0x00089226#32 0#32 = .ok (.iadd h .i32 false 17 (.lane 18) (.reg 19))
  ∧ decode cx 0x01091400#32 0#32 = .error 0x07#8
  ∧ decode cx 0x03889201#32 0x700000FF#32 = .ok (.movhi hx 17 (.lane 18) 0xFF)
  ∧ decode cx 0x82000001#32 0x70000000#32 = .error 0x05#8
  ∧ decode cx 0x92000001#32 0x70000000#32 = .ok (.bar { hx with scope := .warp } .none .b)
  ∧ decode cx 0x81C08001#32 0x70000002#32 = .ok (.csrr hx 1 2)
  ∧ decode cx 0x88C00000#32 0#32 = .error 0x01#8
  ∧ decode cx 0x8EC00001#32 0x70200000#32 = .error 0x02#8
  ∧ decode cx 0x8E800001#32 0x70000001#32 = .error 0x08#8
  ∧ decode cx 0x0308D801#32 0x78000000#32 = .error 0x03#8
  ∧ decode cx 0x00089225#32 0x72000000#32 = .error 0x04#8
  ∧ decode cx 0x00089227#32 0xF0000000#32 = .error 0x0A#8

/-- R9, R20, R32, R376, R384, R428, R440: what reset leaves of what the spec gives: phase 0, no fatal error, epoch 0, launch IDs from 1,
the control registers at their stated values, and nothing resident, in flight or listed in memory (log entry 2, DESIGN CHOICE). -/
def Obligations.ResetState : Prop :=
  State.reset.phase = 0 ∧ State.reset.fatal = 0 ∧ State.reset.epoch = 0 ∧ State.reset.clock = 0 ∧ State.reset.nextLid = 1
  ∧ State.reset.csr.swaptmo = 1048576 ∧ State.reset.csr.errinj = 0 ∧ State.reset.csr.pwrlim = 2200 ∧ State.reset.blocks = []
  ∧ State.reset.launches = [] ∧ State.reset.rollbacks = 0 ∧ State.reset.kills = 0 ∧ State.reset.coll = none
  ∧ State.reset.mem = [] ∧ Memory.wf State.reset.mem = true ∧ State.reset.cur = none ∧ State.reset.badPhys = false

/-- R28, R50 (log entry 1, DESIGN CHOICE): a step whose input names a warp that may issue runs the word that its fetch decodes, as `exec`
of it, or raises the illegal-instruction trap with the subcode that decoding gives; one whose input names an event runs
it; every next state holds no word in hand. -/
def Obligations.StepRunsTheWord : Prop :=
  ∀ (s : State) (x : Input) (rest : List Input), s.inputs = x :: rest →
    let s0 : State := { s with inputs := rest, clock := s.clock + x.ticks }
    (∀ (w : WarpId) (b : Block) (wp : Warp) (s1 s3 : State) (pc : BitVec 53) (m : Lanes) (iw : Word) (o : Option Word),
      x.act = .issue w → getBlock s0 w.block = some b → b.warps[w.warp]? = some wp → deviceRuns s0 w.block = true →
      warpFree (launchD s0 w.block.lid) b wp = true → detTurn s0 w = (true, s1) → wp.due = [] → wp.group = some (pc, m) →
      fetchPair w.block pc (firstIssue w (modWarp w.block w.warp (fun y => { y with marker := false }) s1)) = .ok (iw, o, s3) →
      let c : Cur := { block := w.block, warp := w.warp, group := m, pc := pc, iw := iw, ew := o.getD 0, single := none }
      (∀ i, decode (decCtx s3 w.block w.warp) iw (o.getD 0) = .ok i →
        step s = closeStep s.out.length (exec i { s3 with cur := some c }))
      ∧ ∀ e, decode (decCtx s3 w.block w.warp) iw (o.getD 0) = .error e →
        step s = closeStep s.out.length (.next (wordTrap c (rawHdr iw (o.getD 0)) m 0x01 e.toNat 0 0 s3)))
    ∧ (∀ i, x.act = .event i → step s = closeStep s.out.length (exec i s0))
    ∧ ∀ t, step s = .next t → t.cur = none ∧ t.badPhys = false

/-- R440: after a fatal error no step changes memory, the log's segments, the epoch, a block or a launch, and none clears
the error, but for a reset. -/
def Obligations.FatalErrorIsFinal : Prop :=
  ∀ (s t : State), s.fatal ≠ 0 → s.cur = none → (∀ x rest, s.inputs = x :: rest → x.act ≠ .event .deviceReset) →
    step s = .next t → t.fatal = s.fatal ∧ t.cur = none ∧ t.mem = s.mem ∧ t.segs = s.segs ∧ t.homes = s.homes ∧ t.epoch = s.epoch
      ∧ t.blocks = s.blocks ∧ t.launches = s.launches ∧ t.frames = s.frames

/-- R29 to R37: for every P-word that the encoding admits, its words decode to it, every operand at every value. -/
def Obligations.LaneWordsRoundTrip : Prop :=
  ∀ (i : Instr) (r : Raw), i.raw = some r → r.g = false → i.encodable = true →
    ∃ iw rest, encode i = iw :: rest ∧ decode .open iw (rest.headD 0) = .ok i

/-- R29 to R37: for every G-word that the encoding admits, its words decode to it, every operand at every value. -/
def Obligations.UniformWordsRoundTrip : Prop :=
  ∀ (i : Instr) (r : Raw), i.raw = some r → r.g = true → i.encodable = true →
    ∃ iw rest, encode i = iw :: rest ∧ decode .open iw (rest.headD 0) = .ok i

/-- R29 to R37: no two accepted words of the integer, logical and bit-field majors stand for one instruction: encoding
what a word decodes to gives it back. -/
def Obligations.IntegerWordsAreOne : Prop :=
  ∀ (iw ew : Word) (i : Instr), iw.getLsbD 31 = false → (iw.extractLsb' 22 6).toNat < 0x18 → decode .open iw ew = .ok i →
    encode i = if iw.getLsbD 0 then [iw, ew] else [iw]

/-- R35, R153: a word that acts once for its members, none of which has a true guard, has no effect but that they go on. -/
def Obligations.NothingWithoutGuard : Prop :=
  let once (i : Instr) : Bool := match i with
    | .salu .. | .smov .. | .smovI .. | .smovCat .. | .smovGtos .. | .smovStog .. | .smovRdl .. | .scmp .. | .csrr ..
    | .gmemb .. | .tstat .. | .travqCount .. | .clk .. | .clkCyc .. | .csrw .. | .tmaskWrite .. | .tpendWrite ..
    | .mextWrite .. | .colcmdWrite .. | .errinjWrite .. | .tstatClr .. | .cctlL1inv .. | .cctlAppend .. | .cctlFxinv ..
    | .prefCc .. | .prefL1 .. | .prefIx .. | .mclaim .. | .mrel .. | .mwait .. | .mstat .. | .mqcfgAlloc .. | .mqcfgFree ..
    | .mqcfgClr .. | .lbind .. | .lrefForce .. | .lrefDrop .. | .lrefQuery .. | .lwatchAdd .. | .lwatchDel .. | .lwatchGen ..
    | .snapTake .. | .snapRd .. | .snapQuery .. | .sndrop .. | .rollb .. | .publ .. | .publWait .. | .publSeal ..
    | .shipCfg .. | .shipStart .. | .shipStop .. | .shipStat .. | .shipAccept .. | .shipPromote .. | .ixctlQuery ..
    | .ixctlDrop .. | .ixctlUnhome .. | .nbarm .. | .nbdisarm .. | .nbdrainClr .. | .travqCancel .. | .launch ..
    | .mboxCfg .. | .mboxPost .. | .mboxOpen .. | .ctxsvWrite .. | .ctxsvRead .. | .ctxsvResume .. | .ctxsvKill ..
    | .preemptCtx .. | .preemptLaunch .. | .preemptBlock .. | .preemptResume .. | .tret .. | .tretExit .. | .fltqDone ..
    | .fltqFail .. | .fltqStat .. | .tlbiAll .. | .tlbiCtx .. | .tlbiRange .. | .keyctlLoad .. | .keyctlBind ..
    | .keyctlErase .. | .keyctlQuery .. | .dbgAttach .. | .dbgDetach .. | .dbgStop .. | .dbgResume .. | .dbgRdreg ..
    | .dbgWrreg .. | .dbgStat .. | .tcopy .. | .tstore .. | .tfill .. | .mload .. | .mma .. | .mmasp .. | .mzero ..
    | .mstore .. | .mcvt .. | .mmad .. | .nbload .. | .nbstrm .. | .nbdrain .. | .nbop .. | .trav .. => true
    | _ => false
  ∀ (i : Instr) (h : Hdr) (c : Cur) (s : State), i.hdr? = some h → once i = true → InHand i h c s →
    (∀ e ∈ members s c, e.lanes ≠ 0 → guardG h e.wp = false) → Next (exec i s) (fun t => Ends h c s t)

/-- R136: at a word of wider scope the lanes of the issue group wait, at a rendezvous that the word's address, scope and set
name, and nothing else of the machine changes; the stalls and releases before an arrival are not at hand. -/
def Obligations.ArrivalsWait : Prop :=
  ∀ (i : Instr) (h : Hdr) (c : Cur) (s : State) (b : Block) (x : Warp), i.hdr? = some h → s.cur = some c → c.single = none →
    s.badPhys = false → h.scope ≠ .own → getBlock s c.block = some b → b.warps[c.warp]? = some x → issueTrap s c h i = none →
    issueStall x c h i = false → x.rel = none → x.tx = none → c.group ≠ 0 →
    let band : Bool := match i with | .band .. => true | _ => false
    ((guardG h x = false ∧ band = false) ∨ (arrivalRelease i = none ∧ (acqCommand i = false ∨ x.unacked = 0) ∧ (launchD s c.block.lid).rb = false)) →
    Next (exec i s) (fun t => t = { s with blocks := t.blocks, cores := t.cores }
      ∧ (∀ j, j ≠ c.block → getBlock t j = getBlock s j)
      ∧ ∃ b', getBlock t c.block = some b' ∧ b' = { b with warps := b'.warps, rdvs := b'.rdvs }
        ∧ (∀ v, v ≠ c.warp → b'.warps[v]? = b.warps[v]?)
        ∧ b'.warps[c.warp]? = some (x.setLanes c.group (fun y => { y with st := .waiting }))
        ∧ ∃ r ∈ b'.rdvs, r.pc = c.pc ∧ r.scope = h.scope ∧ r.set = (if h.scope = .set then h.set.toNat else 0)
          ∧ ∃ m, aget r.arrived c.warp = some m ∧ m &&& c.group = c.group)

/-! ### Statements made of several claims -/

/-- R38, R96, R101, R103: the integer words and their multiply-add forms. -/
def Obligations.IntegerArithmetic : Prop := Claim.IntegerResults ∧ Claim.MultiplyAddResults

/-- R104 to R109: moves, addresses, logic, shifts and bit fields. -/
def Obligations.MovesLogicAndBitFields : Prop := Claim.MoveResults ∧ Claim.LogicResults ∧ Claim.BitFieldResults

/-- R84, R86, R89, R110 to R113, R120: floating point and its NaNs. -/
def Obligations.FloatArithmetic : Prop := Claim.FloatResults ∧ Claim.FloatNaNs

/-- R121 to R124, R149 to R152: predicates, selection and words across lanes. -/
def Obligations.PredicatesAndLanes : Prop := Claim.PredicateResults ∧ Claim.CrossLaneResults

/-- R132 to R134, R390: branches, calls and returns, and their targets. -/
def Obligations.Branches : Prop := Claim.BranchResults ∧ Claim.MisalignedTargetTraps

/-- R130, R134, R135, R226: meetings, YIELD, NOP and EXIT. -/
def Obligations.MeetingsAndEnds : Prop := Claim.MeetingResults ∧ Claim.YieldExitResults

/-- R17, R50, R376, R390 to R393: traps raised at issue. -/
def Obligations.TrapEntries : Prop := Claim.SoftwareTraps ∧ Claim.IllegalAndPrivilegeTraps

/-- R394, R395: masked traps and TRET. -/
def Obligations.MaskedTrapsAndReturn : Prop := Claim.MaskedTraps ∧ Claim.TrapReturn

/-- R153 to R157: uniform words. -/
def Obligations.UniformWords : Prop := Claim.UniformResults ∧ Claim.UniformBranches

/-- R46, R376, R394, R435, R444, R446: control registers. -/
def Obligations.SpecialRegisters : Prop := Claim.ControlRegisters ∧ Claim.TrapRegisters ∧ Claim.DeviceRegisterWrites

/-- R94, R158, R160, R181, R185, R470: BAR, BAND and FENCE. -/
def Obligations.BarriersAndFences : Prop := Claim.BarrierResults ∧ Claim.BandResults ∧ Claim.FenceResults

/-- R146, R147, R152, R159, R225, R229: groups, flushes and clocks. -/
def Obligations.GroupsAndClocks : Prop := Claim.GroupResults ∧ Claim.FlushAndClockResults

/-- R22, R38, R179, R182, R233: loads, from issue to their results. -/
def Obligations.Loads : Prop := Claim.LoadIssue ∧ Claim.LoadReturn ∧ Claim.ScratchAccesses

/-- R22, R23, R172, R179, R182: stores, and what a load reads after one. -/
def Obligations.Stores : Prop := Claim.StoreIssue ∧ Claim.StoreThenLoad

/-- R198, R203, R205, R207, R208, R222: atomics, from issue to their results. -/
def Obligations.Atomics : Prop := Claim.AtomicIssue ∧ Claim.AtomicReturn

/-- R209, R210: waits and their wakes. -/
def Obligations.Waits : Prop := Claim.WaitResults ∧ Claim.WaitWakes

/-- R236 to R241, R250, R255 to R257: copy commands and what waits for them. -/
def Obligations.CopyWords : Prop := Claim.CopyCommands ∧ Claim.CopyWaits

/-- R235, R242 to R248, R250, R258 to R260: RING and the copy engine. -/
def Obligations.CopyEngine : Prop := Claim.RingResults ∧ Claim.CopyEngineEvents

/-- R267 to R269, R288 to R290: matrix resources, queues and waits. -/
def Obligations.MatrixQueues : Prop := Claim.MatrixResources ∧ Claim.MatrixWaits

/-- R299, R301 to R306, R308 to R310: watches, handles and delta matrix tasks. -/
def Obligations.DeltaExecution : Prop := Claim.WatchWords ∧ Claim.HandleWords ∧ Claim.DeltaTasks

/-- R324 to R327, R329, R330: cairns and their rollback. -/
def Obligations.Cairns : Prop := Claim.CairnWords ∧ Claim.RollbackResults

/-- R24, R175, R332: publishes. -/
def Obligations.Publishes : Prop := Claim.PublishWords ∧ Claim.PublishEvents

/-- R348 to R350, R355 to R360, R362, R363: near-memory windows, commands and their execution. -/
def Obligations.NearMemory : Prop := Claim.ArmResults ∧ Claim.NearMemoryCommands ∧ Claim.NearMemoryExecution

/-- R366, R368 to R371, R373: pointer walks. -/
def Obligations.Walks : Prop := Claim.WalkWords ∧ Claim.WalkEvents

/-- R375, R383, R384, R403: launches and contexts. -/
def Obligations.LaunchesAndContexts : Prop := Claim.LaunchResults ∧ Claim.ContextWords

/-- R381, R397, R398, R400, R401: preemption, faults and records. -/
def Obligations.PreemptionAndFaults : Prop := Claim.PreemptAndFaultWords ∧ Claim.RecordEvents

/-- R390, R411 to R415, R439: checkpoints and rollback. -/
def Obligations.Checkpoints : Prop := Claim.CheckpointCompletes ∧ Claim.DataErrorsConsumed

/-- R420, R421, R423, R426, R427: the host link and attestation. -/
def Obligations.HostAndAttestation : Prop := Claim.HostLink ∧ Claim.SpdmEvents

/-- R27, R438, R440 to R443: reliability and power. -/
def Obligations.ReliabilityAndPower : Prop := Claim.ReliabilityEvents ∧ Claim.PowerEvents

/-- R193, R198, R431 to R433, R435 to R437, R441, R444: the fabric, remote transactions and collectives. -/
def Obligations.Fabric : Prop := Claim.RidgelineEvents ∧ Claim.RemoteTransactions ∧ Claim.CollectiveEvents
end

