-- ==== Sys2Proof/Laws/Sparse.lean ====
section
/-!
SUPPORT. Laws/Sparse.lean: what reads of the keyed lists give after writes, and that writes keep the canonical form.
-/
namespace Sys2Proof.Machine

theorem sget_sput {n : Nat} (m : Sparse n) (k j : Nat) (v : BitVec n) :
    sget (sput m k v) j = if j = k then v else sget m j := by
  induction m <;> grind [sput, sget]

theorem sget_filter_ne {n : Nat} (m : Sparse n) (k j : Nat) :
    sget (m.filter (fun c => c.1 != k)) j = if j = k then 0 else sget m j := by
  induction m <;> grind [sget]

theorem sget_sset {n : Nat} (m : Sparse n) (k j : Nat) (v : BitVec n) :
    sget (sset m k v) j = if j = k then v else sget m j := by
  unfold sset
  split
  · subst_vars; exact sget_filter_ne m k j
  · exact sget_sput m k j v

theorem aget_aset {α : Type} (m : List (Nat × α)) (k j : Nat) (v : α) :
    aget (aset m k v) j = if j = k then some v else aget m j := by
  induction m <;> grind [aset, aget]

theorem aget_adel {α : Type} (m : List (Nat × α)) (k j : Nat) :
    aget (adel m k) j = if j = k then none else aget m j := by
  induction m <;> grind [adel, aget]

/-- The canonical form, said of the whole list: keys strictly rising, no value 0. -/
theorem sparseOk_iff {n : Nat} (m : Sparse n) :
    sparseOk m = true ↔ m.Pairwise (fun c d => c.1 < d.1) ∧ ∀ c ∈ m, c.2 ≠ 0 := by
  induction m with
  | nil => simp [sparseOk]
  | cons c t ih =>
    obtain ⟨j, v⟩ := c
    cases t with
    | nil => simp [sparseOk]
    | cons d t =>
      obtain ⟨k, w⟩ := d
      simp only [sparseOk, Bool.and_eq_true, ih, decide_eq_true_eq, bne_iff_ne, List.pairwise_cons, List.mem_cons]
      constructor
      · rintro ⟨⟨hjk, hv⟩, ⟨hk, hp⟩, hn⟩
        refine ⟨⟨?_, hk, hp⟩, ?_⟩
        · rintro c (rfl | hc)
          · exact hjk
          · exact Nat.lt_trans hjk (hk c hc)
        · rintro c (rfl | hc)
          · exact hv
          · exact hn c hc
      · rintro ⟨⟨hj, hk, hp⟩, hn⟩
        exact ⟨⟨hj (k, w) (Or.inl rfl), hn (j, v) (Or.inl rfl)⟩, ⟨hk, hp⟩, fun c hc => hn c (Or.inr hc)⟩

theorem sparseOk_filter {n : Nat} (p : Nat × BitVec n → Bool) (m : Sparse n) (h : sparseOk m = true) :
    sparseOk (m.filter p) = true := by
  rw [sparseOk_iff] at *
  exact ⟨h.1.filter p, fun c hc => h.2 c (List.mem_filter.1 hc).1⟩

theorem mem_sput {n : Nat} (m : Sparse n) (k : Nat) (v : BitVec n) (c : Nat × BitVec n) (h : c ∈ sput m k v) :
    c = (k, v) ∨ c ∈ m := by
  induction m with
  | nil => simpa [sput] using h
  | cons d t ih =>
    obtain ⟨j, w⟩ := d
    simp only [sput] at h
    split at h
    · simpa using h
    · split at h
      · simp at h; rcases h with h | h <;> simp [h]
      · simp at h; rcases h with h | h
        · simp [h]
        · rcases ih h with h | h <;> simp [h]

theorem sparseOk_sput {n : Nat} (m : Sparse n) (k : Nat) (v : BitVec n) (hv : v ≠ 0) (h : sparseOk m = true) :
    sparseOk (sput m k v) = true := by
  rw [sparseOk_iff] at *
  refine ⟨?_, ?_⟩
  · replace h := h.1
    induction m with
    | nil => simp [sput]
    | cons d t ih =>
      obtain ⟨j, w⟩ := d
      simp only [List.pairwise_cons] at h
      simp only [sput]
      split
      · rename_i hk
        refine List.pairwise_cons.2 ⟨?_, List.pairwise_cons.2 h⟩
        intro c hc
        rcases List.mem_cons.1 hc with rfl | hc
        · exact hk
        · exact Nat.lt_trans hk (h.1 c hc)
      · split
        · subst_vars; exact List.pairwise_cons.2 ⟨h.1, h.2⟩
        · refine List.pairwise_cons.2 ⟨?_, ih h.2⟩
          intro c hc
          rcases mem_sput t k v c hc with rfl | hc
          · simp; omega
          · exact h.1 c hc
  · intro c hc
    rcases mem_sput m k v c hc with rfl | hc
    · exact hv
    · exact h.2 c hc

/-- Every write keeps the canonical form. -/
theorem sparseOk_sset {n : Nat} (m : Sparse n) (k : Nat) (v : BitVec n) (h : sparseOk m = true) :
    sparseOk (sset m k v) = true := by
  unfold sset
  split
  · exact sparseOk_filter _ _ h
  · exact sparseOk_sput m k v ‹_› h

theorem sparseOk_sputBytes (m : Sparse 8) (k : Nat) (bs : List (BitVec 8)) (h : sparseOk m = true) :
    sparseOk (sputBytes m k bs) = true := by
  unfold sputBytes
  generalize bs.zipIdx = l
  induction l generalizing m with
  | nil => exact h
  | cons b t ih => exact ih _ (sparseOk_sset m _ _ h)

/-- A block of bytes reads as written where it was written, and as before elsewhere. -/
theorem sget_sputBytes (m : Sparse 8) (k j : Nat) (bs : List (BitVec 8)) :
    sget (sputBytes m k bs) j = if k ≤ j ∧ j < k + bs.length then bs[j - k]?.getD 0 else sget m j := by
  unfold sputBytes
  have key : ∀ (l : List (BitVec 8)) (o : Nat) (m : Sparse 8),
      sget ((l.zipIdx o).foldl (fun m b => sset m (k + b.2) b.1) m) j
        = if k + o ≤ j ∧ j < k + o + l.length then l[j - (k + o)]?.getD 0 else sget m j := by
    intro l
    induction l with
    | nil =>
      intro o m
      rw [if_neg (by simp only [List.length_nil]; omega)]
      rfl
    | cons b t ih =>
      intro o m
      simp only [List.zipIdx_cons, List.foldl_cons, ih, sget_sset, List.length_cons]
      by_cases h1 : k + (o + 1) ≤ j ∧ j < k + (o + 1) + t.length
      · have h2 : k + o ≤ j ∧ j < k + o + (t.length + 1) := by omega
        have h3 : j - (k + o) = j - (k + (o + 1)) + 1 := by omega
        rw [if_pos h1, if_pos h2, h3]; simp
      · rw [if_neg h1]
        by_cases h2 : j = k + o
        · subst h2; simp
        · rw [if_neg h2, if_neg (by omega)]
  simpa using key bs 0 m

end Sys2Proof.Machine
end

