-- ==== Sys2Proof/Laws/State.lean ====
section
/-!
SUPPORT. Laws/State.lean: what each named update of the state leaves as it is, field by field, for `simp`.
-/
namespace Sys2Proof.Machine

/-! ### `modBlock` -/

@[simp] theorem modBlock_phase (id : BlockId) (f : Block → Block) (s : State) : (modBlock id f s).phase = s.phase := rfl
@[simp] theorem modBlock_fatal (id : BlockId) (f : Block → Block) (s : State) : (modBlock id f s).fatal = s.fatal := rfl
@[simp] theorem modBlock_lasting (id : BlockId) (f : Block → Block) (s : State) : (modBlock id f s).lasting = s.lasting := rfl
@[simp] theorem modBlock_failed (id : BlockId) (f : Block → Block) (s : State) : (modBlock id f s).failed = s.failed := rfl
@[simp] theorem modBlock_csr (id : BlockId) (f : Block → Block) (s : State) : (modBlock id f s).csr = s.csr := rfl
@[simp] theorem modBlock_rollbacks (id : BlockId) (f : Block → Block) (s : State) : (modBlock id f s).rollbacks = s.rollbacks := rfl
@[simp] theorem modBlock_kills (id : BlockId) (f : Block → Block) (s : State) : (modBlock id f s).kills = s.kills := rfl
@[simp] theorem modBlock_mbxdrop (id : BlockId) (f : Block → Block) (s : State) : (modBlock id f s).mbxdrop = s.mbxdrop := rfl
@[simp] theorem modBlock_reclaimed (id : BlockId) (f : Block → Block) (s : State) : (modBlock id f s).reclaimed = s.reclaimed := rfl
@[simp] theorem modBlock_minFree (id : BlockId) (f : Block → Block) (s : State) : (modBlock id f s).minFree = s.minFree := rfl
@[simp] theorem modBlock_blob (id : BlockId) (f : Block → Block) (s : State) : (modBlock id f s).blob = s.blob := rfl
@[simp] theorem modBlock_flash (id : BlockId) (f : Block → Block) (s : State) : (modBlock id f s).flash = s.flash := rfl
@[simp] theorem modBlock_retired (id : BlockId) (f : Block → Block) (s : State) : (modBlock id f s).retired = s.retired := rfl
@[simp] theorem modBlock_withheld (id : BlockId) (f : Block → Block) (s : State) : (modBlock id f s).withheld = s.withheld := rfl
@[simp] theorem modBlock_meas (id : BlockId) (f : Block → Block) (s : State) : (modBlock id f s).meas = s.meas := rfl
@[simp] theorem modBlock_keys (id : BlockId) (f : Block → Block) (s : State) : (modBlock id f s).keys = s.keys := rfl
@[simp] theorem modBlock_sessions (id : BlockId) (f : Block → Block) (s : State) : (modBlock id f s).sessions = s.sessions := rfl
@[simp] theorem modBlock_ides (id : BlockId) (f : Block → Block) (s : State) : (modBlock id f s).ides = s.ides := rfl
@[simp] theorem modBlock_linkIde (id : BlockId) (f : Block → Block) (s : State) : (modBlock id f s).linkIde = s.linkIde := rfl
@[simp] theorem modBlock_msix (id : BlockId) (f : Block → Block) (s : State) : (modBlock id f s).msix = s.msix := rfl
@[simp] theorem modBlock_harvest (id : BlockId) (f : Block → Block) (s : State) : (modBlock id f s).harvest = s.harvest := rfl
@[simp] theorem modBlock_tdisp (id : BlockId) (f : Block → Block) (s : State) : (modBlock id f s).tdisp = s.tdisp := rfl
@[simp] theorem modBlock_counts (id : BlockId) (f : Block → Block) (s : State) : (modBlock id f s).counts = s.counts := rfl
@[simp] theorem modBlock_totals (id : BlockId) (f : Block → Block) (s : State) : (modBlock id f s).totals = s.totals := rfl
@[simp] theorem modBlock_hours (id : BlockId) (f : Block → Block) (s : State) : (modBlock id f s).hours = s.hours := rfl
@[simp] theorem modBlock_resets (id : BlockId) (f : Block → Block) (s : State) : (modBlock id f s).resets = s.resets := rfl
@[simp] theorem modBlock_power (id : BlockId) (f : Block → Block) (s : State) : (modBlock id f s).power = s.power := rfl
@[simp] theorem modBlock_hottest (id : BlockId) (f : Block → Block) (s : State) : (modBlock id f s).hottest = s.hottest := rfl
@[simp] theorem modBlock_slow (id : BlockId) (f : Block → Block) (s : State) : (modBlock id f s).slow = s.slow := rfl
@[simp] theorem modBlock_throttled (id : BlockId) (f : Block → Block) (s : State) : (modBlock id f s).throttled = s.throttled := rfl
@[simp] theorem modBlock_ports (id : BlockId) (f : Block → Block) (s : State) : (modBlock id f s).ports = s.ports := rfl
@[simp] theorem modBlock_coll (id : BlockId) (f : Block → Block) (s : State) : (modBlock id f s).coll = s.coll := rfl
@[simp] theorem modBlock_collStatus (id : BlockId) (f : Block → Block) (s : State) : (modBlock id f s).collStatus = s.collStatus := rfl
@[simp] theorem modBlock_remoteSeen (id : BlockId) (f : Block → Block) (s : State) : (modBlock id f s).remoteSeen = s.remoteSeen := rfl
@[simp] theorem modBlock_remoteTries (id : BlockId) (f : Block → Block) (s : State) : (modBlock id f s).remoteTries = s.remoteTries := rfl
@[simp] theorem modBlock_nextRemote (id : BlockId) (f : Block → Block) (s : State) : (modBlock id f s).nextRemote = s.nextRemote := rfl
@[simp] theorem modBlock_out (id : BlockId) (f : Block → Block) (s : State) : (modBlock id f s).out = s.out := rfl
@[simp] theorem modBlock_clock (id : BlockId) (f : Block → Block) (s : State) : (modBlock id f s).clock = s.clock := rfl
@[simp] theorem modBlock_epoch (id : BlockId) (f : Block → Block) (s : State) : (modBlock id f s).epoch = s.epoch := rfl
@[simp] theorem modBlock_mem (id : BlockId) (f : Block → Block) (s : State) : (modBlock id f s).mem = s.mem := rfl
@[simp] theorem modBlock_keyOf (id : BlockId) (f : Block → Block) (s : State) : (modBlock id f s).keyOf = s.keyOf := rfl
@[simp] theorem modBlock_bad (id : BlockId) (f : Block → Block) (s : State) : (modBlock id f s).bad = s.bad := rfl
@[simp] theorem modBlock_rows (id : BlockId) (f : Block → Block) (s : State) : (modBlock id f s).rows = s.rows := rfl
@[simp] theorem modBlock_segs (id : BlockId) (f : Block → Block) (s : State) : (modBlock id f s).segs = s.segs := rfl
@[simp] theorem modBlock_segSeq (id : BlockId) (f : Block → Block) (s : State) : (modBlock id f s).segSeq = s.segSeq := rfl
@[simp] theorem modBlock_lastSeg (id : BlockId) (f : Block → Block) (s : State) : (modBlock id f s).lastSeg = s.lastSeg := rfl
@[simp] theorem modBlock_talusOpen (id : BlockId) (f : Block → Block) (s : State) : (modBlock id f s).talusOpen = s.talusOpen := rfl
@[simp] theorem modBlock_cleans (id : BlockId) (f : Block → Block) (s : State) : (modBlock id f s).cleans = s.cleans := rfl
@[simp] theorem modBlock_homes (id : BlockId) (f : Block → Block) (s : State) : (modBlock id f s).homes = s.homes := rfl
@[simp] theorem modBlock_accesses (id : BlockId) (f : Block → Block) (s : State) : (modBlock id f s).accesses = s.accesses := rfl
@[simp] theorem modBlock_logFull (id : BlockId) (f : Block → Block) (s : State) : (modBlock id f s).logFull = s.logFull := rfl
@[simp] theorem modBlock_watch (id : BlockId) (f : Block → Block) (s : State) : (modBlock id f s).watch = s.watch := rfl
@[simp] theorem modBlock_cairns (id : BlockId) (f : Block → Block) (s : State) : (modBlock id f s).cairns = s.cairns := rfl
@[simp] theorem modBlock_rollbs (id : BlockId) (f : Block → Block) (s : State) : (modBlock id f s).rollbs = s.rollbs := rfl
@[simp] theorem modBlock_arms (id : BlockId) (f : Block → Block) (s : State) : (modBlock id f s).arms = s.arms := rfl
@[simp] theorem modBlock_groups (id : BlockId) (f : Block → Block) (s : State) : (modBlock id f s).groups = s.groups := rfl
@[simp] theorem modBlock_replicas (id : BlockId) (f : Block → Block) (s : State) : (modBlock id f s).replicas = s.replicas := rfl
@[simp] theorem modBlock_replica (id : BlockId) (f : Block → Block) (s : State) : (modBlock id f s).replica = s.replica := rfl
@[simp] theorem modBlock_ctxs (id : BlockId) (f : Block → Block) (s : State) : (modBlock id f s).ctxs = s.ctxs := rfl
@[simp] theorem modBlock_mboxes (id : BlockId) (f : Block → Block) (s : State) : (modBlock id f s).mboxes = s.mboxes := rfl
@[simp] theorem modBlock_records (id : BlockId) (f : Block → Block) (s : State) : (modBlock id f s).records = s.records := rfl
@[simp] theorem modBlock_recSeq (id : BlockId) (f : Block → Block) (s : State) : (modBlock id f s).recSeq = s.recSeq := rfl
@[simp] theorem modBlock_launches (id : BlockId) (f : Block → Block) (s : State) : (modBlock id f s).launches = s.launches := rfl
@[simp] theorem modBlock_nextLid (id : BlockId) (f : Block → Block) (s : State) : (modBlock id f s).nextLid = s.nextLid := rfl
@[simp] theorem modBlock_nextOrder (id : BlockId) (f : Block → Block) (s : State) : (modBlock id f s).nextOrder = s.nextOrder := rfl
@[simp] theorem modBlock_faults (id : BlockId) (f : Block → Block) (s : State) : (modBlock id f s).faults = s.faults := rfl
@[simp] theorem modBlock_nextToken (id : BlockId) (f : Block → Block) (s : State) : (modBlock id f s).nextToken = s.nextToken := rfl
@[simp] theorem modBlock_fullFq (id : BlockId) (f : Block → Block) (s : State) : (modBlock id f s).fullFq = s.fullFq := rfl
@[simp] theorem modBlock_frames (id : BlockId) (f : Block → Block) (s : State) : (modBlock id f s).frames = s.frames := rfl
@[simp] theorem modBlock_clusters (id : BlockId) (f : Block → Block) (s : State) : (modBlock id f s).clusters = s.clusters := rfl
@[simp] theorem modBlock_cores (id : BlockId) (f : Block → Block) (s : State) : (modBlock id f s).cores = s.cores := rfl
@[simp] theorem modBlock_inputs (id : BlockId) (f : Block → Block) (s : State) : (modBlock id f s).inputs = s.inputs := rfl
@[simp] theorem modBlock_cur (id : BlockId) (f : Block → Block) (s : State) : (modBlock id f s).cur = s.cur := rfl
@[simp] theorem modBlock_draws (id : BlockId) (f : Block → Block) (s : State) : (modBlock id f s).draws = s.draws := rfl
@[simp] theorem modBlock_badPhys (id : BlockId) (f : Block → Block) (s : State) : (modBlock id f s).badPhys = s.badPhys := rfl

/-! ### `modWarp` -/

@[simp] theorem modWarp_phase (id : BlockId) (w : Nat) (f : Warp → Warp) (s : State) : (modWarp id w f s).phase = s.phase := rfl
@[simp] theorem modWarp_fatal (id : BlockId) (w : Nat) (f : Warp → Warp) (s : State) : (modWarp id w f s).fatal = s.fatal := rfl
@[simp] theorem modWarp_lasting (id : BlockId) (w : Nat) (f : Warp → Warp) (s : State) : (modWarp id w f s).lasting = s.lasting := rfl
@[simp] theorem modWarp_failed (id : BlockId) (w : Nat) (f : Warp → Warp) (s : State) : (modWarp id w f s).failed = s.failed := rfl
@[simp] theorem modWarp_csr (id : BlockId) (w : Nat) (f : Warp → Warp) (s : State) : (modWarp id w f s).csr = s.csr := rfl
@[simp] theorem modWarp_rollbacks (id : BlockId) (w : Nat) (f : Warp → Warp) (s : State) : (modWarp id w f s).rollbacks = s.rollbacks := rfl
@[simp] theorem modWarp_kills (id : BlockId) (w : Nat) (f : Warp → Warp) (s : State) : (modWarp id w f s).kills = s.kills := rfl
@[simp] theorem modWarp_mbxdrop (id : BlockId) (w : Nat) (f : Warp → Warp) (s : State) : (modWarp id w f s).mbxdrop = s.mbxdrop := rfl
@[simp] theorem modWarp_reclaimed (id : BlockId) (w : Nat) (f : Warp → Warp) (s : State) : (modWarp id w f s).reclaimed = s.reclaimed := rfl
@[simp] theorem modWarp_minFree (id : BlockId) (w : Nat) (f : Warp → Warp) (s : State) : (modWarp id w f s).minFree = s.minFree := rfl
@[simp] theorem modWarp_blob (id : BlockId) (w : Nat) (f : Warp → Warp) (s : State) : (modWarp id w f s).blob = s.blob := rfl
@[simp] theorem modWarp_flash (id : BlockId) (w : Nat) (f : Warp → Warp) (s : State) : (modWarp id w f s).flash = s.flash := rfl
@[simp] theorem modWarp_retired (id : BlockId) (w : Nat) (f : Warp → Warp) (s : State) : (modWarp id w f s).retired = s.retired := rfl
@[simp] theorem modWarp_withheld (id : BlockId) (w : Nat) (f : Warp → Warp) (s : State) : (modWarp id w f s).withheld = s.withheld := rfl
@[simp] theorem modWarp_meas (id : BlockId) (w : Nat) (f : Warp → Warp) (s : State) : (modWarp id w f s).meas = s.meas := rfl
@[simp] theorem modWarp_keys (id : BlockId) (w : Nat) (f : Warp → Warp) (s : State) : (modWarp id w f s).keys = s.keys := rfl
@[simp] theorem modWarp_sessions (id : BlockId) (w : Nat) (f : Warp → Warp) (s : State) : (modWarp id w f s).sessions = s.sessions := rfl
@[simp] theorem modWarp_ides (id : BlockId) (w : Nat) (f : Warp → Warp) (s : State) : (modWarp id w f s).ides = s.ides := rfl
@[simp] theorem modWarp_linkIde (id : BlockId) (w : Nat) (f : Warp → Warp) (s : State) : (modWarp id w f s).linkIde = s.linkIde := rfl
@[simp] theorem modWarp_msix (id : BlockId) (w : Nat) (f : Warp → Warp) (s : State) : (modWarp id w f s).msix = s.msix := rfl
@[simp] theorem modWarp_harvest (id : BlockId) (w : Nat) (f : Warp → Warp) (s : State) : (modWarp id w f s).harvest = s.harvest := rfl
@[simp] theorem modWarp_tdisp (id : BlockId) (w : Nat) (f : Warp → Warp) (s : State) : (modWarp id w f s).tdisp = s.tdisp := rfl
@[simp] theorem modWarp_counts (id : BlockId) (w : Nat) (f : Warp → Warp) (s : State) : (modWarp id w f s).counts = s.counts := rfl
@[simp] theorem modWarp_totals (id : BlockId) (w : Nat) (f : Warp → Warp) (s : State) : (modWarp id w f s).totals = s.totals := rfl
@[simp] theorem modWarp_hours (id : BlockId) (w : Nat) (f : Warp → Warp) (s : State) : (modWarp id w f s).hours = s.hours := rfl
@[simp] theorem modWarp_resets (id : BlockId) (w : Nat) (f : Warp → Warp) (s : State) : (modWarp id w f s).resets = s.resets := rfl
@[simp] theorem modWarp_power (id : BlockId) (w : Nat) (f : Warp → Warp) (s : State) : (modWarp id w f s).power = s.power := rfl
@[simp] theorem modWarp_hottest (id : BlockId) (w : Nat) (f : Warp → Warp) (s : State) : (modWarp id w f s).hottest = s.hottest := rfl
@[simp] theorem modWarp_slow (id : BlockId) (w : Nat) (f : Warp → Warp) (s : State) : (modWarp id w f s).slow = s.slow := rfl
@[simp] theorem modWarp_throttled (id : BlockId) (w : Nat) (f : Warp → Warp) (s : State) : (modWarp id w f s).throttled = s.throttled := rfl
@[simp] theorem modWarp_ports (id : BlockId) (w : Nat) (f : Warp → Warp) (s : State) : (modWarp id w f s).ports = s.ports := rfl
@[simp] theorem modWarp_coll (id : BlockId) (w : Nat) (f : Warp → Warp) (s : State) : (modWarp id w f s).coll = s.coll := rfl
@[simp] theorem modWarp_collStatus (id : BlockId) (w : Nat) (f : Warp → Warp) (s : State) : (modWarp id w f s).collStatus = s.collStatus := rfl
@[simp] theorem modWarp_remoteSeen (id : BlockId) (w : Nat) (f : Warp → Warp) (s : State) : (modWarp id w f s).remoteSeen = s.remoteSeen := rfl
@[simp] theorem modWarp_remoteTries (id : BlockId) (w : Nat) (f : Warp → Warp) (s : State) : (modWarp id w f s).remoteTries = s.remoteTries := rfl
@[simp] theorem modWarp_nextRemote (id : BlockId) (w : Nat) (f : Warp → Warp) (s : State) : (modWarp id w f s).nextRemote = s.nextRemote := rfl
@[simp] theorem modWarp_out (id : BlockId) (w : Nat) (f : Warp → Warp) (s : State) : (modWarp id w f s).out = s.out := rfl
@[simp] theorem modWarp_clock (id : BlockId) (w : Nat) (f : Warp → Warp) (s : State) : (modWarp id w f s).clock = s.clock := rfl
@[simp] theorem modWarp_epoch (id : BlockId) (w : Nat) (f : Warp → Warp) (s : State) : (modWarp id w f s).epoch = s.epoch := rfl
@[simp] theorem modWarp_mem (id : BlockId) (w : Nat) (f : Warp → Warp) (s : State) : (modWarp id w f s).mem = s.mem := rfl
@[simp] theorem modWarp_keyOf (id : BlockId) (w : Nat) (f : Warp → Warp) (s : State) : (modWarp id w f s).keyOf = s.keyOf := rfl
@[simp] theorem modWarp_bad (id : BlockId) (w : Nat) (f : Warp → Warp) (s : State) : (modWarp id w f s).bad = s.bad := rfl
@[simp] theorem modWarp_rows (id : BlockId) (w : Nat) (f : Warp → Warp) (s : State) : (modWarp id w f s).rows = s.rows := rfl
@[simp] theorem modWarp_segs (id : BlockId) (w : Nat) (f : Warp → Warp) (s : State) : (modWarp id w f s).segs = s.segs := rfl
@[simp] theorem modWarp_segSeq (id : BlockId) (w : Nat) (f : Warp → Warp) (s : State) : (modWarp id w f s).segSeq = s.segSeq := rfl
@[simp] theorem modWarp_lastSeg (id : BlockId) (w : Nat) (f : Warp → Warp) (s : State) : (modWarp id w f s).lastSeg = s.lastSeg := rfl
@[simp] theorem modWarp_talusOpen (id : BlockId) (w : Nat) (f : Warp → Warp) (s : State) : (modWarp id w f s).talusOpen = s.talusOpen := rfl
@[simp] theorem modWarp_cleans (id : BlockId) (w : Nat) (f : Warp → Warp) (s : State) : (modWarp id w f s).cleans = s.cleans := rfl
@[simp] theorem modWarp_homes (id : BlockId) (w : Nat) (f : Warp → Warp) (s : State) : (modWarp id w f s).homes = s.homes := rfl
@[simp] theorem modWarp_accesses (id : BlockId) (w : Nat) (f : Warp → Warp) (s : State) : (modWarp id w f s).accesses = s.accesses := rfl
@[simp] theorem modWarp_logFull (id : BlockId) (w : Nat) (f : Warp → Warp) (s : State) : (modWarp id w f s).logFull = s.logFull := rfl
@[simp] theorem modWarp_watch (id : BlockId) (w : Nat) (f : Warp → Warp) (s : State) : (modWarp id w f s).watch = s.watch := rfl
@[simp] theorem modWarp_cairns (id : BlockId) (w : Nat) (f : Warp → Warp) (s : State) : (modWarp id w f s).cairns = s.cairns := rfl
@[simp] theorem modWarp_rollbs (id : BlockId) (w : Nat) (f : Warp → Warp) (s : State) : (modWarp id w f s).rollbs = s.rollbs := rfl
@[simp] theorem modWarp_arms (id : BlockId) (w : Nat) (f : Warp → Warp) (s : State) : (modWarp id w f s).arms = s.arms := rfl
@[simp] theorem modWarp_groups (id : BlockId) (w : Nat) (f : Warp → Warp) (s : State) : (modWarp id w f s).groups = s.groups := rfl
@[simp] theorem modWarp_replicas (id : BlockId) (w : Nat) (f : Warp → Warp) (s : State) : (modWarp id w f s).replicas = s.replicas := rfl
@[simp] theorem modWarp_replica (id : BlockId) (w : Nat) (f : Warp → Warp) (s : State) : (modWarp id w f s).replica = s.replica := rfl
@[simp] theorem modWarp_ctxs (id : BlockId) (w : Nat) (f : Warp → Warp) (s : State) : (modWarp id w f s).ctxs = s.ctxs := rfl
@[simp] theorem modWarp_mboxes (id : BlockId) (w : Nat) (f : Warp → Warp) (s : State) : (modWarp id w f s).mboxes = s.mboxes := rfl
@[simp] theorem modWarp_records (id : BlockId) (w : Nat) (f : Warp → Warp) (s : State) : (modWarp id w f s).records = s.records := rfl
@[simp] theorem modWarp_recSeq (id : BlockId) (w : Nat) (f : Warp → Warp) (s : State) : (modWarp id w f s).recSeq = s.recSeq := rfl
@[simp] theorem modWarp_launches (id : BlockId) (w : Nat) (f : Warp → Warp) (s : State) : (modWarp id w f s).launches = s.launches := rfl
@[simp] theorem modWarp_nextLid (id : BlockId) (w : Nat) (f : Warp → Warp) (s : State) : (modWarp id w f s).nextLid = s.nextLid := rfl
@[simp] theorem modWarp_nextOrder (id : BlockId) (w : Nat) (f : Warp → Warp) (s : State) : (modWarp id w f s).nextOrder = s.nextOrder := rfl
@[simp] theorem modWarp_faults (id : BlockId) (w : Nat) (f : Warp → Warp) (s : State) : (modWarp id w f s).faults = s.faults := rfl
@[simp] theorem modWarp_nextToken (id : BlockId) (w : Nat) (f : Warp → Warp) (s : State) : (modWarp id w f s).nextToken = s.nextToken := rfl
@[simp] theorem modWarp_fullFq (id : BlockId) (w : Nat) (f : Warp → Warp) (s : State) : (modWarp id w f s).fullFq = s.fullFq := rfl
@[simp] theorem modWarp_frames (id : BlockId) (w : Nat) (f : Warp → Warp) (s : State) : (modWarp id w f s).frames = s.frames := rfl
@[simp] theorem modWarp_clusters (id : BlockId) (w : Nat) (f : Warp → Warp) (s : State) : (modWarp id w f s).clusters = s.clusters := rfl
@[simp] theorem modWarp_cores (id : BlockId) (w : Nat) (f : Warp → Warp) (s : State) : (modWarp id w f s).cores = s.cores := rfl
@[simp] theorem modWarp_inputs (id : BlockId) (w : Nat) (f : Warp → Warp) (s : State) : (modWarp id w f s).inputs = s.inputs := rfl
@[simp] theorem modWarp_cur (id : BlockId) (w : Nat) (f : Warp → Warp) (s : State) : (modWarp id w f s).cur = s.cur := rfl
@[simp] theorem modWarp_draws (id : BlockId) (w : Nat) (f : Warp → Warp) (s : State) : (modWarp id w f s).draws = s.draws := rfl
@[simp] theorem modWarp_badPhys (id : BlockId) (w : Nat) (f : Warp → Warp) (s : State) : (modWarp id w f s).badPhys = s.badPhys := rfl

/-! ### `modLaunch` -/

@[simp] theorem modLaunch_phase (lid : BitVec 32) (f : Launch → Launch) (s : State) : (modLaunch lid f s).phase = s.phase := rfl
@[simp] theorem modLaunch_fatal (lid : BitVec 32) (f : Launch → Launch) (s : State) : (modLaunch lid f s).fatal = s.fatal := rfl
@[simp] theorem modLaunch_lasting (lid : BitVec 32) (f : Launch → Launch) (s : State) : (modLaunch lid f s).lasting = s.lasting := rfl
@[simp] theorem modLaunch_failed (lid : BitVec 32) (f : Launch → Launch) (s : State) : (modLaunch lid f s).failed = s.failed := rfl
@[simp] theorem modLaunch_csr (lid : BitVec 32) (f : Launch → Launch) (s : State) : (modLaunch lid f s).csr = s.csr := rfl
@[simp] theorem modLaunch_rollbacks (lid : BitVec 32) (f : Launch → Launch) (s : State) : (modLaunch lid f s).rollbacks = s.rollbacks := rfl
@[simp] theorem modLaunch_kills (lid : BitVec 32) (f : Launch → Launch) (s : State) : (modLaunch lid f s).kills = s.kills := rfl
@[simp] theorem modLaunch_mbxdrop (lid : BitVec 32) (f : Launch → Launch) (s : State) : (modLaunch lid f s).mbxdrop = s.mbxdrop := rfl
@[simp] theorem modLaunch_reclaimed (lid : BitVec 32) (f : Launch → Launch) (s : State) : (modLaunch lid f s).reclaimed = s.reclaimed := rfl
@[simp] theorem modLaunch_minFree (lid : BitVec 32) (f : Launch → Launch) (s : State) : (modLaunch lid f s).minFree = s.minFree := rfl
@[simp] theorem modLaunch_blob (lid : BitVec 32) (f : Launch → Launch) (s : State) : (modLaunch lid f s).blob = s.blob := rfl
@[simp] theorem modLaunch_flash (lid : BitVec 32) (f : Launch → Launch) (s : State) : (modLaunch lid f s).flash = s.flash := rfl
@[simp] theorem modLaunch_retired (lid : BitVec 32) (f : Launch → Launch) (s : State) : (modLaunch lid f s).retired = s.retired := rfl
@[simp] theorem modLaunch_withheld (lid : BitVec 32) (f : Launch → Launch) (s : State) : (modLaunch lid f s).withheld = s.withheld := rfl
@[simp] theorem modLaunch_meas (lid : BitVec 32) (f : Launch → Launch) (s : State) : (modLaunch lid f s).meas = s.meas := rfl
@[simp] theorem modLaunch_keys (lid : BitVec 32) (f : Launch → Launch) (s : State) : (modLaunch lid f s).keys = s.keys := rfl
@[simp] theorem modLaunch_sessions (lid : BitVec 32) (f : Launch → Launch) (s : State) : (modLaunch lid f s).sessions = s.sessions := rfl
@[simp] theorem modLaunch_ides (lid : BitVec 32) (f : Launch → Launch) (s : State) : (modLaunch lid f s).ides = s.ides := rfl
@[simp] theorem modLaunch_linkIde (lid : BitVec 32) (f : Launch → Launch) (s : State) : (modLaunch lid f s).linkIde = s.linkIde := rfl
@[simp] theorem modLaunch_msix (lid : BitVec 32) (f : Launch → Launch) (s : State) : (modLaunch lid f s).msix = s.msix := rfl
@[simp] theorem modLaunch_harvest (lid : BitVec 32) (f : Launch → Launch) (s : State) : (modLaunch lid f s).harvest = s.harvest := rfl
@[simp] theorem modLaunch_tdisp (lid : BitVec 32) (f : Launch → Launch) (s : State) : (modLaunch lid f s).tdisp = s.tdisp := rfl
@[simp] theorem modLaunch_counts (lid : BitVec 32) (f : Launch → Launch) (s : State) : (modLaunch lid f s).counts = s.counts := rfl
@[simp] theorem modLaunch_totals (lid : BitVec 32) (f : Launch → Launch) (s : State) : (modLaunch lid f s).totals = s.totals := rfl
@[simp] theorem modLaunch_hours (lid : BitVec 32) (f : Launch → Launch) (s : State) : (modLaunch lid f s).hours = s.hours := rfl
@[simp] theorem modLaunch_resets (lid : BitVec 32) (f : Launch → Launch) (s : State) : (modLaunch lid f s).resets = s.resets := rfl
@[simp] theorem modLaunch_power (lid : BitVec 32) (f : Launch → Launch) (s : State) : (modLaunch lid f s).power = s.power := rfl
@[simp] theorem modLaunch_hottest (lid : BitVec 32) (f : Launch → Launch) (s : State) : (modLaunch lid f s).hottest = s.hottest := rfl
@[simp] theorem modLaunch_slow (lid : BitVec 32) (f : Launch → Launch) (s : State) : (modLaunch lid f s).slow = s.slow := rfl
@[simp] theorem modLaunch_throttled (lid : BitVec 32) (f : Launch → Launch) (s : State) : (modLaunch lid f s).throttled = s.throttled := rfl
@[simp] theorem modLaunch_ports (lid : BitVec 32) (f : Launch → Launch) (s : State) : (modLaunch lid f s).ports = s.ports := rfl
@[simp] theorem modLaunch_coll (lid : BitVec 32) (f : Launch → Launch) (s : State) : (modLaunch lid f s).coll = s.coll := rfl
@[simp] theorem modLaunch_collStatus (lid : BitVec 32) (f : Launch → Launch) (s : State) : (modLaunch lid f s).collStatus = s.collStatus := rfl
@[simp] theorem modLaunch_remoteSeen (lid : BitVec 32) (f : Launch → Launch) (s : State) : (modLaunch lid f s).remoteSeen = s.remoteSeen := rfl
@[simp] theorem modLaunch_remoteTries (lid : BitVec 32) (f : Launch → Launch) (s : State) : (modLaunch lid f s).remoteTries = s.remoteTries := rfl
@[simp] theorem modLaunch_nextRemote (lid : BitVec 32) (f : Launch → Launch) (s : State) : (modLaunch lid f s).nextRemote = s.nextRemote := rfl
@[simp] theorem modLaunch_out (lid : BitVec 32) (f : Launch → Launch) (s : State) : (modLaunch lid f s).out = s.out := rfl
@[simp] theorem modLaunch_clock (lid : BitVec 32) (f : Launch → Launch) (s : State) : (modLaunch lid f s).clock = s.clock := rfl
@[simp] theorem modLaunch_epoch (lid : BitVec 32) (f : Launch → Launch) (s : State) : (modLaunch lid f s).epoch = s.epoch := rfl
@[simp] theorem modLaunch_mem (lid : BitVec 32) (f : Launch → Launch) (s : State) : (modLaunch lid f s).mem = s.mem := rfl
@[simp] theorem modLaunch_keyOf (lid : BitVec 32) (f : Launch → Launch) (s : State) : (modLaunch lid f s).keyOf = s.keyOf := rfl
@[simp] theorem modLaunch_bad (lid : BitVec 32) (f : Launch → Launch) (s : State) : (modLaunch lid f s).bad = s.bad := rfl
@[simp] theorem modLaunch_rows (lid : BitVec 32) (f : Launch → Launch) (s : State) : (modLaunch lid f s).rows = s.rows := rfl
@[simp] theorem modLaunch_segs (lid : BitVec 32) (f : Launch → Launch) (s : State) : (modLaunch lid f s).segs = s.segs := rfl
@[simp] theorem modLaunch_segSeq (lid : BitVec 32) (f : Launch → Launch) (s : State) : (modLaunch lid f s).segSeq = s.segSeq := rfl
@[simp] theorem modLaunch_lastSeg (lid : BitVec 32) (f : Launch → Launch) (s : State) : (modLaunch lid f s).lastSeg = s.lastSeg := rfl
@[simp] theorem modLaunch_talusOpen (lid : BitVec 32) (f : Launch → Launch) (s : State) : (modLaunch lid f s).talusOpen = s.talusOpen := rfl
@[simp] theorem modLaunch_cleans (lid : BitVec 32) (f : Launch → Launch) (s : State) : (modLaunch lid f s).cleans = s.cleans := rfl
@[simp] theorem modLaunch_homes (lid : BitVec 32) (f : Launch → Launch) (s : State) : (modLaunch lid f s).homes = s.homes := rfl
@[simp] theorem modLaunch_accesses (lid : BitVec 32) (f : Launch → Launch) (s : State) : (modLaunch lid f s).accesses = s.accesses := rfl
@[simp] theorem modLaunch_logFull (lid : BitVec 32) (f : Launch → Launch) (s : State) : (modLaunch lid f s).logFull = s.logFull := rfl
@[simp] theorem modLaunch_watch (lid : BitVec 32) (f : Launch → Launch) (s : State) : (modLaunch lid f s).watch = s.watch := rfl
@[simp] theorem modLaunch_cairns (lid : BitVec 32) (f : Launch → Launch) (s : State) : (modLaunch lid f s).cairns = s.cairns := rfl
@[simp] theorem modLaunch_rollbs (lid : BitVec 32) (f : Launch → Launch) (s : State) : (modLaunch lid f s).rollbs = s.rollbs := rfl
@[simp] theorem modLaunch_arms (lid : BitVec 32) (f : Launch → Launch) (s : State) : (modLaunch lid f s).arms = s.arms := rfl
@[simp] theorem modLaunch_groups (lid : BitVec 32) (f : Launch → Launch) (s : State) : (modLaunch lid f s).groups = s.groups := rfl
@[simp] theorem modLaunch_replicas (lid : BitVec 32) (f : Launch → Launch) (s : State) : (modLaunch lid f s).replicas = s.replicas := rfl
@[simp] theorem modLaunch_replica (lid : BitVec 32) (f : Launch → Launch) (s : State) : (modLaunch lid f s).replica = s.replica := rfl
@[simp] theorem modLaunch_ctxs (lid : BitVec 32) (f : Launch → Launch) (s : State) : (modLaunch lid f s).ctxs = s.ctxs := rfl
@[simp] theorem modLaunch_mboxes (lid : BitVec 32) (f : Launch → Launch) (s : State) : (modLaunch lid f s).mboxes = s.mboxes := rfl
@[simp] theorem modLaunch_records (lid : BitVec 32) (f : Launch → Launch) (s : State) : (modLaunch lid f s).records = s.records := rfl
@[simp] theorem modLaunch_recSeq (lid : BitVec 32) (f : Launch → Launch) (s : State) : (modLaunch lid f s).recSeq = s.recSeq := rfl
@[simp] theorem modLaunch_nextLid (lid : BitVec 32) (f : Launch → Launch) (s : State) : (modLaunch lid f s).nextLid = s.nextLid := rfl
@[simp] theorem modLaunch_blocks (lid : BitVec 32) (f : Launch → Launch) (s : State) : (modLaunch lid f s).blocks = s.blocks := rfl
@[simp] theorem modLaunch_nextOrder (lid : BitVec 32) (f : Launch → Launch) (s : State) : (modLaunch lid f s).nextOrder = s.nextOrder := rfl
@[simp] theorem modLaunch_faults (lid : BitVec 32) (f : Launch → Launch) (s : State) : (modLaunch lid f s).faults = s.faults := rfl
@[simp] theorem modLaunch_nextToken (lid : BitVec 32) (f : Launch → Launch) (s : State) : (modLaunch lid f s).nextToken = s.nextToken := rfl
@[simp] theorem modLaunch_fullFq (lid : BitVec 32) (f : Launch → Launch) (s : State) : (modLaunch lid f s).fullFq = s.fullFq := rfl
@[simp] theorem modLaunch_frames (lid : BitVec 32) (f : Launch → Launch) (s : State) : (modLaunch lid f s).frames = s.frames := rfl
@[simp] theorem modLaunch_clusters (lid : BitVec 32) (f : Launch → Launch) (s : State) : (modLaunch lid f s).clusters = s.clusters := rfl
@[simp] theorem modLaunch_cores (lid : BitVec 32) (f : Launch → Launch) (s : State) : (modLaunch lid f s).cores = s.cores := rfl
@[simp] theorem modLaunch_inputs (lid : BitVec 32) (f : Launch → Launch) (s : State) : (modLaunch lid f s).inputs = s.inputs := rfl
@[simp] theorem modLaunch_cur (lid : BitVec 32) (f : Launch → Launch) (s : State) : (modLaunch lid f s).cur = s.cur := rfl
@[simp] theorem modLaunch_draws (lid : BitVec 32) (f : Launch → Launch) (s : State) : (modLaunch lid f s).draws = s.draws := rfl
@[simp] theorem modLaunch_badPhys (lid : BitVec 32) (f : Launch → Launch) (s : State) : (modLaunch lid f s).badPhys = s.badPhys := rfl

/-! ### `modCluster` -/

@[simp] theorem modCluster_phase (c : Nat) (f : Cluster → Cluster) (s : State) : (modCluster c f s).phase = s.phase := rfl
@[simp] theorem modCluster_fatal (c : Nat) (f : Cluster → Cluster) (s : State) : (modCluster c f s).fatal = s.fatal := rfl
@[simp] theorem modCluster_lasting (c : Nat) (f : Cluster → Cluster) (s : State) : (modCluster c f s).lasting = s.lasting := rfl
@[simp] theorem modCluster_failed (c : Nat) (f : Cluster → Cluster) (s : State) : (modCluster c f s).failed = s.failed := rfl
@[simp] theorem modCluster_csr (c : Nat) (f : Cluster → Cluster) (s : State) : (modCluster c f s).csr = s.csr := rfl
@[simp] theorem modCluster_rollbacks (c : Nat) (f : Cluster → Cluster) (s : State) : (modCluster c f s).rollbacks = s.rollbacks := rfl
@[simp] theorem modCluster_kills (c : Nat) (f : Cluster → Cluster) (s : State) : (modCluster c f s).kills = s.kills := rfl
@[simp] theorem modCluster_mbxdrop (c : Nat) (f : Cluster → Cluster) (s : State) : (modCluster c f s).mbxdrop = s.mbxdrop := rfl
@[simp] theorem modCluster_reclaimed (c : Nat) (f : Cluster → Cluster) (s : State) : (modCluster c f s).reclaimed = s.reclaimed := rfl
@[simp] theorem modCluster_minFree (c : Nat) (f : Cluster → Cluster) (s : State) : (modCluster c f s).minFree = s.minFree := rfl
@[simp] theorem modCluster_blob (c : Nat) (f : Cluster → Cluster) (s : State) : (modCluster c f s).blob = s.blob := rfl
@[simp] theorem modCluster_flash (c : Nat) (f : Cluster → Cluster) (s : State) : (modCluster c f s).flash = s.flash := rfl
@[simp] theorem modCluster_retired (c : Nat) (f : Cluster → Cluster) (s : State) : (modCluster c f s).retired = s.retired := rfl
@[simp] theorem modCluster_withheld (c : Nat) (f : Cluster → Cluster) (s : State) : (modCluster c f s).withheld = s.withheld := rfl
@[simp] theorem modCluster_meas (c : Nat) (f : Cluster → Cluster) (s : State) : (modCluster c f s).meas = s.meas := rfl
@[simp] theorem modCluster_keys (c : Nat) (f : Cluster → Cluster) (s : State) : (modCluster c f s).keys = s.keys := rfl
@[simp] theorem modCluster_sessions (c : Nat) (f : Cluster → Cluster) (s : State) : (modCluster c f s).sessions = s.sessions := rfl
@[simp] theorem modCluster_ides (c : Nat) (f : Cluster → Cluster) (s : State) : (modCluster c f s).ides = s.ides := rfl
@[simp] theorem modCluster_linkIde (c : Nat) (f : Cluster → Cluster) (s : State) : (modCluster c f s).linkIde = s.linkIde := rfl
@[simp] theorem modCluster_msix (c : Nat) (f : Cluster → Cluster) (s : State) : (modCluster c f s).msix = s.msix := rfl
@[simp] theorem modCluster_harvest (c : Nat) (f : Cluster → Cluster) (s : State) : (modCluster c f s).harvest = s.harvest := rfl
@[simp] theorem modCluster_tdisp (c : Nat) (f : Cluster → Cluster) (s : State) : (modCluster c f s).tdisp = s.tdisp := rfl
@[simp] theorem modCluster_counts (c : Nat) (f : Cluster → Cluster) (s : State) : (modCluster c f s).counts = s.counts := rfl
@[simp] theorem modCluster_totals (c : Nat) (f : Cluster → Cluster) (s : State) : (modCluster c f s).totals = s.totals := rfl
@[simp] theorem modCluster_hours (c : Nat) (f : Cluster → Cluster) (s : State) : (modCluster c f s).hours = s.hours := rfl
@[simp] theorem modCluster_resets (c : Nat) (f : Cluster → Cluster) (s : State) : (modCluster c f s).resets = s.resets := rfl
@[simp] theorem modCluster_power (c : Nat) (f : Cluster → Cluster) (s : State) : (modCluster c f s).power = s.power := rfl
@[simp] theorem modCluster_hottest (c : Nat) (f : Cluster → Cluster) (s : State) : (modCluster c f s).hottest = s.hottest := rfl
@[simp] theorem modCluster_slow (c : Nat) (f : Cluster → Cluster) (s : State) : (modCluster c f s).slow = s.slow := rfl
@[simp] theorem modCluster_throttled (c : Nat) (f : Cluster → Cluster) (s : State) : (modCluster c f s).throttled = s.throttled := rfl
@[simp] theorem modCluster_ports (c : Nat) (f : Cluster → Cluster) (s : State) : (modCluster c f s).ports = s.ports := rfl
@[simp] theorem modCluster_coll (c : Nat) (f : Cluster → Cluster) (s : State) : (modCluster c f s).coll = s.coll := rfl
@[simp] theorem modCluster_collStatus (c : Nat) (f : Cluster → Cluster) (s : State) : (modCluster c f s).collStatus = s.collStatus := rfl
@[simp] theorem modCluster_remoteSeen (c : Nat) (f : Cluster → Cluster) (s : State) : (modCluster c f s).remoteSeen = s.remoteSeen := rfl
@[simp] theorem modCluster_remoteTries (c : Nat) (f : Cluster → Cluster) (s : State) : (modCluster c f s).remoteTries = s.remoteTries := rfl
@[simp] theorem modCluster_nextRemote (c : Nat) (f : Cluster → Cluster) (s : State) : (modCluster c f s).nextRemote = s.nextRemote := rfl
@[simp] theorem modCluster_out (c : Nat) (f : Cluster → Cluster) (s : State) : (modCluster c f s).out = s.out := rfl
@[simp] theorem modCluster_clock (c : Nat) (f : Cluster → Cluster) (s : State) : (modCluster c f s).clock = s.clock := rfl
@[simp] theorem modCluster_epoch (c : Nat) (f : Cluster → Cluster) (s : State) : (modCluster c f s).epoch = s.epoch := rfl
@[simp] theorem modCluster_mem (c : Nat) (f : Cluster → Cluster) (s : State) : (modCluster c f s).mem = s.mem := rfl
@[simp] theorem modCluster_keyOf (c : Nat) (f : Cluster → Cluster) (s : State) : (modCluster c f s).keyOf = s.keyOf := rfl
@[simp] theorem modCluster_bad (c : Nat) (f : Cluster → Cluster) (s : State) : (modCluster c f s).bad = s.bad := rfl
@[simp] theorem modCluster_rows (c : Nat) (f : Cluster → Cluster) (s : State) : (modCluster c f s).rows = s.rows := rfl
@[simp] theorem modCluster_segs (c : Nat) (f : Cluster → Cluster) (s : State) : (modCluster c f s).segs = s.segs := rfl
@[simp] theorem modCluster_segSeq (c : Nat) (f : Cluster → Cluster) (s : State) : (modCluster c f s).segSeq = s.segSeq := rfl
@[simp] theorem modCluster_lastSeg (c : Nat) (f : Cluster → Cluster) (s : State) : (modCluster c f s).lastSeg = s.lastSeg := rfl
@[simp] theorem modCluster_talusOpen (c : Nat) (f : Cluster → Cluster) (s : State) : (modCluster c f s).talusOpen = s.talusOpen := rfl
@[simp] theorem modCluster_cleans (c : Nat) (f : Cluster → Cluster) (s : State) : (modCluster c f s).cleans = s.cleans := rfl
@[simp] theorem modCluster_homes (c : Nat) (f : Cluster → Cluster) (s : State) : (modCluster c f s).homes = s.homes := rfl
@[simp] theorem modCluster_accesses (c : Nat) (f : Cluster → Cluster) (s : State) : (modCluster c f s).accesses = s.accesses := rfl
@[simp] theorem modCluster_logFull (c : Nat) (f : Cluster → Cluster) (s : State) : (modCluster c f s).logFull = s.logFull := rfl
@[simp] theorem modCluster_watch (c : Nat) (f : Cluster → Cluster) (s : State) : (modCluster c f s).watch = s.watch := rfl
@[simp] theorem modCluster_cairns (c : Nat) (f : Cluster → Cluster) (s : State) : (modCluster c f s).cairns = s.cairns := rfl
@[simp] theorem modCluster_rollbs (c : Nat) (f : Cluster → Cluster) (s : State) : (modCluster c f s).rollbs = s.rollbs := rfl
@[simp] theorem modCluster_arms (c : Nat) (f : Cluster → Cluster) (s : State) : (modCluster c f s).arms = s.arms := rfl
@[simp] theorem modCluster_groups (c : Nat) (f : Cluster → Cluster) (s : State) : (modCluster c f s).groups = s.groups := rfl
@[simp] theorem modCluster_replicas (c : Nat) (f : Cluster → Cluster) (s : State) : (modCluster c f s).replicas = s.replicas := rfl
@[simp] theorem modCluster_replica (c : Nat) (f : Cluster → Cluster) (s : State) : (modCluster c f s).replica = s.replica := rfl
@[simp] theorem modCluster_ctxs (c : Nat) (f : Cluster → Cluster) (s : State) : (modCluster c f s).ctxs = s.ctxs := rfl
@[simp] theorem modCluster_mboxes (c : Nat) (f : Cluster → Cluster) (s : State) : (modCluster c f s).mboxes = s.mboxes := rfl
@[simp] theorem modCluster_records (c : Nat) (f : Cluster → Cluster) (s : State) : (modCluster c f s).records = s.records := rfl
@[simp] theorem modCluster_recSeq (c : Nat) (f : Cluster → Cluster) (s : State) : (modCluster c f s).recSeq = s.recSeq := rfl
@[simp] theorem modCluster_launches (c : Nat) (f : Cluster → Cluster) (s : State) : (modCluster c f s).launches = s.launches := rfl
@[simp] theorem modCluster_nextLid (c : Nat) (f : Cluster → Cluster) (s : State) : (modCluster c f s).nextLid = s.nextLid := rfl
@[simp] theorem modCluster_blocks (c : Nat) (f : Cluster → Cluster) (s : State) : (modCluster c f s).blocks = s.blocks := rfl
@[simp] theorem modCluster_nextOrder (c : Nat) (f : Cluster → Cluster) (s : State) : (modCluster c f s).nextOrder = s.nextOrder := rfl
@[simp] theorem modCluster_faults (c : Nat) (f : Cluster → Cluster) (s : State) : (modCluster c f s).faults = s.faults := rfl
@[simp] theorem modCluster_nextToken (c : Nat) (f : Cluster → Cluster) (s : State) : (modCluster c f s).nextToken = s.nextToken := rfl
@[simp] theorem modCluster_fullFq (c : Nat) (f : Cluster → Cluster) (s : State) : (modCluster c f s).fullFq = s.fullFq := rfl
@[simp] theorem modCluster_frames (c : Nat) (f : Cluster → Cluster) (s : State) : (modCluster c f s).frames = s.frames := rfl
@[simp] theorem modCluster_cores (c : Nat) (f : Cluster → Cluster) (s : State) : (modCluster c f s).cores = s.cores := rfl
@[simp] theorem modCluster_inputs (c : Nat) (f : Cluster → Cluster) (s : State) : (modCluster c f s).inputs = s.inputs := rfl
@[simp] theorem modCluster_cur (c : Nat) (f : Cluster → Cluster) (s : State) : (modCluster c f s).cur = s.cur := rfl
@[simp] theorem modCluster_draws (c : Nat) (f : Cluster → Cluster) (s : State) : (modCluster c f s).draws = s.draws := rfl
@[simp] theorem modCluster_badPhys (c : Nat) (f : Cluster → Cluster) (s : State) : (modCluster c f s).badPhys = s.badPhys := rfl

/-! ### `modCore` -/

@[simp] theorem modCore_phase (c : Nat) (f : Core → Core) (s : State) : (modCore c f s).phase = s.phase := rfl
@[simp] theorem modCore_fatal (c : Nat) (f : Core → Core) (s : State) : (modCore c f s).fatal = s.fatal := rfl
@[simp] theorem modCore_lasting (c : Nat) (f : Core → Core) (s : State) : (modCore c f s).lasting = s.lasting := rfl
@[simp] theorem modCore_failed (c : Nat) (f : Core → Core) (s : State) : (modCore c f s).failed = s.failed := rfl
@[simp] theorem modCore_csr (c : Nat) (f : Core → Core) (s : State) : (modCore c f s).csr = s.csr := rfl
@[simp] theorem modCore_rollbacks (c : Nat) (f : Core → Core) (s : State) : (modCore c f s).rollbacks = s.rollbacks := rfl
@[simp] theorem modCore_kills (c : Nat) (f : Core → Core) (s : State) : (modCore c f s).kills = s.kills := rfl
@[simp] theorem modCore_mbxdrop (c : Nat) (f : Core → Core) (s : State) : (modCore c f s).mbxdrop = s.mbxdrop := rfl
@[simp] theorem modCore_reclaimed (c : Nat) (f : Core → Core) (s : State) : (modCore c f s).reclaimed = s.reclaimed := rfl
@[simp] theorem modCore_minFree (c : Nat) (f : Core → Core) (s : State) : (modCore c f s).minFree = s.minFree := rfl
@[simp] theorem modCore_blob (c : Nat) (f : Core → Core) (s : State) : (modCore c f s).blob = s.blob := rfl
@[simp] theorem modCore_flash (c : Nat) (f : Core → Core) (s : State) : (modCore c f s).flash = s.flash := rfl
@[simp] theorem modCore_retired (c : Nat) (f : Core → Core) (s : State) : (modCore c f s).retired = s.retired := rfl
@[simp] theorem modCore_withheld (c : Nat) (f : Core → Core) (s : State) : (modCore c f s).withheld = s.withheld := rfl
@[simp] theorem modCore_meas (c : Nat) (f : Core → Core) (s : State) : (modCore c f s).meas = s.meas := rfl
@[simp] theorem modCore_keys (c : Nat) (f : Core → Core) (s : State) : (modCore c f s).keys = s.keys := rfl
@[simp] theorem modCore_sessions (c : Nat) (f : Core → Core) (s : State) : (modCore c f s).sessions = s.sessions := rfl
@[simp] theorem modCore_ides (c : Nat) (f : Core → Core) (s : State) : (modCore c f s).ides = s.ides := rfl
@[simp] theorem modCore_linkIde (c : Nat) (f : Core → Core) (s : State) : (modCore c f s).linkIde = s.linkIde := rfl
@[simp] theorem modCore_msix (c : Nat) (f : Core → Core) (s : State) : (modCore c f s).msix = s.msix := rfl
@[simp] theorem modCore_harvest (c : Nat) (f : Core → Core) (s : State) : (modCore c f s).harvest = s.harvest := rfl
@[simp] theorem modCore_tdisp (c : Nat) (f : Core → Core) (s : State) : (modCore c f s).tdisp = s.tdisp := rfl
@[simp] theorem modCore_counts (c : Nat) (f : Core → Core) (s : State) : (modCore c f s).counts = s.counts := rfl
@[simp] theorem modCore_totals (c : Nat) (f : Core → Core) (s : State) : (modCore c f s).totals = s.totals := rfl
@[simp] theorem modCore_hours (c : Nat) (f : Core → Core) (s : State) : (modCore c f s).hours = s.hours := rfl
@[simp] theorem modCore_resets (c : Nat) (f : Core → Core) (s : State) : (modCore c f s).resets = s.resets := rfl
@[simp] theorem modCore_power (c : Nat) (f : Core → Core) (s : State) : (modCore c f s).power = s.power := rfl
@[simp] theorem modCore_hottest (c : Nat) (f : Core → Core) (s : State) : (modCore c f s).hottest = s.hottest := rfl
@[simp] theorem modCore_slow (c : Nat) (f : Core → Core) (s : State) : (modCore c f s).slow = s.slow := rfl
@[simp] theorem modCore_throttled (c : Nat) (f : Core → Core) (s : State) : (modCore c f s).throttled = s.throttled := rfl
@[simp] theorem modCore_ports (c : Nat) (f : Core → Core) (s : State) : (modCore c f s).ports = s.ports := rfl
@[simp] theorem modCore_coll (c : Nat) (f : Core → Core) (s : State) : (modCore c f s).coll = s.coll := rfl
@[simp] theorem modCore_collStatus (c : Nat) (f : Core → Core) (s : State) : (modCore c f s).collStatus = s.collStatus := rfl
@[simp] theorem modCore_remoteSeen (c : Nat) (f : Core → Core) (s : State) : (modCore c f s).remoteSeen = s.remoteSeen := rfl
@[simp] theorem modCore_remoteTries (c : Nat) (f : Core → Core) (s : State) : (modCore c f s).remoteTries = s.remoteTries := rfl
@[simp] theorem modCore_nextRemote (c : Nat) (f : Core → Core) (s : State) : (modCore c f s).nextRemote = s.nextRemote := rfl
@[simp] theorem modCore_out (c : Nat) (f : Core → Core) (s : State) : (modCore c f s).out = s.out := rfl
@[simp] theorem modCore_clock (c : Nat) (f : Core → Core) (s : State) : (modCore c f s).clock = s.clock := rfl
@[simp] theorem modCore_epoch (c : Nat) (f : Core → Core) (s : State) : (modCore c f s).epoch = s.epoch := rfl
@[simp] theorem modCore_mem (c : Nat) (f : Core → Core) (s : State) : (modCore c f s).mem = s.mem := rfl
@[simp] theorem modCore_keyOf (c : Nat) (f : Core → Core) (s : State) : (modCore c f s).keyOf = s.keyOf := rfl
@[simp] theorem modCore_bad (c : Nat) (f : Core → Core) (s : State) : (modCore c f s).bad = s.bad := rfl
@[simp] theorem modCore_rows (c : Nat) (f : Core → Core) (s : State) : (modCore c f s).rows = s.rows := rfl
@[simp] theorem modCore_segs (c : Nat) (f : Core → Core) (s : State) : (modCore c f s).segs = s.segs := rfl
@[simp] theorem modCore_segSeq (c : Nat) (f : Core → Core) (s : State) : (modCore c f s).segSeq = s.segSeq := rfl
@[simp] theorem modCore_lastSeg (c : Nat) (f : Core → Core) (s : State) : (modCore c f s).lastSeg = s.lastSeg := rfl
@[simp] theorem modCore_talusOpen (c : Nat) (f : Core → Core) (s : State) : (modCore c f s).talusOpen = s.talusOpen := rfl
@[simp] theorem modCore_cleans (c : Nat) (f : Core → Core) (s : State) : (modCore c f s).cleans = s.cleans := rfl
@[simp] theorem modCore_homes (c : Nat) (f : Core → Core) (s : State) : (modCore c f s).homes = s.homes := rfl
@[simp] theorem modCore_accesses (c : Nat) (f : Core → Core) (s : State) : (modCore c f s).accesses = s.accesses := rfl
@[simp] theorem modCore_logFull (c : Nat) (f : Core → Core) (s : State) : (modCore c f s).logFull = s.logFull := rfl
@[simp] theorem modCore_watch (c : Nat) (f : Core → Core) (s : State) : (modCore c f s).watch = s.watch := rfl
@[simp] theorem modCore_cairns (c : Nat) (f : Core → Core) (s : State) : (modCore c f s).cairns = s.cairns := rfl
@[simp] theorem modCore_rollbs (c : Nat) (f : Core → Core) (s : State) : (modCore c f s).rollbs = s.rollbs := rfl
@[simp] theorem modCore_arms (c : Nat) (f : Core → Core) (s : State) : (modCore c f s).arms = s.arms := rfl
@[simp] theorem modCore_groups (c : Nat) (f : Core → Core) (s : State) : (modCore c f s).groups = s.groups := rfl
@[simp] theorem modCore_replicas (c : Nat) (f : Core → Core) (s : State) : (modCore c f s).replicas = s.replicas := rfl
@[simp] theorem modCore_replica (c : Nat) (f : Core → Core) (s : State) : (modCore c f s).replica = s.replica := rfl
@[simp] theorem modCore_ctxs (c : Nat) (f : Core → Core) (s : State) : (modCore c f s).ctxs = s.ctxs := rfl
@[simp] theorem modCore_mboxes (c : Nat) (f : Core → Core) (s : State) : (modCore c f s).mboxes = s.mboxes := rfl
@[simp] theorem modCore_records (c : Nat) (f : Core → Core) (s : State) : (modCore c f s).records = s.records := rfl
@[simp] theorem modCore_recSeq (c : Nat) (f : Core → Core) (s : State) : (modCore c f s).recSeq = s.recSeq := rfl
@[simp] theorem modCore_launches (c : Nat) (f : Core → Core) (s : State) : (modCore c f s).launches = s.launches := rfl
@[simp] theorem modCore_nextLid (c : Nat) (f : Core → Core) (s : State) : (modCore c f s).nextLid = s.nextLid := rfl
@[simp] theorem modCore_blocks (c : Nat) (f : Core → Core) (s : State) : (modCore c f s).blocks = s.blocks := rfl
@[simp] theorem modCore_nextOrder (c : Nat) (f : Core → Core) (s : State) : (modCore c f s).nextOrder = s.nextOrder := rfl
@[simp] theorem modCore_faults (c : Nat) (f : Core → Core) (s : State) : (modCore c f s).faults = s.faults := rfl
@[simp] theorem modCore_nextToken (c : Nat) (f : Core → Core) (s : State) : (modCore c f s).nextToken = s.nextToken := rfl
@[simp] theorem modCore_fullFq (c : Nat) (f : Core → Core) (s : State) : (modCore c f s).fullFq = s.fullFq := rfl
@[simp] theorem modCore_frames (c : Nat) (f : Core → Core) (s : State) : (modCore c f s).frames = s.frames := rfl
@[simp] theorem modCore_clusters (c : Nat) (f : Core → Core) (s : State) : (modCore c f s).clusters = s.clusters := rfl
@[simp] theorem modCore_inputs (c : Nat) (f : Core → Core) (s : State) : (modCore c f s).inputs = s.inputs := rfl
@[simp] theorem modCore_cur (c : Nat) (f : Core → Core) (s : State) : (modCore c f s).cur = s.cur := rfl
@[simp] theorem modCore_draws (c : Nat) (f : Core → Core) (s : State) : (modCore c f s).draws = s.draws := rfl
@[simp] theorem modCore_badPhys (c : Nat) (f : Core → Core) (s : State) : (modCore c f s).badPhys = s.badPhys := rfl

/-! ### `setCur` -/

@[simp] theorem setCur_phase (c : Option Cur) (s : State) : (setCur c s).phase = s.phase := rfl
@[simp] theorem setCur_fatal (c : Option Cur) (s : State) : (setCur c s).fatal = s.fatal := rfl
@[simp] theorem setCur_lasting (c : Option Cur) (s : State) : (setCur c s).lasting = s.lasting := rfl
@[simp] theorem setCur_failed (c : Option Cur) (s : State) : (setCur c s).failed = s.failed := rfl
@[simp] theorem setCur_csr (c : Option Cur) (s : State) : (setCur c s).csr = s.csr := rfl
@[simp] theorem setCur_rollbacks (c : Option Cur) (s : State) : (setCur c s).rollbacks = s.rollbacks := rfl
@[simp] theorem setCur_kills (c : Option Cur) (s : State) : (setCur c s).kills = s.kills := rfl
@[simp] theorem setCur_mbxdrop (c : Option Cur) (s : State) : (setCur c s).mbxdrop = s.mbxdrop := rfl
@[simp] theorem setCur_reclaimed (c : Option Cur) (s : State) : (setCur c s).reclaimed = s.reclaimed := rfl
@[simp] theorem setCur_minFree (c : Option Cur) (s : State) : (setCur c s).minFree = s.minFree := rfl
@[simp] theorem setCur_blob (c : Option Cur) (s : State) : (setCur c s).blob = s.blob := rfl
@[simp] theorem setCur_flash (c : Option Cur) (s : State) : (setCur c s).flash = s.flash := rfl
@[simp] theorem setCur_retired (c : Option Cur) (s : State) : (setCur c s).retired = s.retired := rfl
@[simp] theorem setCur_withheld (c : Option Cur) (s : State) : (setCur c s).withheld = s.withheld := rfl
@[simp] theorem setCur_meas (c : Option Cur) (s : State) : (setCur c s).meas = s.meas := rfl
@[simp] theorem setCur_keys (c : Option Cur) (s : State) : (setCur c s).keys = s.keys := rfl
@[simp] theorem setCur_sessions (c : Option Cur) (s : State) : (setCur c s).sessions = s.sessions := rfl
@[simp] theorem setCur_ides (c : Option Cur) (s : State) : (setCur c s).ides = s.ides := rfl
@[simp] theorem setCur_linkIde (c : Option Cur) (s : State) : (setCur c s).linkIde = s.linkIde := rfl
@[simp] theorem setCur_msix (c : Option Cur) (s : State) : (setCur c s).msix = s.msix := rfl
@[simp] theorem setCur_harvest (c : Option Cur) (s : State) : (setCur c s).harvest = s.harvest := rfl
@[simp] theorem setCur_tdisp (c : Option Cur) (s : State) : (setCur c s).tdisp = s.tdisp := rfl
@[simp] theorem setCur_counts (c : Option Cur) (s : State) : (setCur c s).counts = s.counts := rfl
@[simp] theorem setCur_totals (c : Option Cur) (s : State) : (setCur c s).totals = s.totals := rfl
@[simp] theorem setCur_hours (c : Option Cur) (s : State) : (setCur c s).hours = s.hours := rfl
@[simp] theorem setCur_resets (c : Option Cur) (s : State) : (setCur c s).resets = s.resets := rfl
@[simp] theorem setCur_power (c : Option Cur) (s : State) : (setCur c s).power = s.power := rfl
@[simp] theorem setCur_hottest (c : Option Cur) (s : State) : (setCur c s).hottest = s.hottest := rfl
@[simp] theorem setCur_slow (c : Option Cur) (s : State) : (setCur c s).slow = s.slow := rfl
@[simp] theorem setCur_throttled (c : Option Cur) (s : State) : (setCur c s).throttled = s.throttled := rfl
@[simp] theorem setCur_ports (c : Option Cur) (s : State) : (setCur c s).ports = s.ports := rfl
@[simp] theorem setCur_coll (c : Option Cur) (s : State) : (setCur c s).coll = s.coll := rfl
@[simp] theorem setCur_collStatus (c : Option Cur) (s : State) : (setCur c s).collStatus = s.collStatus := rfl
@[simp] theorem setCur_remoteSeen (c : Option Cur) (s : State) : (setCur c s).remoteSeen = s.remoteSeen := rfl
@[simp] theorem setCur_remoteTries (c : Option Cur) (s : State) : (setCur c s).remoteTries = s.remoteTries := rfl
@[simp] theorem setCur_nextRemote (c : Option Cur) (s : State) : (setCur c s).nextRemote = s.nextRemote := rfl
@[simp] theorem setCur_out (c : Option Cur) (s : State) : (setCur c s).out = s.out := rfl
@[simp] theorem setCur_clock (c : Option Cur) (s : State) : (setCur c s).clock = s.clock := rfl
@[simp] theorem setCur_epoch (c : Option Cur) (s : State) : (setCur c s).epoch = s.epoch := rfl
@[simp] theorem setCur_mem (c : Option Cur) (s : State) : (setCur c s).mem = s.mem := rfl
@[simp] theorem setCur_keyOf (c : Option Cur) (s : State) : (setCur c s).keyOf = s.keyOf := rfl
@[simp] theorem setCur_bad (c : Option Cur) (s : State) : (setCur c s).bad = s.bad := rfl
@[simp] theorem setCur_rows (c : Option Cur) (s : State) : (setCur c s).rows = s.rows := rfl
@[simp] theorem setCur_segs (c : Option Cur) (s : State) : (setCur c s).segs = s.segs := rfl
@[simp] theorem setCur_segSeq (c : Option Cur) (s : State) : (setCur c s).segSeq = s.segSeq := rfl
@[simp] theorem setCur_lastSeg (c : Option Cur) (s : State) : (setCur c s).lastSeg = s.lastSeg := rfl
@[simp] theorem setCur_talusOpen (c : Option Cur) (s : State) : (setCur c s).talusOpen = s.talusOpen := rfl
@[simp] theorem setCur_cleans (c : Option Cur) (s : State) : (setCur c s).cleans = s.cleans := rfl
@[simp] theorem setCur_homes (c : Option Cur) (s : State) : (setCur c s).homes = s.homes := rfl
@[simp] theorem setCur_accesses (c : Option Cur) (s : State) : (setCur c s).accesses = s.accesses := rfl
@[simp] theorem setCur_logFull (c : Option Cur) (s : State) : (setCur c s).logFull = s.logFull := rfl
@[simp] theorem setCur_watch (c : Option Cur) (s : State) : (setCur c s).watch = s.watch := rfl
@[simp] theorem setCur_cairns (c : Option Cur) (s : State) : (setCur c s).cairns = s.cairns := rfl
@[simp] theorem setCur_rollbs (c : Option Cur) (s : State) : (setCur c s).rollbs = s.rollbs := rfl
@[simp] theorem setCur_arms (c : Option Cur) (s : State) : (setCur c s).arms = s.arms := rfl
@[simp] theorem setCur_groups (c : Option Cur) (s : State) : (setCur c s).groups = s.groups := rfl
@[simp] theorem setCur_replicas (c : Option Cur) (s : State) : (setCur c s).replicas = s.replicas := rfl
@[simp] theorem setCur_replica (c : Option Cur) (s : State) : (setCur c s).replica = s.replica := rfl
@[simp] theorem setCur_ctxs (c : Option Cur) (s : State) : (setCur c s).ctxs = s.ctxs := rfl
@[simp] theorem setCur_mboxes (c : Option Cur) (s : State) : (setCur c s).mboxes = s.mboxes := rfl
@[simp] theorem setCur_records (c : Option Cur) (s : State) : (setCur c s).records = s.records := rfl
@[simp] theorem setCur_recSeq (c : Option Cur) (s : State) : (setCur c s).recSeq = s.recSeq := rfl
@[simp] theorem setCur_launches (c : Option Cur) (s : State) : (setCur c s).launches = s.launches := rfl
@[simp] theorem setCur_nextLid (c : Option Cur) (s : State) : (setCur c s).nextLid = s.nextLid := rfl
@[simp] theorem setCur_blocks (c : Option Cur) (s : State) : (setCur c s).blocks = s.blocks := rfl
@[simp] theorem setCur_nextOrder (c : Option Cur) (s : State) : (setCur c s).nextOrder = s.nextOrder := rfl
@[simp] theorem setCur_faults (c : Option Cur) (s : State) : (setCur c s).faults = s.faults := rfl
@[simp] theorem setCur_nextToken (c : Option Cur) (s : State) : (setCur c s).nextToken = s.nextToken := rfl
@[simp] theorem setCur_fullFq (c : Option Cur) (s : State) : (setCur c s).fullFq = s.fullFq := rfl
@[simp] theorem setCur_frames (c : Option Cur) (s : State) : (setCur c s).frames = s.frames := rfl
@[simp] theorem setCur_clusters (c : Option Cur) (s : State) : (setCur c s).clusters = s.clusters := rfl
@[simp] theorem setCur_cores (c : Option Cur) (s : State) : (setCur c s).cores = s.cores := rfl
@[simp] theorem setCur_inputs (c : Option Cur) (s : State) : (setCur c s).inputs = s.inputs := rfl
@[simp] theorem setCur_draws (c : Option Cur) (s : State) : (setCur c s).draws = s.draws := rfl
@[simp] theorem setCur_badPhys (c : Option Cur) (s : State) : (setCur c s).badPhys = s.badPhys := rfl

@[simp] theorem setCur_cur (c : Option Cur) (s : State) : (setCur c s).cur = c := rfl

/-! ### `Warp.setReg` -/

@[simp] theorem Warp.setReg_lanes (wp : Warp) (n : Name) (l : Nat) (v : BitVec 32) : (wp.setReg n l v).lanes = wp.lanes := rfl
@[simp] theorem Warp.setReg_preds (wp : Warp) (n : Name) (l : Nat) (v : BitVec 32) : (wp.setReg n l v).preds = wp.preds := rfl
@[simp] theorem Warp.setReg_s (wp : Warp) (n : Name) (l : Nat) (v : BitVec 32) : (wp.setReg n l v).s = wp.s := rfl
@[simp] theorem Warp.setReg_g (wp : Warp) (n : Name) (l : Nat) (v : BitVec 32) : (wp.setReg n l v).g = wp.g := rfl
@[simp] theorem Warp.setReg_allot (wp : Warp) (n : Name) (l : Nat) (v : BitVec 32) : (wp.setReg n l v).allot = wp.allot := rfl
@[simp] theorem Warp.setReg_role (wp : Warp) (n : Name) (l : Nat) (v : BitVec 32) : (wp.setReg n l v).role = wp.role := rfl
@[simp] theorem Warp.setReg_slot (wp : Warp) (n : Name) (l : Nat) (v : BitVec 32) : (wp.setReg n l v).slot = wp.slot := rfl
@[simp] theorem Warp.setReg_order (wp : Warp) (n : Name) (l : Nat) (v : BitVec 32) : (wp.setReg n l v).order = wp.order := rfl
@[simp] theorem Warp.setReg_retired (wp : Warp) (n : Name) (l : Nat) (v : BitVec 32) : (wp.setReg n l v).retired = wp.retired := rfl
@[simp] theorem Warp.setReg_acq (wp : Warp) (n : Name) (l : Nat) (v : BitVec 32) : (wp.setReg n l v).acq = wp.acq := rfl
@[simp] theorem Warp.setReg_unack (wp : Warp) (n : Name) (l : Nat) (v : BitVec 32) : (wp.setReg n l v).unack = wp.unack := rfl
@[simp] theorem Warp.setReg_remoteUnack (wp : Warp) (n : Name) (l : Nat) (v : BitVec 32) : (wp.setReg n l v).remoteUnack = wp.remoteUnack := rfl
@[simp] theorem Warp.setReg_remoteHomes (wp : Warp) (n : Name) (l : Nat) (v : BitVec 32) : (wp.setReg n l v).remoteHomes = wp.remoteHomes := rfl
@[simp] theorem Warp.setReg_outs (wp : Warp) (n : Name) (l : Nat) (v : BitVec 32) : (wp.setReg n l v).outs = wp.outs := rfl
@[simp] theorem Warp.setReg_nextOut (wp : Warp) (n : Name) (l : Nat) (v : BitVec 32) : (wp.setReg n l v).nextOut = wp.nextOut := rfl
@[simp] theorem Warp.setReg_marker (wp : Warp) (n : Name) (l : Nat) (v : BitVec 32) : (wp.setReg n l v).marker = wp.marker := rfl
@[simp] theorem Warp.setReg_rel (wp : Warp) (n : Name) (l : Nat) (v : BitVec 32) : (wp.setReg n l v).rel = wp.rel := rfl
@[simp] theorem Warp.setReg_trec (wp : Warp) (n : Name) (l : Nat) (v : BitVec 32) : (wp.setReg n l v).trec = wp.trec := rfl
@[simp] theorem Warp.setReg_tmask (wp : Warp) (n : Name) (l : Nat) (v : BitVec 32) : (wp.setReg n l v).tmask = wp.tmask := rfl
@[simp] theorem Warp.setReg_tpend (wp : Warp) (n : Name) (l : Nat) (v : BitVec 32) : (wp.setReg n l v).tpend = wp.tpend := rfl
@[simp] theorem Warp.setReg_hand (wp : Warp) (n : Name) (l : Nat) (v : BitVec 32) : (wp.setReg n l v).hand = wp.hand := rfl
@[simp] theorem Warp.setReg_sleeps (wp : Warp) (n : Name) (l : Nat) (v : BitVec 32) : (wp.setReg n l v).sleeps = wp.sleeps := rfl
@[simp] theorem Warp.setReg_parks (wp : Warp) (n : Name) (l : Nat) (v : BitVec 32) : (wp.setReg n l v).parks = wp.parks := rfl
@[simp] theorem Warp.setReg_tx (wp : Warp) (n : Name) (l : Nat) (v : BitVec 32) : (wp.setReg n l v).tx = wp.tx := rfl
@[simp] theorem Warp.setReg_det (wp : Warp) (n : Name) (l : Nat) (v : BitVec 32) : (wp.setReg n l v).det = wp.det := rfl
@[simp] theorem Warp.setReg_seqs (wp : Warp) (n : Name) (l : Nat) (v : BitVec 32) : (wp.setReg n l v).seqs = wp.seqs := rfl
@[simp] theorem Warp.setReg_grow (wp : Warp) (n : Name) (l : Nat) (v : BitVec 32) : (wp.setReg n l v).grow = wp.grow := rfl
@[simp] theorem Warp.setReg_stopped (wp : Warp) (n : Name) (l : Nat) (v : BitVec 32) : (wp.setReg n l v).stopped = wp.stopped := rfl
@[simp] theorem Warp.setReg_due (wp : Warp) (n : Name) (l : Nat) (v : BitVec 32) : (wp.setReg n l v).due = wp.due := rfl
@[simp] theorem Warp.setReg_waitOn (wp : Warp) (n : Name) (l : Nat) (v : BitVec 32) : (wp.setReg n l v).waitOn = wp.waitOn := rfl
@[simp] theorem Warp.setReg_evicted (wp : Warp) (n : Name) (l : Nat) (v : BitVec 32) : (wp.setReg n l v).evicted = wp.evicted := rfl
@[simp] theorem Warp.setReg_ended (wp : Warp) (n : Name) (l : Nat) (v : BitVec 32) : (wp.setReg n l v).ended = wp.ended := rfl
@[simp] theorem Warp.setReg_trapping (wp : Warp) (n : Name) (l : Nat) (v : BitVec 32) : (wp.setReg n l v).trapping = wp.trapping := rfl
@[simp] theorem Warp.setReg_late (wp : Warp) (n : Name) (l : Nat) (v : BitVec 32) : (wp.setReg n l v).late = wp.late := rfl
@[simp] theorem Warp.setReg_frozenBy (wp : Warp) (n : Name) (l : Nat) (v : BitVec 32) : (wp.setReg n l v).frozenBy = wp.frozenBy := rfl
@[simp] theorem Warp.setReg_frozenPend (wp : Warp) (n : Name) (l : Nat) (v : BitVec 32) : (wp.setReg n l v).frozenPend = wp.frozenPend := rfl
@[simp] theorem Warp.setReg_fresh (wp : Warp) (n : Name) (l : Nat) (v : BitVec 32) : (wp.setReg n l v).fresh = wp.fresh := rfl
@[simp] theorem Warp.setReg_switched (wp : Warp) (n : Name) (l : Nat) (v : BitVec 32) : (wp.setReg n l v).switched = wp.switched := rfl
@[simp] theorem Warp.setReg_bkpt (wp : Warp) (n : Name) (l : Nat) (v : BitVec 32) : (wp.setReg n l v).bkpt = wp.bkpt := rfl
@[simp] theorem Warp.setReg_stopAt (wp : Warp) (n : Name) (l : Nat) (v : BitVec 32) : (wp.setReg n l v).stopAt = wp.stopAt := rfl

/-! ### `Warp.setReg64` -/

@[simp] theorem Warp.setReg64_lanes (wp : Warp) (n : Name) (l : Nat) (v : BitVec 64) : (wp.setReg64 n l v).lanes = wp.lanes := rfl
@[simp] theorem Warp.setReg64_preds (wp : Warp) (n : Name) (l : Nat) (v : BitVec 64) : (wp.setReg64 n l v).preds = wp.preds := rfl
@[simp] theorem Warp.setReg64_s (wp : Warp) (n : Name) (l : Nat) (v : BitVec 64) : (wp.setReg64 n l v).s = wp.s := rfl
@[simp] theorem Warp.setReg64_g (wp : Warp) (n : Name) (l : Nat) (v : BitVec 64) : (wp.setReg64 n l v).g = wp.g := rfl
@[simp] theorem Warp.setReg64_allot (wp : Warp) (n : Name) (l : Nat) (v : BitVec 64) : (wp.setReg64 n l v).allot = wp.allot := rfl
@[simp] theorem Warp.setReg64_role (wp : Warp) (n : Name) (l : Nat) (v : BitVec 64) : (wp.setReg64 n l v).role = wp.role := rfl
@[simp] theorem Warp.setReg64_slot (wp : Warp) (n : Name) (l : Nat) (v : BitVec 64) : (wp.setReg64 n l v).slot = wp.slot := rfl
@[simp] theorem Warp.setReg64_order (wp : Warp) (n : Name) (l : Nat) (v : BitVec 64) : (wp.setReg64 n l v).order = wp.order := rfl
@[simp] theorem Warp.setReg64_retired (wp : Warp) (n : Name) (l : Nat) (v : BitVec 64) : (wp.setReg64 n l v).retired = wp.retired := rfl
@[simp] theorem Warp.setReg64_acq (wp : Warp) (n : Name) (l : Nat) (v : BitVec 64) : (wp.setReg64 n l v).acq = wp.acq := rfl
@[simp] theorem Warp.setReg64_unack (wp : Warp) (n : Name) (l : Nat) (v : BitVec 64) : (wp.setReg64 n l v).unack = wp.unack := rfl
@[simp] theorem Warp.setReg64_remoteUnack (wp : Warp) (n : Name) (l : Nat) (v : BitVec 64) : (wp.setReg64 n l v).remoteUnack = wp.remoteUnack := rfl
@[simp] theorem Warp.setReg64_remoteHomes (wp : Warp) (n : Name) (l : Nat) (v : BitVec 64) : (wp.setReg64 n l v).remoteHomes = wp.remoteHomes := rfl
@[simp] theorem Warp.setReg64_outs (wp : Warp) (n : Name) (l : Nat) (v : BitVec 64) : (wp.setReg64 n l v).outs = wp.outs := rfl
@[simp] theorem Warp.setReg64_nextOut (wp : Warp) (n : Name) (l : Nat) (v : BitVec 64) : (wp.setReg64 n l v).nextOut = wp.nextOut := rfl
@[simp] theorem Warp.setReg64_marker (wp : Warp) (n : Name) (l : Nat) (v : BitVec 64) : (wp.setReg64 n l v).marker = wp.marker := rfl
@[simp] theorem Warp.setReg64_rel (wp : Warp) (n : Name) (l : Nat) (v : BitVec 64) : (wp.setReg64 n l v).rel = wp.rel := rfl
@[simp] theorem Warp.setReg64_trec (wp : Warp) (n : Name) (l : Nat) (v : BitVec 64) : (wp.setReg64 n l v).trec = wp.trec := rfl
@[simp] theorem Warp.setReg64_tmask (wp : Warp) (n : Name) (l : Nat) (v : BitVec 64) : (wp.setReg64 n l v).tmask = wp.tmask := rfl
@[simp] theorem Warp.setReg64_tpend (wp : Warp) (n : Name) (l : Nat) (v : BitVec 64) : (wp.setReg64 n l v).tpend = wp.tpend := rfl
@[simp] theorem Warp.setReg64_hand (wp : Warp) (n : Name) (l : Nat) (v : BitVec 64) : (wp.setReg64 n l v).hand = wp.hand := rfl
@[simp] theorem Warp.setReg64_sleeps (wp : Warp) (n : Name) (l : Nat) (v : BitVec 64) : (wp.setReg64 n l v).sleeps = wp.sleeps := rfl
@[simp] theorem Warp.setReg64_parks (wp : Warp) (n : Name) (l : Nat) (v : BitVec 64) : (wp.setReg64 n l v).parks = wp.parks := rfl
@[simp] theorem Warp.setReg64_tx (wp : Warp) (n : Name) (l : Nat) (v : BitVec 64) : (wp.setReg64 n l v).tx = wp.tx := rfl
@[simp] theorem Warp.setReg64_det (wp : Warp) (n : Name) (l : Nat) (v : BitVec 64) : (wp.setReg64 n l v).det = wp.det := rfl
@[simp] theorem Warp.setReg64_seqs (wp : Warp) (n : Name) (l : Nat) (v : BitVec 64) : (wp.setReg64 n l v).seqs = wp.seqs := rfl
@[simp] theorem Warp.setReg64_grow (wp : Warp) (n : Name) (l : Nat) (v : BitVec 64) : (wp.setReg64 n l v).grow = wp.grow := rfl
@[simp] theorem Warp.setReg64_stopped (wp : Warp) (n : Name) (l : Nat) (v : BitVec 64) : (wp.setReg64 n l v).stopped = wp.stopped := rfl
@[simp] theorem Warp.setReg64_due (wp : Warp) (n : Name) (l : Nat) (v : BitVec 64) : (wp.setReg64 n l v).due = wp.due := rfl
@[simp] theorem Warp.setReg64_waitOn (wp : Warp) (n : Name) (l : Nat) (v : BitVec 64) : (wp.setReg64 n l v).waitOn = wp.waitOn := rfl
@[simp] theorem Warp.setReg64_evicted (wp : Warp) (n : Name) (l : Nat) (v : BitVec 64) : (wp.setReg64 n l v).evicted = wp.evicted := rfl
@[simp] theorem Warp.setReg64_ended (wp : Warp) (n : Name) (l : Nat) (v : BitVec 64) : (wp.setReg64 n l v).ended = wp.ended := rfl
@[simp] theorem Warp.setReg64_trapping (wp : Warp) (n : Name) (l : Nat) (v : BitVec 64) : (wp.setReg64 n l v).trapping = wp.trapping := rfl
@[simp] theorem Warp.setReg64_late (wp : Warp) (n : Name) (l : Nat) (v : BitVec 64) : (wp.setReg64 n l v).late = wp.late := rfl
@[simp] theorem Warp.setReg64_frozenBy (wp : Warp) (n : Name) (l : Nat) (v : BitVec 64) : (wp.setReg64 n l v).frozenBy = wp.frozenBy := rfl
@[simp] theorem Warp.setReg64_frozenPend (wp : Warp) (n : Name) (l : Nat) (v : BitVec 64) : (wp.setReg64 n l v).frozenPend = wp.frozenPend := rfl
@[simp] theorem Warp.setReg64_fresh (wp : Warp) (n : Name) (l : Nat) (v : BitVec 64) : (wp.setReg64 n l v).fresh = wp.fresh := rfl
@[simp] theorem Warp.setReg64_switched (wp : Warp) (n : Name) (l : Nat) (v : BitVec 64) : (wp.setReg64 n l v).switched = wp.switched := rfl
@[simp] theorem Warp.setReg64_bkpt (wp : Warp) (n : Name) (l : Nat) (v : BitVec 64) : (wp.setReg64 n l v).bkpt = wp.bkpt := rfl
@[simp] theorem Warp.setReg64_stopAt (wp : Warp) (n : Name) (l : Nat) (v : BitVec 64) : (wp.setReg64 n l v).stopAt = wp.stopAt := rfl

/-! ### `Warp.setPred` -/

@[simp] theorem Warp.setPred_lanes (wp : Warp) (p : BitVec 3) (l : Nat) (v : Bool) : (wp.setPred p l v).lanes = wp.lanes := by unfold Warp.setPred; split <;> rfl
@[simp] theorem Warp.setPred_regs (wp : Warp) (p : BitVec 3) (l : Nat) (v : Bool) : (wp.setPred p l v).regs = wp.regs := by unfold Warp.setPred; split <;> rfl
@[simp] theorem Warp.setPred_s (wp : Warp) (p : BitVec 3) (l : Nat) (v : Bool) : (wp.setPred p l v).s = wp.s := by unfold Warp.setPred; split <;> rfl
@[simp] theorem Warp.setPred_g (wp : Warp) (p : BitVec 3) (l : Nat) (v : Bool) : (wp.setPred p l v).g = wp.g := by unfold Warp.setPred; split <;> rfl
@[simp] theorem Warp.setPred_allot (wp : Warp) (p : BitVec 3) (l : Nat) (v : Bool) : (wp.setPred p l v).allot = wp.allot := by unfold Warp.setPred; split <;> rfl
@[simp] theorem Warp.setPred_role (wp : Warp) (p : BitVec 3) (l : Nat) (v : Bool) : (wp.setPred p l v).role = wp.role := by unfold Warp.setPred; split <;> rfl
@[simp] theorem Warp.setPred_slot (wp : Warp) (p : BitVec 3) (l : Nat) (v : Bool) : (wp.setPred p l v).slot = wp.slot := by unfold Warp.setPred; split <;> rfl
@[simp] theorem Warp.setPred_order (wp : Warp) (p : BitVec 3) (l : Nat) (v : Bool) : (wp.setPred p l v).order = wp.order := by unfold Warp.setPred; split <;> rfl
@[simp] theorem Warp.setPred_retired (wp : Warp) (p : BitVec 3) (l : Nat) (v : Bool) : (wp.setPred p l v).retired = wp.retired := by unfold Warp.setPred; split <;> rfl
@[simp] theorem Warp.setPred_acq (wp : Warp) (p : BitVec 3) (l : Nat) (v : Bool) : (wp.setPred p l v).acq = wp.acq := by unfold Warp.setPred; split <;> rfl
@[simp] theorem Warp.setPred_unack (wp : Warp) (p : BitVec 3) (l : Nat) (v : Bool) : (wp.setPred p l v).unack = wp.unack := by unfold Warp.setPred; split <;> rfl
@[simp] theorem Warp.setPred_remoteUnack (wp : Warp) (p : BitVec 3) (l : Nat) (v : Bool) : (wp.setPred p l v).remoteUnack = wp.remoteUnack := by unfold Warp.setPred; split <;> rfl
@[simp] theorem Warp.setPred_remoteHomes (wp : Warp) (p : BitVec 3) (l : Nat) (v : Bool) : (wp.setPred p l v).remoteHomes = wp.remoteHomes := by unfold Warp.setPred; split <;> rfl
@[simp] theorem Warp.setPred_outs (wp : Warp) (p : BitVec 3) (l : Nat) (v : Bool) : (wp.setPred p l v).outs = wp.outs := by unfold Warp.setPred; split <;> rfl
@[simp] theorem Warp.setPred_nextOut (wp : Warp) (p : BitVec 3) (l : Nat) (v : Bool) : (wp.setPred p l v).nextOut = wp.nextOut := by unfold Warp.setPred; split <;> rfl
@[simp] theorem Warp.setPred_marker (wp : Warp) (p : BitVec 3) (l : Nat) (v : Bool) : (wp.setPred p l v).marker = wp.marker := by unfold Warp.setPred; split <;> rfl
@[simp] theorem Warp.setPred_rel (wp : Warp) (p : BitVec 3) (l : Nat) (v : Bool) : (wp.setPred p l v).rel = wp.rel := by unfold Warp.setPred; split <;> rfl
@[simp] theorem Warp.setPred_trec (wp : Warp) (p : BitVec 3) (l : Nat) (v : Bool) : (wp.setPred p l v).trec = wp.trec := by unfold Warp.setPred; split <;> rfl
@[simp] theorem Warp.setPred_tmask (wp : Warp) (p : BitVec 3) (l : Nat) (v : Bool) : (wp.setPred p l v).tmask = wp.tmask := by unfold Warp.setPred; split <;> rfl
@[simp] theorem Warp.setPred_tpend (wp : Warp) (p : BitVec 3) (l : Nat) (v : Bool) : (wp.setPred p l v).tpend = wp.tpend := by unfold Warp.setPred; split <;> rfl
@[simp] theorem Warp.setPred_hand (wp : Warp) (p : BitVec 3) (l : Nat) (v : Bool) : (wp.setPred p l v).hand = wp.hand := by unfold Warp.setPred; split <;> rfl
@[simp] theorem Warp.setPred_sleeps (wp : Warp) (p : BitVec 3) (l : Nat) (v : Bool) : (wp.setPred p l v).sleeps = wp.sleeps := by unfold Warp.setPred; split <;> rfl
@[simp] theorem Warp.setPred_parks (wp : Warp) (p : BitVec 3) (l : Nat) (v : Bool) : (wp.setPred p l v).parks = wp.parks := by unfold Warp.setPred; split <;> rfl
@[simp] theorem Warp.setPred_tx (wp : Warp) (p : BitVec 3) (l : Nat) (v : Bool) : (wp.setPred p l v).tx = wp.tx := by unfold Warp.setPred; split <;> rfl
@[simp] theorem Warp.setPred_det (wp : Warp) (p : BitVec 3) (l : Nat) (v : Bool) : (wp.setPred p l v).det = wp.det := by unfold Warp.setPred; split <;> rfl
@[simp] theorem Warp.setPred_seqs (wp : Warp) (p : BitVec 3) (l : Nat) (v : Bool) : (wp.setPred p l v).seqs = wp.seqs := by unfold Warp.setPred; split <;> rfl
@[simp] theorem Warp.setPred_grow (wp : Warp) (p : BitVec 3) (l : Nat) (v : Bool) : (wp.setPred p l v).grow = wp.grow := by unfold Warp.setPred; split <;> rfl
@[simp] theorem Warp.setPred_stopped (wp : Warp) (p : BitVec 3) (l : Nat) (v : Bool) : (wp.setPred p l v).stopped = wp.stopped := by unfold Warp.setPred; split <;> rfl
@[simp] theorem Warp.setPred_due (wp : Warp) (p : BitVec 3) (l : Nat) (v : Bool) : (wp.setPred p l v).due = wp.due := by unfold Warp.setPred; split <;> rfl
@[simp] theorem Warp.setPred_waitOn (wp : Warp) (p : BitVec 3) (l : Nat) (v : Bool) : (wp.setPred p l v).waitOn = wp.waitOn := by unfold Warp.setPred; split <;> rfl
@[simp] theorem Warp.setPred_evicted (wp : Warp) (p : BitVec 3) (l : Nat) (v : Bool) : (wp.setPred p l v).evicted = wp.evicted := by unfold Warp.setPred; split <;> rfl
@[simp] theorem Warp.setPred_ended (wp : Warp) (p : BitVec 3) (l : Nat) (v : Bool) : (wp.setPred p l v).ended = wp.ended := by unfold Warp.setPred; split <;> rfl
@[simp] theorem Warp.setPred_trapping (wp : Warp) (p : BitVec 3) (l : Nat) (v : Bool) : (wp.setPred p l v).trapping = wp.trapping := by unfold Warp.setPred; split <;> rfl
@[simp] theorem Warp.setPred_late (wp : Warp) (p : BitVec 3) (l : Nat) (v : Bool) : (wp.setPred p l v).late = wp.late := by unfold Warp.setPred; split <;> rfl
@[simp] theorem Warp.setPred_frozenBy (wp : Warp) (p : BitVec 3) (l : Nat) (v : Bool) : (wp.setPred p l v).frozenBy = wp.frozenBy := by unfold Warp.setPred; split <;> rfl
@[simp] theorem Warp.setPred_frozenPend (wp : Warp) (p : BitVec 3) (l : Nat) (v : Bool) : (wp.setPred p l v).frozenPend = wp.frozenPend := by unfold Warp.setPred; split <;> rfl
@[simp] theorem Warp.setPred_fresh (wp : Warp) (p : BitVec 3) (l : Nat) (v : Bool) : (wp.setPred p l v).fresh = wp.fresh := by unfold Warp.setPred; split <;> rfl
@[simp] theorem Warp.setPred_switched (wp : Warp) (p : BitVec 3) (l : Nat) (v : Bool) : (wp.setPred p l v).switched = wp.switched := by unfold Warp.setPred; split <;> rfl
@[simp] theorem Warp.setPred_bkpt (wp : Warp) (p : BitVec 3) (l : Nat) (v : Bool) : (wp.setPred p l v).bkpt = wp.bkpt := by unfold Warp.setPred; split <;> rfl
@[simp] theorem Warp.setPred_stopAt (wp : Warp) (p : BitVec 3) (l : Nat) (v : Bool) : (wp.setPred p l v).stopAt = wp.stopAt := by unfold Warp.setPred; split <;> rfl

/-! ### `Warp.setS` -/

@[simp] theorem Warp.setS_lanes (wp : Warp) (n : Name) (v : BitVec 64) : (wp.setS n v).lanes = wp.lanes := rfl
@[simp] theorem Warp.setS_regs (wp : Warp) (n : Name) (v : BitVec 64) : (wp.setS n v).regs = wp.regs := rfl
@[simp] theorem Warp.setS_preds (wp : Warp) (n : Name) (v : BitVec 64) : (wp.setS n v).preds = wp.preds := rfl
@[simp] theorem Warp.setS_g (wp : Warp) (n : Name) (v : BitVec 64) : (wp.setS n v).g = wp.g := rfl
@[simp] theorem Warp.setS_allot (wp : Warp) (n : Name) (v : BitVec 64) : (wp.setS n v).allot = wp.allot := rfl
@[simp] theorem Warp.setS_role (wp : Warp) (n : Name) (v : BitVec 64) : (wp.setS n v).role = wp.role := rfl
@[simp] theorem Warp.setS_slot (wp : Warp) (n : Name) (v : BitVec 64) : (wp.setS n v).slot = wp.slot := rfl
@[simp] theorem Warp.setS_order (wp : Warp) (n : Name) (v : BitVec 64) : (wp.setS n v).order = wp.order := rfl
@[simp] theorem Warp.setS_retired (wp : Warp) (n : Name) (v : BitVec 64) : (wp.setS n v).retired = wp.retired := rfl
@[simp] theorem Warp.setS_acq (wp : Warp) (n : Name) (v : BitVec 64) : (wp.setS n v).acq = wp.acq := rfl
@[simp] theorem Warp.setS_unack (wp : Warp) (n : Name) (v : BitVec 64) : (wp.setS n v).unack = wp.unack := rfl
@[simp] theorem Warp.setS_remoteUnack (wp : Warp) (n : Name) (v : BitVec 64) : (wp.setS n v).remoteUnack = wp.remoteUnack := rfl
@[simp] theorem Warp.setS_remoteHomes (wp : Warp) (n : Name) (v : BitVec 64) : (wp.setS n v).remoteHomes = wp.remoteHomes := rfl
@[simp] theorem Warp.setS_outs (wp : Warp) (n : Name) (v : BitVec 64) : (wp.setS n v).outs = wp.outs := rfl
@[simp] theorem Warp.setS_nextOut (wp : Warp) (n : Name) (v : BitVec 64) : (wp.setS n v).nextOut = wp.nextOut := rfl
@[simp] theorem Warp.setS_marker (wp : Warp) (n : Name) (v : BitVec 64) : (wp.setS n v).marker = wp.marker := rfl
@[simp] theorem Warp.setS_rel (wp : Warp) (n : Name) (v : BitVec 64) : (wp.setS n v).rel = wp.rel := rfl
@[simp] theorem Warp.setS_trec (wp : Warp) (n : Name) (v : BitVec 64) : (wp.setS n v).trec = wp.trec := rfl
@[simp] theorem Warp.setS_tmask (wp : Warp) (n : Name) (v : BitVec 64) : (wp.setS n v).tmask = wp.tmask := rfl
@[simp] theorem Warp.setS_tpend (wp : Warp) (n : Name) (v : BitVec 64) : (wp.setS n v).tpend = wp.tpend := rfl
@[simp] theorem Warp.setS_hand (wp : Warp) (n : Name) (v : BitVec 64) : (wp.setS n v).hand = wp.hand := rfl
@[simp] theorem Warp.setS_sleeps (wp : Warp) (n : Name) (v : BitVec 64) : (wp.setS n v).sleeps = wp.sleeps := rfl
@[simp] theorem Warp.setS_parks (wp : Warp) (n : Name) (v : BitVec 64) : (wp.setS n v).parks = wp.parks := rfl
@[simp] theorem Warp.setS_tx (wp : Warp) (n : Name) (v : BitVec 64) : (wp.setS n v).tx = wp.tx := rfl
@[simp] theorem Warp.setS_det (wp : Warp) (n : Name) (v : BitVec 64) : (wp.setS n v).det = wp.det := rfl
@[simp] theorem Warp.setS_seqs (wp : Warp) (n : Name) (v : BitVec 64) : (wp.setS n v).seqs = wp.seqs := rfl
@[simp] theorem Warp.setS_grow (wp : Warp) (n : Name) (v : BitVec 64) : (wp.setS n v).grow = wp.grow := rfl
@[simp] theorem Warp.setS_stopped (wp : Warp) (n : Name) (v : BitVec 64) : (wp.setS n v).stopped = wp.stopped := rfl
@[simp] theorem Warp.setS_due (wp : Warp) (n : Name) (v : BitVec 64) : (wp.setS n v).due = wp.due := rfl
@[simp] theorem Warp.setS_waitOn (wp : Warp) (n : Name) (v : BitVec 64) : (wp.setS n v).waitOn = wp.waitOn := rfl
@[simp] theorem Warp.setS_evicted (wp : Warp) (n : Name) (v : BitVec 64) : (wp.setS n v).evicted = wp.evicted := rfl
@[simp] theorem Warp.setS_ended (wp : Warp) (n : Name) (v : BitVec 64) : (wp.setS n v).ended = wp.ended := rfl
@[simp] theorem Warp.setS_trapping (wp : Warp) (n : Name) (v : BitVec 64) : (wp.setS n v).trapping = wp.trapping := rfl
@[simp] theorem Warp.setS_late (wp : Warp) (n : Name) (v : BitVec 64) : (wp.setS n v).late = wp.late := rfl
@[simp] theorem Warp.setS_frozenBy (wp : Warp) (n : Name) (v : BitVec 64) : (wp.setS n v).frozenBy = wp.frozenBy := rfl
@[simp] theorem Warp.setS_frozenPend (wp : Warp) (n : Name) (v : BitVec 64) : (wp.setS n v).frozenPend = wp.frozenPend := rfl
@[simp] theorem Warp.setS_fresh (wp : Warp) (n : Name) (v : BitVec 64) : (wp.setS n v).fresh = wp.fresh := rfl
@[simp] theorem Warp.setS_switched (wp : Warp) (n : Name) (v : BitVec 64) : (wp.setS n v).switched = wp.switched := rfl
@[simp] theorem Warp.setS_bkpt (wp : Warp) (n : Name) (v : BitVec 64) : (wp.setS n v).bkpt = wp.bkpt := rfl
@[simp] theorem Warp.setS_stopAt (wp : Warp) (n : Name) (v : BitVec 64) : (wp.setS n v).stopAt = wp.stopAt := rfl

/-! ### `Warp.setG` -/

@[simp] theorem Warp.setG_lanes (wp : Warp) (g : BitVec 3) (v : Bool) : (wp.setG g v).lanes = wp.lanes := by unfold Warp.setG; split <;> rfl
@[simp] theorem Warp.setG_regs (wp : Warp) (g : BitVec 3) (v : Bool) : (wp.setG g v).regs = wp.regs := by unfold Warp.setG; split <;> rfl
@[simp] theorem Warp.setG_preds (wp : Warp) (g : BitVec 3) (v : Bool) : (wp.setG g v).preds = wp.preds := by unfold Warp.setG; split <;> rfl
@[simp] theorem Warp.setG_s (wp : Warp) (g : BitVec 3) (v : Bool) : (wp.setG g v).s = wp.s := by unfold Warp.setG; split <;> rfl
@[simp] theorem Warp.setG_allot (wp : Warp) (g : BitVec 3) (v : Bool) : (wp.setG g v).allot = wp.allot := by unfold Warp.setG; split <;> rfl
@[simp] theorem Warp.setG_role (wp : Warp) (g : BitVec 3) (v : Bool) : (wp.setG g v).role = wp.role := by unfold Warp.setG; split <;> rfl
@[simp] theorem Warp.setG_slot (wp : Warp) (g : BitVec 3) (v : Bool) : (wp.setG g v).slot = wp.slot := by unfold Warp.setG; split <;> rfl
@[simp] theorem Warp.setG_order (wp : Warp) (g : BitVec 3) (v : Bool) : (wp.setG g v).order = wp.order := by unfold Warp.setG; split <;> rfl
@[simp] theorem Warp.setG_retired (wp : Warp) (g : BitVec 3) (v : Bool) : (wp.setG g v).retired = wp.retired := by unfold Warp.setG; split <;> rfl
@[simp] theorem Warp.setG_acq (wp : Warp) (g : BitVec 3) (v : Bool) : (wp.setG g v).acq = wp.acq := by unfold Warp.setG; split <;> rfl
@[simp] theorem Warp.setG_unack (wp : Warp) (g : BitVec 3) (v : Bool) : (wp.setG g v).unack = wp.unack := by unfold Warp.setG; split <;> rfl
@[simp] theorem Warp.setG_remoteUnack (wp : Warp) (g : BitVec 3) (v : Bool) : (wp.setG g v).remoteUnack = wp.remoteUnack := by unfold Warp.setG; split <;> rfl
@[simp] theorem Warp.setG_remoteHomes (wp : Warp) (g : BitVec 3) (v : Bool) : (wp.setG g v).remoteHomes = wp.remoteHomes := by unfold Warp.setG; split <;> rfl
@[simp] theorem Warp.setG_outs (wp : Warp) (g : BitVec 3) (v : Bool) : (wp.setG g v).outs = wp.outs := by unfold Warp.setG; split <;> rfl
@[simp] theorem Warp.setG_nextOut (wp : Warp) (g : BitVec 3) (v : Bool) : (wp.setG g v).nextOut = wp.nextOut := by unfold Warp.setG; split <;> rfl
@[simp] theorem Warp.setG_marker (wp : Warp) (g : BitVec 3) (v : Bool) : (wp.setG g v).marker = wp.marker := by unfold Warp.setG; split <;> rfl
@[simp] theorem Warp.setG_rel (wp : Warp) (g : BitVec 3) (v : Bool) : (wp.setG g v).rel = wp.rel := by unfold Warp.setG; split <;> rfl
@[simp] theorem Warp.setG_trec (wp : Warp) (g : BitVec 3) (v : Bool) : (wp.setG g v).trec = wp.trec := by unfold Warp.setG; split <;> rfl
@[simp] theorem Warp.setG_tmask (wp : Warp) (g : BitVec 3) (v : Bool) : (wp.setG g v).tmask = wp.tmask := by unfold Warp.setG; split <;> rfl
@[simp] theorem Warp.setG_tpend (wp : Warp) (g : BitVec 3) (v : Bool) : (wp.setG g v).tpend = wp.tpend := by unfold Warp.setG; split <;> rfl
@[simp] theorem Warp.setG_hand (wp : Warp) (g : BitVec 3) (v : Bool) : (wp.setG g v).hand = wp.hand := by unfold Warp.setG; split <;> rfl
@[simp] theorem Warp.setG_sleeps (wp : Warp) (g : BitVec 3) (v : Bool) : (wp.setG g v).sleeps = wp.sleeps := by unfold Warp.setG; split <;> rfl
@[simp] theorem Warp.setG_parks (wp : Warp) (g : BitVec 3) (v : Bool) : (wp.setG g v).parks = wp.parks := by unfold Warp.setG; split <;> rfl
@[simp] theorem Warp.setG_tx (wp : Warp) (g : BitVec 3) (v : Bool) : (wp.setG g v).tx = wp.tx := by unfold Warp.setG; split <;> rfl
@[simp] theorem Warp.setG_det (wp : Warp) (g : BitVec 3) (v : Bool) : (wp.setG g v).det = wp.det := by unfold Warp.setG; split <;> rfl
@[simp] theorem Warp.setG_seqs (wp : Warp) (g : BitVec 3) (v : Bool) : (wp.setG g v).seqs = wp.seqs := by unfold Warp.setG; split <;> rfl
@[simp] theorem Warp.setG_grow (wp : Warp) (g : BitVec 3) (v : Bool) : (wp.setG g v).grow = wp.grow := by unfold Warp.setG; split <;> rfl
@[simp] theorem Warp.setG_stopped (wp : Warp) (g : BitVec 3) (v : Bool) : (wp.setG g v).stopped = wp.stopped := by unfold Warp.setG; split <;> rfl
@[simp] theorem Warp.setG_due (wp : Warp) (g : BitVec 3) (v : Bool) : (wp.setG g v).due = wp.due := by unfold Warp.setG; split <;> rfl
@[simp] theorem Warp.setG_waitOn (wp : Warp) (g : BitVec 3) (v : Bool) : (wp.setG g v).waitOn = wp.waitOn := by unfold Warp.setG; split <;> rfl
@[simp] theorem Warp.setG_evicted (wp : Warp) (g : BitVec 3) (v : Bool) : (wp.setG g v).evicted = wp.evicted := by unfold Warp.setG; split <;> rfl
@[simp] theorem Warp.setG_ended (wp : Warp) (g : BitVec 3) (v : Bool) : (wp.setG g v).ended = wp.ended := by unfold Warp.setG; split <;> rfl
@[simp] theorem Warp.setG_trapping (wp : Warp) (g : BitVec 3) (v : Bool) : (wp.setG g v).trapping = wp.trapping := by unfold Warp.setG; split <;> rfl
@[simp] theorem Warp.setG_late (wp : Warp) (g : BitVec 3) (v : Bool) : (wp.setG g v).late = wp.late := by unfold Warp.setG; split <;> rfl
@[simp] theorem Warp.setG_frozenBy (wp : Warp) (g : BitVec 3) (v : Bool) : (wp.setG g v).frozenBy = wp.frozenBy := by unfold Warp.setG; split <;> rfl
@[simp] theorem Warp.setG_frozenPend (wp : Warp) (g : BitVec 3) (v : Bool) : (wp.setG g v).frozenPend = wp.frozenPend := by unfold Warp.setG; split <;> rfl
@[simp] theorem Warp.setG_fresh (wp : Warp) (g : BitVec 3) (v : Bool) : (wp.setG g v).fresh = wp.fresh := by unfold Warp.setG; split <;> rfl
@[simp] theorem Warp.setG_switched (wp : Warp) (g : BitVec 3) (v : Bool) : (wp.setG g v).switched = wp.switched := by unfold Warp.setG; split <;> rfl
@[simp] theorem Warp.setG_bkpt (wp : Warp) (g : BitVec 3) (v : Bool) : (wp.setG g v).bkpt = wp.bkpt := by unfold Warp.setG; split <;> rfl
@[simp] theorem Warp.setG_stopAt (wp : Warp) (g : BitVec 3) (v : Bool) : (wp.setG g v).stopAt = wp.stopAt := by unfold Warp.setG; split <;> rfl

/-! ### `Warp.setLanes` -/

@[simp] theorem Warp.setLanes_regs (wp : Warp) (m : Lanes) (f : Lane → Lane) : (wp.setLanes m f).regs = wp.regs := rfl
@[simp] theorem Warp.setLanes_preds (wp : Warp) (m : Lanes) (f : Lane → Lane) : (wp.setLanes m f).preds = wp.preds := rfl
@[simp] theorem Warp.setLanes_s (wp : Warp) (m : Lanes) (f : Lane → Lane) : (wp.setLanes m f).s = wp.s := rfl
@[simp] theorem Warp.setLanes_g (wp : Warp) (m : Lanes) (f : Lane → Lane) : (wp.setLanes m f).g = wp.g := rfl
@[simp] theorem Warp.setLanes_allot (wp : Warp) (m : Lanes) (f : Lane → Lane) : (wp.setLanes m f).allot = wp.allot := rfl
@[simp] theorem Warp.setLanes_role (wp : Warp) (m : Lanes) (f : Lane → Lane) : (wp.setLanes m f).role = wp.role := rfl
@[simp] theorem Warp.setLanes_slot (wp : Warp) (m : Lanes) (f : Lane → Lane) : (wp.setLanes m f).slot = wp.slot := rfl
@[simp] theorem Warp.setLanes_order (wp : Warp) (m : Lanes) (f : Lane → Lane) : (wp.setLanes m f).order = wp.order := rfl
@[simp] theorem Warp.setLanes_retired (wp : Warp) (m : Lanes) (f : Lane → Lane) : (wp.setLanes m f).retired = wp.retired := rfl
@[simp] theorem Warp.setLanes_acq (wp : Warp) (m : Lanes) (f : Lane → Lane) : (wp.setLanes m f).acq = wp.acq := rfl
@[simp] theorem Warp.setLanes_unack (wp : Warp) (m : Lanes) (f : Lane → Lane) : (wp.setLanes m f).unack = wp.unack := rfl
@[simp] theorem Warp.setLanes_remoteUnack (wp : Warp) (m : Lanes) (f : Lane → Lane) : (wp.setLanes m f).remoteUnack = wp.remoteUnack := rfl
@[simp] theorem Warp.setLanes_remoteHomes (wp : Warp) (m : Lanes) (f : Lane → Lane) : (wp.setLanes m f).remoteHomes = wp.remoteHomes := rfl
@[simp] theorem Warp.setLanes_outs (wp : Warp) (m : Lanes) (f : Lane → Lane) : (wp.setLanes m f).outs = wp.outs := rfl
@[simp] theorem Warp.setLanes_nextOut (wp : Warp) (m : Lanes) (f : Lane → Lane) : (wp.setLanes m f).nextOut = wp.nextOut := rfl
@[simp] theorem Warp.setLanes_marker (wp : Warp) (m : Lanes) (f : Lane → Lane) : (wp.setLanes m f).marker = wp.marker := rfl
@[simp] theorem Warp.setLanes_rel (wp : Warp) (m : Lanes) (f : Lane → Lane) : (wp.setLanes m f).rel = wp.rel := rfl
@[simp] theorem Warp.setLanes_trec (wp : Warp) (m : Lanes) (f : Lane → Lane) : (wp.setLanes m f).trec = wp.trec := rfl
@[simp] theorem Warp.setLanes_tmask (wp : Warp) (m : Lanes) (f : Lane → Lane) : (wp.setLanes m f).tmask = wp.tmask := rfl
@[simp] theorem Warp.setLanes_tpend (wp : Warp) (m : Lanes) (f : Lane → Lane) : (wp.setLanes m f).tpend = wp.tpend := rfl
@[simp] theorem Warp.setLanes_hand (wp : Warp) (m : Lanes) (f : Lane → Lane) : (wp.setLanes m f).hand = wp.hand := rfl
@[simp] theorem Warp.setLanes_sleeps (wp : Warp) (m : Lanes) (f : Lane → Lane) : (wp.setLanes m f).sleeps = wp.sleeps := rfl
@[simp] theorem Warp.setLanes_parks (wp : Warp) (m : Lanes) (f : Lane → Lane) : (wp.setLanes m f).parks = wp.parks := rfl
@[simp] theorem Warp.setLanes_tx (wp : Warp) (m : Lanes) (f : Lane → Lane) : (wp.setLanes m f).tx = wp.tx := rfl
@[simp] theorem Warp.setLanes_det (wp : Warp) (m : Lanes) (f : Lane → Lane) : (wp.setLanes m f).det = wp.det := rfl
@[simp] theorem Warp.setLanes_seqs (wp : Warp) (m : Lanes) (f : Lane → Lane) : (wp.setLanes m f).seqs = wp.seqs := rfl
@[simp] theorem Warp.setLanes_grow (wp : Warp) (m : Lanes) (f : Lane → Lane) : (wp.setLanes m f).grow = wp.grow := rfl
@[simp] theorem Warp.setLanes_stopped (wp : Warp) (m : Lanes) (f : Lane → Lane) : (wp.setLanes m f).stopped = wp.stopped := rfl
@[simp] theorem Warp.setLanes_due (wp : Warp) (m : Lanes) (f : Lane → Lane) : (wp.setLanes m f).due = wp.due := rfl
@[simp] theorem Warp.setLanes_waitOn (wp : Warp) (m : Lanes) (f : Lane → Lane) : (wp.setLanes m f).waitOn = wp.waitOn := rfl
@[simp] theorem Warp.setLanes_evicted (wp : Warp) (m : Lanes) (f : Lane → Lane) : (wp.setLanes m f).evicted = wp.evicted := rfl
@[simp] theorem Warp.setLanes_ended (wp : Warp) (m : Lanes) (f : Lane → Lane) : (wp.setLanes m f).ended = wp.ended := rfl
@[simp] theorem Warp.setLanes_trapping (wp : Warp) (m : Lanes) (f : Lane → Lane) : (wp.setLanes m f).trapping = wp.trapping := rfl
@[simp] theorem Warp.setLanes_late (wp : Warp) (m : Lanes) (f : Lane → Lane) : (wp.setLanes m f).late = wp.late := rfl
@[simp] theorem Warp.setLanes_frozenBy (wp : Warp) (m : Lanes) (f : Lane → Lane) : (wp.setLanes m f).frozenBy = wp.frozenBy := rfl
@[simp] theorem Warp.setLanes_frozenPend (wp : Warp) (m : Lanes) (f : Lane → Lane) : (wp.setLanes m f).frozenPend = wp.frozenPend := rfl
@[simp] theorem Warp.setLanes_fresh (wp : Warp) (m : Lanes) (f : Lane → Lane) : (wp.setLanes m f).fresh = wp.fresh := rfl
@[simp] theorem Warp.setLanes_switched (wp : Warp) (m : Lanes) (f : Lane → Lane) : (wp.setLanes m f).switched = wp.switched := rfl
@[simp] theorem Warp.setLanes_bkpt (wp : Warp) (m : Lanes) (f : Lane → Lane) : (wp.setLanes m f).bkpt = wp.bkpt := rfl
@[simp] theorem Warp.setLanes_stopAt (wp : Warp) (m : Lanes) (f : Lane → Lane) : (wp.setLanes m f).stopAt = wp.stopAt := rfl

/-! ### `Warp.meetings` -/

@[simp] theorem Warp.meetings_regs (wp : Warp)  : (wp.meetings).regs = wp.regs := rfl
@[simp] theorem Warp.meetings_preds (wp : Warp)  : (wp.meetings).preds = wp.preds := rfl
@[simp] theorem Warp.meetings_s (wp : Warp)  : (wp.meetings).s = wp.s := rfl
@[simp] theorem Warp.meetings_g (wp : Warp)  : (wp.meetings).g = wp.g := rfl
@[simp] theorem Warp.meetings_allot (wp : Warp)  : (wp.meetings).allot = wp.allot := rfl
@[simp] theorem Warp.meetings_role (wp : Warp)  : (wp.meetings).role = wp.role := rfl
@[simp] theorem Warp.meetings_slot (wp : Warp)  : (wp.meetings).slot = wp.slot := rfl
@[simp] theorem Warp.meetings_order (wp : Warp)  : (wp.meetings).order = wp.order := rfl
@[simp] theorem Warp.meetings_retired (wp : Warp)  : (wp.meetings).retired = wp.retired := rfl
@[simp] theorem Warp.meetings_acq (wp : Warp)  : (wp.meetings).acq = wp.acq := rfl
@[simp] theorem Warp.meetings_unack (wp : Warp)  : (wp.meetings).unack = wp.unack := rfl
@[simp] theorem Warp.meetings_remoteUnack (wp : Warp)  : (wp.meetings).remoteUnack = wp.remoteUnack := rfl
@[simp] theorem Warp.meetings_remoteHomes (wp : Warp)  : (wp.meetings).remoteHomes = wp.remoteHomes := rfl
@[simp] theorem Warp.meetings_outs (wp : Warp)  : (wp.meetings).outs = wp.outs := rfl
@[simp] theorem Warp.meetings_nextOut (wp : Warp)  : (wp.meetings).nextOut = wp.nextOut := rfl
@[simp] theorem Warp.meetings_marker (wp : Warp)  : (wp.meetings).marker = wp.marker := rfl
@[simp] theorem Warp.meetings_rel (wp : Warp)  : (wp.meetings).rel = wp.rel := rfl
@[simp] theorem Warp.meetings_trec (wp : Warp)  : (wp.meetings).trec = wp.trec := rfl
@[simp] theorem Warp.meetings_tmask (wp : Warp)  : (wp.meetings).tmask = wp.tmask := rfl
@[simp] theorem Warp.meetings_tpend (wp : Warp)  : (wp.meetings).tpend = wp.tpend := rfl
@[simp] theorem Warp.meetings_hand (wp : Warp)  : (wp.meetings).hand = wp.hand := rfl
@[simp] theorem Warp.meetings_sleeps (wp : Warp)  : (wp.meetings).sleeps = wp.sleeps := rfl
@[simp] theorem Warp.meetings_parks (wp : Warp)  : (wp.meetings).parks = wp.parks := rfl
@[simp] theorem Warp.meetings_tx (wp : Warp)  : (wp.meetings).tx = wp.tx := rfl
@[simp] theorem Warp.meetings_det (wp : Warp)  : (wp.meetings).det = wp.det := rfl
@[simp] theorem Warp.meetings_seqs (wp : Warp)  : (wp.meetings).seqs = wp.seqs := rfl
@[simp] theorem Warp.meetings_grow (wp : Warp)  : (wp.meetings).grow = wp.grow := rfl
@[simp] theorem Warp.meetings_stopped (wp : Warp)  : (wp.meetings).stopped = wp.stopped := rfl
@[simp] theorem Warp.meetings_due (wp : Warp)  : (wp.meetings).due = wp.due := rfl
@[simp] theorem Warp.meetings_waitOn (wp : Warp)  : (wp.meetings).waitOn = wp.waitOn := rfl
@[simp] theorem Warp.meetings_evicted (wp : Warp)  : (wp.meetings).evicted = wp.evicted := rfl
@[simp] theorem Warp.meetings_ended (wp : Warp)  : (wp.meetings).ended = wp.ended := rfl
@[simp] theorem Warp.meetings_trapping (wp : Warp)  : (wp.meetings).trapping = wp.trapping := rfl
@[simp] theorem Warp.meetings_late (wp : Warp)  : (wp.meetings).late = wp.late := rfl
@[simp] theorem Warp.meetings_frozenBy (wp : Warp)  : (wp.meetings).frozenBy = wp.frozenBy := rfl
@[simp] theorem Warp.meetings_frozenPend (wp : Warp)  : (wp.meetings).frozenPend = wp.frozenPend := rfl
@[simp] theorem Warp.meetings_fresh (wp : Warp)  : (wp.meetings).fresh = wp.fresh := rfl
@[simp] theorem Warp.meetings_bkpt (wp : Warp)  : (wp.meetings).bkpt = wp.bkpt := rfl
@[simp] theorem Warp.meetings_stopAt (wp : Warp)  : (wp.meetings).stopAt = wp.stopAt := rfl

/-! ### `Warp.retire` -/

@[simp] theorem Warp.retire_regs (wp : Warp) (h : Hdr) (m : Lanes) (next : BitVec 53) : (wp.retire h m next).regs = wp.regs := rfl
@[simp] theorem Warp.retire_preds (wp : Warp) (h : Hdr) (m : Lanes) (next : BitVec 53) : (wp.retire h m next).preds = wp.preds := rfl
@[simp] theorem Warp.retire_s (wp : Warp) (h : Hdr) (m : Lanes) (next : BitVec 53) : (wp.retire h m next).s = wp.s := rfl
@[simp] theorem Warp.retire_g (wp : Warp) (h : Hdr) (m : Lanes) (next : BitVec 53) : (wp.retire h m next).g = wp.g := rfl
@[simp] theorem Warp.retire_allot (wp : Warp) (h : Hdr) (m : Lanes) (next : BitVec 53) : (wp.retire h m next).allot = wp.allot := rfl
@[simp] theorem Warp.retire_role (wp : Warp) (h : Hdr) (m : Lanes) (next : BitVec 53) : (wp.retire h m next).role = wp.role := rfl
@[simp] theorem Warp.retire_slot (wp : Warp) (h : Hdr) (m : Lanes) (next : BitVec 53) : (wp.retire h m next).slot = wp.slot := rfl
@[simp] theorem Warp.retire_order (wp : Warp) (h : Hdr) (m : Lanes) (next : BitVec 53) : (wp.retire h m next).order = wp.order := rfl
@[simp] theorem Warp.retire_acq (wp : Warp) (h : Hdr) (m : Lanes) (next : BitVec 53) : (wp.retire h m next).acq = wp.acq := rfl
@[simp] theorem Warp.retire_unack (wp : Warp) (h : Hdr) (m : Lanes) (next : BitVec 53) : (wp.retire h m next).unack = wp.unack := rfl
@[simp] theorem Warp.retire_remoteUnack (wp : Warp) (h : Hdr) (m : Lanes) (next : BitVec 53) : (wp.retire h m next).remoteUnack = wp.remoteUnack := rfl
@[simp] theorem Warp.retire_remoteHomes (wp : Warp) (h : Hdr) (m : Lanes) (next : BitVec 53) : (wp.retire h m next).remoteHomes = wp.remoteHomes := rfl
@[simp] theorem Warp.retire_outs (wp : Warp) (h : Hdr) (m : Lanes) (next : BitVec 53) : (wp.retire h m next).outs = wp.outs := rfl
@[simp] theorem Warp.retire_nextOut (wp : Warp) (h : Hdr) (m : Lanes) (next : BitVec 53) : (wp.retire h m next).nextOut = wp.nextOut := rfl
@[simp] theorem Warp.retire_rel (wp : Warp) (h : Hdr) (m : Lanes) (next : BitVec 53) : (wp.retire h m next).rel = wp.rel := rfl
@[simp] theorem Warp.retire_trec (wp : Warp) (h : Hdr) (m : Lanes) (next : BitVec 53) : (wp.retire h m next).trec = wp.trec := rfl
@[simp] theorem Warp.retire_tmask (wp : Warp) (h : Hdr) (m : Lanes) (next : BitVec 53) : (wp.retire h m next).tmask = wp.tmask := rfl
@[simp] theorem Warp.retire_tpend (wp : Warp) (h : Hdr) (m : Lanes) (next : BitVec 53) : (wp.retire h m next).tpend = wp.tpend := rfl
@[simp] theorem Warp.retire_hand (wp : Warp) (h : Hdr) (m : Lanes) (next : BitVec 53) : (wp.retire h m next).hand = wp.hand := rfl
@[simp] theorem Warp.retire_sleeps (wp : Warp) (h : Hdr) (m : Lanes) (next : BitVec 53) : (wp.retire h m next).sleeps = wp.sleeps := rfl
@[simp] theorem Warp.retire_parks (wp : Warp) (h : Hdr) (m : Lanes) (next : BitVec 53) : (wp.retire h m next).parks = wp.parks := rfl
@[simp] theorem Warp.retire_tx (wp : Warp) (h : Hdr) (m : Lanes) (next : BitVec 53) : (wp.retire h m next).tx = wp.tx := rfl
@[simp] theorem Warp.retire_det (wp : Warp) (h : Hdr) (m : Lanes) (next : BitVec 53) : (wp.retire h m next).det = wp.det := rfl
@[simp] theorem Warp.retire_seqs (wp : Warp) (h : Hdr) (m : Lanes) (next : BitVec 53) : (wp.retire h m next).seqs = wp.seqs := rfl
@[simp] theorem Warp.retire_grow (wp : Warp) (h : Hdr) (m : Lanes) (next : BitVec 53) : (wp.retire h m next).grow = wp.grow := rfl
@[simp] theorem Warp.retire_stopped (wp : Warp) (h : Hdr) (m : Lanes) (next : BitVec 53) : (wp.retire h m next).stopped = wp.stopped := rfl
@[simp] theorem Warp.retire_due (wp : Warp) (h : Hdr) (m : Lanes) (next : BitVec 53) : (wp.retire h m next).due = wp.due := rfl
@[simp] theorem Warp.retire_waitOn (wp : Warp) (h : Hdr) (m : Lanes) (next : BitVec 53) : (wp.retire h m next).waitOn = wp.waitOn := rfl
@[simp] theorem Warp.retire_evicted (wp : Warp) (h : Hdr) (m : Lanes) (next : BitVec 53) : (wp.retire h m next).evicted = wp.evicted := rfl
@[simp] theorem Warp.retire_ended (wp : Warp) (h : Hdr) (m : Lanes) (next : BitVec 53) : (wp.retire h m next).ended = wp.ended := rfl
@[simp] theorem Warp.retire_trapping (wp : Warp) (h : Hdr) (m : Lanes) (next : BitVec 53) : (wp.retire h m next).trapping = wp.trapping := rfl
@[simp] theorem Warp.retire_late (wp : Warp) (h : Hdr) (m : Lanes) (next : BitVec 53) : (wp.retire h m next).late = wp.late := rfl
@[simp] theorem Warp.retire_frozenBy (wp : Warp) (h : Hdr) (m : Lanes) (next : BitVec 53) : (wp.retire h m next).frozenBy = wp.frozenBy := rfl
@[simp] theorem Warp.retire_frozenPend (wp : Warp) (h : Hdr) (m : Lanes) (next : BitVec 53) : (wp.retire h m next).frozenPend = wp.frozenPend := rfl
@[simp] theorem Warp.retire_fresh (wp : Warp) (h : Hdr) (m : Lanes) (next : BitVec 53) : (wp.retire h m next).fresh = wp.fresh := rfl
@[simp] theorem Warp.retire_bkpt (wp : Warp) (h : Hdr) (m : Lanes) (next : BitVec 53) : (wp.retire h m next).bkpt = wp.bkpt := rfl
@[simp] theorem Warp.retire_stopAt (wp : Warp) (h : Hdr) (m : Lanes) (next : BitVec 53) : (wp.retire h m next).stopAt = wp.stopAt := rfl

/-! ### `Warp.retireAt` -/

@[simp] theorem Warp.retireAt_regs (wp : Warp) (h : Hdr) (m : Lanes) (next : Nat → BitVec 53) : (wp.retireAt h m next).regs = wp.regs := rfl
@[simp] theorem Warp.retireAt_preds (wp : Warp) (h : Hdr) (m : Lanes) (next : Nat → BitVec 53) : (wp.retireAt h m next).preds = wp.preds := rfl
@[simp] theorem Warp.retireAt_s (wp : Warp) (h : Hdr) (m : Lanes) (next : Nat → BitVec 53) : (wp.retireAt h m next).s = wp.s := rfl
@[simp] theorem Warp.retireAt_g (wp : Warp) (h : Hdr) (m : Lanes) (next : Nat → BitVec 53) : (wp.retireAt h m next).g = wp.g := rfl
@[simp] theorem Warp.retireAt_allot (wp : Warp) (h : Hdr) (m : Lanes) (next : Nat → BitVec 53) : (wp.retireAt h m next).allot = wp.allot := rfl
@[simp] theorem Warp.retireAt_role (wp : Warp) (h : Hdr) (m : Lanes) (next : Nat → BitVec 53) : (wp.retireAt h m next).role = wp.role := rfl
@[simp] theorem Warp.retireAt_slot (wp : Warp) (h : Hdr) (m : Lanes) (next : Nat → BitVec 53) : (wp.retireAt h m next).slot = wp.slot := rfl
@[simp] theorem Warp.retireAt_order (wp : Warp) (h : Hdr) (m : Lanes) (next : Nat → BitVec 53) : (wp.retireAt h m next).order = wp.order := rfl
@[simp] theorem Warp.retireAt_acq (wp : Warp) (h : Hdr) (m : Lanes) (next : Nat → BitVec 53) : (wp.retireAt h m next).acq = wp.acq := rfl
@[simp] theorem Warp.retireAt_unack (wp : Warp) (h : Hdr) (m : Lanes) (next : Nat → BitVec 53) : (wp.retireAt h m next).unack = wp.unack := rfl
@[simp] theorem Warp.retireAt_remoteUnack (wp : Warp) (h : Hdr) (m : Lanes) (next : Nat → BitVec 53) : (wp.retireAt h m next).remoteUnack = wp.remoteUnack := rfl
@[simp] theorem Warp.retireAt_remoteHomes (wp : Warp) (h : Hdr) (m : Lanes) (next : Nat → BitVec 53) : (wp.retireAt h m next).remoteHomes = wp.remoteHomes := rfl
@[simp] theorem Warp.retireAt_outs (wp : Warp) (h : Hdr) (m : Lanes) (next : Nat → BitVec 53) : (wp.retireAt h m next).outs = wp.outs := rfl
@[simp] theorem Warp.retireAt_nextOut (wp : Warp) (h : Hdr) (m : Lanes) (next : Nat → BitVec 53) : (wp.retireAt h m next).nextOut = wp.nextOut := rfl
@[simp] theorem Warp.retireAt_rel (wp : Warp) (h : Hdr) (m : Lanes) (next : Nat → BitVec 53) : (wp.retireAt h m next).rel = wp.rel := rfl
@[simp] theorem Warp.retireAt_trec (wp : Warp) (h : Hdr) (m : Lanes) (next : Nat → BitVec 53) : (wp.retireAt h m next).trec = wp.trec := rfl
@[simp] theorem Warp.retireAt_tmask (wp : Warp) (h : Hdr) (m : Lanes) (next : Nat → BitVec 53) : (wp.retireAt h m next).tmask = wp.tmask := rfl
@[simp] theorem Warp.retireAt_tpend (wp : Warp) (h : Hdr) (m : Lanes) (next : Nat → BitVec 53) : (wp.retireAt h m next).tpend = wp.tpend := rfl
@[simp] theorem Warp.retireAt_hand (wp : Warp) (h : Hdr) (m : Lanes) (next : Nat → BitVec 53) : (wp.retireAt h m next).hand = wp.hand := rfl
@[simp] theorem Warp.retireAt_sleeps (wp : Warp) (h : Hdr) (m : Lanes) (next : Nat → BitVec 53) : (wp.retireAt h m next).sleeps = wp.sleeps := rfl
@[simp] theorem Warp.retireAt_parks (wp : Warp) (h : Hdr) (m : Lanes) (next : Nat → BitVec 53) : (wp.retireAt h m next).parks = wp.parks := rfl
@[simp] theorem Warp.retireAt_tx (wp : Warp) (h : Hdr) (m : Lanes) (next : Nat → BitVec 53) : (wp.retireAt h m next).tx = wp.tx := rfl
@[simp] theorem Warp.retireAt_det (wp : Warp) (h : Hdr) (m : Lanes) (next : Nat → BitVec 53) : (wp.retireAt h m next).det = wp.det := rfl
@[simp] theorem Warp.retireAt_seqs (wp : Warp) (h : Hdr) (m : Lanes) (next : Nat → BitVec 53) : (wp.retireAt h m next).seqs = wp.seqs := rfl
@[simp] theorem Warp.retireAt_grow (wp : Warp) (h : Hdr) (m : Lanes) (next : Nat → BitVec 53) : (wp.retireAt h m next).grow = wp.grow := rfl
@[simp] theorem Warp.retireAt_stopped (wp : Warp) (h : Hdr) (m : Lanes) (next : Nat → BitVec 53) : (wp.retireAt h m next).stopped = wp.stopped := rfl
@[simp] theorem Warp.retireAt_due (wp : Warp) (h : Hdr) (m : Lanes) (next : Nat → BitVec 53) : (wp.retireAt h m next).due = wp.due := rfl
@[simp] theorem Warp.retireAt_waitOn (wp : Warp) (h : Hdr) (m : Lanes) (next : Nat → BitVec 53) : (wp.retireAt h m next).waitOn = wp.waitOn := rfl
@[simp] theorem Warp.retireAt_evicted (wp : Warp) (h : Hdr) (m : Lanes) (next : Nat → BitVec 53) : (wp.retireAt h m next).evicted = wp.evicted := rfl
@[simp] theorem Warp.retireAt_ended (wp : Warp) (h : Hdr) (m : Lanes) (next : Nat → BitVec 53) : (wp.retireAt h m next).ended = wp.ended := rfl
@[simp] theorem Warp.retireAt_trapping (wp : Warp) (h : Hdr) (m : Lanes) (next : Nat → BitVec 53) : (wp.retireAt h m next).trapping = wp.trapping := rfl
@[simp] theorem Warp.retireAt_late (wp : Warp) (h : Hdr) (m : Lanes) (next : Nat → BitVec 53) : (wp.retireAt h m next).late = wp.late := rfl
@[simp] theorem Warp.retireAt_frozenBy (wp : Warp) (h : Hdr) (m : Lanes) (next : Nat → BitVec 53) : (wp.retireAt h m next).frozenBy = wp.frozenBy := rfl
@[simp] theorem Warp.retireAt_frozenPend (wp : Warp) (h : Hdr) (m : Lanes) (next : Nat → BitVec 53) : (wp.retireAt h m next).frozenPend = wp.frozenPend := rfl
@[simp] theorem Warp.retireAt_fresh (wp : Warp) (h : Hdr) (m : Lanes) (next : Nat → BitVec 53) : (wp.retireAt h m next).fresh = wp.fresh := rfl
@[simp] theorem Warp.retireAt_bkpt (wp : Warp) (h : Hdr) (m : Lanes) (next : Nat → BitVec 53) : (wp.retireAt h m next).bkpt = wp.bkpt := rfl
@[simp] theorem Warp.retireAt_stopAt (wp : Warp) (h : Hdr) (m : Lanes) (next : Nat → BitVec 53) : (wp.retireAt h m next).stopAt = wp.stopAt := rfl

@[simp] theorem Warp.retire_retired (wp : Warp) (h : Hdr) (m : Lanes) (next : BitVec 53) : (wp.retire h m next).retired = wp.retired + 1 := rfl
@[simp] theorem Warp.retire_marker (wp : Warp) (h : Hdr) (m : Lanes) (next : BitVec 53) : (wp.retire h m next).marker = (wp.marker || h.s) := rfl
@[simp] theorem Warp.retireAt_retired (wp : Warp) (h : Hdr) (m : Lanes) (next : Nat → BitVec 53) : (wp.retireAt h m next).retired = wp.retired + 1 := rfl
@[simp] theorem Warp.retireAt_marker (wp : Warp) (h : Hdr) (m : Lanes) (next : Nat → BitVec 53) : (wp.retireAt h m next).marker = (wp.marker || h.s) := rfl

end Sys2Proof.Machine
end

