-- ==== Sys2Proof/Laws/Word.lean ====
section
/-!
SUPPORT. Laws/Word.lean: what a word in hand does: the lookups after updates of one block or warp, the way of a word
that meets nothing at issue, and the end of a word whose members each change their own warp.
-/
namespace Sys2Proof
open Machine

theorem WordEnds.mono {c : Cur} {s t : State} {f g : Env → Warp → Prop} (h : WordEnds c s t f)
    (hfg : ∀ e w', Contributes s c e → f e w' → g e w') : WordEnds c s t g :=
  ⟨h.only, h.others, h.block, fun e he => hfg e _ he (h.eff e he)⟩

end Sys2Proof

namespace Sys2Proof.Machine

/-! ### Lookups -/

theorem getBlock_modBlock (s : State) (id j : BlockId) (f : Block → Block) (hf : ∀ b, (f b).id = b.id) :
    getBlock (modBlock id f s) j = if j = id then (getBlock s id).map f else getBlock s j := by
  unfold getBlock modBlock
  induction s.blocks with
  | nil => simp
  | cons b t ih => grind

theorem getBlock_modWarp (s : State) (id j : BlockId) (w : Nat) (f : Warp → Warp) :
    getBlock (modWarp id w f s) j = if j = id
      then (getBlock s id).map (fun b => { b with warps := b.warps.mapIdx (fun i x => if i = w then f x else x) })
      else getBlock s j :=
  getBlock_modBlock s id j _ (fun _ => rfl)

theorem warpD_of {s : State} {id : BlockId} {w : Nat} {b : Block} {x : Warp} (hb : getBlock s id = some b)
    (hx : b.warps[w]? = some x) : warpD s id w = x := by
  simp [warpD, blockD, hb, hx]

/-- Warps changed one by one, each once. -/
def Laws.eachWarp (id : BlockId) (l : List (Nat × (Warp → Warp))) (s : State) : State :=
  l.foldl (fun t a => modWarp id a.1 a.2 t) s

theorem eachWarp_blocks (id : BlockId) (l : List (Nat × (Warp → Warp))) (s : State) :
    Laws.eachWarp id l s = { s with blocks := (Laws.eachWarp id l s).blocks } := by
  induction l generalizing s with
  | nil => rfl
  | cons a t ih => exact ih (modWarp id a.1 a.2 s)

theorem eachWarp_other (id j : BlockId) (hj : j ≠ id) (l : List (Nat × (Warp → Warp))) (s : State) :
    getBlock (Laws.eachWarp id l s) j = getBlock s j := by
  induction l generalizing s with
  | nil => rfl
  | cons a t ih => exact (ih _).trans (by simp [getBlock_modWarp, hj])

theorem eachWarp_block (id : BlockId) (l : List (Nat × (Warp → Warp))) (s : State) (b : Block)
    (hb : getBlock s id = some b) :
    ∃ b', getBlock (Laws.eachWarp id l s) id = some b' ∧ b' = { b with warps := b'.warps } ∧
      ∀ w, b'.warps[w]? = (b.warps[w]?).map (fun x => (l.filter (fun a => a.1 == w)).foldl (fun y a => a.2 y) x) := by
  induction l generalizing s b with
  | nil => exact ⟨b, hb, rfl, fun w => by simp⟩
  | cons a t ih =>
    have h1 : getBlock (modWarp id a.1 a.2 s) id
        = some { b with warps := b.warps.mapIdx (fun i x => if i = a.1 then a.2 x else x) } := by
      simp [getBlock_modWarp, hb]
    obtain ⟨b', hb', he, hw⟩ := ih _ _ h1
    refine ⟨b', hb', he, fun w => ?_⟩
    rw [hw w]
    simp only [List.getElem?_mapIdx, List.filter_cons, Option.map_map]
    cases b.warps[w]? with
    | none => rfl
    | some x =>
      by_cases hw : w = a.1
      · subst hw; simp
      · have h' : (a.1 == w) = false := by simpa using fun h : a.1 = w => hw h.symm
        simp [hw, h']

/-! ### Members -/

theorem parts_fst (r : Rdv) : r.parts.map (·.1) = (List.range 32).filter (fun w => (aget r.arrived w).isSome) := by
  unfold Rdv.parts
  induction List.range 32 with
  | nil => rfl
  | cons w t ih => cases h : aget r.arrived w <;> simp [h, ih]

/-- The members of a word are different warps. -/
theorem members_nodup (s : State) (c : Cur) : ((members s c).map (·.w)).Nodup := by
  unfold members
  split
  · simp
  · rename_i r _
    rw [List.map_map]
    have : ((fun e : Env => e.w) ∘ fun a : Nat × Lanes =>
        ({ s := s, c := c, w := a.1, wp := warpD s c.block a.1, lanes := a.2 &&& (warpD s c.block a.1).live } : Env))
        = (·.1) := rfl
    rw [this, parts_fst]
    exact List.nodup_range.filter _

theorem members_wp (s : State) (c : Cur) (e : Env) (he : e ∈ members s c) : e.wp = warpD s c.block e.w := by
  unfold members at he
  split at he
  · simp at he; subst he; rfl
  · simp at he; obtain ⟨a, b, _, rfl⟩ := he; rfl

theorem filter_fst_map {es : List Env} (hn : (es.map (·.w)).Nodup) (g : Env → Warp → Warp) (e : Env) (he : e ∈ es) :
    (es.map (fun e => (e.w, g e))).filter (fun a => a.1 == e.w) = [(e.w, g e)] := by
  induction es with
  | nil => simp at he
  | cons d t ih =>
    simp only [List.map_cons, List.nodup_cons] at hn
    have hout : ∀ x ∈ t, x.w ≠ d.w := fun x hx hc => hn.1 (hc ▸ List.mem_map_of_mem hx)
    rcases List.mem_cons.1 he with rfl | he
    · simp only [List.map_cons, List.filter_cons, beq_self_eq_true, if_true, List.cons.injEq, true_and]
      rw [List.filter_eq_nil_iff]
      intro a ha
      obtain ⟨x, hx, rfl⟩ := List.mem_map.1 ha
      simpa using hout x hx
    · have : (d.w == e.w) = false := by simpa using fun h : d.w = e.w => hout e he h.symm
      simp [this, ih hn.2 he]

theorem eq_of_w {es : List Env} (hn : (es.map (·.w)).Nodup) {d e : Env} (hd : d ∈ es) (he : e ∈ es) (h : d.w = e.w) :
    d = e := by
  induction es with
  | nil => simp at hd
  | cons a t ih =>
    simp only [List.map_cons, List.nodup_cons] at hn
    have hout : ∀ x ∈ t, x.w ≠ a.w := fun x hx hc => hn.1 (hc ▸ List.mem_map_of_mem hx)
    rcases List.mem_cons.1 hd with h1 | h1 <;> rcases List.mem_cons.1 he with h2 | h2
    · rw [h1, h2]
    · exact absurd (by rw [← h, h1]) (hout e h2)
    · exact absurd (by rw [h, h2]) (hout d h1)
    · exact ih hn.2 h1 h2

theorem filter_fst_none (es : List Env) (g : Env → Warp → Warp) (w : Nat) (hw : ∀ e ∈ es, e.w ≠ w) :
    (es.map (fun e => (e.w, g e))).filter (fun a => a.1 == w) = [] := by
  rw [List.filter_eq_nil_iff]
  intro a ha
  obtain ⟨x, hx, rfl⟩ := List.mem_map.1 ha
  simpa using hw x hx

/-! ### The way of a word -/

theorem finish_next {s : State} (h : s.badPhys = false) : finish s = .next s := by simp [finish, h]

/-- A word that meets nothing at issue has its own effect. -/
theorem runWord_inHand {i : Instr} {h : Hdr} {c : Cur} {s : State} (hh : InHand i h c s) (k : Cur → State → State) :
    runWord i h k s = finish (k c s) := by
  unfold runWord
  rw [hh.cur]
  rcases hh.goes with ⟨r, hr⟩ | ⟨hn, hi⟩
  · simp [hr]
  · simp [hn, issueStall, hi.legal, hi.free, hi.ready, hi.room, hi.order, hi.scope, hi.calm]

/-- The members' own changes, then the end of the word, as one change of warps. -/
def Laws.retireList (h : Hdr) (c : Cur) (s : State) (next : Nat → BitVec 53) : List (Nat × (Warp → Warp)) :=
  (members s c).map (fun e => (e.w, fun (wp : Warp) =>
    match c.single with
    | none => if e.lanes = (0 : Lanes) then wp else Warp.retire h e.lanes (next e.w) wp
    | some r => let m := ((aget r.arrived e.w).getD 0) &&& wp.live; if m = 0 then wp else Warp.retire h m (next e.w) wp))

theorem modBlock_rdvs_blocks (id : BlockId) (f : List Rdv → List Rdv) (s : State) :
    modBlock id (fun b => { b with rdvs := f b.rdvs }) s
      = { s with blocks := (modBlock id (fun b => { b with rdvs := f b.rdvs }) s).blocks } := rfl

theorem modWarp_id (id : BlockId) (w : Nat) (s : State) : modWarp id w (fun wp => wp) s = s := by
  have h : ∀ b : Block, (if b.id = id then { b with warps := b.warps.mapIdx (fun i x => if i = w then x else x) } else b) = b := by
    intro b
    split
    · have : b.warps.mapIdx (fun i x => if i = w then x else x) = b.warps := by
        apply List.ext_getElem? ; intro i; simp [List.getElem?_mapIdx]
      rw [this]
    · rfl
  unfold modWarp modBlock
  simp only [h, List.map_id']

theorem eachWarp_append (id : BlockId) (l k : List (Nat × (Warp → Warp))) (s : State) :
    Laws.eachWarp id k (Laws.eachWarp id l s) = Laws.eachWarp id (l ++ k) s := by
  simp [Laws.eachWarp, List.foldl_append]

theorem aget_parts (r : Rdv) (w : Nat) (m : Lanes) (h : (w, m) ∈ r.parts) : aget r.arrived w = some m := by
  unfold Rdv.parts at h
  simp only [List.mem_filterMap, Option.map_eq_some_iff, Prod.mk.injEq] at h
  obtain ⟨a, _, b, hb, rfl, rfl⟩ := h
  exact hb

/-- What is left of a completed rendezvous (R137). -/
def Laws.dropRdv (c : Cur) (s : State) : State :=
  match c.single with
  | none => s
  | some r => modBlock c.block (fun b => { b with rdvs := b.rdvs.filter (fun x =>
      !(x.pc == r.pc && x.scope == r.scope && x.set == r.set && x.warp == r.warp)) }) s

theorem endWordTo_eq (h : Hdr) (c : Cur) (s t : State) (next : Nat → BitVec 53) :
    endWordTo h c c.group next t = Laws.dropRdv c (Laws.eachWarp c.block (Laws.retireList h c s next) t) := by
  unfold endWordTo Laws.dropRdv Laws.retireList members
  cases hc : c.single with
  | none =>
    simp only [List.map_cons, List.map_nil, Laws.eachWarp, List.foldl_cons, List.foldl_nil]
    split
    · simp [*, modWarp_id]
    · simp [*]
  | some r =>
    simp only [releaseMembers, Laws.eachWarp, List.map_map, List.foldl_map]
    congr 1
    have : ∀ (l : List (Nat × Lanes)) (u : State), (∀ a ∈ l, a ∈ r.parts) →
        l.foldl (fun t a => modWarp c.block a.1 (fun wp =>
          if a.2 &&& wp.live = 0 then wp else wp.retire h (a.2 &&& wp.live) (next a.1)) t) u
        = l.foldl (fun x y => modWarp c.block y.1 (fun wp =>
          if (aget r.arrived y.1).getD 0 &&& wp.live = 0 then wp
          else wp.retire h ((aget r.arrived y.1).getD 0 &&& wp.live) (next y.1)) x) u := by
      intro l
      induction l with
      | nil => intro u _; rfl
      | cons a l ih =>
        intro u hl
        have ha := aget_parts r a.1 a.2 (hl a (by simp))
        simp only [List.foldl_cons, ha, Option.getD_some]
        exact ih _ (fun x hx => hl x (by simp [hx]))
    exact this r.parts t (fun a ha => ha)

theorem getBlock_rdvs (s : State) (id j : BlockId) (f : List Rdv → List Rdv) :
    getBlock (modBlock id (fun b => { b with rdvs := f b.rdvs }) s) j
      = if j = id then (getBlock s id).map (fun b => { b with rdvs := f b.rdvs }) else getBlock s j :=
  getBlock_modBlock s id j _ (fun _ => rfl)

theorem dropRdv_other (c : Cur) (s : State) (j : BlockId) (hj : j ≠ c.block) :
    getBlock (Laws.dropRdv c s) j = getBlock s j := by
  unfold Laws.dropRdv
  split
  · rfl
  · exact (getBlock_rdvs s c.block j _).trans (by simp [hj])

theorem dropRdv_block (c : Cur) (s : State) (b : Block) (hb : getBlock s c.block = some b) :
    ∃ b', getBlock (Laws.dropRdv c s) c.block = some b' ∧ b' = { b with rdvs := b'.rdvs }
      ∧ (c.single = none → b'.rdvs = b.rdvs) := by
  unfold Laws.dropRdv
  split
  · exact ⟨b, hb, rfl, fun _ => rfl⟩
  · exact ⟨_, (getBlock_rdvs s c.block c.block _).trans (by rw [if_pos rfl, hb]; rfl), rfl, by simp [*]⟩

/-- The end of a word whose members `p` each changed their own warp by `g` (R28, R137). -/
theorem word_ends (h : Hdr) (c : Cur) (s : State) (next : Nat → BitVec 53) (p : Env → Bool) (g : Env → Warp → Warp)
    (hlive : ∀ e x, (g e x).live = x.live) (hnil : ∀ e, e.lanes = 0 → p e → g e e.wp = e.wp) :
    WordEnds c s (endWordTo h c c.group next
        (Laws.eachWarp c.block (((members s c).filter p).map (fun e => (e.w, g e))) s))
      (fun e w' => w' = (if p e then g e e.wp else e.wp).retire h e.lanes (next e.w)) := by
  rw [endWordTo_eq h c s, eachWarp_append]
  generalize hl : ((members s c).filter p).map (fun e => (e.w, g e)) ++ Laws.retireList h c s next = l
  -- what the list does to each warp
  have hmem : ∀ e ∈ members s c, (l.filter (fun a => a.1 == e.w)).foldl (fun y a => a.2 y) e.wp
      = if e.lanes = 0 then e.wp else (if p e then g e e.wp else e.wp).retire h e.lanes (next e.w) := by
    intro e he
    have h1 : (((members s c).filter p).map (fun e => (e.w, g e))).filter (fun a => a.1 == e.w)
        = if p e then [(e.w, g e)] else [] := by
      split
      · exact filter_fst_map ((members_nodup s c).sublist (List.filter_sublist.map _)) g e (List.mem_filter.2 ⟨he, ‹_›⟩)
      · apply filter_fst_none
        intro x hx hw
        have := eq_of_w (members_nodup s c) (List.mem_filter.1 hx).1 he hw
        subst this
        exact absurd (List.mem_filter.1 hx).2 ‹_›
    have h2 : (Laws.retireList h c s next).filter (fun a => a.1 == e.w) = [(e.w, fun (wp : Warp) =>
        match c.single with
        | none => if e.lanes = (0 : Lanes) then wp else Warp.retire h e.lanes (next e.w) wp
        | some r => let m := ((aget r.arrived e.w).getD 0) &&& wp.live; if m = 0 then wp else Warp.retire h m (next e.w) wp)] :=
      filter_fst_map (members_nodup s c) _ e he
    rw [← hl, List.filter_append, h1, h2]
    have hwp : (if p e then g e e.wp else e.wp).live = e.wp.live := by split <;> simp [hlive]
    have hz : e.lanes = 0 → (if p e then g e e.wp else e.wp) = e.wp := by
      intro hz; split
      · exact hnil e hz ‹_›
      · rfl
    have hfold : ((if p e then [(e.w, g e)] else []) ++ [(e.w, fun (wp : Warp) =>
        match c.single with
        | none => if e.lanes = (0 : Lanes) then wp else Warp.retire h e.lanes (next e.w) wp
        | some r => let m := ((aget r.arrived e.w).getD 0) &&& wp.live; if m = 0 then wp else Warp.retire h m (next e.w) wp)]).foldl
          (fun y (a : Nat × (Warp → Warp)) => a.2 y) e.wp = (fun (wp : Warp) =>
        match c.single with
        | none => if e.lanes = (0 : Lanes) then wp else Warp.retire h e.lanes (next e.w) wp
        | some r => let m := ((aget r.arrived e.w).getD 0) &&& wp.live; if m = 0 then wp else Warp.retire h m (next e.w) wp)
          (if p e then g e e.wp else e.wp) := by split <;> simp
    rw [hfold]
    unfold members at he
    cases hc : c.single with
    | none =>
      by_cases h0 : e.lanes = 0
      · dsimp only; rw [if_pos h0, if_pos h0]; exact hz h0
      · dsimp only; rw [if_neg h0, if_neg h0]
    | some r =>
      simp only [hc, List.mem_map] at he
      obtain ⟨a, ha, rfl⟩ := he
      have hag := aget_parts r a.1 a.2 ha
      simp only [hag, Option.getD_some] at hwp hz ⊢
      rw [hwp]
      split
      · exact hz ‹_›
      · rfl
  have hnone : ∀ w, (∀ e ∈ members s c, e.w ≠ w) → l.filter (fun a => a.1 == w) = [] := by
    intro w hw
    rw [← hl, List.filter_append, filter_fst_none _ g w (fun e he => hw e (List.mem_filter.1 he).1)]
    exact filter_fst_none (members s c) _ w hw
  -- the block
  have hblock : ∀ b, getBlock s c.block = some b → ∃ b', getBlock (Laws.dropRdv c (Laws.eachWarp c.block l s)) c.block = some b'
      ∧ b' = { b with warps := b'.warps, rdvs := b'.rdvs } ∧ (c.single = none → b'.rdvs = b.rdvs)
      ∧ ∀ w, b'.warps[w]? = (b.warps[w]?).map (fun x => (l.filter (fun a => a.1 == w)).foldl (fun y a => a.2 y) x) := by
    intro b hb
    obtain ⟨b1, h1, e1, w1⟩ := eachWarp_block c.block l s b hb
    obtain ⟨b2, h2, e2, r2⟩ := dropRdv_block c _ b1 h1
    refine ⟨b2, h2, ?_, ?_, ?_⟩
    · rw [e2, e1]
    · intro hs; rw [r2 hs, e1]
    · intro w; rw [e2]; exact w1 w
  refine ⟨?_, ?_, ?_, ?_⟩
  · have h1 := eachWarp_blocks c.block l s
    have h2 : ∀ u : State, Laws.dropRdv c u = { u with blocks := (Laws.dropRdv c u).blocks } := by
      intro u; unfold Laws.dropRdv; split <;> rfl
    exact (h2 _).trans (congrArg (fun v : State => { v with blocks := (Laws.dropRdv c (Laws.eachWarp c.block l s)).blocks }) h1)
  · intro id hid
    rw [dropRdv_other c _ id hid, eachWarp_other c.block id hid]
  · intro b hb
    obtain ⟨b', h1, h2, h3, h4⟩ := hblock b hb
    refine ⟨b', h1, h2, h3, fun w hw => ?_⟩
    rw [h4]
    cases hx : b.warps[w]? with
    | none => rfl
    | some x =>
      by_cases hm : ∃ e ∈ members s c, e.w = w
      · obtain ⟨e, he, rfl⟩ := hm
        have hwp : e.wp = x := by rw [members_wp s c e he]; exact warpD_of hb hx
        have hl0 : e.lanes = 0 := by
          refine Classical.byContradiction fun hne => ?_
          exact hw e ⟨he, hne, b, hb, by rw [hx, hwp]⟩ rfl
        have := hmem e he
        rw [hl0, if_pos rfl] at this
        simp [← hwp, this]
      · rw [hnone w (fun e he hh => hm ⟨e, he, hh⟩)]; rfl
  · rintro e ⟨he, hne, b, hb, hx⟩
    obtain ⟨b', h1, h2, h3, h4⟩ := hblock b hb
    have := h4 e.w
    rw [hx] at this
    simp only [Option.map_some] at this
    rw [warpD_of h1 this, hmem e he, if_neg hne]

/-- What a P-word writes in a member: `f` in each active lane in turn. -/
def Laws.laneFold (h : Hdr) (f : Env → Nat → Warp → Warp) (e : Env) (wp : Warp) : Warp :=
  (laneNums (e.active h)).foldl (fun x l => f e l x) wp

theorem onActive_eq (h : Hdr) (f : Env → Nat → Warp → Warp) (c : Cur) (s : State) :
    onActive h f c s = Laws.eachWarp c.block
      (((members s c).filter (fun _ => true)).map (fun e => (e.w, Laws.laneFold h f e))) s := by
  rw [List.filter_eq_self.2 (fun _ _ => rfl), Laws.eachWarp, List.foldl_map]; rfl

theorem onMembers_eq (h : Hdr) (f : Env → Warp → Warp) (c : Cur) (s : State) :
    onMembers h f c s = Laws.eachWarp c.block
      (((members s c).filter (fun e => guardG h e.wp && e.lanes != 0)).map (fun e => (e.w, f e))) s := by
  simp [onMembers, gMembers, Laws.eachWarp, List.foldl_map]

theorem laneNums_zero : laneNums 0 = [] := by decide

theorem lanesOf_false : lanesOf (fun _ => false) = 0 := by decide

theorem active_of_none (h : Hdr) (e : Env) (he : e.lanes = 0) : e.active h = 0 := by
  simp [Env.active, he, lanesOf_false]

/-- The end of a P-word that writes through `f` in its active lanes. -/
theorem active_ends (h : Hdr) (c : Cur) (s : State) (f : Env → Nat → Warp → Warp)
    (hlive : ∀ e l x, (f e l x).live = x.live) :
    WordEnds c s (endWord h c (onActive h f c s))
      (fun e w' => w' = (Laws.laneFold h f e e.wp).retire h e.lanes (c.pc + wordLen h)) := by
  rw [onActive_eq]
  refine (word_ends h c s (fun _ => c.pc + wordLen h) (fun _ => true) (Laws.laneFold h f) ?_ ?_).mono ?_
  · intro e x
    unfold Laws.laneFold
    generalize laneNums (e.active h) = l
    induction l generalizing x with
    | nil => rfl
    | cons a t ih => rw [List.foldl_cons, ih, hlive]
  · intro e he _
    rw [Laws.laneFold, active_of_none h e he, laneNums_zero]; rfl
  · intro e w' _ hw; simpa using hw

/-- The end of a G-word that changes its guard-true members through `f`. -/
theorem members_ends (h : Hdr) (c : Cur) (s : State) (f : Env → Warp → Warp) (hlive : ∀ e x, (f e x).live = x.live) :
    WordEnds c s (endWord h c (onMembers h f c s))
      (fun e w' => w' = (if guardG h e.wp then f e e.wp else e.wp).retire h e.lanes (c.pc + wordLen h)) := by
  rw [onMembers_eq]
  refine (word_ends h c s (fun _ => c.pc + wordLen h) (fun e => guardG h e.wp && e.lanes != 0) f hlive ?_).mono ?_
  · intro e he hp; simp [he] at hp
  · intro e w' he hw
    have : (e.lanes != 0) = true := by simpa using he.lanes
    rw [hw, this, Bool.and_true]

/-- The end of a word that changes no register. -/
theorem plain_ends (h : Hdr) (c : Cur) (s : State) (next : Nat → BitVec 53) :
    WordEnds c s (endWordTo h c c.group next s) (fun e w' => w' = e.wp.retire h e.lanes (next e.w)) := by
  have := word_ends h c s next (fun _ => false) (fun _ x => x) (fun _ _ => rfl) (fun _ _ _ => rfl)
  rw [List.filter_eq_nil_iff.2 (by simp)] at this
  exact this.mono (fun e w' _ hw => by simpa using hw)

end Sys2Proof.Machine
end

