-- ==== Sys2Proof/Laws/Lanes.lean ====
section
/-!
SUPPORT. Laws/Lanes.lean: reads of registers and predicates after writes, and the results of words that write lane
registers, predicates or uniform registers.
-/
namespace Sys2Proof
open Machine

theorem Next.mono {o : Host.Outcome State Fault Refusal} {P Q : State → Prop} (h : Next o P) (hpq : ∀ t, P t → Q t) :
    Next o Q := by
  obtain ⟨t, ht, hp⟩ := h; exact ⟨t, ht, hpq t hp⟩

end Sys2Proof

namespace Sys2Proof.Machine

/-! ### Lanes -/

theorem lanesOf_getLsbD (p : Nat → Bool) (l : Nat) : (lanesOf p).getLsbD l = (decide (l < 32) && p l) := by
  have key : ∀ (n : Nat) (m : Lanes), n ≤ 32 →
      ((List.range n).foldl (fun m l => if p l then m ||| (1#32 <<< l) else m) m).getLsbD l
        = (m.getLsbD l || (decide (l < n) && p l)) := by
    intro n
    induction n with
    | zero => intro m _; simp
    | succ n ih =>
      intro m hn
      rw [List.range_succ, List.foldl_append, List.foldl_cons, List.foldl_nil]
      by_cases hp : p n
      · rw [if_pos hp, BitVec.getLsbD_or, ih m (by omega)]
        have h1 : (1#32 <<< n).getLsbD l = decide (l = n) := by
          rw [BitVec.getLsbD_shiftLeft, BitVec.getLsbD_one]
          simp only [Nat.reduceLT, decide_true, Bool.true_and]
          by_cases h : l = n
          · subst h; simp; omega
          · by_cases h2 : l < n
            · simp [h, h2]
            · simp [h]; omega
        rw [h1]
        by_cases h : l = n
        · subst h; simp [hp]
        · have : (l < n + 1) = (l < n) := by simp; omega
          simp [h, this]
      · rw [if_neg hp, ih m (by omega)]
        by_cases h : l = n
        · subst h; simp [hp]
        · have : (l < n + 1) = (l < n) := by simp; omega
          simp [this]
  simpa [lanesOf] using key 32 0 (Nat.le_refl _)

theorem mem_laneNums (m : Lanes) (l : Nat) : l ∈ laneNums m ↔ m.getLsbD l = true := by
  simp only [laneNums, List.mem_filter, List.mem_range, and_iff_right_iff_imp]
  intro h
  exact Classical.byContradiction fun hl => by rw [BitVec.getLsbD_of_ge _ _ (by omega)] at h; exact absurd h (by decide)

theorem laneNums_lt {m : Lanes} {l : Nat} (h : l ∈ laneNums m) : l < 32 := by
  simp only [laneNums, List.mem_filter, List.mem_range] at h; exact h.1

theorem active_getLsbD (h : Hdr) (e : Env) (l : Nat) :
    (e.active h).getLsbD l = (e.lanes.getLsbD l && guardP h e.wp l) := by
  rw [Env.active, lanesOf_getLsbD]
  by_cases hl : l < 32
  · simp [hl]
  · simp [hl, BitVec.getLsbD_of_ge _ _ (by omega : 32 ≤ l)]

/-! ### Registers -/

theorem Warp.reg_setReg (wp : Warp) (d k : Name) (j l : Nat) (v : BitVec 32) (hj : j < 32) (hl : l < 32) :
    (wp.setReg d j v).reg k l = if k = d ∧ l = j then v else wp.reg k l := by
  unfold Warp.reg Warp.setReg
  rw [sget_sset]
  have : (k.toNat * 32 + l = d.toNat * 32 + j) ↔ (k = d ∧ l = j) := by
    constructor
    · intro h; exact ⟨BitVec.eq_of_toNat_eq (by omega), by omega⟩
    · rintro ⟨rfl, rfl⟩; rfl
  simp only [this]

theorem Warp.sreg_setS (wp : Warp) (d k : Name) (v : BitVec 64) :
    (wp.setS d v).sreg k = if k.toNat = d.toNat then v else wp.sreg k := by
  unfold Warp.sreg Warp.setS
  rw [sget_sset]

theorem Warp.pred_setPred (wp : Warp) (p k : BitVec 3) (j l : Nat) (v : Bool) (hj : j < 32) (hl : l < 32) :
    (wp.setPred p j v).pred k l = if k = p ∧ l = j then (p == 7 || v) else wp.pred k l := by
  unfold Warp.pred Warp.setPred
  by_cases hp : p = 7
  · subst hp
    by_cases hk : k = 7
    · simp [hk]
    · rw [if_pos rfl, if_neg (fun h => hk h.1)]
  · have hp' : (p == 7) = false := by simpa using hp
    rw [if_neg hp]
    simp only [sget_sset, hp', Bool.false_or]
    by_cases hk : k = p
    · subst hk
      simp only [hp', Bool.false_or, true_and, if_true]
      have h1 : (1#32 <<< j).getLsbD l = decide (l = j) := by
        rw [BitVec.getLsbD_shiftLeft, BitVec.getLsbD_one]
        by_cases h : l = j
        · subst h; simp; omega
        · by_cases h2 : l < j
          · simp [h, h2]
          · simp [h]; omega
      by_cases hlj : l = j
      · subst hlj
        cases v
        · simp only [Bool.false_eq_true, if_false, BitVec.getLsbD_and, BitVec.getLsbD_not, h1]; simp
        · simp only [if_true, BitVec.getLsbD_or, h1]; simp
      · cases v
        · simp only [Bool.false_eq_true, if_false, BitVec.getLsbD_and, BitVec.getLsbD_not, h1, hlj]; simp [hl]
        · simp only [if_true, BitVec.getLsbD_or, h1, hlj]; simp
    · have : k.toNat ≠ p.toNat := fun h => hk (BitVec.eq_of_toNat_eq h)
      simp [hk, this]

/-! ### The lanes of one member -/

theorem foldl_reg (d : Name) (v : Nat → BitVec 32) (ls : List Nat) (hls : ∀ l ∈ ls, l < 32) (wp : Warp) (k : Name)
    (l : Nat) (hl : l < 32) :
    (ls.foldl (fun (x : Warp) l => x.setReg d l (v l)) wp).reg k l = if k = d ∧ l ∈ ls then v l else wp.reg k l := by
  induction ls generalizing wp with
  | nil => simp
  | cons a t ih =>
    rw [List.foldl_cons, ih (fun x hx => hls x (by simp [hx])), Warp.reg_setReg _ _ _ _ _ _ (hls a (by simp)) hl]
    by_cases h1 : k = d
    · by_cases h2 : l ∈ t
      · simp [h1, h2]
      · by_cases h3 : l = a
        · subst h3; simp [h1, h2]
        · simp [h1, h2, h3]
    · simp [h1]

theorem foldl_reg64 (d : Name) (v : Nat → BitVec 64) (ls : List Nat) (hls : ∀ l ∈ ls, l < 32) (wp : Warp) (k : Name)
    (l : Nat) (hl : l < 32) :
    (ls.foldl (fun (x : Warp) l => x.setReg64 d l (v l)) wp).reg k l
      = if k = d + 1 ∧ l ∈ ls then (v l >>> 32).setWidth 32 else if k = d ∧ l ∈ ls then (v l).setWidth 32
        else wp.reg k l := by
  induction ls generalizing wp with
  | nil => simp
  | cons a t ih =>
    have ha := hls a (by simp)
    rw [List.foldl_cons, ih (fun x hx => hls x (by simp [hx])), Warp.setReg64, Warp.reg_setReg _ _ _ _ _ _ ha hl,
      Warp.reg_setReg _ _ _ _ _ _ ha hl]
    have hne : d + 1 ≠ d := by
      intro h
      have := congrArg BitVec.toNat h
      simp [BitVec.toNat_add] at this; omega
    generalize d + 1 = d' at hne
    grind

theorem foldl_pred (p : BitVec 3) (v : Nat → Bool) (ls : List Nat) (hls : ∀ l ∈ ls, l < 32) (wp : Warp) (k : BitVec 3)
    (l : Nat) (hl : l < 32) :
    (ls.foldl (fun (x : Warp) l => x.setPred p l (v l)) wp).pred k l
      = if k = p ∧ l ∈ ls then (p == 7 || v l) else wp.pred k l := by
  induction ls generalizing wp with
  | nil => simp
  | cons a t ih =>
    rw [List.foldl_cons, ih (fun x hx => hls x (by simp [hx])), Warp.pred_setPred _ _ _ _ _ _ (hls a (by simp)) hl]
    by_cases h1 : k = p
    · by_cases h2 : l ∈ t
      · simp [h1, h2]
      · by_cases h3 : l = a
        · subst h3; simp [h1, h2]
        · simp [h1, h2, h3]
    · simp [h1]

/-- What a change of a warp that only writes lane registers keeps. -/
theorem foldl_keep {α : Type} (f : Nat → Warp → Warp) (P : Warp → α) (hf : ∀ l x, P (f l x) = P x) (ls : List Nat) (wp : Warp) :
    P (ls.foldl (fun x l => f l x) wp) = P wp := by
  induction ls generalizing wp with
  | nil => rfl
  | cons a t ih => rw [List.foldl_cons, ih, hf]

/-! ### Words -/

theorem retire_goesOn (h : Hdr) (m : Lanes) (next : BitVec 53) (w x : Warp) (hl : x.lanes = w.lanes)
    (hr : x.retired = w.retired) (hm : x.marker = w.marker) (hrest : Warp.rest x = Warp.rest w) :
    GoesOn h m next w (x.retire h m next) := by
  refine ⟨?_, ?_, ?_, ?_⟩
  · simp only [Warp.retire, Warp.meetings, Warp.setLanes, hl]
  · simp [hr]
  · simp [hm]
  · rw [← hrest]; rfl

theorem wordEnds_phys {c : Cur} {s t : State} {eff : Env → Warp → Prop} (h : WordEnds c s t eff) :
    t.badPhys = s.badPhys := by rw [h.only]

/-- A word whose own effect is `k` answers the state of `k`. -/
theorem runWord_next {i : Instr} {h : Hdr} {c : Cur} {s : State} (hh : InHand i h c s) (k : Cur → State → State)
    (eff : Env → Warp → Prop) (hk : WordEnds c s (k c s) eff) : Next (runWord i h k s) (fun t => WordEnds c s t eff) :=
  ⟨k c s, by rw [runWord_inHand hh, finish_next (by rw [wordEnds_phys hk, hh.phys])], hk⟩

theorem laneWord_next {i : Instr} {h : Hdr} {c : Cur} {s : State} (hh : InHand i h c s) (f : Env → Nat → Warp → Warp)
    (hlive : ∀ e l x, (f e l x).live = x.live) :
    Next (laneWord i h f s) (fun t => WordEnds c s t
      (fun e w' => w' = (Laws.laneFold h f e e.wp).retire h e.lanes (c.pc + wordLen h))) :=
  runWord_next hh _ _ (active_ends h c s f hlive)

theorem laneFold_rest (h : Hdr) (f : Env → Nat → Warp → Warp) (e : Env) (wp : Warp) (next : BitVec 53)
    (hl : ∀ l x, (f e l x).lanes = x.lanes) (hr : ∀ l x, (f e l x).retired = x.retired)
    (hm : ∀ l x, (f e l x).marker = x.marker) (hrest : ∀ l x, Warp.rest (f e l x) = Warp.rest x) :
    GoesOn h e.lanes next wp ((Laws.laneFold h f e wp).retire h e.lanes next) :=
  retire_goesOn _ _ _ _ _ (foldl_keep (f e) Warp.lanes hl _ _) (foldl_keep (f e) Warp.retired hr _ _)
    (foldl_keep (f e) Warp.marker hm _ _) (foldl_keep (f e) Warp.rest hrest _ _)

/-- The result of a P-word that writes one or two lane registers. -/
theorem laneWord_set {i : Instr} {h : Hdr} {c : Cur} {s : State} (hh : InHand i h c s) (d : Name) (n : Nat)
    (v : Env → Nat → BitVec 64) (f : Env → Nat → Warp → Warp)
    (hf : (n = 1 ∧ ∀ e l x, f e l x = x.setReg d l ((v e l).setWidth 32))
      ∨ (n = 2 ∧ ∀ e l x, f e l x = x.setReg64 d l (v e l))) :
    Next (laneWord i h f s) (fun t => WordEnds c s t (fun e w' => LaneResult h c d n (v e) e w')) := by
  rcases hf with ⟨rfl, hf⟩ | ⟨rfl, hf⟩
  · have hf' : f = fun e l x => x.setReg d l ((v e l).setWidth 32) := by funext e l x; exact hf e l x
    subst hf'
    refine (laneWord_next hh (fun e l x => x.setReg d l ((v e l).setWidth 32)) (fun _ _ _ => rfl)).mono fun t ht => ht.mono fun e w' _ hw => ?_
    subst hw
    have hreg : ∀ k l, l < 32 → ((Laws.laneFold h (fun e l x => x.setReg d l ((v e l).setWidth 32)) e e.wp).retire h
        e.lanes (c.pc + wordLen h)).reg k l
          = if k = d ∧ l ∈ laneNums (e.active h) then (v e l).setWidth 32 else e.wp.reg k l :=
      fun k l hl => foldl_reg d (fun l => (v e l).setWidth 32) _ (fun _ hx => laneNums_lt hx) _ k l hl
    refine ⟨laneFold_rest _ _ _ _ _ (fun _ _ => rfl) (fun _ _ => rfl) (fun _ _ => rfl) (fun _ _ => rfl), ?_, ?_, ?_, ?_, ?_, ?_⟩
    · intro l hl
      have hm := (mem_laneNums (e.active h) l).2 hl
      rw [hreg d l (laneNums_lt hm), if_pos ⟨rfl, hm⟩]
    · intro h0; exact absurd h0 (by decide)
    · intro k l hl hk
      rw [hreg k l hl, if_neg]
      rintro ⟨rfl, hm⟩
      exact hk ⟨(mem_laneNums _ _).1 hm, Or.inl rfl⟩
    · exact foldl_keep (fun l (x : Warp) => x.setReg d l ((v e l).setWidth 32)) Warp.preds (fun _ _ => rfl) _ _
    · exact foldl_keep (fun l (x : Warp) => x.setReg d l ((v e l).setWidth 32)) Warp.s (fun _ _ => rfl) _ _
    · exact foldl_keep (fun l (x : Warp) => x.setReg d l ((v e l).setWidth 32)) Warp.g (fun _ _ => rfl) _ _
  · have hf' : f = fun e l x => x.setReg64 d l (v e l) := by funext e l x; exact hf e l x
    subst hf'
    refine (laneWord_next hh (fun e l x => x.setReg64 d l (v e l)) (fun _ _ _ => rfl)).mono fun t ht => ht.mono fun e w' _ hw => ?_
    subst hw
    have hreg : ∀ k l, l < 32 → ((Laws.laneFold h (fun e l x => x.setReg64 d l (v e l)) e e.wp).retire h
        e.lanes (c.pc + wordLen h)).reg k l
          = if k = d + 1 ∧ l ∈ laneNums (e.active h) then (v e l >>> 32).setWidth 32
            else if k = d ∧ l ∈ laneNums (e.active h) then (v e l).setWidth 32 else e.wp.reg k l :=
      fun k l hl => foldl_reg64 d (v e) _ (fun _ hx => laneNums_lt hx) _ k l hl
    have hne : ¬ d = d + 1 := by
      intro h
      have := congrArg BitVec.toNat h
      simp [BitVec.toNat_add] at this; omega
    refine ⟨laneFold_rest _ _ _ _ _ (fun _ _ => rfl) (fun _ _ => rfl) (fun _ _ => rfl) (fun _ _ => rfl), ?_, ?_, ?_, ?_, ?_, ?_⟩
    · intro l hl
      have hm := (mem_laneNums (e.active h) l).2 hl
      rw [hreg d l (laneNums_lt hm), if_neg (fun h => hne h.1), if_pos ⟨rfl, hm⟩]
    · intro _ l hl
      have hm := (mem_laneNums (e.active h) l).2 hl
      rw [hreg (d + 1) l (laneNums_lt hm), if_pos ⟨rfl, hm⟩]
    · intro k l hl hk
      rw [hreg k l hl, if_neg, if_neg]
      · rintro ⟨rfl, hm⟩
        exact hk ⟨(mem_laneNums _ _).1 hm, Or.inl rfl⟩
      · rintro ⟨rfl, hm⟩
        exact hk ⟨(mem_laneNums _ _).1 hm, Or.inr ⟨rfl, rfl⟩⟩
    · exact foldl_keep (fun l (x : Warp) => x.setReg64 d l (v e l)) Warp.preds (fun _ _ => rfl) _ _
    · exact foldl_keep (fun l (x : Warp) => x.setReg64 d l (v e l)) Warp.s (fun _ _ => rfl) _ _
    · exact foldl_keep (fun l (x : Warp) => x.setReg64 d l (v e l)) Warp.g (fun _ _ => rfl) _ _

theorem Warp.rest_setPred (wp : Warp) (p : BitVec 3) (l : Nat) (v : Bool) : Warp.rest (wp.setPred p l v) = Warp.rest wp := by
  unfold Warp.setPred; split <;> rfl

theorem Warp.live_setPred (wp : Warp) (p : BitVec 3) (l : Nat) (v : Bool) : (wp.setPred p l v).live = wp.live := by
  unfold Warp.setPred; split <;> rfl

/-- The result of a P-word that writes a predicate. -/
theorem laneWord_pred {i : Instr} {h : Hdr} {c : Cur} {s : State} (hh : InHand i h c s) (p : BitVec 3)
    (v : Env → Nat → Bool) :
    Next (laneWord i h (fun e l wp => wp.setPred p l (v e l)) s)
      (fun t => WordEnds c s t (fun e w' => PredResult h c p (v e) e w')) := by
  refine (laneWord_next hh (fun e l x => x.setPred p l (v e l)) (fun _ _ _ => Warp.live_setPred _ _ _ _)).mono fun t ht => ht.mono fun e w' _ hw => ?_
  subst hw
  have hreg : ∀ k l, l < 32 → ((Laws.laneFold h (fun e l x => x.setPred p l (v e l)) e e.wp).retire h
      e.lanes (c.pc + wordLen h)).pred k l
        = if k = p ∧ l ∈ laneNums (e.active h) then (p == 7 || v e l) else e.wp.pred k l :=
    fun k l hl => foldl_pred p (v e) _ (fun _ hx => laneNums_lt hx) _ k l hl
  refine ⟨laneFold_rest _ _ _ _ _ (by simp) (by simp) (by simp) (fun _ _ => Warp.rest_setPred _ _ _ _), ?_, ?_, ?_, ?_, ?_⟩
  · intro l hl
    have hm := (mem_laneNums (e.active h) l).2 hl
    rw [hreg p l (laneNums_lt hm), if_pos ⟨rfl, hm⟩]
  · intro k l hl hk
    rw [hreg k l hl, if_neg]
    rintro ⟨rfl, hm⟩
    exact hk ⟨(mem_laneNums _ _).1 hm, rfl⟩
  · exact foldl_keep (fun l (x : Warp) => x.setPred p l (v e l)) Warp.regs (by simp) _ _
  · exact foldl_keep (fun l (x : Warp) => x.setPred p l (v e l)) Warp.s (by simp) _ _
  · exact foldl_keep (fun l (x : Warp) => x.setPred p l (v e l)) Warp.g (by simp) _ _

/-- The end of a G-word that computes from its lead member. -/
theorem uniWord_next {i : Instr} {h : Hdr} {c : Cur} {s : State} (hh : InHand i h c s) (f : Env → Warp → Warp)
    (hlive : ∀ e x, (f e x).live = x.live) :
    Next (uniWord i h f s) (fun t => WordEnds c s t (fun e w' =>
      ∀ d, leadOf h s c = some d ∨ ¬ guardG h e.wp →
        w' = (if guardG h e.wp then f d e.wp else e.wp).retire h e.lanes (c.pc + wordLen h))) := by
  refine runWord_next hh _ _ ?_
  cases hl : leadOf h s c with
  | none =>
    refine (plain_ends h c s _).mono fun e w' he hw d hd => ?_
    rcases hd with hd | hd
    · exact absurd hd (by simp)
    · rw [if_neg hd]; exact hw
  | some d =>
    refine (members_ends h c s (fun _ => f d) (fun _ => hlive d)).mono fun e w' he hw d' hd => ?_
    rw [hw]
    rcases hd with hd | hd
    · rw [Option.some.inj hd]
    · rw [if_neg hd, if_neg hd]

/-- A guard-true member with lanes means a lead member. -/
theorem leadOf_isSome {h : Hdr} {c : Cur} {s : State} {e : Env} (he : Contributes s c e) (hg : guardG h e.wp = true) :
    ∃ d, leadOf h s c = some d := by
  unfold leadOf gMembers
  cases hl : ((members s c).filter (fun e => guardG h e.wp && e.lanes != 0)).head? with
  | some d => exact ⟨d, rfl⟩
  | none =>
    rw [List.head?_eq_none_iff, List.filter_eq_nil_iff] at hl
    exact absurd (by rw [hg, Bool.true_and]; simpa using he.lanes) (hl e he.mem)

/-- The result of a G-word that writes a uniform register. -/
theorem uniWord_set {i : Instr} {h : Hdr} {c : Cur} {s : State} (hh : InHand i h c s) (d : Name) (v : Env → BitVec 64) :
    Next (uniWord i h (fun e wp => wp.setS d (v e)) s)
      (fun t => WordEnds c s t (fun e w' => ∀ x, leadOf h s c = some x ∨ ¬ guardG h e.wp → UniResult h c d (v x) e w')) := by
  refine (uniWord_next hh (fun e wp => wp.setS d (v e)) (fun _ _ => rfl)).mono fun t ht => ht.mono fun e w' he hw x hx => ?_
  have := hw x hx
  by_cases hg : guardG h e.wp = true
  · rw [if_pos hg] at this
    subst this
    refine ⟨retire_goesOn _ _ _ _ _ rfl rfl rfl rfl, ?_, ?_, rfl, rfl, rfl⟩
    · intro _; exact (Warp.sreg_setS _ _ _ _).trans (if_pos rfl)
    · intro k hk; exact (Warp.sreg_setS _ _ _ _).trans (if_neg (fun h => hk ⟨hg, h⟩))
  · rw [if_neg hg] at this
    subst this
    exact ⟨retire_goesOn _ _ _ _ _ rfl rfl rfl rfl, fun h => absurd h hg, fun _ _ => rfl, rfl, rfl, rfl⟩

end Sys2Proof.Machine
end

