-- ==== Sys2Proof/Laws/Memory.lean ====
section
/-!
SUPPORT. Laws/Memory.lean: memory is in its canonical form at reset, and each operation that changes memory keeps it.
-/
namespace Sys2Proof.Machine

theorem Memory.wf_reset : Memory.wf State.reset.mem = true := rfl

theorem Memory.wf_filter (p : Host.Cell → Bool) (m : List Host.Cell) (h : Memory.wf m = true) : Memory.wf (m.filter p) = true :=
  sparseOk_filter (n := 8) p m h

theorem Memory.wf_sputBytes (m : List Host.Cell) (a : Nat) (bs : List (BitVec 8)) (h : Memory.wf m = true) :
    Memory.wf (sputBytes m a bs) = true := sparseOk_sputBytes m a bs h

theorem foldl_keeps {α β : Type} (P : β → Prop) (f : β → α → β) (hf : ∀ t a, P t → P (f t a)) (l : List α) (s : β) (h : P s) :
    P (l.foldl f s) := by
  induction l generalizing s with
  | nil => exact h
  | cons a t ih => exact ih _ (hf s a h)

theorem writeBytes_wf (s : State) (pa : Nat) (bs : List (BitVec 8)) (ks : Nat) (h : Memory.wf s.mem = true) :
    Memory.wf (writeBytes s pa bs ks).mem = true := by
  unfold writeBytes
  split
  · exact h
  · exact Memory.wf_sputBytes _ _ _ h

theorem writeNat_wf (s : State) (pa n v ks : Nat) (h : Memory.wf s.mem = true) : Memory.wf (writeNat s pa n v ks).mem = true :=
  writeBytes_wf s pa _ ks h

theorem setIxEntry_wf (n : Nat) (e : BitVec 32) (s : State) (h : Memory.wf s.mem = true) :
    Memory.wf (setIxEntry n e s).mem = true := Memory.wf_sputBytes _ _ _ h

theorem sealEntries_wf (c : Nat) (ctx : Option (BitVec 12)) (va : Nat) (on : Bool) (s : State)
    (h : Memory.wf s.mem = true) : Memory.wf (sealEntries c ctx va on s).mem = true := by
  unfold sealEntries
  split
  · exact h
  · refine foldl_keeps (fun t : State => Memory.wf t.mem = true) _ (fun _ _ => ?_) _ _ h
    exact Memory.wf_sputBytes _ _ _

theorem zeroRows_wf (g : Nat) (s : State) (h : Memory.wf s.mem = true) : Memory.wf (zeroRows g s).mem = true :=
  Memory.wf_filter _ _ h

theorem zeroMem_wf (lo n : Nat) (s : State) (h : Memory.wf s.mem = true) : Memory.wf (zeroMem lo n s).mem = true :=
  Memory.wf_filter _ _ h

theorem enterReplica_wf (d : BitVec 256) (s : State) (h : Memory.wf s.mem = true) : Memory.wf (enterReplica d s).mem = true :=
  Memory.wf_filter _ _ h

theorem closeSeg_mem (n : Nat) (s : State) : (closeSeg n s).mem = s.mem := rfl

theorem closeAll_mem (s : State) : (closeAll s).mem = s.mem := by
  unfold closeAll
  generalize s.segs = l
  show (l.foldl (fun t g => closeSeg g.1 t) s).mem = s.mem
  induction l generalizing s with
  | nil => rfl
  | cons g t ih => exact (ih _).trans (closeSeg_mem g.1 s)

theorem afterReset_wf (s : State) (h : Memory.wf s.mem = true) : Memory.wf (afterReset s).mem = true :=
  Memory.wf_filter _ _ ((closeAll_mem s).symm ▸ h)

end Sys2Proof.Machine
end

