-- ==== Sys2Proof/Laws/PerInstr.lean ====
section
/-!
SUPPORT. Laws/PerInstr.lean: LAWS.json names no family of laws per instruction; what holds of every word's encoding is stated over all
instructions in Certificates/Slice0/Obligations.lean.
-/
end

