-- ==== Sys2Proof/Laws/Traps.lean ====
section
/-!
SUPPORT. Laws/Traps.lean: changes of one warp, every word's way through issue, and what raising a trap does.
-/
namespace Sys2Proof
open Machine

theorem OnlyWarp.trans {id : BlockId} {w : Nat} {x y : Warp} {s t u : State} (h1 : OnlyWarp id w x s t)
    (h2 : OnlyWarp id w y t u) : OnlyWarp id w y s u := by
  refine ⟨?_, fun j hj => (h2.others j hj).trans (h1.others j hj), ?_, h2.warp⟩
  · rw [h2.only, h1.only]
  · intro b hb
    obtain ⟨b1, hb1, e1, v1⟩ := h1.block b hb
    obtain ⟨b2, hb2, e2, v2⟩ := h2.block b1 hb1
    exact ⟨b2, hb2, by rw [e2, e1], fun v hv => (v2 v hv).trans (v1 v hv)⟩

end Sys2Proof

namespace Sys2Proof.Machine

theorem onlyWarp_modWarp {s : State} {id : BlockId} {w : Nat} {b : Block} {x : Warp} (hb : getBlock s id = some b)
    (hx : b.warps[w]? = some x) (f : Warp → Warp) : OnlyWarp id w (f x) s (modWarp id w f s) := by
  have h1 : getBlock (modWarp id w f s) id
      = some { b with warps := b.warps.mapIdx (fun i x => if i = w then f x else x) } := by
    simp [getBlock_modWarp, hb]
  refine ⟨rfl, fun j hj => by simp [getBlock_modWarp, hj], ?_, warpD_of h1 (by simp [hx])⟩
  intro b' hb'
  rw [hb] at hb'; cases hb'
  refine ⟨_, h1, rfl, fun v hv => ?_⟩
  simp only [List.getElem?_mapIdx]
  cases b.warps[v]? <;> simp [hv]

set_option maxHeartbeats 8000000 in
/-- Every word goes through issue with an effect of its own. -/
theorem exec_runWord (i : Instr) (h : Hdr) (hi : i.hdr? = some h) :
    ∃ k : Cur → State → State, ∀ s, exec i s = runWord i h k s := by
  cases i
  all_goals first
    | (have hh := Option.some.inj hi; subst hh; exact ⟨_, fun _ => rfl⟩)
    | exact nomatch hi

theorem live_handler_lanes (w : Warp) (m : Lanes) (hd : BitVec 53) :
    ((w.setLanes m (fun x => { x with pc := hd, st := .running, susp := false, txe := false })).setLanes (w.live &&& ~~~m)
        (fun x => { x with susp := true })).lanes
      = w.lanes.mapIdx (fun l x =>
        if m.getLsbD l then { x with pc := hd, st := .running, susp := false, txe := false }
        else if w.live.getLsbD l then { x with susp := true } else x) := by
  simp only [Warp.setLanes, List.mapIdx_mapIdx]
  apply List.ext_getElem?
  intro l
  simp only [List.getElem?_mapIdx]
  cases w.lanes[l]? with
  | none => rfl
  | some x =>
    simp only [Option.map_some, Function.comp, BitVec.getLsbD_and, BitVec.getLsbD_not]
    by_cases hl : l < 32
    · simp only [hl, decide_true, Bool.true_and]
      generalize m.getLsbD l = p
      generalize w.live.getLsbD l = q
      cases p <;> cases q <;> rfl
    · rw [BitVec.getLsbD_of_ge m _ (by omega), BitVec.getLsbD_of_ge w.live _ (by omega)]; simp

theorem toNat_append' {n m : Nat} (x : BitVec n) (y : BitVec m) : (x ++ y).toNat = x.toNat * 2 ^ m + y.toNat := by
  rw [BitVec.toNat_append, Nat.shiftLeft_eq, Nat.mul_comm, Nat.two_pow_add_eq_or_of_lt y.isLt]

/-- R392: the record of a trap whose parts fit their fields. -/
theorem trapRecord_eq (t : TrapReq) : trapRecord t = record (BitVec.ofNat 64 t.addr) t.lanes (BitVec.ofNat 16 t.aux)
    (BitVec.ofNat 8 t.sub) (BitVec.ofNat 8 t.cause) t.ew t.iw t.pc := by
  apply BitVec.eq_of_toNat_eq
  simp only [trapRecord, record, toNat_append', BitVec.toNat_ofNat]
  have h1 := t.pc.isLt; have h2 := t.iw.isLt; have h3 := t.ew.isLt; have h4 := t.lanes.isLt
  omega

theorem recLanes_record (a : BitVec 64) (l : Lanes) (x : BitVec 16) (u v : BitVec 8) (w z : Word) (p : BitVec 53) :
    recLanes (record a l x u v w z p) = l := by
  apply BitVec.eq_of_getLsbD_eq
  intro i hi
  simp only [recLanes, record, BitVec.getLsbD_extractLsb', BitVec.getLsbD_append, hi, decide_true, Bool.true_and]
  repeat rw [if_neg (by omega)]
  rw [if_pos (by omega)]
  exact congrArg l.getLsbD (by omega)

theorem enterHandler_handles (x : Warp) (o : Option (BitVec 256)) (r : BitVec 256) (hd : BitVec 53) :
    Handles r hd x (Warp.enterHandler { x with trapping := o } r hd) := by
  refine ⟨rfl, rfl, rfl, ?_, rfl⟩
  exact congrArg (fun l => (List.map (Lane.release (l.map Lane.hold)) (l.map Lane.hold)))
    (live_handler_lanes { x with trec := r, tmask := true, hand := recLanes r &&& x.live, trapping := none }
      (recLanes r &&& x.live) hd)

/-- R393: a trap that is delivered at once. -/
theorem raiseTrap_takes {s : State} {id : BlockId} {w : Nat} {hd : BitVec 64} (h : TakesTraps s id w hd) (t : TrapReq) :
    ∃ w', OnlyWarp id w w' s (raiseTrap id w t s) ∧ Handles (trapRecord t) (hd.setWidth 53) (warpD s id w) w' := by
  obtain ⟨b, x, hb, hx⟩ := h.block
  have hwp : warpD s id w = x := warpD_of hb hx
  have h1 := onlyWarp_modWarp hb hx (fun x => { x with trapping := some (trapRecord t) })
  obtain ⟨b1, hb1, e1, v1⟩ := h1.block b hb
  have hx1 : b1.warps[w]? = some { x with trapping := some (trapRecord t) } := by
    have h2 : getBlock (modWarp id w (fun x => { x with trapping := some (trapRecord t) }) s) id
        = some { b with warps := b.warps.mapIdx (fun i y => if i = w then { y with trapping := some (trapRecord t) } else y) } := by
      simp [getBlock_modWarp, hb]
    rw [hb1] at h2; cases h2; simp [hx]
  have h2 := onlyWarp_modWarp hb1 hx1 (fun x => x.enterHandler (trapRecord t) (hd.setWidth 53))
  have he : raiseTrap id w t s = modWarp id w (fun x => x.enterHandler (trapRecord t) (hd.setWidth 53))
      (modWarp id w (fun x => { x with trapping := some (trapRecord t) }) s) := by
    have hw1 := warpD_of hb1 hx1
    have hr : x.results = [] := hwp ▸ h.results
    have hm : x.tmask = false := hwp ▸ h.tmask
    have ht : x.trapping = none := hwp ▸ h.trapping
    have hf : trapFate x t.lanes t.cause = .now := by simp [trapFate, hm, ht]
    unfold raiseTrap
    rw [hwp, hf]
    simp only [deliverTrap, hw1]
    rw [if_neg (fun hc => hc (show Warp.results _ = [] from hr)),
      show launchD (modWarp id w _ s) id.lid = launchD s id.lid from rfl,
      show (modWarp id w _ s).csr = s.csr from rfl, ← h.address, if_neg h.nonzero]
  refine ⟨_, he ▸ h1.trans h2, ?_⟩
  rw [hwp]
  exact enterHandler_handles x _ _ _

/-! ### A word of one member -/

theorem modWarp_modWarp (id : BlockId) (w : Nat) (f g : Warp → Warp) (s : State) :
    modWarp id w g (modWarp id w f s) = modWarp id w (fun x => g (f x)) s := by
  unfold modWarp modBlock
  simp only [List.map_map]
  congr 1
  apply List.map_congr_left
  intro b _
  simp only [Function.comp]
  by_cases h : b.id = id
  · simp only [h, if_true, List.mapIdx_mapIdx]
    congr 1
    apply List.ext_getElem?
    intro i
    simp only [List.getElem?_mapIdx]
    cases b.warps[i]? with
    | none => rfl
    | some x => simp only [Option.map_some, Function.comp]; by_cases hi : i = w <;> simp [hi]
  · simp [h]

def Laws.theOne (s : State) (c : Cur) : Env := { s := s, c := c, w := c.warp, wp := warpD s c.block c.warp, lanes := c.group }

theorem one_ends {c : Cur} (s : State) (f : Warp → Warp) (hs : c.single = none) (hg : c.group ≠ 0) :
    WordEnds c s (modWarp c.block c.warp f s) (fun e w' => e = Laws.theOne s c ∧ w' = f e.wp) := by
  have hm : members s c = [Laws.theOne s c] := by unfold members; rw [hs]; rfl
  refine ⟨rfl, fun id hid => by simp [getBlock_modWarp, hid], ?_, ?_⟩
  · intro b hb
    refine ⟨{ b with warps := b.warps.mapIdx (fun i x => if i = c.warp then f x else x) }, by rw [getBlock_modWarp, if_pos rfl, hb]; rfl, rfl, fun _ => rfl, ?_⟩
    intro w hw
    simp only [List.getElem?_mapIdx]
    cases hx : b.warps[w]? with
    | none => rfl
    | some x =>
      have : w ≠ c.warp := by
        rintro rfl
        refine hw (Laws.theOne s c) ⟨by rw [hm]; simp, hg, b, hb, ?_⟩ rfl
        rw [show (Laws.theOne s c).w = c.warp from rfl, hx]
        exact congrArg some (warpD_of hb hx).symm
      simp [this]
  · rintro e ⟨he, hne, b, hb, hx⟩
    rw [hm, List.mem_singleton] at he
    subst he
    refine ⟨rfl, warpD_of (b := { b with warps := b.warps.mapIdx (fun i x => if i = c.warp then f x else x) })
      (by rw [getBlock_modWarp, if_pos rfl, hb]; rfl) ?_⟩
    simp only [List.getElem?_mapIdx, hx]
    simp [Laws.theOne]

theorem onActive_one {c : Cur} (h : Hdr) (f : Env → Nat → Warp → Warp) (s : State) (hs : c.single = none) :
    onActive h f c s = modWarp c.block c.warp (Laws.laneFold h f (Laws.theOne s c)) s := by
  unfold onActive members; rw [hs]; rfl
theorem goes_single {i h c s} (hh : InHand i h c s) (hs : c.single = none) : Issues i h c s := by
  rcases hh.goes with ⟨r, hr⟩ | ⟨_, hi⟩
  · simp [hs] at hr
  · exact hi
theorem one_next {i : Instr} {h : Hdr} {c : Cur} {s : State} (hh : InHand i h c s) (hs : c.single = none) (k : Cur → State → State)
   (f : Warp → Warp) (hk : k c s = modWarp c.block c.warp f s) (eff : Env → Warp → Prop) (he : eff (Laws.theOne s c) (f (warpD s c.block c.warp))) :
   Next (runWord i h k s) (fun t => WordEnds c s t eff) := by
  refine ⟨_, runWord_inHand hh k |>.trans (finish_next ?_), ?_⟩
  · rw [hk]; exact hh.phys
  · rw [hk]
    refine (one_ends s f hs (goes_single hh hs).some).mono ?_
    rintro e w' _ ⟨rfl, rfl⟩
    exact he

end Sys2Proof.Machine
end

