-- ==== Sys2Proof/Tests/Slice0.lean ====
section
/-!
SUPPORT. Slice0.lean: the author's tests: words of the spec's encoding that decode to what they stand for, terms that
WellFormed refuses, results of single words on fixed operands, and for every statement of the package a concrete state and
operands that meet its hypotheses (`test_wit_…`). A hypothesis on a value of Config that has no body (a signature that verifies, a
free bit) can have no witness; the statements state both cases of it.
-/
open Sys2Proof Sys2Proof.Machine
namespace Sys2Proof.Tests
set_option maxRecDepth 100000
def h0 : Hdr := { s := false, x := false, scope := .own, set := 0, gn := false, gp := 7 }
def hx : Hdr := { h0 with x := true }
def cx : DecCtx := { e1 := false, band := true, det := false, handler := true }

theorem test_decode_integer_1 :
    decode cx 0x00099124#32 0#32 = .ok (.iadd h0 .i32 false 19 (.lane 17) (.reg 18))
    ∧ decode cx 0b0_0_00_000001_0010100_0010010_0010110_1#32 0b0_111_00100000_00000000000000000000#32 = .ok (.isub hx .i64 false 20 (.lane 18) (.reg 22))
    ∧ decode cx 0b0_0_00_000010_0010000_0000101_0000000_1#32 0b0_111_11000000_11111111111111111110#32 = .ok (.imul hx .i32 16 (.uni 5) (.imm 0xFFFFE))
    ∧ decode cx 0b0_0_00_000011_0010000_0010001_0010010_1#32 0b0_111_00010000_00000000000000000000#32 = .ok (.imulh hx true 16 (.lane 17) (.reg 18))
    ∧ decode cx 0b0_0_00_000100_0010000_0010001_0010010_1#32 0b0_111_00000000_00000000000000010011#32 = .ok (.imad hx false 16 (.lane 17) 18 19)
    ∧ decode cx 0b0_0_00_000101_0010000_0010001_0010011_1#32 0b0_111_00010000_00000000000000010100#32 = .ok (.imadw hx true 16 (.lane 17) 19 20)
    ∧ decode cx 0b0_0_00_000110_0010000_0010001_0010010_1#32 0b0_111_00010000_00000000000000000000#32 = .ok (.imin hx .n32 16 (.lane 17) (.reg 18))
    ∧ decode cx 0b0_0_00_000111_0010000_0010010_0010100_1#32 0b0_111_00110000_00000000000000000000#32 = .ok (.imax hx .n64 16 (.lane 18) (.reg 20))
    ∧ decode cx 0b0_0_00_001000_0010000_0010001_0010010_0#32 0#32 = .ok (.iabsd h0 .i32 16 (.lane 17) (.reg 18))
    ∧ decode cx 0b0_0_00_001001_0010000_0010001_0010010_0#32 0#32 = .ok (.idiv h0 false 16 (.lane 17) (.reg 18)) :=
  ⟨rfl, rfl, rfl, rfl, rfl, rfl, rfl, rfl, rfl, rfl⟩

theorem test_decode_integer_2 :
    decode cx 0b0_0_00_001010_0010000_0010001_0000000_1#32 0b0_111_01010000_00000000000000000011#32 = .ok (.irem hx true 16 (.lane 17) (.imm 3))
    ∧ decode cx 0b0_0_00_001011_0010000_0000010_0010101_1#32 0b0_111_10000000_00000000000000000011#32 = .ok (.lea hx false 16 (.uni 2) 21 3)
    ∧ decode cx 0b0_0_00_001100_0010000_1100001_0000000_1#32 0b0_111_10000000_00000000000000000000#32 = .ok (.mov hx false 16 (.uni 97))
    ∧ decode cx 0x034A8001#32 0x70000678#32 = .ok (.movi hx .i32 21 0x678)
    ∧ decode cx 0x038A9501#32 0x70012345#32 = .ok (.movhi hx 21 (.lane 21) 0x12345)
    ∧ decode cx 0b0_0_00_001111_0010000_0010001_0010010_1#32 0b0_111_00101000_00000000000000010011#32 = .ok (.idot4 hx false true true 16 (.lane 17) 18 19) :=
  ⟨rfl, rfl, rfl, rfl, rfl, rfl⟩

theorem test_decode_logic :
    decode cx 0b0_0_00_010000_0010000_0010001_0010010_1#32 0b0_111_00000001_00000000000000000000#32 = .ok (.and hx false true 16 (.lane 17) (.reg 18))
    ∧ decode cx 0b0_0_00_010001_0010000_0010010_0010100_1#32 0b0_111_00100000_00000000000000000000#32 = .ok (.or hx true false 16 (.lane 18) (.reg 20))
    ∧ decode cx 0b0_0_00_010010_0010000_0010001_0000000_1#32 0b0_111_01000000_00000000000011111111#32 = .ok (.xor hx false false 16 (.lane 17) (.imm 0xFF))
    ∧ decode cx 0b0_0_00_010011_0010000_0010001_0010010_1#32 0b0_111_00000000_00000110010100010011#32 = .ok (.lop3 hx false 16 (.lane 17) 18 19 0xC 0xA)
    ∧ decode cx 0b0_0_00_010100_0010000_0010010_0010101_1#32 0b0_111_00100000_00000000000000000000#32 = .ok (.shl hx true 16 (.lane 18) (.reg 21))
    ∧ decode cx 0b0_0_00_010101_0010000_0010001_0000000_1#32 0b0_111_01010000_00000000000000000100#32 = .ok (.shr hx .n32 16 (.lane 17) (.imm 4))
    ∧ decode cx 0b0_0_00_010110_0010000_0010001_0000000_1#32 0b0_111_01000000_00000000000010000100#32 = .ok (.bfx hx false 16 (.lane 17) (.imm 4 4))
    ∧ decode cx 0b0_0_00_010111_0010000_0010010_0000000_1#32 0b0_111_00100001_00000000000000000000#32 = .ok (.bcnt hx .clz true 16 (.lane 18)) :=
  ⟨rfl, rfl, rfl, rfl, rfl, rfl, rfl, rfl⟩

theorem test_decode_float_1 :
    decode cx 0b0_0_00_011000_0010000_0010001_0010010_1#32 0b0_111_00010001_00000000000000000000#32 = .ok (.fadd hx .rz false true 16 (.lane 17) (.reg 18))
    ∧ decode cx 0x064F9E01#32 0x7403F000#32 = .ok (.fmul hx .rne false false 31 (.lane 30) (.imm 0x3F000))
    ∧ decode cx 0x06899125#32 0x70100004#32 = .ok (.ffma hx .rz false false 19 (.lane 17) 18 4)
    ∧ decode cx 0b0_0_00_011011_0010000_0010001_0010010_1#32 0b0_111_00101000_00000000000000000000#32 = .ok (.fmin hx true true false 16 (.lane 17) (.reg 18))
    ∧ decode cx 0b0_0_00_011100_0010000_0010001_0010001_1#32 0b0_111_00010000_00000000000000000000#32 = .ok (.fmax hx false false true 16 (.lane 17) (.reg 17))
    ∧ decode cx 0b0_0_00_011101_0010000_0010001_0000000_1#32 0b0_111_00000011_00000000000000000000#32 = .ok (.frcp hx .rd 16 (.lane 17))
    ∧ decode cx 0x07902000#32 0#32 = .ok (.frsq h0 .rne 32 (.lane 32))
    ∧ decode cx 0b0_0_00_011111_0010000_0010001_0000000_1#32 0b0_111_00000010_00000000000000000000#32 = .ok (.fsqrt hx .ru 16 (.lane 17))
    ∧ decode cx 0b0_0_00_100000_0010000_0010001_0000000_0#32 0#32 = .ok (.fex2 h0 16 (.lane 17))
    ∧ decode cx 0b0_0_00_100001_0010000_0010001_0000000_0#32 0#32 = .ok (.flg2 h0 16 (.lane 17)) :=
  ⟨rfl, rfl, rfl, rfl, rfl, rfl, rfl, rfl, rfl, rfl⟩

theorem test_decode_float_2 :
    decode cx 0b0_0_00_100010_0010000_0010001_0000000_0#32 0#32 = .ok (.fsin h0 16 (.lane 17))
    ∧ decode cx 0b0_0_00_100011_0010000_0010001_0000000_0#32 0#32 = .ok (.fcos h0 16 (.lane 17))
    ∧ decode cx 0b0_0_00_100100_0010000_0010001_0010010_1#32 0b0_111_01100001_00000000000000010011#32 = .ok (.hfma2 hx true true false false .rz 16 (.lane 17) 18 19)
    ∧ decode cx 0b0_0_00_100101_0010000_0010001_0000000_1#32 0b0_111_00100000_00000000000000000000#32 = .ok (.fclass hx .bf16 16 (.lane 17)) :=
  ⟨rfl, rfl, rfl, rfl⟩

theorem test_decode_convert :
    decode cx 0b0_0_00_100110_0010010_0010001_0000000_1#32 0b0_111_00000100_00000100111000010011#32 = .ok (.cvtf hx .e4m3 .f32 .sr (.reg 9) 18 (.lane 17))
    ∧ decode cx 0b0_0_00_100111_0010010_0010001_0000000_1#32 0b0_111_00000001_00000000001000100101#32 = .ok (.cvti hx .i64 .f16 .rz 18 (.lane 17))
    ∧ decode cx 0b0_0_00_101000_0010010_0010001_0010011_1#32 0b0_111_00000000_00000000000000110100#32 = .ok (.pack hx .e5m2 1 .rne .launch 18 (.lane 17) 19)
    ∧ decode cx 0b0_0_00_101001_0010010_0010001_0011001_1#32 0b0_111_00001000_00000000000001110011#32 = .ok (.unpack hx .e4m3 3 18 (.lane 17) (some 25))
    ∧ decode cx 0b0_0_00_101010_0010010_0010001_0011001_1#32 0b0_111_00001000_00000000000000010111#32 = .ok (.qscale hx .e2m1 .rne .launch 18 (.lane 17) (some 25))
    ∧ decode cx 0b0_0_00_101011_0010010_0010001_0000000_1#32 0b0_111_00000011_00000000000000000000#32 = .ok (.frnd hx .rd 18 (.lane 17)) :=
  ⟨rfl, rfl, rfl, rfl, rfl, rfl⟩

theorem test_decode_compare :
    decode cx 0b0_0_00_101100_0000011_0010001_0010010_1#32 0b0_111_00010010_00000000000000000000#32 = .ok (.icmp hx .lt .n32 3 (.lane 17) (.reg 18))
    ∧ decode cx 0b0_0_00_101101_0000010_0010001_0010010_1#32 0b0_111_00000111_00000000000000000000#32 = .ok (.fcmp hx .nan 2 (.lane 17) (.reg 18))
    ∧ decode cx 0b0_0_00_101110_0010000_0010010_0010100_1#32 0b0_111_00100000_00000000000000001101#32 = .ok (.sel hx true 5 true 16 (.lane 18) 20)
    ∧ decode cx 0b0_0_00_101111_0000001_0000010_0000011_1#32 0b0_111_00000000_00000000010010110100#32 = .ok (.plop hx (.lut 1 2 3 4 0x96))
    ∧ decode cx 0b0_0_00_101111_0010000_0000000_0000000_1#32 0b0_111_00000001_00000000000000000000#32 = .ok (.plop hx (.toReg 16))
    ∧ decode cx 0b0_0_00_101111_0000000_0010001_0000000_1#32 0b0_111_00000010_00000000000001010101#32 = .ok (.plop hx (.fromReg (.lane 17) 0x55)) :=
  ⟨rfl, rfl, rfl, rfl, rfl, rfl⟩

theorem test_decode_cross :
    decode cx 0x0C0E1841#32 0x70100000#32 = .ok (.shfl hx (.ahead false) .w32 28 (.lane 24) (.reg 32))
    ∧ decode cx 0b0_0_00_110001_0010000_0000011_0000001_1#32 0b0_111_00000011_00000000000000000000#32 = .ok (.vote hx .mask true 16 3)
    ∧ decode cx 0b0_0_00_110010_0010000_0010001_0010010_1#32 0b0_111_00000000_00000111010100110001#32 = .ok (.prmt hx 0x7531 16 (.lane 17) 18)
    ∧ decode cx 0x0CCC9801#32 0x71100000#32 = .ok (.xred hx (.max true) 25 (.lane 24))
    ∧ decode cx 0x2CCA9601#32 0x73003000#32 = .ok (.xred { hx with scope := .set, set := 3 } (.fadd .rne) 21 (.lane 22)) :=
  ⟨rfl, rfl, rfl, rfl, rfl⟩

theorem test_decode_access_1 :
    decode cx 0x0D0A1200#32 0#32 = .ok (.ld h0 false .b32 .none .b .none 20 (.lane 18) 0)
    ∧ decode cx 0x0D488613#32 0x7C000008#32 = .ok (.st hx true .b32 .rel .dv .none 17 (.uni 6) 8)
    ∧ decode cx 0b0_0_00_110110_0010000_0010001_0000000_1#32 0b0_111_00011000_00000000000000000000#32 = .ok (.lds hx false .n8 .none .b 16 (.lane 17) 0)
    ∧ decode cx 0x0DCB1001#32 0x79800016#32 = .ok (.sts hx false .n8 .none .b 22 (.uni 16) 22)
    ∧ decode cx 0x0E0D122B#32 0x70180000#32 = .ok (.atom hx { op := .add, ty := .n32, sp := false, sem := .none, msc := .dv, off := 0 } 26 (.lane 18) 21)
    ∧ decode cx 0x0E400431#32 0x7D450040#32 = .ok (.red hx { op := .fadd, ty := .f32, sp := false, sem := .rel, msc := .cl, off := 64 } (.uni 4) 24)
    ∧ decode cx 0x0E920001#32 0x700FFFFA#32 = .ok (.txb hx 36 0xFFFFA)
    ∧ decode cx 0x0E800001#32 0x70100000#32 = .ok (.txe hx)
    ∧ decode cx 0b0_0_00_111010_0000000_0000000_0000000_1#32 0b0_111_00000010_00000000000001011010#32 = .ok (.txa hx 0x5A)
    ∧ decode cx 0b0_0_00_111010_0010000_0000000_0000000_1#32 0b0_111_00000011_00000000000000000000#32 = .ok (.txq hx 16) :=
  ⟨rfl, rfl, rfl, rfl, rfl, rfl, rfl, rfl, rfl, rfl⟩

theorem test_decode_access_2 :
    decode cx 0x0EC00001#32 0x70B00000#32 = .ok (.fence hx .ar .dv) :=
  rfl

theorem test_decode_control_1 :
    decode cx 0b0_0_00_111100_0000000_0000000_0000000_1#32 0b0_111_00000000_11111111111111111100#32 = .ok (.bra hx 0xFFFFC)
    ∧ decode cx 0b0_0_00_111101_0000000_0010010_0000000_0#32 0#32 = .ok (.brx h0 (.lane 18))
    ∧ decode cx 0b0_0_00_111110_0010100_0000000_0000000_1#32 0b0_111_00000000_00000000000000010000#32 = .ok (.call hx 20 16)
    ∧ decode cx 0b0_0_00_111110_0000000_0010100_0000000_1#32 0b0_111_00000001_00000000000000000000#32 = .ok (.ret hx (.lane 20))
    ∧ decode cx 0x0FC00000#32 0#32 = .ok (.nop h0)
    ∧ decode cx 0x4FC00000#32 0#32 = .ok (.nop { h0 with s := true })
    ∧ decode cx 0x2FC00001#32 0x70005000#32 = .ok (.nop { hx with scope := .set, set := 5 })
    ∧ decode cx 0b0_0_00_111111_0000000_0000000_0000000_1#32 0b0_111_00000001_00000000000000001100#32 = .ok (.meet hx 12)
    ∧ decode cx 0b0_0_00_111111_0010100_0000000_0000000_1#32 0b0_111_00000010_00000000000000000000#32 = .ok (.meetsv hx 20)
    ∧ decode cx 0b0_0_00_111111_0000000_0010100_0000000_1#32 0b0_111_00000011_00000000000000000000#32 = .ok (.meetld hx (.lane 20)) :=
  ⟨rfl, rfl, rfl, rfl, rfl, rfl, rfl, rfl, rfl, rfl⟩

theorem test_decode_control_2 :
    decode cx 0x0FC00001#32 0xB0400000#32 = .ok (.exit { hx with gn := true, gp := 3 })
    ∧ decode cx 0b0_0_00_111111_0000000_0000000_0000000_1#32 0b0_111_00000101_00000000000000000000#32 = .ok (.yield hx)
    ∧ decode cx 0b0_0_00_111111_0000000_0000000_0000000_1#32 0b0_111_00000110_00000001001000110100#32 = .ok (.trap hx 0x1234)
    ∧ decode cx 0b0_0_00_111111_0000000_0000000_0000000_1#32 0b0_111_00000111_00000000000000000111#32 = .ok (.bkpt hx 7)
    ∧ decode cx 0x0FCD1329#32 0x7080001A#32 = .ok (.waita hx .geu true true .b 0 26 19 20) :=
  ⟨rfl, rfl, rfl, rfl, rfl⟩

theorem test_decode_uniform_1 :
    decode cx 0b1_0_00_000000_0000001_0000010_0000000_1#32 0b0_111_11010001_00000000000000001000#32 = .ok (.salu hx .shr true 1 2 (.imm 8))
    ∧ decode cx 0b1_0_00_000001_0000001_1100010_0000000_0#32 0#32 = .ok (.smov h0 1 98)
    ∧ decode cx 0b1_0_00_000001_0000001_0000000_0000000_1#32 0b0_111_00000001_00010010001101000101#32 = .ok (.smovI hx 1 0x12345)
    ∧ decode cx 0b1_0_00_000001_0000001_0000001_0000000_1#32 0b0_111_00000010_01100111100010011010#32 = .ok (.smovCat hx 1 1 0x6789A)
    ∧ decode cx 0b1_0_00_000001_0000100_0000000_0000000_1#32 0b0_111_00000011_00000000000000000000#32 = .ok (.smovGtos hx 4)
    ∧ decode cx 0b1_0_00_000001_0000000_0000101_0000000_1#32 0b0_111_00000100_00000000000000000000#32 = .ok (.smovStog hx 5)
    ∧ decode cx 0b1_0_00_000001_0000110_0010001_0011111_1#32 0b0_111_00000101_00000000000000000000#32 = .ok (.smovRdl hx 6 17 31)
    ∧ decode cx 0b1_0_00_000010_1010010_0000001_0000010_1#32 0b0_111_00001101_00000000000000000000#32 = .ok (.scmp hx .ge true 82 1 (.reg 2))
    ∧ decode cx 0xB0C00001#32 0x201FFFF6#32 = .ok (.sbra { hx with scope := .block, gp := 2 } .any 0xFFFF6)
    ∧ decode cx 0xB1020200#32 0#32 = .ok (.sld { h0 with scope := .block } false false false .none .b 4 2 0) :=
  ⟨rfl, rfl, rfl, rfl, rfl, rfl, rfl, rfl, rfl, rfl⟩

theorem test_decode_uniform_2 :
    decode cx 0b1_0_00_000101_0000100_0000010_0001101_1#32 0b0_111_00000111_00000000000000000000#32 = .ok (.sst hx true true true .rel .sy 4 2 0)
    ∧ decode cx 0xB1830207#32 0x70380000#32 = .ok (.satom { hx with scope := .block } { op := .add, ty := .n64, sp := false, sem := .none, msc := .dv, off := 0 } 6 2 3)
    ∧ decode cx 0x81C28001#32 0x70000004#32 = .ok (.csrr hx 5 4)
    ∧ decode cx 0b1_0_00_000111_0000000_0000110_0000000_1#32 0b0_111_00000001_00000000000100000000#32 = .ok (.csrw hx 0x100 6)
    ∧ decode cx 0x81C00601#32 0x70100005#32 = .ok (.tmaskWrite hx 6)
    ∧ decode cx 0b1_0_00_000111_0000000_0000110_0000000_1#32 0b0_111_00000001_00000000000000000100#32 = .ok (.tpendWrite hx 6)
    ∧ decode cx 0b1_0_00_000111_0000000_0000110_0000000_1#32 0b0_111_00000001_00000000001000000001#32 = .ok (.mextWrite hx 6)
    ∧ decode cx 0x81C00601#32 0x70100250#32 = .ok (.colcmdWrite hx 6)
    ∧ decode cx 0x81C00601#32 0x70100120#32 = .ok (.errinjWrite hx 6) :=
  ⟨rfl, rfl, rfl, rfl, rfl, rfl, rfl, rfl, rfl⟩

theorem test_decode_group_1 :
    decode cx 0xB2000001#32 0x70300000#32 = .ok (.bar { hx with scope := .block } .ar .b)
    ∧ decode cx 0x92408301#32 0x70100000#32 = .ok (.elect { hx with scope := .warp } 1 (some 3))
    ∧ decode cx 0b1_0_00_001010_0010001_1000011_0000000_0#32 0#32 = .ok (.wmovTol h0 17 67)
    ∧ decode cx 0b1_0_00_001010_1000011_0010001_0000000_1#32 0b0_111_00000001_00000000000000000000#32 = .ok (.wmovFroml hx 67 17)
    ∧ decode cx 0b1_0_00_001011_0000101_0010110_0000000_1#32 0b0_111_00110011_00000000000000000000#32 = .ok (.wred hx (.fadd .rd) 5 22)
    ∧ decode cx 0b1_0_00_001100_0000101_0000000_0000000_1#32 0b0_111_00000011_00000000000000001001#32 = .ok (.gmemb hx .live 5 9)
    ∧ decode cx 0b1_0_01_001101_1010001_0000000_0000000_1#32 0b0_111_00000001_00000000000001000000#32 = .ok (.grow { hx with scope := .warp } (some 81) 64)
    ∧ decode cx 0b1_0_11_001110_0000101_0000110_0000000_1#32 0b0_111_00010101_00000000000000000000#32 = .ok (.band { hx with scope := .block } (.red .xor false) 5 6)
    ∧ decode cx 0b1_0_11_001110_0000101_0000110_0000011_1#32 0b0_111_00000010_00000000000000000000#32 = .ok (.band { hx with scope := .block } (.bcast 3) 5 6)
    ∧ decode cx 0xB3C00000#32 0#32 = .ok (.sflush { h0 with scope := .block }) :=
  ⟨rfl, rfl, rfl, rfl, rfl, rfl, rfl, rfl, rfl, rfl⟩

theorem test_decode_group_2 :
    decode cx 0x8EC50000#32 0#32 = .ok (.clk h0 10)
    ∧ decode cx 0b1_0_00_111011_0001010_0000000_0000000_1#32 0b0_111_00000001_00000000000000000000#32 = .ok (.clkCyc hx 10)
    ∧ decode cx 0x8E800000#32 0#32 = .ok (.tret h0)
    ∧ decode cx 0x8E800001#32 0x70100000#32 = .ok (.tretExit hx) :=
  ⟨rfl, rfl, rfl, rfl⟩

theorem test_decode_tiles_1 :
    decode cx 0x8404040B#32 0x71A00003#32 = .ok (.tcopy hx .acq .dv (.reg 5) 8 4 3)
    ∧ decode cx 0b1_0_00_010001_0001000_0000100_0000000_1#32 0b0_111_00000101_00000000000000000010#32 = .ok (.tstore hx .rel .cl .all 8 4 2)
    ∧ decode cx 0b1_0_11_010010_0001000_0000100_0000000_1#32 0b0_111_00000110_00000000000000000000#32 = .ok (.ring { hx with scope := .block } .acq .cl 8 4)
    ∧ decode cx 0x84C4860F#32 0x70A00000#32 = .ok (.twait hx .geu true .b 0 9 6 7 0)
    ∧ decode cx 0b1_0_00_010100_0001000_0000100_0000000_1#32 0b0_111_00001001_00000000000000001111#32 = .ok (.tfill hx .rel .dv 8 4 15)
    ∧ decode cx 0b1_0_00_010101_0001000_0000000_0000000_1#32 0b0_111_00000001_00000000000000010000#32 = .ok (.tstat hx .state 8 16)
    ∧ decode cx 0b1_0_00_010101_0001000_0000000_0000000_1#32 0b0_111_00000010_00000000000000000011#32 = .ok (.tstatClr hx 8 3)
    ∧ decode cx 0b1_0_00_010110_0000000_0000100_0000101_1#32 0b0_111_00000000_11111111111110000000#32 = .ok (.prefCc hx 4 5 0xFFF80)
    ∧ decode cx 0b1_0_00_010110_0000000_0000100_0000101_1#32 0b0_111_00000001_00000000000000000000#32 = .ok (.prefL1 hx 4 5 0)
    ∧ decode cx 0b1_0_00_010110_0000000_0000100_0000101_1#32 0b0_111_00000010_00000000000000000000#32 = .ok (.prefIx hx 4 5 0) :=
  ⟨rfl, rfl, rfl, rfl, rfl, rfl, rfl, rfl, rfl, rfl⟩

theorem test_decode_tiles_2 :
    decode cx 0b1_0_00_010111_0000000_0000000_0000000_0#32 0#32 = .ok (.cctlL1inv h0)
    ∧ decode cx 0b1_0_00_010111_0000000_0000100_0000101_1#32 0b0_111_00000001_00000000000000000000#32 = .ok (.cctlFxinv hx 4 5)
    ∧ decode cx 0b1_0_00_010111_0000000_0000000_0000000_1#32 0b0_111_00000010_00000000000000000000#32 = .ok (.cctlAppend hx) :=
  ⟨rfl, rfl, rfl⟩

theorem test_decode_matrix_1 :
    decode cx 0xB6050001#32 0x70000006#32 = .ok (.mclaim { hx with scope := .block } false 10 6)
    ∧ decode cx 0b1_0_00_011001_0001010_0000100_0000000_1#32 0b0_111_00000001_00000000000000010000#32 = .ok (.mrel hx true 10 4 16)
    ∧ decode cx 0x86840401#32 0x72000002#32 = .ok (.mload hx .none .b .all true 8 4 2)
    ∧ decode cx 0x86CA0C01#32 0x72000005#32 = .ok (.mma hx .all true 20 12 5)
    ∧ decode cx 0b1_0_00_011100_0010100_0001100_0001101_1#32 0b0_111_01010000_00000000000000000101#32 = .ok (.mmasp hx .p2 (.reg 13) false 20 12 5)
    ∧ decode cx 0b1_0_00_011101_0010100_0001100_0000000_0#32 0#32 = .ok (.mzero h0 20 12 0)
    ∧ decode cx 0b1_0_00_011110_0001000_0000100_0000000_1#32 0b0_111_00001101_00000000000000111111#32 = .ok (.mstore hx .rel .sy .all false 8 4 63)
    ∧ decode cx 0x87C4800F#32 0x70100003#32 = .ok (.mwait hx true .b 0 9 3 7)
    ∧ decode cx 0b1_0_00_100000_0001001_0000100_0000000_1#32 0b0_111_00000011_00000000000000000000#32 = .ok (.mstat hx .free 9 4)
    ∧ decode cx 0b1_0_00_100001_0001001_0000100_0000101_1#32 0b0_111_00010000_00000000000000000001#32 = .ok (.mcvt hx (.reg 5) 9 4 1) :=
  ⟨rfl, rfl, rfl, rfl, rfl, rfl, rfl, rfl, rfl, rfl⟩

theorem test_decode_matrix_2 :
    decode cx 0b1_0_00_100010_0001001_0000000_0000000_0#32 0#32 = .ok (.mqcfgAlloc h0 9)
    ∧ decode cx 0b1_0_00_100010_0001001_0000100_0000000_1#32 0b0_111_00000001_00000000000000000000#32 = .ok (.mqcfgFree hx 9 4)
    ∧ decode cx 0b1_0_00_100010_0001001_0000100_0000000_1#32 0b0_111_00000010_00000000000000000000#32 = .ok (.mqcfgClr hx 9 4)
    ∧ decode cx 0x8901840A#32 0#32 = .ok (.lbind h0 3 4 5)
    ∧ decode cx 0x894A0C1B#32 0x71000005#32 = .ok (.mmad hx (.reg 13) false 20 12 5)
    ∧ decode cx 0x89818400#32 0#32 = .ok (.lrefForce h0 3 4)
    ∧ decode cx 0b1_0_00_100110_0000011_0000100_0000000_1#32 0b0_111_00000001_00000000000000000000#32 = .ok (.lrefDrop hx 3 4)
    ∧ decode cx 0x89818401#32 0x70200000#32 = .ok (.lrefQuery hx 3 4)
    ∧ decode cx 0x89C10812#32 0#32 = .ok (.lwatchAdd h0 2 8 9)
    ∧ decode cx 0b1_0_00_100111_0000010_0001000_0000000_1#32 0b0_111_00000001_00000000000000000000#32 = .ok (.lwatchDel hx 2 8) :=
  ⟨rfl, rfl, rfl, rfl, rfl, rfl, rfl, rfl, rfl, rfl⟩

theorem test_decode_matrix_3 :
    decode cx 0b1_0_00_100111_0000010_0001000_0000000_1#32 0b0_111_00000010_00000000000000000000#32 = .ok (.lwatchGen hx 2 8) :=
  rfl

theorem test_decode_log_1 :
    decode cx 0x8A05040A#32 0#32 = .ok (.snapTake h0 10 4 5)
    ∧ decode cx 0x8A03040B#32 0x70100002#32 = .ok (.snapRd hx 6 2 4 5)
    ∧ decode cx 0b1_0_00_101000_0000110_0000100_0000000_1#32 0b0_111_00000010_00000000000000000000#32 = .ok (.snapQuery hx 6 4)
    ∧ decode cx 0b1_0_00_101001_0000110_0000100_0000000_0#32 0#32 = .ok (.sndrop h0 6 4)
    ∧ decode cx 0x9A870B1E#32 0#32 = .ok (.rollb { h0 with scope := .warp } 14 11 15)
    ∧ decode cx 0x8AC10000#32 0#32 = .ok (.publ h0 2)
    ∧ decode cx 0x8AC18501#32 0x70500000#32 = .ok (.publWait hx true 3 5)
    ∧ decode cx 0x8AC88001#32 0x70200000#32 = .ok (.publSeal hx 17)
    ∧ decode cx 0b1_0_00_101100_0000100_0000110_0000000_1#32 0b0_111_00000000_00000000000000000010#32 = .ok (.shipCfg hx 4 6 2)
    ∧ decode cx 0b1_0_00_101100_0000100_0000000_0000000_1#32 0b0_111_00000001_00000000000000000011#32 = .ok (.shipStart hx 4 3) :=
  ⟨rfl, rfl, rfl, rfl, rfl, rfl, rfl, rfl, rfl, rfl⟩

theorem test_decode_log_2 :
    decode cx 0b1_0_00_101100_0000100_0000000_0000000_1#32 0b0_111_00000010_00000000000000000001#32 = .ok (.shipStop hx 4 1)
    ∧ decode cx 0x8B020001#32 0x70300001#32 = .ok (.shipStat hx 4 1)
    ∧ decode cx 0b1_0_00_101100_0000100_0000110_0000000_1#32 0b0_111_00000100_00000000000000000000#32 = .ok (.shipAccept hx 4 6)
    ∧ decode cx 0b1_0_00_101100_0000100_0000000_0000000_1#32 0b0_111_00000101_00000000000000000000#32 = .ok (.shipPromote hx 4)
    ∧ decode cx 0b1_0_00_101101_0000100_0000110_0000000_1#32 0b0_111_00000000_00000000000010000000#32 = .ok (.ixctlQuery hx 4 6 0x80)
    ∧ decode cx 0b1_0_00_101101_0000000_0000100_0000101_1#32 0b0_111_00000001_00000000000000000000#32 = .ok (.ixctlDrop hx 4 5)
    ∧ decode cx 0b1_0_00_101101_0000000_0000100_0000000_1#32 0b0_111_00000010_00000000000000001000#32 = .ok (.ixctlUnhome hx 4 8) :=
  ⟨rfl, rfl, rfl, rfl, rfl, rfl, rfl⟩

theorem test_decode_near :
    decode cx 0x8B81040A#32 0#32 = .ok (.nbarm h0 2 4 5)
    ∧ decode cx 0x8BC10400#32 0#32 = .ok (.nbdisarm h0 2 4)
    ∧ decode cx 0b1_0_00_110000_0000010_0000100_0000101_1#32 0b0_111_00010000_00000000000000000000#32 = .ok (.nbload hx (.reg 5) 2 4)
    ∧ decode cx 0b1_0_00_110001_0000010_0000100_0000000_1#32 0b0_111_00100000_00000000000000000000#32 = .ok (.nbstrm hx .all true 2 4)
    ∧ decode cx 0x8C848601#32 0x70900000#32 = .ok (.nbdrain hx true .dv 9 6)
    ∧ decode cx 0b1_0_00_110010_0001001_0000000_0000000_1#32 0b0_111_00100000_00000000000000000000#32 = .ok (.nbdrainClr hx 9)
    ∧ decode cx 0x8CC4040B#32 0x71000000#32 = .ok (.nbop hx .none .b (.reg 5) 8 4)
    ∧ decode cx 0x8D050401#32 0x70A00000#32 = .ok (.trav hx .acq .dv 10 4)
    ∧ decode cx 0x8D418000#32 0#32 = .ok (.travqCount h0 3)
    ∧ decode cx 0b1_0_00_110101_0000011_0000100_0000000_1#32 0b0_111_00000001_00000000000000000000#32 = .ok (.travqCancel hx 3 4) :=
  ⟨rfl, rfl, rfl, rfl, rfl, rfl, rfl, rfl, rfl, rfl⟩

theorem test_decode_system_1 :
    decode cx 0x8D820200#32 0#32 = .ok (.launch h0 4 2)
    ∧ decode cx 0b1_0_00_110111_0000110_0000010_0000011_0#32 0#32 = .ok (.mboxCfg h0 6 2 3)
    ∧ decode cx 0b1_0_00_110111_0000110_0000010_0000011_1#32 0b0_111_00000001_00000000000000000000#32 = .ok (.mboxPost hx 6 2 3)
    ∧ decode cx 0x8DC30207#32 0x70200000#32 = .ok (.mboxOpen hx 6 2 3)
    ∧ decode cx 0x8E01040A#32 0#32 = .ok (.ctxsvWrite h0 2 4 5)
    ∧ decode cx 0b1_0_00_111000_0000010_0000100_0000101_1#32 0b0_111_00000001_00000000000000000000#32 = .ok (.ctxsvRead hx 2 4 5)
    ∧ decode cx 0b1_0_00_111000_0000010_0000100_0000000_1#32 0b0_111_00000010_00000000000000000000#32 = .ok (.ctxsvResume hx 2 4)
    ∧ decode cx 0b1_0_00_111000_0000010_0000100_0000000_1#32 0b0_111_00000011_00000000000000000000#32 = .ok (.ctxsvKill hx 2 4)
    ∧ decode cx 0x8E410400#32 0#32 = .ok (.preemptCtx h0 2 4)
    ∧ decode cx 0x8E410401#32 0x70100000#32 = .ok (.preemptLaunch hx 2 4) :=
  ⟨rfl, rfl, rfl, rfl, rfl, rfl, rfl, rfl, rfl, rfl⟩

theorem test_decode_system_2 :
    decode cx 0b1_0_00_111001_0000010_0000100_0000101_1#32 0b0_111_00000010_00000000000000000000#32 = .ok (.preemptBlock hx 2 4 5)
    ∧ decode cx 0b1_0_00_111001_0000010_0000100_0000000_1#32 0b0_111_00000011_00000000000000000000#32 = .ok (.preemptResume hx 2 4)
    ∧ decode cx 0x8F018700#32 0#32 = .ok (.fltqDone h0 3 7)
    ∧ decode cx 0b1_0_00_111100_0000011_0000111_0001000_1#32 0b0_111_00000001_00000000000000000000#32 = .ok (.fltqFail hx 3 7 8)
    ∧ decode cx 0b1_0_00_111100_0000011_0000111_0000000_1#32 0b0_111_00000010_00000000000000000000#32 = .ok (.fltqStat hx 3 7)
    ∧ decode cx 0b1_0_00_111101_0000010_0000000_0000000_0#32 0#32 = .ok (.tlbiAll h0 2)
    ∧ decode cx 0b1_0_00_111101_0000010_0000100_0000000_1#32 0b0_111_00000001_00000000000000000000#32 = .ok (.tlbiCtx hx 2 4)
    ∧ decode cx 0x8F41040B#32 0x70200000#32 = .ok (.tlbiRange hx 2 4 5)
    ∧ decode cx 0b1_0_00_111110_0000010_0000100_0000101_0#32 0#32 = .ok (.keyctlLoad h0 2 4 5)
    ∧ decode cx 0x8F81040B#32 0x70100000#32 = .ok (.keyctlBind hx 2 4 5) :=
  ⟨rfl, rfl, rfl, rfl, rfl, rfl, rfl, rfl, rfl, rfl⟩

theorem test_decode_system_3 :
    decode cx 0b1_0_00_111110_0000010_0000100_0000000_1#32 0b0_111_00000010_00000000000000000000#32 = .ok (.keyctlErase hx 2 4)
    ∧ decode cx 0b1_0_00_111110_0000010_0000100_0000000_1#32 0b0_111_00000011_00000000000000000000#32 = .ok (.keyctlQuery hx 2 4)
    ∧ decode cx 0b1_0_00_111111_0000010_0000100_0000000_0#32 0#32 = .ok (.dbgAttach h0 2 4)
    ∧ decode cx 0b1_0_00_111111_0000010_0000100_0000000_1#32 0b0_111_00000001_00000000000000000000#32 = .ok (.dbgDetach hx 2 4)
    ∧ decode cx 0b1_0_00_111111_0000010_0000100_0000101_1#32 0b0_111_00000010_00000000000000000000#32 = .ok (.dbgStop hx 2 4 5)
    ∧ decode cx 0b1_0_00_111111_0000010_0000100_0000101_1#32 0b0_111_00000011_00000000000000000000#32 = .ok (.dbgResume hx 2 4 5)
    ∧ decode cx 0b1_0_00_111111_0000010_0000100_0000000_1#32 0b0_111_00000100_00000000000000000000#32 = .ok (.dbgRdreg hx 2 4)
    ∧ decode cx 0x8FC18813#32 0x70500000#32 = .ok (.dbgWrreg hx 3 8 9)
    ∧ decode cx 0b1_0_00_111111_0000010_0000100_0000101_1#32 0b0_111_00000110_00000000000000000000#32 = .ok (.dbgStat hx 2 4 5) :=
  ⟨rfl, rfl, rfl, rfl, rfl, rfl, rfl, rfl, rfl⟩

/-! ### Witnesses: words in hand

For every statement with hypotheses, a concrete state and operands that meet them together. A word's own hypothesis is
`InHand`; `hand` decides it. -/

def role : Role := { entry := 0x200000#53, regs := 112, warps := 2 }
def launch : Launch :=
  { Launch.blank with lid := 1, super := true, gdim := 0x0000040000200001#63, band := true, scratch := 262144,
                      roles := [role], groups := [(0, 3#32)], total := 2, nextBlk := 1 }
def bid : BlockId := { lid := 1, blk := 0 }
def warp0 : Warp := startWarp launch 0 0 0 0
def warp1 : Warp := startWarp launch 1 1 1 0
def block : Block := { Block.blank with id := bid, warps := [warp0, warp1] }

/-- A device in phase 2 with a level-S launch of one block of two warps, which are one set. -/
def base : State :=
  { State.reset with phase := 2, csr := { Csrs.reset with stvec := 0x300000#64 }, launches := [launch], nextLid := 2,
                     blocks := [block] }

/-- The word in hand: all lanes of warp 0. -/
def cur0 : Cur :=
  { block := bid, warp := 0, group := 0xFFFFFFFF#32, pc := 0x200000#53, iw := 0, ew := 0, single := none }
def st (s : State) : State := { s with cur := some cur0 }

/-- The state with warp 0 changed. -/
def warpIs (f : Warp → Warp) (s : State) : State := { s with blocks := s.blocks.map (fun (b : Block) =>
  { b with warps := b.warps.mapIdx (fun (k : Nat) (w : Warp) => if k = 0 then f w else w) }) }
/-- The state with its block changed, and with its launch changed. -/
def blockIs (f : Block → Block) (s : State) : State := { s with blocks := s.blocks.map f }
def launchIs (f : Launch → Launch) (s : State) : State := { s with launches := s.launches.map f }

/-- Whether a word is in hand and goes its own way. -/
def hand (i : Instr) (h : Hdr) (s : State) (c : Cur) : Bool :=
  decide (s.cur = some c) && !s.badPhys && c.single.isNone && c.group != 0 && h.scope == .own
    && (issueTrap s c h i).isNone && !relStall (warpD s c.block c.warp) c h i && !ownCheckpoint (warpD s c.block c.warp) c.pc
    && !(isLate i && outsFull (warpD s c.block c.warp)) && !orderStall (warpD s c.block c.warp) c i
    && txHit i h (warpD s c.block c.warp) c.group == 0

theorem inHand_of_hand {i : Instr} {h : Hdr} {s : State} {c : Cur} (hh : hand i h s c = true) : InHand i h c s := by
  simp only [hand, Bool.and_eq_true, decide_eq_true_eq, Bool.not_eq_true', Option.isNone_iff_eq_none, bne_iff_ne, ne_eq,
    beq_iff_eq] at hh
  obtain ⟨⟨⟨⟨⟨⟨⟨⟨⟨⟨h1, h2⟩, h3⟩, h4⟩, h5⟩, h6⟩, h7⟩, h8⟩, h9⟩, h10⟩, h11⟩ := hh
  exact ⟨h1, h2, .inr ⟨h3, h4, h5, h6, h7, h8, h9, h10, h11⟩⟩

theorem inHand_all {l : List Instr} {h : Hdr} {s : State} {c : Cur} (hh : l.all (fun i => hand i h s c) = true) :
    ∀ i ∈ l, InHand i h c s := fun i hi => inHand_of_hand (List.all_eq_true.1 hh i hi)

/-- The one member of a word in hand of warp 0. -/
def mem0 (s : State) : Env := { s := s, c := cur0, w := 0, wp := warpD s bid 0, lanes := 0xFFFFFFFF#32 }

theorem mem0_only : members (st base) cur0 = [mem0 (st base)] := rfl
theorem mem0_contributes : Contributes (st base) cur0 (mem0 (st base)) :=
  ⟨List.mem_singleton.2 rfl, by decide, block, rfl, rfl⟩

/-- IntegerArithmetic, DivisionResults, MovesLogicAndBitFields. -/
theorem test_wit_integer_words :
    ∀ i ∈ ([.iadd hx .i32 true 16 (.lane 17) (.reg 18), .isub hx .n64 false 16 (.lane 18) (.reg 20),
      .imul hx .i32 16 (.lane 17) (.imm 5), .imulh hx true 16 (.lane 17) (.reg 18), .imin hx .i32 16 (.lane 17) (.reg 18),
      .imax hx .i64 16 (.lane 18) (.reg 20), .iabsd hx .i32 16 (.lane 17) (.reg 18), .idiv hx false 16 (.lane 17) (.reg 18),
      .irem hx true 16 (.lane 17) (.reg 18), .imad hx true 127 (.lane 17) 18 19, .imadw hx false 16 (.lane 17) 18 20,
      .idot4 hx true false true 16 (.uni 5) 18 19, .lea hx false 16 (.uni 2) 21 7, .mov hx true 16 (.lane 18),
      .movi hx .i64 16 0x80000, .movhi hx 16 (.lane 17) 0xFFFFF, .and hx true true 16 (.lane 18) (.reg 20),
      .or hx false false 16 (.lane 17) (.imm 1), .xor hx false false 16 (.lane 17) (.reg 17),
      .lop3 hx true 16 (.lane 18) 20 22 0xC 0xA, .shl hx true 16 (.lane 18) (.imm 64), .shr hx .i32 16 (.lane 17) (.imm 32),
      .bfx hx false 16 (.lane 17) (.imm 31 32), .bcnt hx .pop true 16 (.lane 18), .bcnt hx .clz false 16 (.lane 17),
      .bcnt hx .ctz false 16 (.lane 17), .bcnt hx .brev true 16 (.lane 18)] : List Instr),
      InHand i hx cur0 (st base) := inHand_all (by decide)

/-- FloatArithmetic, ConversionResults. -/
theorem test_wit_float_words :
    ∀ i ∈ ([.fadd hx .rd false true 16 (.lane 17) (.reg 18), .fmul hx .rne true false 16 (.lane 17) (.imm 0x7F800),
      .ffma hx .rz false true 16 (.lane 17) 18 19, .fmin hx true false false 16 (.lane 17) (.reg 18),
      .fmax hx false false true 16 (.lane 17) (.reg 17), .frcp hx .ru 16 (.lane 17), .frsq hx .rne 16 (.lane 17),
      .fsqrt hx .rd 16 (.lane 17), .fex2 hx 16 (.lane 17), .flg2 hx 16 (.lane 17), .fsin hx 16 (.lane 17),
      .fcos hx 16 (.lane 17), .hfma2 hx true true false true .rne 16 (.lane 17) 18 19, .fclass hx .bf16 16 (.lane 17),
      .frnd hx .rd 16 (.lane 17), .cvtf hx .e4m3 .i64 .sr (.reg 63) 16 (.lane 18), .cvti hx .i64 .f16 .rz 16 (.lane 17),
      .pack hx .e2m1 3 .rne .launch 16 (.lane 17) 18, .pack hx .e4m3 1 .sr .launch 16 (.lane 17) 18,
      .pack hx .i16 0 .rne .launch 16 (.lane 17) 18, .unpack hx .e2m1 7 16 (.lane 17) (some 18),
      .qscale hx .e5m2 .ru .launch 16 (.lane 17) none] : List Instr), InHand i hx cur0 (st base) := inHand_all (by decide)

/-- PredicatesAndLanes. -/
theorem test_wit_predicate_words :
    ∀ i ∈ ([.icmp hx .ge .n64 6 (.lane 18) (.reg 20), .fcmp hx .nan 7 (.lane 17) (.imm 0), .sel hx true 7 true 16 (.lane 18) 20,
      .plop hx (.lut 7 1 2 3 0x96), .plop hx (.toReg 16), .plop hx (.fromReg (.lane 17) 0x7F),
      .shfl hx .sel .w32 16 (.lane 17) (.imm 31), .shfl hx (.ahead true) .w8 16 (.lane 17) (.imm 7),
      .shfl hx (.behind false) .w16 16 (.lane 17) (.reg 18), .shfl hx .pair .w4 16 (.lane 17) (.imm 3),
      .shfl hx .rev .w32 16 (.lane 17) (.reg 0), .vote hx .all false 1 0, .vote hx .any true 7 7, .vote hx .uni false 2 1,
      .vote hx .cnt false 16 7, .vote hx .mask true 16 0, .vote hx .first false 16 0, .prmt hx 0xFEDC 16 (.lane 17) 18,
      .xred hx (.fadd .rd) 16 (.lane 17)] : List Instr), InHand i hx cur0 (st base) := inHand_all (by decide)

/-- Branches, MeetingsAndEnds: lanes at a register target, and words that go on. -/
theorem test_wit_control_words :
    (∀ i ∈ ([.bra hx 0xFFFFF, .call hx 20 4, .brx hx (.lane 18), .ret hx (.uni 63), .nop hx, .meetsv hx 20, .meet hx 2,
      .meetld hx (.lane 20), .yield hx, .exit hx] : List Instr), InHand i hx cur0 (st base))
    ∧ (∀ e ∈ members (st base) cur0, ∀ l, (srcA64 e (.uni 63) l).toNat % 4 = 0 ∧ (srcA64 e (.uni 63) l).toNat < 2 ^ 53)
    ∧ (warpD (st base) bid 0).hand = 0 ∧ (warpD (st base) bid 0).tx = none :=
  ⟨inHand_all (by decide), fun e he l => by
    obtain rfl := List.mem_singleton.1 he
    have h : srcA64 (mem0 (st base)) (.uni 63) l = 0#64 := rfl
    exact h.symm ▸ (by decide : (0#64).toNat % 4 = 0 ∧ (0#64).toNat < 2 ^ 53), rfl, rfl⟩

theorem takes_traps : TakesTraps (st base) bid 0 0x300000#64 :=
  ⟨⟨block, warp0, rfl, rfl⟩, rfl, rfl, rfl, rfl, by decide⟩

/-- TrapEntries: a software trap, a word that the state makes illegal, and a level-S word at level T. -/
theorem test_wit_traps :
    (∀ i ∈ ([.trap hx 0xFFFF, .bkpt hx 0] : List Instr), InHand i hx cur0 (st base))
    ∧ (mem0 (st base)).active hx ≠ 0 ∧ debugged (st base) bid = false
    ∧ issueTrap (st base) cur0 hx (.gmemb hx .mask 5 9) = some (0x01, 0x06)
    ∧ issueTrap (st base) cur0 hx (.csrr hx 5 0) = none
    ∧ (let s := launchIs (fun l => { l with super := false, handler := 0x300000#64 }) (st base)
       sOnly (.launch hx 4 2) = true ∧ (launchD s 1).super = false ∧ dynSubcode s cur0 hx (.launch hx 4 2) = none) :=
  ⟨inHand_all (by decide), by decide, by decide, by decide, by decide, by decide⟩

/-- MisalignedTargetTraps: every lane branches to s4, which is 2. -/
def bent : State := st (warpIs (fun w => { w with s := [(4, 2)] }) base)
theorem test_wit_misaligned :
    let s := bent
    (∀ i ∈ ([.brx hx (.uni 4), .ret hx (.uni 4)] : List Instr), InHand i hx cur0 s)
    ∧ members s cur0 = [mem0 s] ∧ TakesTraps s bid 0 0x300000#64
    ∧ (∀ k, (0xFFFFFFFF#32 : Lanes).getLsbD k = true ↔
        ((mem0 s).active hx).getLsbD k = true
          ∧ ¬((srcA64 (mem0 s) (.uni 4) k).toNat % 4 = 0 ∧ (srcA64 (mem0 s) (.uni 4) k).toNat < 2 ^ 53)) := by
  refine ⟨inHand_all (by decide), rfl, ⟨⟨_, _, rfl, rfl⟩, rfl, rfl, rfl, rfl, by decide⟩, fun k => ?_⟩
  have h1 : (mem0 bent).active hx = 0xFFFFFFFF#32 := by decide
  have h2 : srcA64 (mem0 bent) (.uni 4) k = 2#64 := rfl
  rw [h1, h2]
  exact ⟨fun h => ⟨h, by decide⟩, fun h => h.1⟩

/-- MaskedTrapsAndReturn: warp 0 in its handler. -/
def handler : State := st (warpIs (fun w => { w with tmask := true, hand := 0xFFFFFFFF#32 }) base)
theorem test_wit_handler :
    InHand (.trap hx 1) hx cur0 handler ∧ InHand (.tret { hx with x := false }) { hx with x := false } cur0 handler
    ∧ InHand (.tretExit hx) hx cur0 handler
    ∧ members handler cur0 = [mem0 handler] ∧ (mem0 handler).active hx = (mem0 handler).lanes ∧ (mem0 handler).lanes ≠ 0
    ∧ (∃ b, getBlock handler bid = some b ∧ b.warps[0]? = some (mem0 handler).wp ∧ b.rdvs = []
        ∧ ∀ x ∈ b.warps, 0 ∉ x.frozenBy)
    ∧ (mem0 handler).wp.tmask = true ∧ (mem0 handler).wp.trapping = none
    ∧ (mem0 handler).lanes &&& (mem0 handler).wp.hand = (mem0 handler).lanes ∧ guardG hx (mem0 handler).wp = true
    ∧ (mem0 handler).wp.tpend.v = false ∧ (mem0 handler).wp.late = [] :=
  ⟨inHand_of_hand (by decide), inHand_of_hand (by decide), inHand_of_hand (by decide), rfl, by decide, by decide,
    ⟨_, rfl, rfl, rfl, by decide⟩, rfl, rfl, by decide, by decide, rfl, rfl⟩

/-! ### Witnesses: uniform, group and control words, blocks and traps -/

/-- A complete rendezvous of a word in which both warps wait, or warp 0 alone, and the word as its single execution. -/
def rdvOf (h : Hdr) (i : Instr) (warps : List Nat) : Rdv :=
  { pc := 0x200000, scope := h.scope, set := 0, band := (match i with | .band .. | .ring .. => true | _ => false), warp := 0,
    iw := 1, ew := 0, instr := i, arrived := warps.map (fun w => (w, 0xFFFFFFFF#32)), last := 0, phase := .executing,
    epoch := 0 }
def curOf (h : Hdr) (i : Instr) (warps : List Nat) : Cur := { cur0 with single := some (rdvOf h i warps) }
/-- The state with a word in hand as a single execution. -/
def stOf (h : Hdr) (i : Instr) (warps : List Nat) (s : State) : State :=
  { blockIs (fun b => { b with rdvs := [rdvOf h i warps] }) s with cur := some (curOf h i warps) }

theorem inHand_single {i : Instr} {h : Hdr} {ws : List Nat} {s : State} (hp : s.badPhys = false) :
    InHand i h (curOf h i ws) (stOf h i ws s) := ⟨rfl, hp, .inl ⟨_, rfl⟩⟩

def hw : Hdr := { hx with scope := .warp }
def hs : Hdr := { hx with scope := .set }
def hb : Hdr := { hx with scope := .block }

/-- UniformWords, SpecialRegisters, GroupsAndClocks: at sub-warp scope. -/
theorem test_wit_uniform_words :
    (∀ i ∈ ([.salu hx .mulh true 4 5 (.imm 0x80000), .salu hx .add false 4 97 (.reg 63), .salu hx .sub false 4 5 (.reg 6),
      .salu hx .mul false 4 5 (.reg 6), .salu hx .min false 4 5 (.reg 6), .salu hx .max true 4 5 (.reg 6),
      .salu hx .and false 4 5 (.reg 6), .salu hx .or false 4 5 (.reg 6), .salu hx .xor false 4 5 (.reg 6),
      .salu hx .shl false 4 5 (.imm 64), .salu hx .shr true 4 5 (.imm 63), .salu hx .andn false 4 5 (.reg 6), .smov hx 4 121,
      .smovI hx 4 0x80000, .smovCat hx 4 5 0xFFFFF, .smovRdl hx 4 17 31, .smovGtos hx 4, .smovStog hx 5, .scmp hx .ge true 87 5 (.imm 0),
      .sbra hx .each 0xFFFFF, .csrr hx 5 0, .csrr hx 5 0x251, .csrw hx 0x102 5, .csrw hx 0x110 5, .csrw hx 0x220 5, .csrw hx 0 5,
      .tmaskWrite hx 5, .tpendWrite hx 5, .elect hx 7 (some 4), .wmovTol hx 17 64, .wmovFroml hx 79 17, .wred hx (.max false) 4 17,
      .gmemb hx .mask 4 0, .gmemb hx .index 4 0, .gmemb hx .count 4 0, .gmemb hx .live 4 0, .sflush hx, .clk hx 4,
      .clkCyc hx 4] : List Instr), InHand i hx cur0 (st base))
    ∧ leadOf hx (st base) cur0 = some (mem0 (st base)) ∧ gMembers hx (st base) cur0 = [mem0 (st base)]
    ∧ ((mem0 (st base)).lanes.getLsbD 0 = true) ∧ atomsQuiet (mem0 (st base)).wp = true :=
  ⟨inHand_all (by decide), rfl, rfl, rfl, by decide⟩

/-- UniformWords, BarriersAndFences, GroupsAndClocks: after a rendezvous, with both warps as members. -/
theorem test_wit_wide_words :
    InHand (.sbra hb .any 0xFFFFF) hb (curOf hb (.sbra hb .any 0xFFFFF) [0, 1]) (stOf hb (.sbra hb .any 0xFFFFF) [0, 1] base)
    ∧ InHand (.sbra hb .all 0) hb (curOf hb (.sbra hb .all 0) [0, 1]) (stOf hb (.sbra hb .all 0) [0, 1] base)
    ∧ InHand (.bar hs .ar .dv) hs (curOf hs (.bar hs .ar .dv) [0, 1]) (stOf hs (.bar hs .ar .dv) [0, 1] base)
    ∧ InHand (.bar hb .rel .b) hb (curOf hb (.bar hb .rel .b) [0, 1]) (stOf hb (.bar hb .rel .b) [0, 1] base)
    ∧ (members (stOf hs (.bar hs .ar .dv) [0, 1] base) (curOf hs (.bar hs .ar .dv) [0, 1])).all
        (fun e => e.lanes != 0 && guardG hs e.wp) = true
    ∧ InHand (.band hb (.red .max true) 4 5) hb (curOf hb (.band hb (.red .max true) 4 5) [0, 1])
        (stOf hb (.band hb (.red .max true) 4 5) [0, 1] base)
    ∧ (curOf hb (.band hb (.red .max true) 4 5) [0, 1]).single = some (rdvOf hb (.band hb (.red .max true) 4 5) [0, 1])
    ∧ (bandCurs (stOf hb (.band hb (.bcast 7) 4 5) [0, 1] base) (curOf hb (.band hb (.bcast 7) 4 5) [0, 1])
        (rdvOf hb (.band hb (.bcast 7) 4 5) [0, 1])).length = 1
    ∧ (launchD (stOf hb (.sflush hb) [0, 1] base) 1).det = false :=
  ⟨inHand_single rfl, inHand_single rfl, inHand_single rfl, inHand_single rfl, by decide, inHand_single rfl, rfl, by decide, rfl⟩

/-- SpecialRegisters: TMASK cleared while a trap is pending. -/
def pended : State := st (warpIs (fun w =>
  { w with tmask := true, hand := 1, tpend := { v := true, ovf := false, record := 3#256 <<< 160 } }) base)
theorem test_wit_pending_trap :
    InHand (.tmaskWrite hx 5) hx cur0 pended ∧ members pended cur0 = [mem0 pended] ∧ guardG hx (mem0 pended).wp = true
    ∧ (∃ b, getBlock pended bid = some b ∧ b.warps[0]? = some (mem0 pended).wp) ∧ (mem0 pended).wp.trapping = none
    ∧ (uniVal (mem0 pended) 5 0).getLsbD 0 = false ∧ (mem0 pended).wp.tpend.v = true ∧ (mem0 pended).wp.results = []
    ∧ (launchD pended 1).super = true ∧ pended.csr.stvec ≠ 0
    ∧ (mem0 pended).wp.tpend.record.extractLsb' 160 32 &&& (mem0 pended).wp.live ≠ 0 :=
  ⟨inHand_of_hand (by decide), rfl, by decide, ⟨_, rfl, rfl⟩, rfl, by decide, rfl, rfl, rfl, by decide, by decide⟩

/-- A block of 32 warps whose names fill the pool: warp 0 has 8, every other warp 112. -/
def crowded : State :=
  let l : Launch := { launch with roles := [{ role with warps := 32 }] }
  { base with
    launches := [l],
    blocks := [{ block with warps := (List.range 32).map (fun w =>
      let x := startWarp l w w w 0
      if w = 0 then { x with allot := 8 } else x) }] }

/-- GrowResults: granted, answered false by TRY, and waiting. -/
theorem test_wit_grow :
    InHand (.grow hw (some 80) 104) hw (curOf hw (.grow hw (some 80) 104) [0]) (stOf hw (.grow hw (some 80) 104) [0] base)
    ∧ (gMembers hw (stOf hw (.grow hw none 104) [0] base) (curOf hw (.grow hw none 104) [0])).length = 1
    ∧ growReady (stOf hw (.grow hw none 104) [0] base) 0 warp0 104 = true
    ∧ growReady (stOf hw (.grow hw (some 80) 112) [0] crowded) 0 (warpD crowded bid 0) 112 = false
    ∧ (warpD crowded bid 0).allot < 112
    ∧ nextGrant (warpIs (fun w => { w with grow := some { n := 112, gd := none, pc := 0x200000, next := 0x200004 } }) base) 0
        = some { block := bid, warp := 0 } :=
  ⟨inHand_single rfl, by decide, by decide, by decide, by decide, by decide⟩

def ended (w : Warp) : Warp := w.setLanes 0xFFFFFFFF#32 (fun x => { x with st := .exited })
def wid0 : WarpId := { block := bid, warp := 0 }

/-- WarpAndBlockEvents: a warp whose lanes have exited; a block whose warps have ended and released; an evicted warp that
fits; and a level-T warp that a block of level S, whose names fill the pool with its own, waits for. -/
theorem test_wit_ends :
    (let s := warpIs ended base
     (warpD s bid 0).allExited = true ∧ (warpD s bid 0).ended = false ∧ (warpD s bid 0).results = [] ∧ (launchD s 1).rb = false
       ∧ (warpD s bid 0).due = [] ∧ s.fatal = 0 ∧ s.badPhys = false)
    ∧ (let r : Release := { msc := .dv, phase := .done, pc := 0x1FFFFFFFFFFFFF, iw := 0, ew := 0, holds := true, carried := false,
                            stores := [], out := none, acq := none, epoch := 0 }
       let y : Warp := { ended warp0 with ended := true, rel := some r }
       let s := blockIs (fun b => { b with warps := [y, y] }) base
       y.ended = true ∧ y.outs = [] ∧ enginesDone s (blockD s bid) = true
         ∧ (launchD s 1).ended + 1 + (launchD s 1).killed ≠ (launchD s 1).total ∧ (launchD s 1).det = false)
    ∧ (let s := blockIs (fun b => { b with frame := some 0 }) (warpIs (fun w => { w with evicted := true }) base)
       byRank s ((coreWarps s 0).filter (fun y => (wpOf s y).evicted)) = [wid0] ∧ (warpD s bid 0).allot ≤ poolNames s 0
         ∧ nextGrant s 0 = none ∧ frameAddr s 0 0 + 0x1000000 ≤ 0x8000000000) := by
  refine ⟨by decide, by decide, by decide⟩

/-- WarpAndBlockEvents, GROW_DEADLOCK_RESOLVE: on core 0 a level-S block of 31 warps with 104 names each and 20 sets, and a
level-T warp with 40, hold every name of the pool, and every warp waits in GROW for 112. -/
def locked : State :=
  let ls : Launch := { launch with roles := [{ role with warps := 31, regs := 104 }], groups := (List.range 20).map (fun k => (k, 1#32 <<< k)) }
  let lt : Launch := { launch with lid := 2, super := false, roles := [{ role with warps := 1, regs := 40 }], groups := [] }
  let wait (n : Nat) (x : Warp) : Warp := { x with grow := some { n := n, gd := none, pc := 0x200000, next := 0x200004 } }
  { base with
    launches := [ls, lt],
    blocks := [{ block with warps := (List.range 31).map (fun w => wait 112 (startWarp ls w w w 0)) },
      { block with id := { lid := 2, blk := 0 }, frame := some 0, warps := [wait 112 (startWarp lt 0 31 31 0)] }] }

theorem test_wit_deadlock :
    growWaiters locked 0 = (coreWarps locked 0) ∧ (coreWarps locked 0).head? = some wid0
    ∧ (∀ y ∈ coreWarps locked 0, growWaits (wpOf locked y) = true) ∧ nextGrant locked 0 = none
    ∧ (wpOf locked wid0).grow.any (fun q => growReady locked 0 (wpOf locked wid0) q.n) = false
    ∧ byRank locked ((coreWarps locked 0).filter (fun y => y != wid0 && !(wpOf locked y).evicted && !(launchD locked y.block.lid).super))
        = [{ block := { lid := 2, blk := 0 }, warp := 0 }]
    ∧ frameAddr locked 0 0 + 0x1000000 ≤ 0x8000000000 := by
  refine ⟨by decide, by decide, by decide, by decide, by decide, by decide, by decide⟩

/-! ### Witnesses: traps of the device, memory, atomics, waits, transactions -/

/-- DeviceTraps: each warp waits at a block-scope word of its own, so neither can complete. -/
def stuck : State :=
  let wait (x : Warp) : Warp := x.setLanes 0xFFFFFFFF#32 (fun y => { y with st := .waiting })
  let r0 : Rdv := { rdvOf hb (.nop hb) [0] with phase := .gathering }
  let r1 : Rdv := { rdvOf hb (.nop hb) [1] with pc := 0x200010, phase := .gathering }
  blockIs (fun b => { b with rdvs := [r0, r1], warps := b.warps.map wait }) base
theorem test_wit_stuck :
    TakesTraps stuck bid 0 0x300000#64 ∧ (blockD stuck bid).saved = false ∧ waitBlocks stuck bid = [bid]
    ∧ (deadNodes stuck bid).map (·.addr) = [0x200000, 0x200010]
    ∧ (deadNodes stuck bid).map (fun n => lanesAt n.here bid 0) = [0xFFFFFFFF#32, 0] ∧ (warpD stuck bid 0).live = 0xFFFFFFFF#32
    ∧ (deadNodes stuck bid).all (fun n => n.iw != 0) = true :=
  ⟨⟨⟨_, _, rfl, rfl⟩, rfl, rfl, rfl, rfl, by decide⟩, rfl, by decide, by decide, by decide, by decide, by decide⟩

def nap (i : Instr) (p : Place) : Sleep :=
  { instr := i, pc := 0x200000, lanes := 0xFFFFFFFF, place := p, va := 64, cmp := 1, deadline := some 1024, since := 0, last := 0,
    members := [], word := 0 }
def waitaI : Instr := .waita hx .eq true true .b 1 17 18 19
def asleep (s : State) : State :=
  warpIs (fun w => { w.setLanes 0xFFFFFFFF#32 (fun y => { y with st := .asleep }) with sleeps := [nap waitaI (.scratch 64)] }) s
def due (cause : Nat) (lanes : Lanes) (pc : Option (BitVec 53)) : DueError :=
  { lanes := lanes, pc := pc, out := none, cause := cause, sub := 0, aux := 3, addr := 4096, iw := 0, ew := 0, rollback := true }

theorem test_wit_due_traps :
    (let s : State := { launchIs (fun l => { l with det := true }) (asleep base) with clock := 2 ^ 24 }
     (detTurn s wid0).1 = true ∧ (warpD s bid 0).mask (fun y => y.st == .asleep) = (warpD s bid 0).live
       ∧ laneNums (warpD s bid 0).live = 0 :: (List.range 31).map (· + 1)
       ∧ (List.range 32).all (fun k => (laneSleep s wid0 k).any (fun y => y.since + 2 ^ 24 ≤ s.clock)) = true)
    ∧ (let s := warpIs (fun w => { w with due := [due 8 0 none] }) base
       TakesTraps s bid 0 0x300000#64 ∧ deviceRuns s bid = true
         ∧ warpFree (launchD s 1) (blockD s bid) (warpD s bid 0) = true
         ∧ (warpD s bid 0).group = some (0x200000#53, 0xFFFFFFFF#32))
    ∧ (let s := warpIs (fun w => { w with due := [due 10 1 (some 0x200000#53)] }) base
       TakesTraps s bid 0 0x300000#64 ∧ deviceRuns s bid = true
         ∧ warpFree (launchD s 1) (blockD s bid) (warpD s bid 0) = true ∧ (1 : Lanes) &&& (warpD s bid 0).live = 1
         ∧ ((due 10 1 (some 0x200000#53)).rollback && (launchD s 1).rb) = false) := by
  refine ⟨by decide, ⟨⟨⟨_, _, rfl, rfl⟩, rfl, rfl, rfl, rfl, by decide⟩, by decide, by decide, by decide⟩,
    ⟨⟨_, _, rfl, rfl⟩, rfl, rfl, rfl, rfl, by decide⟩, by decide, by decide, by decide, by decide⟩

/-- An outstanding result of lane 0, with its operand and site. -/
def outOf (i : Instr) (p : Place) (members : List Nat) : Outst :=
  { id := 0, pc := 0x200000, iw := 1, ew := 0, instr := i, lanes := 1, parts := [(0, 64, p)], ops := [(0, 5, 0)], sites := [0],
    members := members, vals := [], lead := none }
def addS : AtomSpec := { op := .add, ty := .n32, sp := true, sem := .none, msc := .b, off := 0 }

/-- DeterministicEvents: two warps that wait, one with a scratchpad RED in its buffer; a save that masked warps hold, and a
transaction. -/
def detBase : State :=
  let e : DetEntry := { lane := 0, seq := 0, out := outOf (.red hx addS (.lane 17) 18) (.scratch 64) [], commit := false }
  let wait (x : Warp) : Warp := x.setLanes 0xFFFFFFFF#32 (fun y => { y with st := .waiting })
  launchIs (fun l => { l with det := true }) (blockIs (fun b => { b with warps := b.warps.map wait })
    (warpIs (fun w => { w with det := [e] }) base))
def txL : TxLane := { lane := 0, handler := 0x200040, dst := 20, committing := false, reads := [], writes := [] }
def openTx : Tx := { lanes := [txL], seen := [], closed := false, words := 0, key := 0 }
def detSave : State :=
  let y : Saving := { why := .preempt, since := 0, stage := 0, masked := false }
  { blockIs (fun b => { b with saving := some y }) (warpIs (fun w => { w with tx := some openTx, tmask := true }) detBase)
    with clock := 2 ^ 20 }
theorem test_wit_deterministic :
    (∀ x ∈ (blockD detBase bid).warps, notCandidate x = true) ∧ (∃ x ∈ (blockD detBase bid).warps, x.det ≠ [])
    ∧ (drainAll bid (List.range 2) detBase).2 = true ∧ (drainAll bid (List.range 2) detBase).1.badPhys = false
    ∧ (blockD detBase bid).saved = false ∧ (blockD detBase bid).id = bid ∧ (launchD detBase 1).det = true
    ∧ (blockD detSave bid).saving.any (fun y => y.since + 2 ^ 20 ≤ detSave.clock) = true
    ∧ (warpD detSave bid 0).tx = some openTx :=
  ⟨by decide, by decide, by decide, by decide, rfl, rfl, rfl, by decide, rfl⟩

/-- PreemptionAndFaults, RecordEvents: a fault and a device record that wait for room. -/
theorem test_wit_records :
    let f : FaultRec := { token := 0, ctx := 0, va := 0x2000, cls := 5, src := 0, store := true, lid := 1, blk := 0, posted := false }
    let r : DevRec := { type := 0x82, payload := [1, 2, 3] }
    let s : State := { base with faults := [f], records := [r] }
    s.faults.find? (fun y => y.ctx.toNat == 0 && !y.posted) = some f
    ∧ (∀ y ∈ s.faults, y.ctx.toNat = 0 → y.posted = false → y.token = f.token)
    ∧ (readNat s 0 4 + 2 ^ 32 - readNat s 128 4) % 2 ^ 32 < 2 ^ ctxField s 0 159 155 ∧ ctxField s 0 154 128 * 8192 + 256 + 32 ≤ 0x8000000000
    ∧ ringFull s = false ∧ s.blob.mbxbase + 0x400000 ≤ 0x8000000000 ∧ r.payload.length ≤ 96 := by decide

/-- A level-S fixed page at virtual address 0 and a log page at 8 GiB, in the core's TLB. -/
def mapped : State :=
  { base with cores := [(0, { Core.blank with tlb :=
    [{ ctx := none, base := 0, size := 0x200000000, pte := 0x1F }, { ctx := none, base := 0x200000000, size := 0x200000000, pte := 0x1B }] })] }
/-- Lane 0 alone, its address pair v2:v3 at the log page, and s4 too. -/
def curL : Cur := { cur0 with group := 1 }
def one : State :=
  { warpIs (fun w => { w with regs := [(19 * 32, 2)], s := [(4, 0x200000000)] }) mapped with cur := some curL }
def memL (s : State) : Env := { s := s, c := curL, w := 0, wp := warpD s bid 0, lanes := 1 }
/-- An interface to compare an access's outcome by. -/
def okPlace (r : Except Nat (Place × State)) : Option Place := match r with | .ok x => some x.1 | .error _ => none
def made (r : StoreEnd) : Option State := match r with | .made t => some t | _ => none

theorem one_member : members one curL = [memL one] ∧ Contributes one curL (memL one) :=
  ⟨rfl, List.mem_singleton.2 rfl, by decide, _, rfl, rfl⟩

/-- Loads, Stores: a word of lane 0 and a uniform word, at a log address and at the scratchpad. -/
theorem test_wit_accesses :
    (∀ i ∈ ([.ld hx true .b128 .acq .dv .none 24 (.lane 18) 0, .ld hx false .i8 .none .b .nl1 24 (.uni 4) 0xFFFFF,
      .sld hx true true false .acq .b 6 4 0, .lds hx true .b64 .acq .b 24 (.lane 17) 0, .sts hx false .n16 .none .b 24 (.lane 17) 0,
      .sld hx false false true .none .b 6 5 0, .sst hx true false true .none .b 6 5 0xFFFFC,
      .st hx true .b64 .rel .b .none 24 (.lane 18) 0, .st hx false .n8 .none .b .ef 24 (.uni 4) 0,
      .sst hx false true false .none .b 6 4 0] : List Instr), InHand i hx curL one)
    ∧ (memL one).wp.results.length < 64 ∧ (memL one).wp.tx = none ∧ (memL one).active hx = 1
    ∧ (resolve curL (laneNums ((memL one).active hx)) (fun l => ((memL one).wp.reg64 18 l).toNat) 16 .load one).faults = []
    ∧ (resolve curL (laneNums ((memL one).active hx)) (fun l => ((memL one).wp.reg64 18 l).toNat) 8 .store one).parts
        = [(0, 0x200000000, .log 0 64)]
    ∧ okPlace (uniPlace curL false 0x200000000 4 .load one) = some (.log 0 64)
    ∧ okPlace (uniPlace curL false 0x200000000 8 .store one) = some (.log 0 64)
    ∧ (launchD one 1).rb = false ∧ (launchD one 1).scratch = 262144 ∧ guardG hx (memL one).wp = true
    ∧ (made (storePlace bid (.log 0 64) [1, 2, 3, 4] one)).isSome = true
    ∧ (made (storePlace bid (.log 0 64) [1, 2, 3, 4] one)).any (fun u => !u.badPhys) = true
    ∧ (makeStores bid 0 0 0 false [(0, .log 0 64, [1, 2, 3, 4])] one).any (fun u => !u.badPhys) = true
    ∧ rowStall (memL one).wp curL 0 = false ∧ weakStall (memL one).wp 8 [(0, 0, .scratch 0)] = false
    ∧ uniStall one curL (.scratch 0) 8 = false ∧ needsCheckpoint one bid [(0, 8)] = false
    ∧ (let s := warpIs (fun w => { w with unack := [(0, .log 0 64, 0, 0)] }) one
       (memL s).wp.rel = none ∧ (memL s).wp.unacked ≠ 0 ∧ InHand (.sts hx true .b32 .rel .dv 24 (.lane 17) 0) hx curL s
         ∧ InHand (.st hx true .b32 .rel .dv .none 24 (.lane 18) 0) hx curL s ∧ InHand (.sst hx true true true .rel .dv 6 5 0) hx curL s) := by
  refine ⟨inHand_all (by decide), by decide, rfl, by decide, by decide, by decide, by decide, by decide, rfl, rfl, by decide,
    by decide, by decide, by decide, by decide, by decide, by decide, by decide, rfl, by decide, inHand_of_hand (by decide),
    inHand_of_hand (by decide), inHand_of_hand (by decide)⟩

/-- Loads, Stores: data that returns, an acknowledgement, and a store that the next load sees. -/
theorem test_wit_returns :
    let i : Instr := .ld hx false .b32 .none .b .none 24 (.lane 18) 0
    let j : Instr := .sld hx true false false .none .b 6 4 0
    let s := warpIs (fun w => { w with outs := [outOf i (.log 0 64) []] }) mapped
    let t := warpIs (fun w => { w with outs := [outOf j (.log 0 64) [0, 1]] }) mapped
    let u := warpIs (fun w => { w with unack := [(0, .log 0 64, 0, 0)] }) mapped
    findOut s wid0 0 = some (outOf i (.log 0 64) []) ∧ bitsOf s.csr.errinj.toNat 45 45 = 0
    ∧ (loadPlace bid (.log 0 64) 4 false true s).1.length = 4 ∧ (loadPlace bid (.log 0 64) 4 false true s).2.1 = none
    ∧ (loadPlace bid (.log 0 64) 4 false true s).2.2.badPhys = false
    ∧ findOut t wid0 0 = some (outOf j (.log 0 64) [0, 1]) ∧ (∀ v ∈ [0, 1], v < (blockD t bid).warps.length)
    ∧ (warpD u bid 0).unack = [(0, .log 0 64, 0, 0)] ∧ (warpD u bid 0).rel = none
    ∧ findCopy mapped bid false 0 = none ∧ aget mapped.homes 0 = none ∧ findTent (blockD mapped bid) 0 = none
    ∧ tableUse mapped 0 < 16384
    ∧ (let o : Outst := { outOf (.lds hx true .b64 .none .b 24 (.lane 17) 0) (.scratch 0) [] with
         parts := [], ops := [], vals := [.lane 0 24 7, .lane 0 25 8] }
       findOut (warpIs (fun w => { w with outs := [o] }) base) wid0 0 = some o ∧ o.vals ≠ []
         ∧ findOut (warpIs (fun w => { w with outs := [{ o with instr := noWord, vals := [.uni 6 9] }] }) base) wid0 0
           = some { o with instr := noWord, vals := [.uni 6 9] }) := by decide

/-- AtomicOperations, Atomics: at a scratchpad word. -/
def atomC : AtomSpec := { op := .cas, ty := .b64, sp := false, sem := .acq, msc := .dv, off := 0 }
theorem test_wit_atomics :
    (∀ i ∈ ([.atom hx addS 24 (.lane 17) 18, .atom hx atomC 24 (.lane 18) 28, .red hx addS (.lane 17) 18,
      .satom hx atomC 6 4 8] : List Instr), InHand i hx curL one)
    ∧ (resolveScratch curL [0] (fun l => ((memL one).wp.reg 17 l).toNat) 4 true one).parts = [(0, 0, .scratch 0)]
    ∧ (resolve curL [0] (fun l => ((memL one).wp.reg64 18 l).toNat) 8 (.atomic .dv) one).parts = [(0, 0x200000000, .log 0 64)]
    ∧ okPlace (uniPlace curL false (uniAddr (memL one) false 4 0) 8 (.atomic .dv) one) = some (.log 0 64)
    ∧ (launchD (launchIs (fun l => { l with det := true }) one) 1).det = true ∧ (memL one).wp.det.length + 1 ≤ 128
    ∧ (let i : Instr := .atom hx addS 24 (.lane 17) 18
       let s := warpIs (fun w => { w with outs := [outOf i (.scratch 64) []] }) base
       findOut s wid0 0 = some (outOf i (.scratch 64) []) ∧ (warpD s bid 0).det = [] ∧ (warpD s bid 0).rel = none
         ∧ (match atomAt bid addS 0 (.scratch 64) 5 0 s with
            | .done old u => old == 0 && !u.badPhys && (blockD u bid).warps == (blockD s bid).warps
            | _ => false) = true) := by
  refine ⟨inHand_all (by decide), by decide, by decide, by decide, by decide, by decide, by decide⟩

/-- BarriersAndFences, Publishes. -/
theorem test_wit_fences :
    (∀ i ∈ ([.fence hx .acq .sy, .fence hx .rel .b, .fence hx .rel .dv, .fence hx .ar .b] : List Instr), InHand i hx curL one)
    ∧ (memL one).wp.rel = none ∧ (memL one).wp.unack = [] ∧ (memL one).wp.outs.all (fun o => !isRed o.instr) = true
    ∧ one.phase = 2 ∧ (coreD one 0).atoms = []
    ∧ (let s := modCluster 0 (fun k => { k with publish := true, stallSince := some 0 }) { mapped with clock := 65536 }
       (clusterD s 0).publish = true ∧ (publishCluster 0 s).2 = true
         ∧ (releasePublished 0 (publishCluster 0 s).1).badPhys = false ∧ (clusterD s 0).stallSince = some 0 ∧ tentBlocks s 0 = []
         ∧ s.replica = none ∧ s.epoch + 1 ≤ 0xFFFFFFFFFFFF)
    ∧ (let t : Tentative := { line := 0, data := 0, mask := 1, ks := 64, poison := 0 }
       let s := modCluster 0 (fun k => { k with stallSince := some 0 })
         { launchIs (fun l => { l with rb := true }) (blockIs (fun b => { b with rb := { b.rb with tent := [t] } }) mapped) with clock := 65536 }
       tentBlocks s 0 = [bid])
    ∧ (let s := modCluster 0 (fun k => { k with stallSince := some 0, ending := some [(bid, true), ({ bid with blk := 9 }, false)] })
         (blockIs (fun b => { b with saved := true }) mapped)
       (clusterD s 0).ending = some [(bid, true), ({ bid with blk := 9 }, false)]
         ∧ endingLeft s 0 [(bid, true), ({ bid with blk := 9 }, false)] = [] ∧ (publishCluster 0 s).2 = true
         ∧ (publishDone 0 s).1.badPhys = false) := by
  refine ⟨inHand_all (by decide), rfl, rfl, rfl, rfl, rfl, by decide, by decide, by decide⟩

/-- Waits: a condition that holds, one that does not, and a lane asleep. -/
theorem test_wit_waits :
    (∀ i ∈ ([.waita hx .eq true true .dv 0 24 17 20, .waita hx .any true false .b 15 24 17 20] : List Instr), InHand i hx curL one)
    ∧ (memL one).active hx = 1#32 <<< 0 ∧ (memL one).lanes = (memL one).active hx
    ∧ (resolveScratch curL [0] (fun _ => 0) 4 false one).parts = [(0, 0, .scratch 0)]
    ∧ (let r := waitRead bid (.scratch 0) (resolveScratch curL [0] (fun _ => 0) 4 false one).st
       r.1 = 0 ∧ r.2.1 = none ∧ r.2.2.badPhys = false ∧ r.2.2.blocks = one.blocks)
    ∧ (let s : State := { asleep base with clock := 1024 }
       waitaSleep (warpD s bid 0) 0 = some (nap waitaI (.scratch 64)) ∧ (blockD s bid).saved = false
         ∧ (warpD s bid 0).stopped = false
         ∧ (match sleepPlace wid0 (nap waitaI (.scratch 64)) s with | .ok p => p == .scratch 64 | .error _ => false) = true
         ∧ (waitRead bid (.scratch 64) s).1 = 0 ∧ (waitRead bid (.scratch 64) s).2.1 = none
         ∧ (waitRead bid (.scratch 64) s).2.2.badPhys = false ∧ (waitRead bid (.scratch 64) s).2.2.blocks = s.blocks
         ∧ waitHolds .eq 32 0 (nap waitaI (.scratch 64)).cmp.toNat = false
         ∧ waitHolds .eq 32 1 (nap waitaI (.scratch 64)).cmp.toNat = true
         ∧ (nap waitaI (.scratch 64)).deadline.any (fun d => d ≤ s.clock) = true) := by
  refine ⟨inHand_all (by decide), by decide, by decide, by decide, by decide, by decide⟩

/-- TransactionWords, CacheControl. -/
theorem test_wit_transactions :
    (∀ i ∈ ([.txb hx 24 0xFFFFE, .txe hx, .txa hx 0xFF, .txq hx 24] : List Instr), InHand i hx curL one)
    ∧ (let s : State := warpIs (fun w => { w with tx := some openTx }) one
       (∀ i ∈ ([.txe hx, .txa hx 7, .txq hx 24] : List Instr), InHand i hx curL s) ∧ (memL s).wp.tx = some openTx
         ∧ (memL s).active hx &&& txLanes (memL s).wp ≠ 0) :=
  ⟨inHand_all (by decide), inHand_all (by decide), rfl, by decide⟩

theorem test_wit_cache_control :
    (∀ i ∈ ([.prefCc hx 4 5 0, .prefL1 hx 4 5 0xFFFFF, .prefIx hx 4 5 0, .cctlL1inv hx, .cctlFxinv hx 4 5, .cctlAppend hx,
      .ixctlQuery hx 6 4 0, .ixctlDrop hx 4 5, .ixctlUnhome hx 4 0] : List Instr), InHand i hx curL one)
    ∧ leadOf hx one curL = some (memL one) ∧ (appendPendings 0 one).badPhys = false
    ∧ (uniVal (memL one) 5 0).toNat ≤ 0x40000000
    ∧ (match rangePieces curL (uniVal (memL one) 4 0).toNat (uniVal (memL one) 5 0).toNat one with | .ok _ => true | .error _ => false) = true
    ∧ okPlace (uniPlace curL false 0x200000000 1 .load one) = some (.log 0 64)
    ∧ okPlace (uniPlace curL false 0x200000000 1 .store one) = some (.log 0 64)
    ∧ aget (unhomeLines (homeSliceOf 0) [0] one).homes 0 = none ∧ (unhomeLines (homeSliceOf 0) [0] one).badPhys = false := by
  refine ⟨inHand_all (by decide), rfl, by decide, by decide, by decide, by decide, by decide, by decide, by decide⟩

/-! ### Witnesses: copy commands and the Massif -/

/-- A copy descriptor of one row of `n` bytes: memory address, scratchpad offset, arrival word. -/
def cd (g soff aoff n : Nat) : Nat := g + soff * 2 ^ 64 + aoff * 2 ^ 96 + n * 2 ^ 192 + 2 ^ 208 + 2 ^ 224 + 2 ^ 240
def placed (off d : Nat) (s : State) : State := scratchWrite bid off (leBytes 64 d) s
/-- A queue with one command, running. -/
def queueWith (c : CopyCmd) : CopyQueue :=
  { issued := 1, completed := 0, cmds := [c], state := .running, cls := 0, offset := 0, token := none, since := 0 }
def copyOf (k : CopyKind) (d pos : Nat) : CopyCmd := { newCopy k d 1 noOrd 0 with pos := pos, seq := 1 }
def copying (c : CopyCmd) : State := blockIs (fun b => { b with copyQ := [(0, queueWith c)] }) mapped

/-- CopyWords: a command that passes, and one whose queue is in error. -/
theorem test_wit_copy_words :
    let s := placed 0 (cd 0x200000000 4096 128 64) one
    let f := placed 0 (cd 0x55 4096 128 64) one
    let y := blockIs (fun b => { b with copyQ := [(3, { queueWith (copyOf .copy 0 0) with state := .error })] }) s
    (∀ i ∈ ([.tcopy hx .none .b .all 6 4 3, .tstore hx .rel .dv (.reg 5) 6 4 3] : List Instr), InHand i hx curL s)
    ∧ (∀ i ∈ ([.tfill hx .none .b 6 4 3] : List Instr), InHand i hx curL f)
    ∧ (∀ i ∈ ([.tcopy hx .none .b .all 6 4 3, .tstat hx .state 6 3, .tstat hx .seq 6 3, .tstat hx .stage 6 3, .tstatClr hx 6 3,
        .twait hx .any true .dv 2 6 4 5 0x80, .twait hx .eq false .b 1 6 4 5 2] : List Instr), InHand i hx curL y)
    ∧ leadOf hx s curL = some (memL s)
    ∧ (let d := leNat (scratchRead s bid 0 64)
       (launchD s 1).scratch = 262144 ∧ cdRows d = 1
         ∧ copyStatus .copy 262144 false (vcOf (memL s) .all (cdRows d)) (copyQ (blockD s bid) 3) d = 0
         ∧ copyStatus .store 262144 true (vcOf (memL s) (.reg 5) (cdRows d)) (copyQ (blockD s bid) 3) d = 0
         ∧ copyStatus .copy 262144 false 1 (copyQ (blockD y bid) 3) d = 7
         ∧ copyStatus .fill 262144 false 1 (copyQ (blockD f bid) 3) (leNat (scratchRead f bid 0 64)) = 0)
    ∧ (copyQ (blockD y bid) 3).state = .error ∧ (copyQ (blockD s bid) 3).cmds.length = 0 ∧ (memL s).wp.unacked = 0
    ∧ (let i : Instr := .twait hx .eq false .b 1 6 4 5 0
       let t : State := { warpIs (fun w => { w.setLanes 0xFFFFFFFF#32 (fun y => { y with st := .asleep }) with
          sleeps := [{ nap i (.scratch 64) with last := 7 }] }) base with clock := 1024 }
       (getBlock t bid).isSome = true ∧ (blockD t bid).saved = false ∧ (warpD t bid 0).stopped = false
         ∧ leNat (scratchRead t bid 64 4) = 0 ∧ waitHolds .eq 32 0 1 = false) := by
  refine ⟨inHand_all (by decide), inHand_all (by decide), inHand_all (by decide), rfl, by decide, by decide, by decide, by decide,
    by decide⟩

/-- CopyEngine, RingResults: a block alone in its band; its row comes back to it. A second descriptor fails. -/
theorem test_wit_ring :
    let i : Instr := .ring hb .none .b 6 4
    let good := stOf hb i [0, 1] (placed 0 (cd 8192 4096 128 64) base)
    let bad := stOf hb i [0, 1] base
    InHand i hb (curOf hb i [0, 1]) good ∧ InHand i hb (curOf hb i [0, 1]) bad
    ∧ (curOf hb i [0, 1]).single = some (rdvOf hb i [0, 1])
    ∧ ((bandCurs good (curOf hb i [0, 1]) (rdvOf hb i [0, 1])).filterMap (ringPart hb 4 good)).map (fun p => (p.status, p.lead.w)) = [(0, 0)]
    ∧ ((bandCurs bad (curOf hb i [0, 1]) (rdvOf hb i [0, 1])).filterMap (ringPart hb 4 bad)).map (fun p => (p.status, p.lead.w)) = [(1, 0)]
    ∧ (blockD good bid).warps.length = 2 ∧ (copyQ (blockD good bid) 16).cmds.length = 0 ∧ (launchD good 1).rb = false := by
  refine ⟨inHand_single rfl, inHand_single rfl, by decide, by decide, by decide, by decide, by decide, by decide⟩

def movedOk (r : MoveEnd) : Bool := match r with | .moved _ _ u => !u.badPhys | _ => false
def faultIs (r : MoveEnd) (n : Nat) : Bool := match r with | .fault c _ u => c == n && !u.badPhys | _ => false

/-- CopyEngine, CopyEngineEvents: a granule of each kind, a fault, and a finished command. -/
theorem test_wit_copy_engine :
    (let c := copyOf .copy (cd 0x200000000 4096 128 64) 0
     let s := copying c
     ∃ key, nextRound ((aget (clusterD s 0).lastCopy 0).getD 0) (copyReady s 0) = some (key, bid, 0, c)
       ∧ (let s0 := modCluster 0 (fun k => { k with lastCopy := aset k.lastCopy 0 key }) s
          let r := beginCopy bid c s0
          movedOk (moveGranule bid r.1 64 r.2) = true) ∧ (blockD s bid).saved = false ∧ (launchD s 1).rb = false)
    ∧ (let c := copyOf .fill (cd 0x55 4096 128 64) 0
       let s := copying c
       ∃ key, nextRound ((aget (clusterD s 0).lastCopy 0).getD 0) (copyReady s 0) = some (key, bid, 0, c) ∧ (blockD s bid).copyQ ≠ [])
    ∧ (let c := copyOf .copy (cd 0x20000000000000 4096 128 64) 0
       let s := copying c
       ∃ key, nextRound ((aget (clusterD s 0).lastCopy 0).getD 0) (copyReady s 0) = some (key, bid, 0, c)
         ∧ (let s0 := modCluster 0 (fun k => { k with lastCopy := aset k.lastCopy 0 key }) s
            let r := beginCopy bid c s0
            faultIs (moveGranule bid r.1 64 r.2) 1 = true))
    ∧ (let c := copyOf .copy (cd 0x200000000 4096 128 64) 64
       let s := copying c
       (copyQ (blockD s bid) 0).cmds.head? = some c ∧ (copyQ (blockD s bid) 0).state = .running ∧ cdLen c.desc.toNat ≤ c.pos
         ∧ c.ord.rel = false ∧ s.fatal = 0 ∧ s.badPhys = false) := by
  refine ⟨⟨_, rfl, by decide, rfl, rfl⟩, ⟨_, rfl, by decide⟩, ⟨_, rfl, by decide⟩, by decide⟩

/-- The Massif of cluster 0: the block owns slots 0 to 5, accumulators 0 and 1 and queue 0, and what `f` puts there. -/
def slotOf (tag : BitVec 5) : MSlot := { owner := bid, tag := tag, sref := false, data := [], side := [], stage := none }
def mq (cmds : List MCmd) (st : QState) : MQueue :=
  { owner := bid, issued := cmds.length, completed := 0, cmds := cmds, state := st, cls := 0, estat := 0, offset := 0, token := none,
    held := 0 }
def massif (q : MQueue) (s : State) : State := modCluster 0 (fun k =>
  { k with slots := (List.range 6).map (fun n => (n, slotOf 0x13)), accs := [(0, { owner := bid, data := [] }), (1, { owner := bid, data := [] })],
           queues := [(0, q)], nextOrder := 7 }) s
/-- A task word on slot 0, the pair of slots 2 and 3, and accumulator 1. -/
def tw : Nat := 2 * 2 ^ 8 + 1 * 2 ^ 16
def s4Is (v : Nat) (s : State) : State := warpIs (fun w => { w with s := [(4, BitVec.ofNat 64 v)] }) s
def mOf (k : MKind) (d pos : Nat) : MCmd := { newMCmd k d 128 noOrd bid 0 0 with pos := pos, seq := 1 }
/-- An MLOAD of 128 rows of 64 bytes into slot 0, and an MSTORE of a class of accumulator 1. -/
def mlD : Nat := 0x1000 + 64 * 2 ^ 128 + 127 * 2 ^ 160 + 0x13 * 2 ^ 184

theorem test_wit_matrix_resources :
    let s := massif (mq [] .idle) one
    let busy := massif (mq [mOf .mma tw 0] .running) one
    let failed := massif (mq [mOf .mma tw 0] .error) one
    (∀ i ∈ ([.mclaim hx true 6 4, .mclaim hx false 6 128, .mclaim hx false 6 2, .mrel hx false 6 4 2, .mrel hx true 6 4 1,
      .mrel hx false 6 4 200, .mqcfgAlloc hx 6, .mqcfgFree hx 6 4, .mqcfgClr hx 6 4, .mstat hx .queue 6 4, .mstat hx .slot 6 4,
      .mstat hx .own 6 4, .mstat hx .free 6 4] : List Instr), InHand i hx curL s)
    ∧ (∀ i ∈ ([.mrel hx false 6 4 2, .mqcfgFree hx 6 4] : List Instr), InHand i hx curL busy)
    ∧ (∀ i ∈ ([.mrel hx false 6 4 2, .mqcfgFree hx 6 4, .mqcfgClr hx 6 4] : List Instr), InHand i hx curL failed)
    ∧ leadOf hx s curL = some (memL s) ∧ members busy curL = [memL busy] ∧ (memL s).wp.results.length < 64
    ∧ (uniVal (memL s) 4 0).toNat % 256 = 0 ∧ (∀ j, j < 2 → ownsSlot s bid (0 + j) = true)
    ∧ (∃ m ∈ (mq [mOf .mma tw 0] .running).cmds, 0 ∈ m.reads ++ m.writes busy)
    ∧ ownsSlot s bid 127 = false ∧ (launchD s 1).rb = false ∧ (launchD (launchIs (fun l => { l with rb := true }) s) 1).rb = true
    ∧ (queueOf s bid 0).map (·.state) = some .idle ∧ (queueOf failed bid 0).map (·.state) = some .error
    ∧ aget (clusterD s 0).slots 6 = none ∧ aget (clusterD s 0).accs 2 = none := by
  refine ⟨inHand_all (by decide), inHand_all (by decide), inHand_all (by decide), rfl, rfl, by decide, by decide, by decide,
    by decide, by decide, rfl, by decide, by decide, by decide, by decide, by decide⟩

/-- MatrixCommands: each word passes, and one turns away a queue in error, and one a queue the block does not own. -/
theorem test_wit_matrix_commands :
    let ml := placed 0 mlD (massif (mq [] .idle) one)
    let t := s4Is tw (massif (mq [] .idle) one)
    let z := s4Is 2 (massif (mq [] .idle) one)
    let cv := s4Is (0 + 1 * 2 ^ 8 + 0x13 * 2 ^ 16) (massif (mq [] .idle) one)
    let ms := placed 0 (0x1000 + 1024 * 2 ^ 128 + 1 * 2 ^ 176 + 0x10 * 2 ^ 180 + 1 * 2 ^ 200) (massif (mq [] .idle) one)
    let e := massif (mq [mOf .mma tw 0] .error) one
    (∀ i ∈ ([.mload hx .none .b .all true 6 4 0, .mload hx .none .b (.reg 5) false 6 4 0] : List Instr), InHand i hx curL ml)
    ∧ (mloadChecks ml bid true (leNat (scratchRead ml bid 0 64))).find? (fun y => y.1) = none
    ∧ spBeyond 262144 mlD (mlRows mlD) (tagRow (mlFmt mlD)) (mlSc mlD) (tagScales (mlFmt mlD)) = false
    ∧ leNat (scratchRead ml bid 0 64) = mlD
    ∧ InHand (.mstore hx .rel .dv .all true 6 4 0) hx curL ms
    ∧ (mstoreChecks ms bid true (leNat (scratchRead ms bid 0 64))).find? (fun y => y.1) = none
    ∧ InHand (.mma hx .all true 6 4 0) hx curL t ∧ InHand (.mma hx .all false 6 4 9) hx curL t
    ∧ queueOf t bid 9 = none ∧ (queueOf t bid 0).map (·.state) = some .idle
    ∧ (uniVal (memL t) 4 0).toNat = tw
    ∧ (mmaspChecks t bid .p2 tw).find? (fun y => y.1) = some (true, 4)
    ∧ InHand (.mmasp hx .p2 .all false 6 4 0) hx curL t
    ∧ (∀ i ∈ ([.mzero hx 6 4 0] : List Instr), InHand i hx curL z) ∧ ownsAcc z bid 1 = true
    ∧ InHand (.mcvt hx .all 6 4 0) hx curL cv ∧ (mcvtChecks cv bid (uniVal (memL cv) 4 0).toNat).find? (fun y => y.1) = none
    ∧ (∀ i ∈ ([.mma hx .all true 6 4 0, .mload hx .none .b .all true 6 4 0, .mwait hx true .b 1 6 0 5, .mwait hx false .dv 0 6 7 5] : List Instr),
        InHand i hx curL e)
    ∧ (queueOf e bid 0).map (·.state) = some .error := by
  refine ⟨inHand_all (by decide), by decide, by decide, by decide, inHand_of_hand (by decide), by decide, inHand_of_hand (by decide),
    inHand_of_hand (by decide), rfl, rfl, by decide, by decide, inHand_of_hand (by decide), inHand_all (by decide), by decide,
    inHand_of_hand (by decide), by decide, inHand_all (by decide), rfl⟩

/-- MatrixEngineEvents: a tile task, granules, completions and the wait of an MREL. -/
theorem test_wit_matrix_engine :
    (let c := mOf .mma tw 0
     let s := massif (mq [c] .running) base
     nextRound (clusterD s 0).lastTile (taskReady s 0) = some (1, 0, c) ∧ (aget (clusterD s 0).accs (twAcc c.desc.toNat)).isSome = true)
    ∧ (let c := { mOf .mmasp tw 0 with pat := .p2 }
       let s := massif (mq [c] .running) base
       nextRound (clusterD s 0).lastTile (taskReady s 0) = some (1, 0, c)
         ∧ spBad (modCluster 0 (fun k => { k with lastTile := 1 }) s) 0 c 0 = true)
    ∧ (let c := { mOf .mmasp tw 0 with pat := .p2, v := 0 }
       let s := massif (mq [c] .running) base
       nextRound (clusterD s 0).lastTile (taskReady s 0) = some (1, 0, c)
         ∧ spBad (modCluster 0 (fun k => { k with lastTile := 1 }) s) 0 c 0 = false)
    ∧ (let c := { mOf .load mlD 0 with sp := true }
       let s := massif (mq [c] .running) base
       activeHead s 0 0 = some c ∧ c.pos < c.total ∧ mlSc mlD = false ∧ tagRow (mlFmt mlD) = 64 ∧ c.v = mlRows mlD
         ∧ (∀ k ∈ loadSlots mlD, (aget (clusterD s 0).slots k).isSome = true)
         ∧ (let b := beginM c s
            (match moveLoadM 0 b.1 512 b.2 with | .moved _ _ u => !u.badPhys | _ => false) = true))
    ∧ (let c := { mOf .load (mlD - 0x1000 + 2 ^ 53) 0 with sp := false }
       let s := massif (mq [c] .running) base
       activeHead s 0 0 = some c
         ∧ (let b := beginM c s
            (match moveLoadM 0 b.1 512 b.2 with | .fault n _ u => n == 1 && !u.badPhys && (aget (clusterD u 0).queues 0).isSome | _ => false) = true))
    ∧ (let c := mOf .cvt (0 + 1 * 2 ^ 8 + 0x13 * 2 ^ 16) 0
       let s := massif (mq [c] .running) base
       activeHead s 0 0 = some c ∧ c.pos < c.total ∧ (aget (clusterD s 0).slots (mcSlot c.desc.toNat + 0)).isSome = true) := by
  refine ⟨by decide, by decide, by decide, by decide, by decide, by decide⟩

theorem test_wit_matrix_completions :
    (let c := mOf .mma tw 1
     let s := massif (mq [c] .running) base
     activeHead s 0 0 = some c ∧ aget (clusterD s 0).queues 0 = some (mq [c] .running) ∧ c.total ≤ c.pos)
    ∧ (let c := { mOf .load mlD 8192 with sp := true }
       let s := massif (mq [c] .running) base
       activeHead s 0 0 = some c ∧ c.total ≤ c.pos)
    ∧ (let i : Instr := .mrel hx false 6 4 2
       let o : Outst := { outOf i (.scratch 0) [0] with parts := [], ops := [(0, 0, 0)] }
       let s := warpIs (fun w => { w with outs := [o] }) (massif (mq [] .idle) base)
       let t := warpIs (fun w => { w with outs := [o] }) (massif (mq [mOf .mma tw 0] .running) base)
       (warpD s bid 0).outs = [o] ∧ mrelBusy s 0 (runRes false 0 2) = false ∧ mrelBusy t 0 (runRes false 0 2) = true)
    ∧ (let i : Instr := .mwait hx false .b 1 6 0 5
       let s : State := { warpIs (fun w => { w.setLanes 0xFFFFFFFF#32 (fun y => { y with st := .asleep }) with sleeps := [nap i (.scratch 0)] })
          (massif (mq [] .idle) base) with clock := 1024 }
       (warpD s bid 0).stopped = false ∧ (blockD s bid).saved = false ∧ (queueOf s bid 0).isSome = true
         ∧ ((0 : BitVec 32) - 1).toNat ≥ 2 ^ 31) := by
  refine ⟨by decide, by decide, by decide, by decide⟩

/-! ### Witnesses: delta mode and the log -/

/-- Registers s4 and s5 of warp 0; lane 0 in hand. -/
def regs45 (a b : Nat) (s : State) : State :=
  { warpIs (fun w => { w with s := [(4, BitVec.ofNat 64 a), (5, BitVec.ofNat 64 b)] }) s with cur := some curL }
def watching : State := { mapped with watch := [(3, { first := 2, count := 1, gen := 9, ctx := 0xFFF, v := true })] }
def rangeOk (r : Except (Nat × Nat) (List (Place × Nat))) : Bool := match r with | .ok _ => true | .error _ => false

theorem test_wit_watch :
    let s := regs45 0x200000100 128 watching
    let t := regs45 3 0 watching
    let u := regs45 128 128 watching
    let f := regs45 0x20000000000000 128 watching
    (∀ i ∈ ([.lwatchAdd hx 6 4 5, .lwatchDel hx 6 4, .lwatchGen hx 6 4] : List Instr), InHand i hx curL s ∧ InHand i hx curL t)
    ∧ InHand (.lwatchAdd hx 6 4 5) hx curL u ∧ InHand (.lwatchAdd hx 6 4 5) hx curL f
    ∧ leadOf hx s curL = some (memL s)
    ∧ (match rangePieces curL 0x200000100 128 s with | .ok ps => logRun ps == some 256 | .error _ => false) = true
    ∧ (match rangePieces curL 128 128 u with | .ok ps => logRun ps == none | .error _ => false) = true
    ∧ rangeOk (rangePieces curL 0x20000000000000 128 f) = false
    ∧ (watchD s 0).v = false ∧ (uniVal (memL s) 4 0).toNat = 0x200000100 ∧ (uniVal (memL s) 5 0).toNat = 128
    ∧ (watchD t 3).v = true ∧ (watchD t 3).ctx.toNat = ctxKey t bid ∧ (watchD s 256).v = false := by
  refine ⟨fun i hi => ⟨inHand_all (by decide) i hi, inHand_all (by decide) i hi⟩, inHand_of_hand (by decide), inHand_of_hand (by decide),
    rfl, by decide, by decide, by decide, rfl, by decide, by decide, rfl, by decide, rfl⟩

/-- The level-S handle table, handle 5 bound with watch 3, a Massif, and a Cornice page at virtual address 0. -/
def handles : State :=
  let leaf : TlbEntry := { ctx := none, base := 0, size := 0x200000000, pte := 0x21F }
  let csr : Csrs := { watching.csr with shtb := 0x30000000 }
  let s : State := { watching with csr := csr, cores := [(0, { Core.blank with tlb := [leaf] })], keys := [(64, 1)] }
  writeBytes (massif (mq [] .idle) s) (0x30000000 + 64 * 5) (leBytes 64 (1 + 3 * 2 ^ 9 + 4 * 2 ^ 19 + 128 * 2 ^ 128)) 64
/-- The Bind that an LREF.QUERY of handle 5 leaves, and its result outstanding. -/
def bind5 : Bind := { order := 0, handle := 5, block := bid, warp := 0, out := 0, op := .query }
def lbindB : Nat := 6 + 3 * 2 ^ 12 + 4 * 2 ^ 22
/-- A task word of an MMAD with handle 5. -/
def twH : Nat := tw + 5 * 2 ^ 44

theorem test_wit_handles :
    let s := regs45 0x100000 lbindB handles
    let t := regs45 5 0 handles
    (∀ i ∈ ([.lbind hx 6 4 5, .lrefForce hx 6 4, .lrefDrop hx 6 4, .lrefQuery hx 6 4] : List Instr), InHand i hx curL s ∧ InHand i hx curL t)
    ∧ leadOf hx s curL = some (memL s) ∧ handleTable s bid = some 0x30000000
    ∧ (match bufferPages s 0 none 0x100000 (List.range ((512 * classE 0 + 131072 + 8191) / 8192)) none with
        | .ok (pa, ksel) => decide (pa % 8192 = 0 ∧ pa < 2 ^ 40 ∧ ksel < 4) | .error _ => false) = true
    ∧ bitsOf lbindB 29 22 ≠ 0 ∧ bitsOf lbindB 32 31 ≠ 3 ∧ watchOwned s bid (bitsOf lbindB 21 12) = true
    ∧ (clusterD s 0).binds = [] ∧ (∀ x ∈ s.clusters, x.2.cornice = []) ∧ (∀ x ∈ s.clusters, x.1 = 0)
    ∧ (∀ q ∈ (clusterD s 0).queues, q.2.cmds = []) ∧ (blockD s bid).cluster < 32
    ∧ hrBound (handleSeen t bid 5) = true ∧ hrBound (handleSeen t bid 6) = false ∧ (uniVal (memL t) 4 0).toNat = 5
    ∧ (let w := massif (mq [mOf .mmad twH 0] .error) t
       ∃ q ∈ (clusterD w 0).queues, q.2.state = .error ∧ ∃ m ∈ q.2.cmds, m.done = false ∧ handleRes w bid 5 ∈ m.writes w)
    ∧ (let w := modCluster 0 (fun k => { k with binds := [bind5] })
         (warpIs (fun w => { w with outs := [{ outOf (.lrefQuery hx 6 4) (.scratch 0) [0] with parts := [], ops := [] }] }) t)
       bindReady w 0 bind5 = true ∧ bindReady (modCluster 0 (fun k => { k with queues := [(0, mq [mOf .mmad twH 0] .running)], binds := [{ bind5 with order := 9 }] }) w) 0
         { bind5 with order := 9 } = false ∧ (∀ x ∈ w.clusters, x.2.cornice = []) ∧ handleTable w bid = some 0x30000000) := by
  refine ⟨fun i hi => ⟨inHand_all (by decide) i hi, inHand_all (by decide) i hi⟩, rfl, by decide, by decide, by decide, by decide, by decide,
    by decide, by decide, by decide, by decide, by decide, by decide, by decide, by decide, by decide, by decide⟩

/-- DeltaExecution, DeltaTasks: MMAD accepted; its only task, and the first of two. -/
theorem test_wit_delta_tasks :
    (let s := regs45 twH 0 handles
     handleSeen s bid 5 = handleRec s bid 5 ∧ (∀ x ∈ s.clusters, x.2.cornice = [])
     ∧ InHand (.mmad hx .all false 6 4 0) hx curL s ∧ leadOf hx s curL = some (memL s) ∧ (queueOf s bid 0).map (·.state) = some .idle
       ∧ (uniVal (memL s) 4 0).toNat = twH ∧ (mmadChecks s bid twH).find? (fun y => y.1) = none
       ∧ physOk (0x30000000 + 64 * 5) 64 = true ∧ (blockD s bid).cluster < 32)
    ∧ (let c := mOf .mmad twH 0
       let s := massif (mq [c] .running) handles
       nextRound (clusterD s 0).lastTile (taskReady s 0) = some (1, 0, c) ∧ c.pos + 1 = c.total ∧ c.v ≤ 128
         ∧ handleTable s bid = some 0x30000000)
    ∧ (let c := { mOf .mmad twH 0 with v := 0 }
       let s := massif (mq [c] .running) handles
       let taken := modCluster 0 (fun k => { k with lastTile := 1 }) s
       nextRound (clusterD s 0).lastTile (taskReady s 0) = some (1, 0, c) ∧ c.pos + 1 = c.total
         ∧ hrBound (handleRec s bid 5) = true ∧ hrHcl (handleRec s bid 5) = 0 ∧ (stepTask 0 0 c taken).badPhys = false)
    ∧ (let c := mOf .mmad (twH + 2 ^ 24) 0
       let s := massif (mq [c] .running) handles
       nextRound (clusterD s 0).lastTile (taskReady s 0) = some (1, 0, c) ∧ c.pos + 1 < c.total) := by
  refine ⟨⟨by decide, by decide, inHand_of_hand (by decide), rfl, rfl, by decide, by decide, by decide, by decide⟩, by decide, by decide, by decide⟩

/-- A cairn of one range: line 0, as of epoch 0; with RB set or not. -/
def cairn0 (rb : Nat) : BitVec 1024 := BitVec.ofNat 1024 (1 * 2 ^ 48 + rb * 2 ^ 49 + 1 * 2 ^ 52 + 0xFFF * 2 ^ 56 + 1 * 2 ^ (128 + 45))
def cairned (rb : Nat) : State := { mapped with cairns := [(2, cairn0 rb)], epoch := 3 }
/-- One range entry of line 0 of the log at scratchpad offset 0. -/
def ranged (s : State) : State := scratchWrite bid 0 (leBytes 8 0x200000000 ++ leBytes 8 128) s

theorem test_wit_cairns :
    (let s := ranged (regs45 0 1 (cairned 0))
     InHand (.snapTake hx 6 4 5) hx curL s ∧ leadOf hx s curL = some (memL s) ∧ (uniVal (memL s) 5 0).toNat = 1
       ∧ (match takeRanges curL (rangeList s bid 0 1) s with | .ok rs => rs == [(0, 1)] | .error _ => false) = true
       ∧ cairnValid (cairnRec s 0) = false ∧ s.homes = [] ∧ s.epoch < 2 ^ 48)
    ∧ (let s := regs45 0x200000000 2 (cairned 0)
       InHand (.snapRd hx 6 1 4 5) hx curL s ∧ okPlace (uniPlace curL false 0x200000000 8 .load s) = some (.log 0 64)
         ∧ cairnValid (cairnRec s 2) = true ∧ mayCairn s bid (cairnRec s 2) = true ∧ inRanges (cairnRanges (cairnRec s 2)) 0 = true
         ∧ (versionAsOf s 0 0).any (fun v => (decryptLine s v 64).poison == 0) = true)
    ∧ (let s := regs45 2 0 (cairned 0)
       (∀ i ∈ ([.snapQuery hx 6 4, .sndrop hx 6 4, .rollb hx 6 4 5] : List Instr), InHand i hx curL s)
         ∧ bitsOf (cairnRec s 2) 49 49 = 0 ∧ (uniVal (memL s) 4 0).toNat = 2 ∧ s.replica = none
         ∧ bitsOf (cairnRec (cairned 1) 2) 49 49 = 1 ∧ cairnValid (cairnRec s 3) = false) := by
  refine ⟨⟨inHand_of_hand (by decide), rfl, by decide, by decide, rfl, rfl, by decide⟩,
    ⟨inHand_of_hand (by decide), by decide, by decide, by decide, by decide, by decide⟩,
    ⟨inHand_all (by decide), by decide, by decide, rfl, by decide, rfl⟩⟩

/-- A closed segment with one live version of line 0, of epoch 1. -/
def segN : Nat := 917248
def oneLine (phase : SegPhase) : Segment :=
  { base := 1, span := 0, used := 1, kind := 0, owner := 0, ks := 64, prev := 0, seq := 0, crc := 0, phase := phase,
    sums := [(0, { line := 0, back := 0, eoff := 0, z := false, tx := false, cc := false })], data := [(0, 77)], poison := [],
    shipped := [], barred := false, since := 0 }
def logged (phase : SegPhase) (s : State) : State := setIxEntry 0 (mkEntry segN 0) { s with segs := [(segN, oneLine phase)], epoch := 3 }

/-- Cairns, RollbackResults: a rollback that completes, and one whose range has a newer version. -/
theorem test_wit_rollback :
    let i : Instr := .rollb hx 6 4 5
    let z : Sleep := { nap i (.scratch 0) with va := 2 }
    let s : State := { warpIs (fun w => { w.setLanes 0xFFFFFFFF#32 (fun y => { y with st := .asleep }) with sleeps := [z] })
        (logged .closed (cairned 1)) with rollbs := [{ cairn := 2, mask := 1, since := 0, epoch := 3, waiter := wid0, members := [], dst := 6 }] }
    (s.rollbs.find? (fun x => x.cairn == 2)).isSome = true ∧ noCleaning s = true ∧ s.replicas = [] ∧ s.epoch + 1 < 0x800000000000
    ∧ visitLines s (selRanges (cairnRec s 2) 1) 0 = [0]
    ∧ startOk s 0 = true ∧ entryOk s 0 (headOf s 0) = true ∧ headOf s 0 ≠ 0 ∧ (getBlock s bid).isSome = true ∧ bitsOf (cairnRec s 2) 49 49 = 1 := by
  decide

theorem test_wit_publish :
    (let s := regs45 1 0 { mapped with epoch := 3 }
     (∀ i ∈ ([.publ hx 6, .publWait hx true 6 4, .publSeal hx 6] : List Instr), InHand i hx curL s)
       ∧ members s curL = [memL s] ∧ Contributes s curL (memL s) ∧ (memL s).wp.rel = none ∧ (memL s).wp.unack = []
       ∧ (memL s).wp.outs = [] ∧ s.phase = 2 ∧ (coreD s 0).atoms = [])
    ∧ (let s := regs45 9 0 { mapped with epoch := 3 }
       InHand (.publWait hx false 6 4) hx curL s ∧ s.epoch < (uniVal (memL s) 4 0).toNat % 2 ^ 48)
    ∧ InHand (.publ hb 6) hb (curOf hb (.publ hb 6) [0, 1]) (stOf hb (.publ hb 6) [0, 1] base)
    ∧ (let r : Release := { msc := .dv, phase := .done, pc := 0x200000, iw := 0, ew := 0, holds := true, carried := false,
                            stores := [], out := none, acq := none, epoch := 4 }
       let s := warpIs (fun w => { w with rel := some r, outs := [outOf (.publ hx 6) (.scratch 0) [0]] }) base
       (warpD s bid 0).rel = some r ∧ (warpD s bid 0).outs.length = 1) := by
  refine ⟨⟨inHand_all (by decide), rfl, ⟨List.mem_singleton.2 rfl, by decide, _, rfl, rfl⟩, rfl, rfl, rfl, rfl, rfl⟩,
    ⟨inHand_of_hand (by decide), by decide⟩, inHand_single rfl, rfl, rfl⟩

/-- A cleaning of the segment under way: its line 0 is next, and `copies` of its chain stand. -/
def cleaning (todo : List Nat) (old : BitVec 32) (copies : List (BitVec 32)) (fails : Nat) : State :=
  { logged .cleaning mapped with cleans := [{ seg := segN, engine := segN % 512 / 64 * 4, todo := todo, old := old, copies := copies, fails := fails }] }

theorem test_wit_cleaning :
    (let s := logged .closed mapped
     let e := segN % 512 / 64 * 4
     e < 32 ∧ aget s.segs segN = some (oneLine .closed) ∧ s.cleans = [] ∧ mayClean e segN (oneLine .closed) s = true ∧ headerBad s segN = false
       ∧ headerBad { s with bad := [segN * 4096 + 4000] } segN = true ∧ liveLines s segN (oneLine .closed) = [0]
       ∧ mayClean 31 segN (oneLine .opened) (logged .opened mapped) = false
       ∧ (let t : State := { mapped with segs := [(segN, oneLine .closed)] }
          mayClean e segN (oneLine .closed) t = true ∧ liveLines t segN (oneLine .closed) = [] ∧ headerBad t segN = false))
    ∧ (let old := mkEntry segN 0
       let s := cleaning [0] 0 [] 0
       aget s.segs segN = some (oneLine .cleaning) ∧ entryBad s 0 = false ∧ entryOk s 0 (headOf s 0) = true ∧ liveChain s 0 = [old]
         ∧ s.talusOpen = [] ∧ (freeSegment s).isSome = true ∧ entrySeg old = segN ∧ entrySlot old = 0
         ∧ (aget (oneLine .cleaning).sums 0).isSome = true ∧ entryOk { s with segs := [] } 0 (headOf s 0) = false
         ∧ headOf (cleaning [0] old [mkEntry 5 0] 2) 0 = old ∧ headOf (cleaning [0] 7 [mkEntry 5 0] 3) 0 ≠ 7
         ∧ liveLines s segN (oneLine .cleaning) = [0] ∧ (cleaning [] 0 [] 0).cleans.map (·.todo) = [[]])
    ∧ (oneLine .retiring).phase = .retiring := by
  refine ⟨by decide, by decide, rfl⟩

/-! ### Witnesses: replicas, near memory and walks -/

def repl (st : ReplicaState) : Replica :=
  { desc := BitVec.ofNat 256 (7 + 5 * 2 ^ 16), state := st, base := true, start := 1, applied := 2, since := 0,
    held := [], marks := (0, 0) }
/-- A ship descriptor of device 7 at scratchpad offset 0. -/
def shipDesc (s : State) : State := scratchWrite bid 0 (leBytes 32 7) s
def queueless : ReplicaMode := { desc := 7, started := true, cairns := 0, queue := [] }

theorem test_wit_replica_words :
    (let s := shipDesc (regs45 0 0 { mapped with replicas := [(1, repl .streaming), (2, repl .configured)] })
     (∀ i ∈ ([.shipCfg hx 6 4 0, .shipCfg hx 6 4 1, .shipStart hx 6 2, .shipStart hx 6 1, .shipStop hx 6 1, .shipStop hx 6 3,
        .shipStat hx 6 1, .shipStat hx 6 0, .shipAccept hx 6 4] : List Instr), InHand i hx curL s)
       ∧ leadOf hx s curL = some (memL s) ∧ (uniVal (memL s) 4 0).toNat % 2 ^ 32 = 0 ∧ leNat (scratchRead s bid 0 32) = 7
       ∧ s.blob.device ≠ 7 ∧ streamingSlot s 0 = false ∧ streamingSlot s 1 = true ∧ (∀ x ∈ s.clusters, x.2.pend = [])
       ∧ (aget s.replicas 2).map (·.state) = some .configured)
    ∧ (let s := regs45 1 0 mapped
       InHand (.shipCfg hx 6 4 0) hx curL s ∧ InHand (.shipAccept hx 6 4) hx curL s ∧ (uniVal (memL s) 4 0).toNat % 32 ≠ 0)
    ∧ (let s : State := regs45 0 0 { mapped with replica := some queueless }
       InHand (.shipPromote hx 6) hx curL s ∧ s.replica = some queueless ∧ queueless.queue = []) := by
  refine ⟨⟨inHand_all (by decide), rfl, by decide, by decide, by decide, rfl, rfl, by decide, rfl⟩,
    ⟨inHand_of_hand (by decide), inHand_of_hand (by decide), by decide⟩, inHand_of_hand (by decide), rfl, rfl⟩

theorem test_wit_replica_events :
    let s : State := { logged .closed mapped with replicas := [(1, repl .streaming)], records := [{ type := 0x82, payload := [] }] }
    let u : State := { mapped with replica := some queueless, epoch := 3 }
    aget s.segs segN = some (oneLine .closed) ∧ aget s.replicas 1 = some (repl .streaming) ∧ s.clock < (repl .streaming).since + 2 ^ 30
    ∧ (repl .streaming).since + 2 ^ 30 ≤ ({ s with clock := 2 ^ 30 } : State).clock ∧ 0 < s.records.length
    ∧ bitsOf (repl .streaming).desc.toNat 31 16 ≠ 0 ∧ s.fatal = 0 ∧ s.badPhys = false
    ∧ u.replica = some queueless ∧ queueless.started = true ∧ queueless.queue = [] ∧ u.replicas = [] ∧ u.epoch + 1 < 9
    ∧ queueless.cairns = 0 ∧ cairn0 0 ≠ 0 :=
  ⟨rfl, rfl, by decide, by decide, by decide, by decide, rfl, rfl, rfl, rfl, rfl, rfl, by decide, rfl, by decide⟩

/-- An extent at virtual 2 MiB, its window at virtual 16 MiB, and a fixed page at 0 for code. -/
def extPa : Nat := 0x40000000
def spur : State :=
  let ext : TlbEntry := { ctx := none, base := 0x200000, size := 0x200000, pte := 0x2DF + 0x40000000 }
  let win : TlbEntry := { ctx := none, base := 0x1000000, size := 0x100000,
                          pte := BitVec.ofNat 64 (0x41F + rowBase + extentChannel extPa * 65536) }
  { base with cores := [(0, { Core.blank with tlb := [ext, win] })] }
def armed (s : State) : State := { s with arms := [{ base := extPa, vbase := 0x200000, ctx := 0xFFF, ks := 64, window := 0x1000000 }], groups := [(extentGroup extPa, 0xFFF)] }
/-- A Spur descriptor: 8 rows of 8 columns, one vector, input row 0, output row 8. -/
def nmD (soff aoff : Nat) (strm : Bool) : Nat :=
  0x200000 + soff * 2 ^ 64 + aoff * 2 ^ 96 + 8 * 2 ^ 208 + 8 * 2 ^ 224 + 1 * 2 ^ 240 + 8 * 2 ^ 250
    + (if strm then 8 * 2 ^ 272 + 1 * 2 ^ 296 else 0)
def nmL : Nat := 0x200000 + 4096 * 2 ^ 64 + 8 * 2 ^ 208 + 1 * 2 ^ 240
def nmOf (k : NmKind) (d : Nat) : NmCmd :=
  { newNm k d 1 noOrd 0 with x := List.replicate 8 0x3F80, aoff := 128, seq := 1 }
def nmQ (cmds : List NmCmd) (st : QState) (s : State) : State := blockIs (fun b =>
  { b with nm := { issued := 1, completed := 0, cmds := cmds, state := st, sum := 32 } }) s
def okPair (r : Except Nat (Nat × Nat)) : Option (Nat × Nat) := match r with | .ok x => some x | .error _ => none

theorem test_wit_arms :
    (let s := regs45 0x200000 0x1000000 spur
     (∀ i ∈ ([.nbarm hx 6 4 5, .nbdisarm hx 6 4] : List Instr), InHand i hx curL s ∧ InHand i hx curL (regs45 0x200000 0x1000000 (armed spur)))
       ∧ leadOf hx s curL = some (memL s) ∧ (uniVal (memL s) 4 0).toNat = 0x200000 ∧ (uniVal (memL s) 5 0).toNat = 0x1000000
       ∧ okPair (extentOf s 0 none 0x200000) = some (extPa, 64)
       ∧ (∀ j, j < 128 → windowPage s 0 none 0x1000000 extPa 64 j = true) ∧ s.arms = [] ∧ s.groups = [] ∧ extentBusy s extPa = false
       ∧ (∀ k ∈ s.cores, k.2.atoms = []) ∧ okPair (extentOf s 0 none 0x1000000) = none)
    ∧ (let s := armed spur
       armAt s (ctxKey s bid) 0x200000 = some { base := extPa, vbase := 0x200000, ctx := 0xFFF, ks := 64, window := 0x1000000 }
         ∧ extentCmds s (ctxKey s bid) 0x200000 = [] ∧ armAt s (ctxKey s bid) 0 = none
         ∧ extentCmds (nmQ [nmOf .load nmL] .running s) (ctxKey s bid) 0x200000 = [.running]
         ∧ extentCmds (nmQ [nmOf .load nmL] .error s) (ctxKey s bid) 0x200000 = [.error])
    ∧ (let o : Outst := { outOf (.nbdisarm hx 6 4) (.scratch 0) [0] with parts := [], ops := [(0x200000, 0, 0)] }
       let s := warpIs (fun w => { w with outs := [o] }) (armed spur)
       (warpD s bid 0).outs = [o] ∧ extentCmds s (ctxKey s bid) 0x200000 = []
         ∧ extentCmds (nmQ [nmOf .load nmL] .running s) (ctxKey s bid) 0x200000 ≠ [])
    ∧ (let o : Outst := { outOf (.nbarm hx 6 4 5) (.scratch 0) [0] with parts := [], ops := [(extPa, 0, 0)] }
       let s := warpIs (fun w => { w with outs := [o] }) (armed spur)
       (warpD s bid 0).outs = [o] ∧ extentBusy s extPa = false ∧ (∀ k ∈ s.cores, k.2.atoms = [])
         ∧ extentBusy (blockIs (fun b => { b with warps := b.warps.map (fun w => { w with rel := some {
             msc := .dv, phase := .acks, pc := 0, iw := 0, ew := 0, holds := false, carried := true, stores := [(0, .fixed extPa false 64, [1])], out := none, acq := none, epoch := 0 } }) }) s)
           extPa = true) := by
  refine ⟨⟨fun i hi => ⟨inHand_all (by decide) i hi, inHand_all (by decide) i hi⟩, rfl, by decide, by decide, by decide, by decide, rfl, rfl, by decide, by decide, by decide⟩,
    by decide, by decide, by decide⟩

theorem test_wit_near_memory :
    (let l := placed 0 nmL (regs45 0 0 (armed spur))
     let o := placed 0 (nmD 4096 128 false) (regs45 0 0 (armed spur))
     let t := placed 0 (nmD 0 0 true) (regs45 0 0 (armed spur))
     let e := nmQ [nmOf .load nmL] .error (regs45 128 0 (armed spur))
     InHand (.nbload hx .all 6 4) hx curL l ∧ InHand (.nbop hx .rel .dv .all 6 4) hx curL o ∧ InHand (.nbstrm hx (.reg 5) true 6 4) hx curL t
       ∧ InHand (.nbdrain hx true .dv 6 4) hx curL o ∧ InHand (.nbdrainClr hx 6) hx curL e ∧ InHand (.nbdrain hx false .b 6 4) hx curL e
       ∧ leadOf hx l curL = some (memL l) ∧ (memL l).wp.unacked = 0
       ∧ (nmChecks l bid .load (leNat (scratchRead l bid 0 64))).find? (fun y => y.1) = none
       ∧ (nmChecks o bid .op (leNat (scratchRead o bid 0 64))).find? (fun y => y.1) = none
       ∧ (nmChecks t bid (.strm true) (leNat (scratchRead t bid 0 64))).find? (fun y => y.1) = none
       ∧ (blockD e bid).nm.state = .error ∧ (blockD o bid).nm.state ≠ .error ∧ (blockD o bid).nm.cmds.length < 16)
    ∧ (let s := nmQ [nmOf .drain 0] .running (armed spur)
       (blockD s bid).nm.cmds = [nmOf .drain 0] ∧ enginesHeld (blockD s bid) = false ∧ (nmOf .drain 0).stage = .start) := by
  refine ⟨⟨inHand_of_hand (by decide), inHand_of_hand (by decide), inHand_of_hand (by decide), inHand_of_hand (by decide),
    inHand_of_hand (by decide), inHand_of_hand (by decide), rfl, by decide, by decide, by decide, by decide, rfl, by decide, by decide⟩,
    by decide⟩

def armX : Arm := { base := extPa, vbase := 0x200000, ctx := 0xFFF, ks := 64, window := 0x1000000 }
theorem test_wit_spur_load :
    let c := nmOf .load nmL
    let s := nmQ [c] .running (armed spur)
    armAt s (ctxKey s bid) (nmXaddr c.desc.toNat) = some armX ∧ (nmData c armX (nmCount c) s).1 = true ∧ (nmData c armX (nmCount c) s).2.badPhys = false := by
  refine ⟨by decide, by decide, by decide⟩
theorem test_wit_spur_stream :
    let c := nmOf (.strm false) (nmD 0 0 true)
    let s := nmQ [c] .running (armed spur)
    armAt s (ctxKey s bid) (nmXaddr c.desc.toNat) = some armX ∧ (nmData c armX (nmCount c) s).1 = true ∧ (nmData c armX (nmCount c) s).2.badPhys = false := by
  refine ⟨by decide, by decide, by decide⟩
theorem test_wit_spur_op :
    let c := { nmOf .op (nmD 4096 128 false) with v := 0 }
    let s := nmQ [c] .running (armed spur)
    armAt s (ctxKey s bid) (nmXaddr c.desc.toNat) = some armX ∧ (nmData c armX (nmCount c) s).1 = true ∧ (nmData c armX (nmCount c) s).2.badPhys = false := by
  refine ⟨by decide, by decide, by decide⟩
theorem test_wit_spur_poisoned :
    let c := nmOf (.strm false) (nmD 0 0 true)
    let s : State := { nmQ [c] .running (armed spur) with rows := [(extentChannel extPa * 64, .poisoned)] }
    (nmData c armX (nmCount c) s).1 = false := by decide

/-- A walk descriptor from the log page: result at 256, arrival word at 128, 8 bytes, step limit 4; and its rules. -/
def wkD (fpol nr : Nat) : Nat := 0x200000000 + 256 * 2 ^ 128 + 128 * 2 ^ 160 + fpol * 2 ^ 225 + 8 * 2 ^ 232 + nr * 2 ^ 240 + 4 * 2 ^ 256
def rLoad : BitVec 64 := BitVec.ofNat 64 (0 + 1 * 2 ^ 4 + 8 * 2 ^ 32)
def rCmp : BitVec 64 := BitVec.ofNat 64 (1 + 2 * 2 ^ 4 + 2 * 2 ^ 8 + 3 * 2 ^ 19)
def rNext : BitVec 64 := 2
def walkOf (ph : WalkPhase) (rules : List (BitVec 64)) (rule : Nat) (buf : List (BitVec 8)) : Walk :=
  { wid := 0, desc := BitVec.ofNat 512 (wkD 0 1), rules := rules, ord := noOrd, warp := 0, ptr := 0x200000000, buf := buf, rule := rule,
    steps := 1, run := 0, epoch := 0, phase := ph, cancel := false }
def walking (w : Walk) : State := blockIs (fun b => { b with walks := [w] }) mapped

theorem test_wit_walk_words :
    let s := scratchWrite bid 64 (leBytes 8 rLoad.toNat ++ leBytes 8 3) (placed 0 (wkD 0 1) (regs45 0 0 mapped))
    (∀ i ∈ ([.trav hx .none .b 6 4, .travqCount hx 6, .travqCancel hx 6 4] : List Instr), InHand i hx curL s
      ∧ InHand i hx curL (regs45 0 0 (walking (walkOf .running [rLoad] 0 []))))
    ∧ leadOf hx s curL = some (memL s) ∧ bitsOf (leNat (scratchRead s bid 0 64)) 243 240 = 1
    ∧ (walkChecks 262144 (leNat (scratchRead s bid 0 64)) [rLoad, 3]).find? (fun y => y.1) = none
    ∧ findWalk s bid 0 = none ∧ (findWalk (walking (walkOf .running [rLoad] 0 [])) bid 0).isSome = true := by
  refine ⟨fun i hi => ⟨inHand_all (by decide) i hi, inHand_all (by decide) i hi⟩, rfl, by decide, by decide, rfl, rfl⟩

theorem test_wit_walk_events :
    (∀ w ∈ [walkOf .starting [rLoad] 0 [], { walkOf .running [rLoad] 0 [] with cancel := true }, walkOf .running [rLoad] 0 [],
       walkOf .running [rLoad, rCmp] 1 (leBytes 8 7), walkOf .running [rLoad, rCmp] 1 [], walkOf .running [rNext] 0 (leBytes 8 7),
       walkOf .running [3] 0 (leBytes 8 7), walkOf .running [4] 0 [], walkOf .reading [rLoad] 0 []],
       (getBlock (walking w) bid).isSome = true ∧ (blockD (walking w) bid).walks = [w] ∧ (launchD (walking w) 1).rb = false)
    ∧ rlOp rLoad.toNat = 0 ∧ rlOp rCmp.toNat = 1 ∧ rlOff rCmp.toNat + rlW rCmp.toNat ≤ (leBytes 8 7).length ∧ rlOp rNext.toNat = 2
    ∧ (walkOf .running [rLoad] 0 []).steps ≠ wkSlim (walkOf .running [rLoad] 0 []).desc.toNat
    ∧ wkRoff (wkD 0 1) = 256 ∧ wkAoff (wkD 0 1) + 4 ≤ wkRoff (wkD 0 1) ∧ wkFpol (wkD 0 1) = false
    ∧ (let w := walkOf .reading [rLoad] 0 []
       let r := walkLoad bid w (rlImm rLoad.toNat) .ok (walking w)
       (match r.1 with | .bytes bs => bs.length == 8 | _ => false) = true ∧ r.2.blocks = (walking w).blocks ∧ r.2.badPhys = false)
    ∧ (let w := { walkOf .reading [rLoad] 0 [] with ptr := 3 }
       let r := walkLoad bid w (rlImm rLoad.toNat) .ok (walking w)
       (match r.1 with | .fault k => k == 2 | _ => false) = true ∧ r.2 = walking w) := by
  refine ⟨by decide, by decide, by decide, by decide, by decide, by decide, by decide, by decide, by decide, by decide, by decide⟩

/-! ### Witnesses: system words -/

/-- A valid context 5 with two save frames, its launch 2 with one block on core 1, and the records at 0x40000000. -/
def rec5 : BitVec 512 := BitVec.ofNat 512 (1 + 4096 * 2 ^ 224 + 2 * 2 ^ 256)
def bid2 : BlockId := { lid := 2, blk := 0 }
def launch2 : Launch := { launch with lid := 2, super := false, ctx := 5, handler := 0x300000 }
def block2 : Block := { Block.blank with id := bid2, core := 1, warps := [startWarp launch2 0 0 0 0, startWarp launch2 1 1 1 0] }
def tenant : State :=
  let csr : Csrs := { mapped.csr with ctxbase := 0x40000000 }
  { mapped with csr := csr, ctxs := [(5, rec5)], keys := [(64, 1)], launches := [launch, launch2], nextLid := 3, blocks := [block, block2] }
def relDone : Release :=
  { msc := .dv, phase := .done, pc := 0x200000, iw := 0, ew := 0, holds := true, carried := false, stores := [], out := none, acq := none, epoch := 0 }
def releasing (s : State) : State := blockIs (fun b =>
  if b.id = bid then { b with warps := b.warps.mapIdx (fun (k : Nat) (w : Warp) => if k = 0 then { w with rel := some relDone } else w) } else b) s

theorem test_wit_device_registers :
    (let s := regs45 (0x1000000 + 9) 0 mapped
     InHand (.mextWrite hx 4) hx curL s ∧ leadOf hx s curL = some (memL s) ∧ bitsOf (uniVal (memL s) 4 0).toNat 3 0 = 9
       ∧ physOk (bitsOf (uniVal (memL s) 4 0).toNat 39 6 * 64) 64 = true ∧ InHand (.errinjWrite hx 4) hx curL s
       ∧ bitsOf (uniVal (memL s) 4 0).toNat 6 0 ≠ 0 ∧ InHand (.colcmdWrite hx 4) hx curL s ∧ s.coll = none)
    ∧ (let s := regs45 0x1000000 0 mapped
       InHand (.colcmdWrite hx 4) hx curL s ∧ (memL s).wp.rel = none ∧ (memL s).wp.unack = [] ∧ (memL s).wp.outs = []
         ∧ physOk (uniVal (memL s) 4 0).toNat 128 = true ∧ Contributes s curL (memL s))
    ∧ (let s := releasing (regs45 0x1000000 0 mapped)
       InHand (.colcmdWrite hx 4) hx curL s ∧ (memL s).wp.rel = some relDone ∧ Contributes s curL (memL s))
    ∧ (let s : State := { regs45 0x1000000 0 mapped with coll := some { desc := 0, block := bid, since := 0 } }
       InHand (.colcmdWrite hx 4) hx curL s) :=
  ⟨⟨inHand_of_hand (by decide), rfl, by decide, by decide, inHand_of_hand (by decide), by decide, inHand_of_hand (by decide), rfl⟩,
    ⟨inHand_of_hand (by decide), rfl, rfl, rfl, by decide, List.mem_singleton.2 rfl, by decide, _, rfl, rfl⟩,
    ⟨inHand_of_hand (by decide), rfl, List.mem_singleton.2 rfl, by decide, _, rfl, rfl⟩, inHand_of_hand (by decide)⟩

/-- A message of 8 bytes, SEQ 7, unsealed; with header field 15:11 set it is malformed. -/
def msg (bad : Nat) (s : State) : State := scratchWrite bid 0 (leBytes 32 (8 * 2 ^ 16 + 7 * 2 ^ 32 + bad * 2 ^ 11)) s
def inbound (s : State) : State := writeBytes s (0x4000000 + 65536 + 0x1000) (leBytes 32 (8 * 2 ^ 16 + 7 * 2 ^ 32)) 0

theorem test_wit_mailbox :
    (∀ i ∈ ([.mboxCfg hx 6 4 5, .mboxPost hx 6 4 5, .mboxOpen hx 6 4 5] : List Instr), InHand i hx curL (msg 0 (regs45 0 1 mapped))
      ∧ InHand i hx curL (inbound (regs45 1 64 mapped)) ∧ InHand i hx curL (msg 1 (regs45 0 1 mapped)) ∧ InHand i hx curL (regs45 1 8 mapped))
    ∧ (let s := msg 0 (regs45 0 1 mapped)
       leadOf hx s curL = some (memL s) ∧ (uniVal (memL s) 4 0).toNat = 0 ∧ (uniVal (memL s) 5 0).toNat = 1
         ∧ leNat ((scratchRead s bid 0 256).take 32) = 8 * 2 ^ 16 + 7 * 2 ^ 32
         ∧ readNat s (0x4000000 + 65536 + 0x40) 4 = 0 ∧ readNat s (0x4000000 + 65536 + 0x44) 4 = 0 ∧ physOk (0x4000000 + 65536) 65536 = true)
    ∧ (let s := inbound (regs45 1 64 mapped)
       leNat ((readBytes s (0x4000000 + 65536 + 0x1000) 256).take 32) = 8 * 2 ^ 16 + 7 * 2 ^ 32 ∧ (mboxD s 1).seq = none
         ∧ (mboxD { s with mboxes := [(1, { ctx := 5, slot := 0, vector := 0, seq := some 7 })] } 1).seq = some 7) :=
  ⟨fun i hi => ⟨inHand_all (by decide) i hi, inHand_all (by decide) i hi, inHand_all (by decide) i hi, inHand_all (by decide) i hi⟩,
    ⟨rfl, by decide, by decide, by decide, by decide, by decide, by decide⟩, by decide, rfl, rfl⟩

/-- A header in memory at 0x1000000: one block of one warp of context 5; `bad` is bit 127. -/
def headerBytes (bad : Nat) : List (BitVec 8) :=
  leBytes 256 (1 + 2 ^ 21 + 2 ^ 42 + 1 * 2 ^ 68 + 5 * 2 ^ 84 + bad * 2 ^ 127 + 0x300000 * 2 ^ 192 + 0x200000 * 2 ^ 512 + 8 * 2 ^ (512 + 64) + 1 * 2 ^ (512 + 72))
def headed (bad : Nat) : State := releasing (regs45 0x1000000 0 { writeBytes tenant 0x1000000 (headerBytes bad) 64 with cur := none })
def launchHeader (s : State) : Option (Nat × Bool) := (readVirtual bid 0x1000000 256 s).map (fun r => (leNat r.1, r.2.1))

theorem test_wit_launch :
    (let s := headed 0
     let u := setRel bid 0 none s
     InHand (.launch hx 6 4) hx curL s ∧ leadOf hx s curL = some (memL s) ∧ (memL s).wp.rel = some relDone ∧ Contributes s curL (memL s)
       ∧ launchHeader u = some (leNat (headerBytes 0), false)
       ∧ (leNat (headerBytes 0)).testBit 67 = false
       ∧ (match readVirtual bid 0x1000000 256 u with
          | some r => launchStatus (dropCode (ctxCheck 5 r.2.2)) (leNat r.1) 0 == 0 && !(dropCode (ctxCheck 5 r.2.2)).badPhys
          | none => false) = true)
    ∧ launchStatus tenant (leNat (headerBytes 1)) 0 = 0x71
    ∧ (let s := releasing (regs45 8 0 tenant)
       InHand (.launch hx 6 4) hx curL s ∧ (uniVal (memL s) 4 0).toNat % 256 ≠ 0) := by
  refine ⟨⟨inHand_of_hand (by decide), rfl, rfl, ⟨List.mem_singleton.2 rfl, by decide, _, rfl, rfl⟩, by decide, by decide, by decide⟩,
    by decide, inHand_of_hand (by decide), by decide⟩

theorem test_wit_context :
    (let s := placed 0 1 (regs45 0 6 tenant)
     InHand (.ctxsvWrite hx 6 4 5) hx curL s ∧ InHand (.ctxsvRead hx 6 4 5) hx curL s ∧ leadOf hx s curL = some (memL s)
       ∧ (uniVal (memL s) 5 0).toNat % 4096 = 6 ∧ leNat (scratchRead s bid 0 64) = 1 ∧ physOk (0x40000000 + 64 * 6) 64 = true
       ∧ s.csr.ctxbase.toNat = 0x40000000)
    ∧ (let s := placed 0 8 (regs45 0 5 tenant)
       InHand (.ctxsvWrite hx 6 4 5) hx curL s ∧ (∃ l ∈ s.launches, l.super = false ∧ l.ctx.toNat = 5)
         ∧ bitsOf (leNat (scratchRead s bid 0 64)) 250 224 ≠ bitsOf (ctxRec s 5).toNat 250 224
         ∧ bitsOf (leNat (scratchRead s bid 0 64)) 7 3 ≠ 0)
    ∧ (let s := regs45 5 0 tenant
       InHand (.ctxsvResume hx 6 4) hx curL s ∧ InHand (.ctxsvKill hx 6 4) hx curL s ∧ s.rollbs = []
         ∧ (clearContext 5 (killContext 5 s).2).badPhys = false ∧ (s.blocks.filter (blockOfCtx s 5)).length = 1)
    ∧ (let r : Rollb := { cairn := 2, mask := 1, since := 0, epoch := 0, waiter := wid0, members := [], dst := 6 }
       let s : State := { regs45 5 0 tenant with rollbs := [r], cairns := [(2, BitVec.ofNat 1024 (5 * 2 ^ 56))] }
       InHand (.ctxsvKill hx 6 4) hx curL s ∧ cairnCtx (cairnRec s 2) = 5) :=
  ⟨⟨inHand_of_hand (by decide), inHand_of_hand (by decide), rfl, by decide, by decide, by decide, rfl⟩,
    ⟨inHand_of_hand (by decide), by decide, by decide, by decide⟩,
    ⟨inHand_of_hand (by decide), inHand_of_hand (by decide), rfl, by decide, by decide⟩, inHand_of_hand (by decide), by decide⟩

def fault9 : FaultRec := { token := 9, ctx := 5, va := 0x2000, cls := 5, src := 0, store := true, lid := 2, blk := 0, posted := true }

theorem test_wit_preempt :
    (let s := regs45 5 0 tenant
     InHand (.preemptCtx hx 6 4) hx curL s ∧ leadOf hx s curL = some (memL s) ∧ Contributes s curL (memL s) ∧ ctxValid s 5 = true
       ∧ (s.blocks.filter (fun x => !x.saved && blockOfCtx s 5 x)).map (·.id) = [bid2]
       ∧ InHand (.preemptLaunch hx 6 4) hx curL s ∧ (s.launches.find? (fun l => l.lid == 5)) = none)
    ∧ (let s := regs45 6 0 tenant
       InHand (.preemptCtx hx 6 4) hx curL s ∧ ctxValid s 6 = false)
    ∧ (let s := regs45 2 0 tenant
       (∀ i ∈ ([.preemptLaunch hx 6 4, .preemptBlock hx 6 4 5, .preemptResume hx 6 4] : List Instr), InHand i hx curL s)
         ∧ (s.launches.find? (fun l => l.lid == 2)) = some launch2 ∧ launch2.super = false
         ∧ (getBlock s bid2).any (fun x => !x.saved) = true)
    ∧ (let s := regs45 1 0 tenant
       InHand (.preemptLaunch hx 6 4) hx curL s ∧ (launchD s 1).super = true)
    ∧ (let s : State := { regs45 9 7 tenant with faults := [fault9] }
       (∀ i ∈ ([.fltqDone hx 6 4, .fltqFail hx 6 4 5, .fltqStat hx 6 4] : List Instr), InHand i hx curL s)
         ∧ s.faults.find? (fun f => f.token % 2 ^ 32 == 9) = some fault9 ∧ (uniVal (memL s) 5 0).toNat % 16 = 7
         ∧ (failFault 9 7 s).badPhys = false) :=
  ⟨⟨inHand_of_hand (by decide), rfl, ⟨List.mem_singleton.2 rfl, by decide, _, rfl, rfl⟩, by decide, by decide, inHand_of_hand (by decide), by decide⟩,
    ⟨inHand_of_hand (by decide), by decide⟩, ⟨inHand_all (by decide), by decide, rfl, by decide⟩, ⟨inHand_of_hand (by decide), rfl⟩,
    inHand_all (by decide), by decide, by decide, by decide⟩

theorem test_wit_tlb :
    (let s := regs45 0x2000 (1 * 2 ^ 12 + 5) tenant
     (∀ i ∈ ([.tlbiAll hx 6, .tlbiCtx hx 6 4, .tlbiRange hx 6 4 5] : List Instr), InHand i hx curL s)
       ∧ leadOf hx s curL = some (memL s) ∧ (memL s).wp.results.length < 64 ∧ (pendingAccesses s (fun _ => true) (fun _ _ => true)).isEmpty = true
       ∧ (uniVal (memL s) 4 0).toNat % 8192 = 0 ∧ bitsOf (uniVal (memL s) 5 0).toNat 63 12 = 1
       ∧ (let u : State := { s with blocks := s.blocks.map (fun b => if b.id = bid2 then { b with warps := b.warps.map (fun w =>
            { w with outs := [outOf (.ld hx false .b32 .none .b .none 24 (.lane 18) 0) (.log 0 64) []] }) } else b) }
          (pendingAccesses u (fun _ => true) (fun _ _ => true)).isEmpty = false ∧ InHand (.tlbiAll hx 6) hx curL u ∧ Contributes u curL (memL u)))
    ∧ (let s : State := { regs45 0 (70 + 3 * 2 ^ 16) tenant with keys := [(3, 1)] }
       InHand (.keyctlLoad hx 6 4 5) hx curL s ∧ aget s.keys 3 = some 1 ∧ aget s.keys 70 = none
         ∧ bitsOf (uniVal (memL s) 5 0).toNat 13 0 = 70 ∧ bitsOf (uniVal (memL s) 5 0).toNat 29 16 = 3)
    ∧ (let s : State := { regs45 5 70 { tenant with launches := [launch] } with keys := [(70, 1)] }
       InHand (.keyctlBind hx 6 4 5) hx curL s ∧ (aget s.keys 70).isSome = true ∧ ctxValid s 5 = true
         ∧ ¬∃ l ∈ s.launches, l.super = false ∧ l.ctx.toNat = 5)
    ∧ (let s : State := regs45 70 0 tenant
       InHand (.keyctlErase hx 6 4) hx curL s ∧ InHand (.keyctlQuery hx 6 4) hx curL s ∧ slotBound s 70 = false
         ∧ slotBound { s with ctxs := [(5, BitVec.ofNat 512 (1 + 70 * 2 ^ 64))] } 70 = true)
    ∧ InHand (.keyctlErase hx 6 4) hx curL (regs45 5 0 tenant) :=
  ⟨⟨inHand_all (by decide), rfl, by decide, by decide, by decide, by decide, by decide, inHand_of_hand (by decide), List.mem_singleton.2 rfl,
      by decide, _, rfl, rfl⟩,
    ⟨inHand_of_hand (by decide), rfl, rfl, by decide, by decide⟩, ⟨inHand_of_hand (by decide), rfl, by decide, by decide⟩,
    ⟨inHand_of_hand (by decide), inHand_of_hand (by decide), by decide, by decide⟩, inHand_of_hand (by decide)⟩

/-- A locator of lane 0 of warp 0 of block 0 of launch 2. -/
def located (kind name : Nat) (a b : Nat) (s : State) : State :=
  scratchWrite bid 0 (leBytes 16 (2 + name * 2 ^ 42 + kind * 2 ^ 49)) (regs45 a b s)
def stopIt (s : State) : State := { s with blocks := s.blocks.map (fun b => if b.id = bid2 then { b with warps := b.warps.map (fun w =>
  { w with stopped := true }) } else b) }

theorem test_wit_debug :
    (let s := regs45 5 0 tenant
     (∀ i ∈ ([.dbgAttach hx 6 4, .dbgDetach hx 6 4, .dbgStop hx 6 4 5] : List Instr), InHand i hx curL s) ∧ ctxValid s 5 = true
       ∧ getBlock s { lid := 5, blk := 0 } = none ∧ leadOf hx s curL = some (memL s))
    ∧ (let s := regs45 2 0 tenant
       (∀ i ∈ ([.dbgStop hx 6 4 5, .dbgResume hx 6 4 5, .dbgStat hx 6 4 5, .dbgAttach hx 6 4] : List Instr), InHand i hx curL s)
         ∧ ctxValid s 2 = false ∧ (getBlock s bid2).isSome = true)
    ∧ (∀ x ∈ [(0, 17), (1, 4), (2, 3), (3, 0), (4, 0)],
       let s := located x.1 x.2 0 8 (stopIt tenant)
       let y := readLocator (leNat (scratchRead s bid 0 16))
       InHand (.dbgRdreg hx 6 4) hx curL s ∧ InHand (.dbgWrreg hx 6 4 5) hx curL s ∧ y.kind = x.1 ∧ (getBlock s y.block).isSome = true
         ∧ locatorOk s y = true ∧ (warpD s y.block y.warp).halted = true)
    ∧ (let s := located 0 127 0 8 tenant
       let y := readLocator (leNat (scratchRead s bid 0 16))
       InHand (.dbgRdreg hx 6 4) hx curL s ∧ locatorOk s { y with name := 128 } = false ∧ (warpD s y.block y.warp).halted = false)
    ∧ (let s := located 0 17 0 8 (blockIs (fun b => if b.id = bid2 then { b with saved := true, frame := some 0 } else b) (stopIt tenant))
       let y := readLocator (leNat (scratchRead s bid 0 16))
       (blockD s y.block).saved = true ∧ locatorOk s y = true ∧ (warpD s y.block y.warp).halted = true
         ∧ (locatorAddr s y).any (fun pa => physOk pa 4) = true) := by
  refine ⟨⟨inHand_all (by decide), by decide, rfl, rfl⟩, ⟨inHand_all (by decide), by decide, rfl⟩, fun x hx => ?_,
    ⟨inHand_of_hand (by decide), by decide, by decide⟩, by decide⟩
  have h : [(0, 17), (1, 4), (2, 3), (3, 0), (4, 0)].all (fun x =>
      let s := located x.1 x.2 0 8 (stopIt tenant)
      let y := readLocator (leNat (scratchRead s bid 0 16))
      hand (.dbgRdreg Tests.hx 6 4) Tests.hx s curL && hand (.dbgWrreg Tests.hx 6 4 5) Tests.hx s curL && decide (y.kind = x.1) && (getBlock s y.block).isSome
        && locatorOk s y && (warpD s y.block y.warp).halted) = true := by decide
  have hy := List.all_eq_true.1 h x hx
  simp only [Bool.and_eq_true, decide_eq_true_eq] at hy
  exact ⟨inHand_of_hand hy.1.1.1.1.1, inHand_of_hand hy.1.1.1.1.2, hy.1.1.1.2, hy.1.1.2, hy.1.2, hy.2⟩

/-! ### Witnesses: blocks, checkpoints, the device and its links -/

theorem test_wit_block_starts :
    (let l : Launch := { launch with band := false, nextBlk := 0 }
     let s : State := { base with launches := [l], blocks := [] }
     (restoreAny s).isNone = true ∧ l.held = false ∧ l.nextBlk < l.total ∧ l.super = true ∧ bestCore s (fitsNew s l) = some 0
       ∧ getBlock s { lid := l.lid, blk := 0 } = none)
    ∧ (let s : State := { base with launches := [{ launch with total := 1 }] }
       (restoreAny s).isNone = true ∧ (startAny s).isNone = true) := by
  refine ⟨by decide, by decide⟩

/-- The tenant without bands, its block 0 of launch 2 with a frame, and `f`. -/
def saver (f : Block → Block) : State :=
  { tenant with launches := [launch, { launch2 with band := false }], frames := [(5, 0, 1)],
                blocks := [block, f { block2 with frame := some 0 }] }
def savingOf (why : SaveWhy) : Saving := { why := why, since := 0, stage := 0, masked := false }

theorem test_wit_saves :
    (let s := saver (fun b => { b with saving := some (savingOf .preempt) })
     (launchD s 2).band = false ∧ (launchD s 2).rb = false ∧ (blockD s bid2).saved = false ∧ (blockD s bid2).saving ≠ none
       ∧ frameAddr s 5 0 + 0x1000000 ≤ 0x8000000000 ∧ readyToSave (stopOpen bid2 s) (blockD (stopOpen bid2 s) bid2) = true
       ∧ (let r := agentRelease bid2 .dv [] (stopOpen bid2 s)
          r.2 = true ∧ r.1.badPhys = false ∧ (getBlock r.1 bid2).any (fun v => v.saving == some (savingOf .preempt) && decide (v.warps.length ≤ 32)
            && v.warps.all (fun x => decide (x.allot ≤ 112)) && v.scratch.isEmpty) = true
            ∧ (launchD r.1 2).groups = [(0, 3#32)] ∧ (clusterD r.1 0).slots = [] ∧ (clusterD r.1 0).accs = []
            ∧ (clusterD r.1 0).cornice = [] ∧ (launchD r.1 2).scratch ≤ 262144 ∧ ∃ L ∈ r.1.launches, L.lid = 2))
    ∧ (let s : State := { saver (fun b => { b with frame := none, saving := some (savingOf .preempt) }) with frames := [(5, 0, 1), (5, 1, 1)] }
       freeFrameOf s 5 = none ∧ readyToSave (stopOpen bid2 s) (blockD (stopOpen bid2 s) bid2) = true) := by
  refine ⟨by decide, by decide⟩

theorem test_wit_restores :
    (let s := saver (fun b => { b with saved := true, requeued := true, saving := some (savingOf .preempt) })
     (blockD s bid2).saved = true ∧ (blockD s bid2).id = bid2 ∧ mayRestore s (blockD s bid2) = true
       ∧ bestCore s (fitsSaved s (blockD s bid2)) = some 1 ∧ (blockD s bid2).staging = [] ∧ (blockD s bid2).massif = []
       ∧ (∀ x ∈ (blockD s bid2).warps, x.evicted = false ∧ x.allot ≤ 112) ∧ frameAddr s 5 0 + 0x1000000 ≤ 0x8000000000
       ∧ (clusterD s 0).slots = [])
    ∧ (let s := saver (fun b => { b with saved := true, saving := some (savingOf .hold) })
       mayRestore s (blockD s bid2) = false)
    ∧ (let park : Park := { lane := 0, token := some 9, va := 0x2000, cls := 5, store := true, since := 0 }
       let wait (w : Warp) : Warp := { w.setLanes 0xFFFFFFFF#32 (fun y => { y with st := .parked }) with parks := [park] }
       let s : State := { saver (fun b => { b with warps := b.warps.map wait }) with faults := [fault9] }
       (launchD s 2).super = false ∧ (blockD s bid2).saving = none ∧ unservedOf s (blockD s bid2) = [9]
         ∧ (∀ x ∈ (blockD s bid2).warps, warpCanIssue (launchD s 2) (blockD s bid2) x = false ∧ x.tx = none) ∧ (blockD s bid2).frame ≠ none) := by
  refine ⟨by decide, by decide, by decide⟩

/-- A rollback-capable launch 2; its block with a frame and what `f` says of its rollback state. -/
def image : Checkpoint :=
  { warps := block2.warps, wregs := [], rdvs := [], copyQ := [], mqueues := [], binds := [],
    nm := NmQueue.blank, walks := [], draining := none, owned := ([], []) }
def rolling (f : RbState → RbState) (g : Warp → Warp) : State :=
  { tenant with launches := [launch, { launch2 with rb := true, band := false }], clock := 256, frames := [(5, 0, 1)],
                blocks := [block, { block2 with frame := some 0, rb := f RbState.blank, warps := block2.warps.mapIdx (fun (k : Nat) (w : Warp) => if k = 0 then g w else w) }] }
def tent5 : Tentative := { line := 5, data := 0x77, mask := 1, ks := 64, poison := 0 }

theorem test_wit_checkpoint :
    (let s := rolling (fun r => { r with capture := some (image, 0) }) id
     (blockD s bid2).rb.capture = some (image, 0) ∧ 0 + 256 ≤ s.clock ∧ (blockD s bid2).frame = some 0 ∧ (∀ x ∈ (blockD s bid2).warps, x.rel = none)
       ∧ frameAddr s (launchD s 2).ctx.toNat 0 + 0x1000000 ≤ 0x8000000000 ∧ image.warps.length ≤ 32 ∧ (∀ x ∈ image.warps, x.allot ≤ 112)
       ∧ (blockD s bid2).rb.tentPrev = [])
    ∧ (let s := modCluster 0 (fun k => { k with pend := [{ line := 5, data := 0, mask := 2, ks := 64, poison := 0, appended := none, tx := false }] })
         (rolling (fun r => { r with capture := some (image, 0), tentPrev := [tent5] }) id)
       (blockD s bid2).rb.tentPrev = [tent5] ∧ ((clusterD s ((blockD s bid2).core / 8)).pend.find? (fun y => y.line == 5)).isSome = true
         ∧ s.clock < 1 + 256) := by
  refine ⟨by decide, by decide⟩

def dueIt (c : Nat) (rb : Bool) (w : Warp) : Warp := { w with due := [{ due c 1 (some 0x200000#53) with rollback := rb }] }

theorem test_wit_data_errors :
    (let s := rolling (fun r => { r with newest := some image }) (dueIt 10 true)
     (launchD s 2).rb = true ∧ ((warpD s bid2 0).due.find? (·.rollback)).isSome = true ∧ s.blob.mbxbase + 0x400000 ≤ 0x8000000000
       ∧ (blockD s bid2).rb.newest = some image ∧ (blockD s bid2).rb.count < 3 ∧ (blockD s bid2).rb.undoPrev = Undo.blank
       ∧ (blockD s bid2).rb.undo.handles = [] ∧ (blockD s bid2).rb.undo.slots = []
       ∧ (∀ y ∈ (blockD s bid2).warps, y.rel = none ∧ y.evicted = false) ∧ (∀ y ∈ image.warps, y.rel = none ∧ y.tx = none) ∧ image.warps.length = (blockD s bid2).warps.length)
    ∧ (let s : State := { rolling (fun r => r) (dueIt 10 true) with blocks := (rolling (fun r => r) (dueIt 10 true)).blocks.map (fun b => { b with frame := none }) }
       (blockD s bid2).rb.newest = none ∧ (blockD s bid2).frame = none ∧ (clusterD s 0).cornice = [] ∧ (launchD s 2).ended + ((launchD s 2).killed + 1) ≠ (launchD s 2).total)
    ∧ (let s := warpIs (dueIt 10 false) base
       TakesTraps s bid 0 0x300000#64 ∧ deviceRuns s bid = true ∧ warpFree (launchD s 1) (blockD s bid) (warpD s bid 0) = true
         ∧ (1 : Lanes) &&& (warpD s bid 0).live = 1) := by
  refine ⟨by decide, by decide, ⟨⟨_, _, rfl, rfl⟩, rfl, rfl, rfl, rfl, by decide⟩, by decide, by decide, by decide⟩

/-- ResetAndPhases, HostLink, SpdmEvents, ReliabilityEvents, PowerEvents: the phases, and a session that is open. -/
theorem test_wit_device :
    State.reset.phase = 0 ∧ State.reset.badPhys = false ∧ State.reset.fatal = 0 ∧ State.reset.blob.super = none
    ∧ (let s : State := { base with phase := 1 }
       s.phase = 1 ∧ ∀ b ∈ s.blocks, ∀ x ∈ b.warps, x.rel = none)
    ∧ (let s : State := { base with sessions := [(0, { slot := some 2, secret := 5 }), (1, { slot := none, secret := 6 })] }
       sessionOpen s 0 = true ∧ freeSessionSlot s = some 0 ∧ aget s.sessions 2 = none ∧ s.blob.mbxbase + 0x400000 ≤ 0x8000000000
         ∧ aget s.tdisp 3 ≠ some .error)
    ∧ (let s : State := { base with rows := [(3, .unadopted 5), (4, .poisoned)] }
       isRow (0x8000000000 + 3 * 1024) = true ∧ rowOf (0x8000000000 + 3 * 1024) = 3 ∧ aget s.rows 3 = some (.unadopted 5)
         ∧ aget s.rows 4 = some .poisoned ∧ isRow 4096 = false)
    ∧ base.blob.thresholds[2]? = some 65536 ∧ 105 ∉ base.throttled ∧ 0 ∈ detIslands detBase ∧ 9 ∉ detIslands detBase := by
  refine ⟨rfl, rfl, rfl, rfl, by decide, by decide, by decide, rfl, by decide, by decide, by decide⟩

def port2 : Port := { Port.blank with state := 2, lanes := 0xFF, unacked := [1, 2] }
def remote (op : RemoteOp) (ok : Bool) : RemoteTx := { src := 3, cluster := 0, warp := 0, seq := 1, addr := 128, op := op, crcOk := ok }
/-- A home-held line 1. -/
def homed : State := { mapped with homes := [(1, { data := 5, kept := 0, homed := 0, ks := 64, last := 0 })], keys := [(64, 1)] }

theorem test_wit_fabric :
    (let s : State := { base with ports := [(4, port2), (5, { port2 with state := 1, dropped := 0xF0 })] }
     portD s 4 = port2 ∧ port2.state = 2 ∧ port2.unacked ≠ [] ∧ (portD s 5).state = 1 ∧ (portD s 5).dropped &&& 0x0F = 0 ∧ (portD s 5).dropped ≠ 0
       ∧ ({ port2 with dropped := 1 } : Port).dropped.getLsbD 0 = true)
    ∧ homed.phase = 2 ∧ (∀ x ∈ [remote (.load 8) true, remote (.store [1, 2]) true, remote (.atomic .add .i32 1 0) true, remote (.load 8) false],
        (x.src, x.seq) ∉ homed.remoteSeen ∧ x.cluster < 20 ∧ x.addr < 2 ^ 60 ∧ x.addr % 128 % 4 = 0)
    ∧ startOk homed 1 = true ∧ (installedLine homed 1).poison = 0 ∧ keyLoaded homed (installedLine homed 1).ks = true ∧ (aget homed.homes (128 / 128)).isSome = true := by
  refine ⟨by decide, rfl, by decide, by decide, by decide, by decide, by decide⟩

/-- A collective of one element over device 0 alone, FP32, result at 0x2000, completion word at 0x3000. -/
def collDesc : BitVec 1024 := BitVec.ofNat 1024 (0x1000 + 0x2000 * 2 ^ 64 + 1 * 2 ^ 128 + 0x10 * 2 ^ 160 + 1 * 2 ^ 256 + 0x3000 * 2 ^ 512)
theorem test_wit_collective :
    let c : Coll := { desc := collDesc, block := { lid := 9, blk := 0 }, since := 0 }
    let s : State := { base with coll := some c }
    s.coll = some c ∧ (getBlock s c.block).any (fun b => b.resident) = false ∧ bitsOf c.desc.toNat 575 512 + 8 ≤ 0x8000000000
    ∧ s.clock < c.since + 2 ^ 30 ∧ c.since + 2 ^ 30 ≤ ({ s with clock := 2 ^ 30 } : State).clock
    ∧ colStatus s c.desc.toNat = 0 ∧ (colResult s c.desc.toNat []).length ≤ 64
    ∧ colStatus { s with blob := { s.blob with device := 7 } } c.desc.toNat = 0xC3 := by
  refine ⟨rfl, by decide, by decide, by decide, by decide, by decide, by decide, by decide⟩

/-! ### Witnesses: the machine as a whole -/

def isNext (o : Host.Outcome State Fault Refusal) (p : State → Bool) : Bool := match o with | .next t => p t | _ => false

/-- StepRunsTheWord: a step on the IADD of the spec and on a word with a reserved major, and a step on an event. -/
def fetched (w : Nat) : State := State.reset.withFetchWord 32 w
theorem test_wit_step :
    (let s := fetched 0x00089226
     (s.inputs.map (·.act)) = [.issue wid0] ∧ deviceRuns s bid = true ∧ warpFree (launchD s 1) (blockD s bid) (warpD s bid 0) = true
       ∧ (detTurn s wid0).1 = true ∧ (warpD s bid 0).due = [] ∧ (warpD s bid 0).group = some (0x200000#53, 0xFFFFFFFF#32)
       ∧ (match fetchPair bid 0x200000#53 (firstIssue wid0 s) with | .ok (iw, o, _) => iw == 0x00089226#32 && o.isNone | .error _ => false) = true
       ∧ isNext (step s) (fun t => t.cur.isNone && !t.badPhys && (warpD t bid 0).group == some (0x200004#53, 0xFFFFFFFF#32)) = true)
    ∧ isNext (step (fetched 0x88C00000)) (fun t => (warpD t bid 0).tmask && (warpD t bid 0).group == some (0x300000#53, 0xFFFFFFFF#32)) = true
    ∧ isNext (step { base with inputs := [{ ticks := 3, act := .event .blockStart }] }) (fun t => t.clock == 3) = true := by
  refine ⟨by decide, by decide, by decide⟩

/-- FatalErrorIsFinal. -/
theorem test_wit_fatal :
    let s : State := { base with fatal := 1 }
    s.fatal ≠ 0 ∧ s.cur = none ∧ s.inputs = [] ∧ isNext (step s) (fun t => t.fatal == 1) = true := by
  refine ⟨by decide, rfl, rfl, by decide⟩

/-- LaneWordsRoundTrip, UniformWordsRoundTrip, IntegerWordsAreOne. -/
theorem test_wit_round_trip :
    (∀ i ∈ ([.imad hx true 127 (.lane 17) 18 19, .iadd hx .i32 true 16 (.lane 17) (.imm 5)] : List Instr), i.raw.any (fun r => !r.g) = true ∧ i.encodable = true)
    ∧ (∀ i ∈ ([.salu hx .mulh true 4 5 (.imm 0x80000), .mqcfgAlloc hx 6, .tcopy hx .none .b .all 6 4 3] : List Instr), i.raw.any (fun r => r.g) = true ∧ i.encodable = true)
    ∧ (0x00089226#32).getLsbD 31 = false ∧ ((0x00089226#32).extractLsb' 22 6).toNat < 0x18 := by
  refine ⟨by decide, by decide, by decide, by decide⟩

/-- NothingWithoutGuard: a false guard; ArrivalsWait: a block-scope word whose warp arrives. -/
theorem test_wit_guards :
    (let h : Hdr := { hx with gn := true }
     (∀ i ∈ ([.salu h .add false 4 5 (.imm 1), .mqcfgAlloc h 6, .snapTake h 6 4 5] : List Instr), InHand i h cur0 (st base) ∧ i.hdr? = some h)
       ∧ (mem0 (st base)).lanes ≠ 0 ∧ guardG h (mem0 (st base)).wp = false)
    ∧ (let s := st base
       issueTrap s cur0 hb (.bar hb .none .b) = none ∧ issueStall (warpD s bid 0) cur0 hb (.bar hb .none .b) = false ∧ (warpD s bid 0).rel = none ∧ (warpD s bid 0).tx = none ∧ cur0.group ≠ 0
         ∧ arrivalRelease (.bar hb .none .b) = none ∧ (launchD s 1).rb = false) := by
  refine ⟨⟨fun i hi => ⟨inHand_all (by decide) i hi, ?_⟩, by decide, by decide⟩, by decide⟩
  simp only [List.mem_cons, List.not_mem_nil, or_false] at hi
  rcases hi with rfl | rfl | rfl <;> rfl

/-! ### WellFormed: each check refuses an ill-formed term -/

/-- Whether WellFormed refuses every term of a list. -/
def refuses (l : List Instr) : Bool := l.all (fun i => !i.wellFormed)

/-- A frame whose set number stands outside set scope (R34); an event is no instruction word. -/
theorem test_refuses_frame : refuses [.nop { hx with set := 3 }, .blockStart] = true := by decide

/-- A scope that the entry does not permit, one term for each set of scopes. -/
theorem test_refuses_scopes : refuses
    [.shfl { hx with scope := .set } .sel .w32 16 (.lane 17) (.imm 0), .vote { hx with scope := .block } .mask false 16 7,
     .sbra hx .any 0, .smovCat { hx with scope := .set } 4 5 0, .satom { hx with scope := .set } addS 4 5 6, .bar hx .none .b,
     .wmovTol { hx with scope := .block } 17 64, .grow hx none 104, .band { hx with scope := .warp } .sync 0 0,
     .ring hx .none .b 6 4, .iadd { hx with scope := .warp } .i32 false 16 (.lane 17) (.reg 18)] = true := by decide

/-- A name of the wrong class (R42, R46), a class of operand a term. -/
theorem test_refuses_classes : refuses
    [.mov hx false 16 (.uni 70), .smovI hx 64 0, .scmp hx .eq false 79 4 (.imm 0), .wmovTol hx 17 80, .smov hx 4 96,
     .salu hx .add false 4 5 (.reg 97), .scmp hx .eq false 88 4 (.imm 0)] = true := by decide

/-- A pair or a quad that is not aligned (R43, R179, R206). -/
theorem test_refuses_alignment : refuses
    [.iadd hx .i64 false 17 (.lane 18) (.reg 20), .ld hx false .b128 .none .b .none 22 (.lane 18) 0, .call hx 21 0,
     .satom hx { addS with op := .cas, ty := .b32 } 6 4 5, .imadw hx false 16 (.lane 17) 18 21] = true := by decide

/-- Limits of integer, float and conversion words. -/
theorem test_refuses_limits_lane : refuses
    [.shl hx false 16 (.lane 17) (.imm 0x100), .bfx hx false 16 (.lane 17) (.imm 0 33), .fadd hx .sr false false 16 (.lane 17) (.reg 18),
     .hfma2 hx false false false false .sr 16 (.lane 17) 18 19, .cvtf hx .i32 .f32 .rne .launch 16 (.lane 17),
     .cvtf hx .f16 .b32 .rne .launch 16 (.lane 17), .cvtf hx .f16 .f32 .rne (.reg 20) 16 (.lane 17),
     .cvti hx .f32 .f32 .rz 16 (.lane 17), .cvti hx .i32 .f32 .sr 16 (.lane 17), .pack hx .f16 1 .rne .launch 16 (.lane 17) 18,
     .pack hx .i16 0 .sr .launch 16 (.lane 17) 18, .pack hx .f32 0 .rne .launch 16 (.lane 17) 18,
     .unpack hx .f16 2 16 (.lane 17) none, .unpack hx .f16 0 16 (.lane 17) (some 18), .qscale hx .f16 .rne .launch 16 (.lane 17) (some 18),
     .qscale hx .e4m3 .ru .launch 16 (.lane 17) none, .shfl hx .rev .w32 16 (.lane 17) (.imm 1), .vote hx .all false 8 7,
     .xred hx (.fadd .sr) 16 (.lane 17)] = true := by decide

/-- Limits of memory words. -/
theorem test_refuses_limits_memory : refuses
    [.ld hx false .b32 .acq .dv .none 16 (.lane 18) 0, .ld hx true .b32 .rel .dv .none 16 (.lane 18) 0, .ld hx true .b32 .none .dv .none 16 (.lane 18) 0,
     .ld hx false .b32 .none .b .none 16 (.lane 18) 4, .st hx true .b32 .acq .b .none 16 (.lane 18) 0, .st hx false .i8 .none .b .none 16 (.lane 18) 0,
     .st hx false .b32 .none .b .nl1 16 (.lane 18) 0, .lds hx false .b32 .none .b 16 (.lane 18) 4, .sts hx false .i16 .none .b 16 (.lane 18) 0,
     .atom hx { addS with ty := .b32 } 16 (.lane 18) 20, .atom hx { addS with msc := .dv } 16 (.lane 18) 20,
     .atom hx { addS with off := 4 } 16 (.lane 18) 20, .red hx { addS with sem := .acq } (.lane 18) 20,
     .red hx { addS with op := .cas, ty := .b32 } (.lane 18) 20, .fence hx .none .b, .waita hx .eq true false .dv 0 16 18 20,
     .sld hs false true false .acq .b 4 5 0x7FF00, .sst hs false true false .none .b 4 5 0x7FF00] = true := by decide

/-- Limits of uniform, engine and system words. -/
theorem test_refuses_limits_uniform : refuses
    [.salu hs .add false 4 5 (.imm 0x800), .salu hx .add true 4 5 (.imm 0), .scmp hs .eq false 80 4 (.imm 0x800), .smovI hs 4 0x800,
     .sbra hs .each 0x800, .twait hs .eq true .b 0 4 5 6 0x800, .twait hx .eq false .dv 0 4 5 6 0, .mwait hx false .dv 0 4 0 5, .grow hw none 100,
     .grow hw none 120, .grow hw none 0, .band hb .sync 4 0, .band hb (.red .and true) 4 5, .tcopy hx .none .dv .all 4 5 0,
     .ring hb .acq .dv 4 5, .tfill hx .acq .b 4 5 0, .nbdrain hx false .dv 4 5, .tstat hx .seq 4 17, .tstat hx .stage 4 1, .tstatClr hx 4 17,
     .mclaim hx true 4 17, .mrel hx false 4 5 0, .csrr hx 4 0x201, .csrr hx 4 6, .csrw hx 1 4, .csrw hx 0x120 4,
     .trav hx .none .dv 4 5] = true := by decide

/-! ### Results on fixed operands, by the spec's examples and rules -/

/-- v17 and v18 of every lane. -/
def with17 (f g : Nat → Nat) : State := st (warpIs (fun w =>
  { w with regs := ((List.range 32).map (fun l => (17 * 32 + l, BitVec.ofNat 32 (f l)))) ++ (List.range 32).map (fun l => (18 * 32 + l, BitVec.ofNat 32 (g l))) }) base)
/-- A lane register of warp 0 after a word. -/
def out (i : Instr) (s : State) (n : Name) (l : Nat) : Option Nat := match exec i s with
  | .next t => some ((warpD t bid 0).reg n l).toNat
  | _ => none
def outS (i : Instr) (s : State) (n : Name) : Option Nat := match exec i s with
  | .next t => some ((warpD t bid 0).sreg n).toNat
  | _ => none

/-- R101: an exact sum modulo 2^32, or clamped. -/
theorem test_iadd_wraps : out (.iadd hx .i32 false 16 (.lane 17) (.reg 18)) (with17 (fun _ => 0x7FFFFFFF) (fun _ => 1)) 16 3 = some 0x80000000 := by decide
theorem test_iadd_saturates : out (.iadd hx .i32 true 16 (.lane 17) (.reg 18)) (with17 (fun _ => 0x7FFFFFFF) (fun _ => 1)) 16 3 = some 0x7FFFFFFF := by decide
/-- R102: the three arms. -/
theorem test_idiv_zero : out (.idiv hx true 16 (.lane 17) (.reg 18)) (with17 (fun _ => 5) (fun _ => 0)) 16 0 = some 0xFFFFFFFF := by decide
theorem test_irem_sign : out (.irem hx false 16 (.lane 17) (.reg 18)) (with17 (fun _ => 0xFFFFFFF9) (fun _ => 2)) 16 0 = some 0xFFFFFFFF := by decide
theorem test_idiv_overflow : out (.idiv hx false 16 (.lane 17) (.reg 18)) (with17 (fun _ => 0x80000000) (fun _ => 0xFFFFFFFF)) 16 0 = some 0x80000000 := by decide
/-- R86: an exact zero sum of opposite signs is +0, and -0 under RD. -/
theorem test_fadd_zero : out (.fadd hx .rne false false 16 (.lane 17) (.reg 18)) (with17 (fun _ => 0x3F800000) (fun _ => 0xBF800000)) 16 0 = some 0 := by decide
theorem test_fadd_zero_down : out (.fadd hx .rd false false 16 (.lane 17) (.reg 18)) (with17 (fun _ => 0x3F800000) (fun _ => 0xBF800000)) 16 0 = some 0x80000000 := by decide
/-- R149's example: segments of 8, b = 3. -/
theorem test_shfl_ahead : out (.shfl hx (.ahead false) .w8 16 (.lane 17) (.imm 3)) (with17 id id) 16 6 = some 1 := by decide
theorem test_shfl_behind : out (.shfl hx (.behind false) .w8 16 (.lane 17) (.imm 3)) (with17 id id) 16 1 = some 6 := by decide
theorem test_shfl_edge : out (.shfl hx (.ahead true) .w8 16 (.lane 17) (.imm 3)) (with17 id id) 16 6 = some 6 := by decide
theorem test_shfl_rev : out (.shfl hx .rev .w8 16 (.lane 17) (.reg 0)) (with17 id id) 16 2 = some 5 := by decide
/-- R155's example, its last word. -/
theorem test_smov_cat : outS (.smovCat hx 1 1 0xBCDEF) (st (warpIs (fun w => { w with s := [(1, 0x123456789A)] }) base)) 1
    = some 0x0123456789ABCDEF := by decide
/-- R207's example: lanes 0, 1, 2 and 5 add 3, 5, 7 and 1 to a counter that holds 100. -/
theorem test_combined_adds :
    let f (acc : List Nat × Nat) (b : Nat) : List Nat × Nat := (acc.1 ++ [acc.2], atomNew .add .n32 acc.2 b 0)
    [3, 5, 7, 1].foldl f ([], 100) = ([100, 103, 108, 115], 116) := by decide

end Sys2Proof.Tests
end

section
/-!
PROOFS. Decoding as the table of R50: a word decodes to the instruction of its entry when no check of the table fails,
and to the subcode of the first check that fails otherwise; the words of O22 are settled by the checks that each fails.
-/
namespace Sys2Proof

/-- R50: checks 1 to 9 in their order, each as its subcode and whether the fields of the word fail it. -/
def Raw.checkTable (cx : DecCtx) (r : Raw) : List (BitVec 8 × Bool) :=
  let e := r.entry
  [(0x01, r.g && r.major = 0x23#6),
   (0x07, !r.x && (r.scope = 2#2 || e.xreq)),
   (0x0A, r.gp = 7#3 && r.gn && !cx.e1),
   (0x02, !(e.minor && e.instr.formOk cx)),
   (0x05, !(e.instr.scopes.contains (Scope.ofCode r.scope) && e.instr.bandOk cx)),
   (0x08, !(e.zero && e.instr.zeroOk cx)),
   (0x0B, !(e.types && (!cx.e1 || !e.instr.tapered))),
   (0x03, !(e.preds.all (fun n => n.toNat < 8) && e.instr.opnds.all Opnd.classOk)),
   (0x04, !(e.instr.opnds.all Opnd.alignOk))]

/-- The subcodes of the checks of a table that fail, in its order. -/
def failedOf (table : List (BitVec 8 × Bool)) : List (BitVec 8) :=
  (table.filter Prod.snd).map Prod.fst

/-- The subcodes of the checks of R50 that the word fails, in their order. -/
def Raw.failedChecks (cx : DecCtx) (r : Raw) : List (BitVec 8) := failedOf (r.checkTable cx)

/-- What a word of this entry decodes to when it fails the checks of a list. -/
def Entry.outcome (e : Entry) : List (BitVec 8) → Except (BitVec 8) Instr
  | [] => .ok e.instr
  | c :: _ => .error c

/-- A check that fails hides those after it; one that passes leaves the outcome to them. -/
theorem Entry.outcome_failedOf_cons (e : Entry) (c : BitVec 8) (fails : Bool) (table : List (BitVec 8 × Bool)) :
    e.outcome (failedOf ((c, fails) :: table)) = if fails then .error c else e.outcome (failedOf table) := by
  cases fails <;> rfl

/-- R50: decoding turns on the first failed check alone. -/
theorem decodeRaw_eq_outcome (cx : DecCtx) (r : Raw) : decodeRaw cx r = r.entry.outcome (r.failedChecks cx) := by
  simp only [Raw.failedChecks, Raw.checkTable, Entry.outcome_failedOf_cons]
  rfl

/-- A word that fails no check stands for the instruction of its entry. -/
theorem decode_eq_ok_of_failedChecks {cx : DecCtx} {iw ew : Word} {i : Instr}
    (hpass : (Raw.ofWords iw ew).failedChecks cx = []) (hi : (Raw.ofWords iw ew).entry.instr = i) :
    decode cx iw ew = .ok i := by
  rw [decode, decodeRaw_eq_outcome, hpass, Entry.outcome, hi]

/-- A word is refused with the subcode of the first check that it fails. -/
theorem decode_eq_error_of_failedChecks {cx : DecCtx} {iw ew : Word} {c : BitVec 8} (l : List (BitVec 8))
    (hfail : (Raw.ofWords iw ew).failedChecks cx = c :: l) : decode cx iw ew = .error c := by
  rw [decode, decodeRaw_eq_outcome, hfail, Entry.outcome]

/-- Settles O22: the four words that stand for an instruction fail no check of R50; of the eight that are refused, the
word of the reserved major also fails the check of its minor, which comes later, and each other fails one check alone. -/
theorem specWordsDecode : Obligations.SpecWordsDecode := by
  unfold Obligations.SpecWordsDecode
  refine ⟨?iadd, ?noExtension, ?movhi, ?scope, ?barAtWarp, ?csrr, ?reservedMajor, ?reservedMinor, ?unusedField,
    ?reservedName, ?oddName, ?reservedGuard⟩
  case iadd | movhi | barAtWarp | csrr => exact decode_eq_ok_of_failedChecks (by decide) rfl
  case reservedMajor => exact decode_eq_error_of_failedChecks [0x02] (by decide)
  case noExtension | scope | reservedMinor | unusedField | reservedName | oddName | reservedGuard =>
    exact decode_eq_error_of_failedChecks [] (by decide)

end Sys2Proof
end
